-- ==== Sys2Proof/Word.lean ====
section
/-! DEFINITION. The word types of the PPM-AH core: 20_memory.md R61 (a byte is 8 bits), 30_encoding.md R91 and R93 (the
fields of the command and the response word). -/

namespace Sys2Proof

/-- A byte of the compressed stream (R61). -/
abbrev Byte := BitVec 8

/-- A symbol: one byte value, 0 to 255 (00_scope.md, glossary). -/
abbrev Sym := BitVec 8

/-- The large field of a word: `v` of a command, `r` of a response (R91, R93). -/
abbrev Wide := BitVec 56

/-- A command or response word (R90). -/
abbrev Word72 := BitVec 72

end Sys2Proof
end

