-- ==== Sys2Proof/Syntax.lean ====
section
/-! DEFINITION. The command set as a type: one constructor for each row of 30_encoding.md R96, its operands as R94 reads
them from the word. -/

namespace Sys2Proof

/-- A direction (10_state.md R25): the operand of INIT and the configured direction. -/
inductive Dir where
  | enc
  | dec
  deriving DecidableEq, Repr

/-- A context selector (30_encoding.md R94): `HIST` or `WCTX`, written `H` and `W`. -/
inductive Sel where
  | hist
  | work
  deriving DecidableEq, Repr

/-- A page of GET_STATUS (30_encoding.md R94). -/
inductive Page where
  | status
  | maxOrder
  deriving DecidableEq, Repr

/-- One command (30_encoding.md R96). -/
inductive Instr where
  -- system, 47_system.md
  | init (d : Dir) (m : Wide)
  | getStatus (p : Page)
  -- bit reader, 40_bit_reader.md
  | brReadU (n : BitVec 8)
  | brReadS (n : BitVec 8)
  | brReadBit
  | brReadU8
  | brReadS8
  | brReadU16BE
  | brReadU16LE
  | brReadS16BE
  | brReadS16LE
  | brReadU32BE
  | brReadU32LE
  | brReadS32BE
  | brReadS32LE
  | brAlign
  | brCount
  | brSkip (k : Wide)
  | brReadByte
  | brMark (limit : Wide)
  | brReset
  | brIsAligned
  -- bit writer, 41_bit_writer.md
  | bwWriteBits (n : BitVec 8) (v : Wide)
  | bwWriteBit (v : Wide)
  | bwWrite8 (v : Wide)
  | bwWrite16BE (v : Wide)
  | bwWrite16LE (v : Wide)
  | bwWrite32BE (v : Wide)
  | bwWrite32LE (v : Wide)
  | bwPad
  | bwDiscard
  | bwFlush
  | bwPadFlush
  | bwClose
  | bwIsAligned
  -- context, 42_context.md
  | cxOrder (c : Sel)
  | cxDrop (c : Sel)
  | cxAppend (c : Sel) (sym : Sym)
  | cxGetAt (c : Sel) (i : Wide)
  | cxClone
  -- exclusion set, 43_exclusion_set.md
  | xsExclude (sym : Sym)
  | xsIsExcluded (sym : Sym)
  | xsClear
  | xsCount
  -- model and candidate list, 44_model.md
  | mdAdd (c : Sel) (sym : Sym)
  | mdGetList (c : Sel)
  | mdGetUniform
  | mdFindSym (sym : Sym)
  | mdFindEsc
  | mdFindEos
  | mdExcludeAll
  | mdIsEsc (idx : BitVec 9)
  | mdIsEos (idx : BitVec 9)
  | clLen
  | clGet (idx : BitVec 9)
  -- Huffman decision coder, 46_huffman.md
  | hfEncode (idx : BitVec 9)
  | hfDecode
  -- codec, 45_cascade.md
  | encPut (sym : Sym)
  | encClose
  | decGet
  | decClose
  deriving DecidableEq, Repr

end Sys2Proof
end

