-- ==== Sys2Proof/Decode.lean ====
section
/-! DEFINITION. The encoding of the commands (30_encoding.md): the fields of a word (R91), the nine formats with their masks
(R92), the opcode map and each command's direction (R96), the decoder (R92, R97) and the encoder. -/

namespace Sys2Proof

/-- `opc`, bits 71 to 64 (R91). -/
def opcOf (w : Word72) : BitVec 8 := w.extractLsb' 64 8

/-- `n`, bits 63 to 56 (R91). -/
def nOf (w : Word72) : BitVec 8 := w.extractLsb' 56 8

/-- `v`, bits 55 to 0 (R91). -/
def vOf (w : Word72) : Wide := w.extractLsb' 0 56

/-- A command word from its three fields (R91). -/
def mkWord (opc n : BitVec 8) (v : Wide) : Word72 := opc ++ n ++ v

/-- The nine formats (R92). -/
inductive Format where
  | Z | N | V | NV | S | C | CS | CV | I
  deriving DecidableEq, Repr

/-- The bits of `n` that a format reserves, as R92 writes its mask. -/
def Format.nMask : Format → BitVec 8
  | .Z | .V | .S | .I => 0xFF
  | .N | .NV => 0x00
  | .C | .CS | .CV => 0xFE

/-- The bits of `v` that a format reserves, as R92 writes its mask. -/
def Format.vMask : Format → Wide
  | .Z | .N | .C => 0xFFFFFFFFFFFFFF
  | .V | .NV | .CV => 0
  | .S | .CS => 0xFFFFFFFFFFFF00
  | .I => 0xFFFFFFFFFFFE00

/-- The mask of a format (R92): the opcode and the reserved bits. -/
def Format.mask (f : Format) : Word72 := mkWord 0xFF f.nMask f.vMask

/-- The format of each command (R96). -/
def Instr.format : Instr → Format
  | .init _ _ | .cxGetAt _ _ => .CV
  | .getStatus _ | .cxOrder _ | .cxDrop _ | .mdGetList _ => .C
  | .brReadU _ | .brReadS _ => .N
  | .brReadBit | .brReadU8 | .brReadS8 | .brReadU16BE | .brReadU16LE | .brReadS16BE | .brReadS16LE |
    .brReadU32BE | .brReadU32LE | .brReadS32BE | .brReadS32LE | .brAlign | .brCount | .brReadByte | .brReset |
    .brIsAligned | .bwPad | .bwDiscard | .bwFlush | .bwPadFlush | .bwClose | .bwIsAligned | .cxClone |
    .xsClear | .xsCount | .mdGetUniform | .mdFindEsc | .mdFindEos | .mdExcludeAll | .clLen | .hfDecode |
    .encClose | .decGet | .decClose => .Z
  | .brSkip _ | .brMark _ | .bwWriteBit _ | .bwWrite8 _ | .bwWrite16BE _ | .bwWrite16LE _ | .bwWrite32BE _ |
    .bwWrite32LE _ => .V
  | .bwWriteBits _ _ => .NV
  | .cxAppend _ _ | .mdAdd _ _ => .CS
  | .xsExclude _ | .xsIsExcluded _ | .mdFindSym _ | .encPut _ => .S
  | .mdIsEsc _ | .mdIsEos _ | .clGet _ | .hfEncode _ => .I

/-- The opcode of each command (R96). -/
def Instr.opcode : Instr → BitVec 8
  | .init _ _ => 0x01
  | .getStatus _ => 0x02
  | .brReadU _ => 0x10
  | .brReadS _ => 0x11
  | .brReadBit => 0x12
  | .brReadU8 => 0x13
  | .brReadS8 => 0x14
  | .brReadU16BE => 0x15
  | .brReadU16LE => 0x16
  | .brReadS16BE => 0x17
  | .brReadS16LE => 0x18
  | .brReadU32BE => 0x19
  | .brReadU32LE => 0x1A
  | .brReadS32BE => 0x1B
  | .brReadS32LE => 0x1C
  | .brAlign => 0x1D
  | .brCount => 0x1E
  | .brSkip _ => 0x1F
  | .brReadByte => 0x20
  | .brMark _ => 0x21
  | .brReset => 0x22
  | .brIsAligned => 0x23
  | .bwWriteBits _ _ => 0x30
  | .bwWriteBit _ => 0x31
  | .bwWrite8 _ => 0x32
  | .bwWrite16BE _ => 0x33
  | .bwWrite16LE _ => 0x34
  | .bwWrite32BE _ => 0x35
  | .bwWrite32LE _ => 0x36
  | .bwPad => 0x37
  | .bwDiscard => 0x38
  | .bwFlush => 0x39
  | .bwPadFlush => 0x3A
  | .bwClose => 0x3B
  | .bwIsAligned => 0x3C
  | .cxOrder _ => 0x40
  | .cxDrop _ => 0x41
  | .cxAppend _ _ => 0x42
  | .cxGetAt _ _ => 0x43
  | .cxClone => 0x44
  | .xsExclude _ => 0x50
  | .xsIsExcluded _ => 0x51
  | .xsClear => 0x52
  | .xsCount => 0x53
  | .mdAdd _ _ => 0x60
  | .mdGetList _ => 0x61
  | .mdGetUniform => 0x62
  | .mdFindSym _ => 0x63
  | .mdFindEsc => 0x64
  | .mdFindEos => 0x65
  | .mdExcludeAll => 0x66
  | .mdIsEsc _ => 0x67
  | .mdIsEos _ => 0x68
  | .clLen => 0x69
  | .clGet _ => 0x6A
  | .hfEncode _ => 0x70
  | .hfDecode => 0x71
  | .encPut _ => 0x80
  | .encClose => 0x81
  | .decGet => 0x82
  | .decClose => 0x83

/-- The direction a command needs (R96, R98): either one, or one only. -/
inductive DirNeed where
  | any
  | only (d : Dir)
  deriving DecidableEq, Repr

/-- A block configured as `d` has the unit the command belongs to (R98). -/
def DirNeed.allows : DirNeed → Dir → Bool
  | .any, _ => true
  | .only e, d => e == d

/-- The `dir` column of R96. -/
def Instr.dirNeed : Instr → DirNeed
  | .init _ _ | .getStatus _ | .cxOrder _ | .cxDrop _ | .cxAppend _ _ | .cxGetAt _ _ | .cxClone |
    .xsExclude _ | .xsIsExcluded _ | .xsClear | .xsCount | .mdAdd _ _ | .mdGetList _ | .mdGetUniform |
    .mdFindSym _ | .mdFindEsc | .mdFindEos | .mdExcludeAll | .mdIsEsc _ | .mdIsEos _ | .clLen | .clGet _ => .any
  | .brReadU _ | .brReadS _ | .brReadBit | .brReadU8 | .brReadS8 | .brReadU16BE | .brReadU16LE | .brReadS16BE |
    .brReadS16LE | .brReadU32BE | .brReadU32LE | .brReadS32BE | .brReadS32LE | .brAlign | .brCount |
    .brSkip _ | .brReadByte | .brMark _ | .brReset | .brIsAligned | .hfDecode | .decGet | .decClose => .only .dec
  | .bwWriteBits _ _ | .bwWriteBit _ | .bwWrite8 _ | .bwWrite16BE _ | .bwWrite16LE _ | .bwWrite32BE _ |
    .bwWrite32LE _ | .bwPad | .bwDiscard | .bwFlush | .bwPadFlush | .bwClose | .bwIsAligned | .hfEncode _ |
    .encPut _ | .encClose => .only .enc

/-- `n[0]` of INIT as a direction (R94): 0 is `ENC`, 1 is `DEC`. -/
def dirOf (w : Word72) : Dir := if (nOf w).getLsbD 0 then .dec else .enc

/-- `n[0]` as a context selector (R94): 0 is `HIST`, 1 is `WCTX`. -/
def selOf (w : Word72) : Sel := if (nOf w).getLsbD 0 then .work else .hist

/-- `n[0]` of GET_STATUS as a page (R94). -/
def pageOf (w : Word72) : Page := if (nOf w).getLsbD 0 then .maxOrder else .status

/-- `v[7:0]` as a symbol (R94). -/
def symOf (w : Word72) : Sym := (vOf w).extractLsb' 0 8

/-- `v[8:0]` as a candidate index (R94). -/
def idxOf (w : Word72) : BitVec 9 := (vOf w).extractLsb' 0 9

/-- The word matches a row of format `f` (R92): its reserved bits are 0. The opcode is matched by the caller. -/
def Format.matches (f : Format) (w : Word72) : Bool := (w &&& f.mask) == mkWord (opcOf w) 0 0

/-- The command, where the word's reserved bits are 0; no command where one of them is 1 (R92, R97). -/
def decodeAs (w : Word72) (i : Instr) : Option Instr := if i.format.matches w then some i else none

/-- The command a word stands for, `none` for an illegal word (R92, R96, R97). -/
def decode (w : Word72) : Option Instr :=
  match (opcOf w).toNat with
  | 0x01 => decodeAs w (.init (dirOf w) (vOf w))
  | 0x02 => decodeAs w (.getStatus (pageOf w))
  | 0x10 => decodeAs w (.brReadU (nOf w))
  | 0x11 => decodeAs w (.brReadS (nOf w))
  | 0x12 => decodeAs w .brReadBit
  | 0x13 => decodeAs w .brReadU8
  | 0x14 => decodeAs w .brReadS8
  | 0x15 => decodeAs w .brReadU16BE
  | 0x16 => decodeAs w .brReadU16LE
  | 0x17 => decodeAs w .brReadS16BE
  | 0x18 => decodeAs w .brReadS16LE
  | 0x19 => decodeAs w .brReadU32BE
  | 0x1A => decodeAs w .brReadU32LE
  | 0x1B => decodeAs w .brReadS32BE
  | 0x1C => decodeAs w .brReadS32LE
  | 0x1D => decodeAs w .brAlign
  | 0x1E => decodeAs w .brCount
  | 0x1F => decodeAs w (.brSkip (vOf w))
  | 0x20 => decodeAs w .brReadByte
  | 0x21 => decodeAs w (.brMark (vOf w))
  | 0x22 => decodeAs w .brReset
  | 0x23 => decodeAs w .brIsAligned
  | 0x30 => decodeAs w (.bwWriteBits (nOf w) (vOf w))
  | 0x31 => decodeAs w (.bwWriteBit (vOf w))
  | 0x32 => decodeAs w (.bwWrite8 (vOf w))
  | 0x33 => decodeAs w (.bwWrite16BE (vOf w))
  | 0x34 => decodeAs w (.bwWrite16LE (vOf w))
  | 0x35 => decodeAs w (.bwWrite32BE (vOf w))
  | 0x36 => decodeAs w (.bwWrite32LE (vOf w))
  | 0x37 => decodeAs w .bwPad
  | 0x38 => decodeAs w .bwDiscard
  | 0x39 => decodeAs w .bwFlush
  | 0x3A => decodeAs w .bwPadFlush
  | 0x3B => decodeAs w .bwClose
  | 0x3C => decodeAs w .bwIsAligned
  | 0x40 => decodeAs w (.cxOrder (selOf w))
  | 0x41 => decodeAs w (.cxDrop (selOf w))
  | 0x42 => decodeAs w (.cxAppend (selOf w) (symOf w))
  | 0x43 => decodeAs w (.cxGetAt (selOf w) (vOf w))
  | 0x44 => decodeAs w .cxClone
  | 0x50 => decodeAs w (.xsExclude (symOf w))
  | 0x51 => decodeAs w (.xsIsExcluded (symOf w))
  | 0x52 => decodeAs w .xsClear
  | 0x53 => decodeAs w .xsCount
  | 0x60 => decodeAs w (.mdAdd (selOf w) (symOf w))
  | 0x61 => decodeAs w (.mdGetList (selOf w))
  | 0x62 => decodeAs w .mdGetUniform
  | 0x63 => decodeAs w (.mdFindSym (symOf w))
  | 0x64 => decodeAs w .mdFindEsc
  | 0x65 => decodeAs w .mdFindEos
  | 0x66 => decodeAs w .mdExcludeAll
  | 0x67 => decodeAs w (.mdIsEsc (idxOf w))
  | 0x68 => decodeAs w (.mdIsEos (idxOf w))
  | 0x69 => decodeAs w .clLen
  | 0x6A => decodeAs w (.clGet (idxOf w))
  | 0x70 => decodeAs w (.hfEncode (idxOf w))
  | 0x71 => decodeAs w .hfDecode
  | 0x80 => decodeAs w (.encPut (symOf w))
  | 0x81 => decodeAs w .encClose
  | 0x82 => decodeAs w .decGet
  | 0x83 => decodeAs w .decClose
  | _ => none

/-- A direction as the field `n` (R94). -/
def dirField : Dir → BitVec 8
  | .enc => 0
  | .dec => 1

/-- A selector as the field `n` (R94). -/
def selField : Sel → BitVec 8
  | .hist => 0
  | .work => 1

/-- A page as the field `n` (R94). -/
def pageField : Page → BitVec 8
  | .status => 0
  | .maxOrder => 1

/-- A symbol as the field `v` (R94): the bits above it are 0. -/
def symField (s : Sym) : Wide := (0 : BitVec 48) ++ s

/-- A candidate index as the field `v` (R94): the bits above it are 0. -/
def idxField (idx : BitVec 9) : Wide := (0 : BitVec 47) ++ idx

/-- The field `n` of a command's word (R92, R94). -/
def Instr.nField : Instr → BitVec 8
  | .init d _ => dirField d
  | .getStatus p => pageField p
  | .brReadU n | .brReadS n | .bwWriteBits n _ => n
  | .cxOrder c | .cxDrop c | .cxAppend c _ | .cxGetAt c _ | .mdAdd c _ | .mdGetList c => selField c
  | .brReadBit | .brReadU8 | .brReadS8 | .brReadU16BE | .brReadU16LE | .brReadS16BE | .brReadS16LE |
    .brReadU32BE | .brReadU32LE | .brReadS32BE | .brReadS32LE | .brAlign | .brCount | .brSkip _ | .brReadByte |
    .brMark _ | .brReset | .brIsAligned | .bwWriteBit _ | .bwWrite8 _ | .bwWrite16BE _ | .bwWrite16LE _ |
    .bwWrite32BE _ | .bwWrite32LE _ | .bwPad | .bwDiscard | .bwFlush | .bwPadFlush | .bwClose | .bwIsAligned |
    .cxClone | .xsExclude _ | .xsIsExcluded _ | .xsClear | .xsCount | .mdGetUniform | .mdFindSym _ |
    .mdFindEsc | .mdFindEos | .mdExcludeAll | .mdIsEsc _ | .mdIsEos _ | .clLen | .clGet _ | .hfEncode _ |
    .hfDecode | .encPut _ | .encClose | .decGet | .decClose => 0

/-- The field `v` of a command's word (R92, R94). -/
def Instr.vField : Instr → Wide
  | .init _ m => m
  | .brSkip v | .brMark v | .bwWriteBits _ v | .bwWriteBit v | .bwWrite8 v => v
  | .bwWrite16BE v | .bwWrite16LE v | .bwWrite32BE v | .bwWrite32LE v | .cxGetAt _ v => v
  | .cxAppend _ s | .mdAdd _ s | .xsExclude s | .xsIsExcluded s | .mdFindSym s | .encPut s => symField s
  | .mdIsEsc idx | .mdIsEos idx | .clGet idx | .hfEncode idx => idxField idx
  | .getStatus _ | .brReadU _ | .brReadS _ | .brReadBit | .brReadU8 | .brReadS8 | .brReadU16BE | .brReadU16LE |
    .brReadS16BE | .brReadS16LE | .brReadU32BE | .brReadU32LE | .brReadS32BE | .brReadS32LE | .brAlign |
    .brCount | .brReadByte | .brReset | .brIsAligned | .bwPad | .bwDiscard | .bwFlush | .bwPadFlush |
    .bwClose | .bwIsAligned | .cxOrder _ | .cxDrop _ | .cxClone | .xsClear | .xsCount | .mdGetList _ |
    .mdGetUniform | .mdFindEsc | .mdFindEos | .mdExcludeAll | .clLen | .hfDecode | .encClose | .decGet |
    .decClose => 0

/-- The word of a command (R91, R92, R96). -/
def encode (i : Instr) : Word72 := mkWord i.opcode i.nField i.vField

/-- The command the decoder reads from a row of spec/opcode_table.json: a command is one 72-bit word, whose bits the table
numbers from its least significant; bits above `nbits` are 0, and a number of more than 72 bits is no command word
(R90; assumption log 22). -/
def decodeTableWord (nbits w : Nat) : Option Instr :=
  let x := w % 2 ^ nbits
  if x < 2 ^ 72 then decode (BitVec.ofNat 72 x) else none

end Sys2Proof
end

