-- ==== Sys2Proof/Config.lean ====
section
/-! DEFINITION. What an implementation fixes (00_scope.md R7), and the values the spec leaves open. An open value is an
opaque constant with no body: no proof can learn what it is. -/

namespace Sys2Proof

/-- The parameters of one block (00_scope.md R7): the largest maximum order it accepts, the size of its node pool,
the width of an occurrence count. State holds them, no command changes them (assumption log 2). -/
structure Params where
  /-- `ORDER_CAP`. -/
  orderCap : Nat
  /-- `NODE_CAP`. -/
  nodeCap : Nat
  /-- `COUNT_W`. -/
  countW : Nat
  deriving DecidableEq, Repr

/-- The ranges R7 gives the parameters. -/
abbrev Params.Legal (p : Params) : Prop :=
  p.orderCap < 2 ^ 56 ∧ 1 ≤ p.nodeCap ∧ 1 ≤ p.countW ∧ p.countW ≤ 48

/-- `MAXBITS`, the largest width of one bit read or write (R7). -/
def maxBits : Nat := 56

/-- `CL_CAP`, the largest candidate list (R7). -/
def clCap : Nat := 258

/-- FREE VALUE (assumption log 3): STATUS bits 6 to 3 where 10_state.md R23 leaves them unspecified. -/
opaque Config.freeFlags : Nat → BitVec 4

/-- FREE VALUE (assumption log 3): STATUS bit 2 before the first INIT (10_state.md R23). -/
opaque Config.freeDir : Nat → BitVec 1

/-- FREE VALUE (assumption log 4): page 1 of GET_STATUS before the first INIT (47_system.md R312). -/
opaque Config.freeMaxOrder : Nat → Wide

/-- FREE VALUE (assumption log 5): the root's `sym`, which 10_state.md R36 leaves unspecified and no rule reads. -/
opaque Config.rootSym : Sym

/-- FREE VALUE (assumption log 6): the result of MD_ADD when NALLOC does not fit the 56 bits of `r`. -/
opaque Config.freeAllocCount : Nat → Wide

end Sys2Proof
end

