-- ==== Sys2Proof/Machine/State.lean ====
section
/-! DEFINITION. The state of the PPM-AH core (10_state.md), its responses (30_encoding.md R93, 60_exceptions.md R321), and the
state after hardware reset (10_state.md R44). -/

namespace Sys2Proof.Machine

/-- `PHASE` (10_state.md R24). -/
inductive Phase where
  /-- After hardware reset, before any INIT. -/
  | unconf
  /-- Configured and usable. -/
  | ready
  /-- The stream was closed. -/
  | closed
  /-- A fault was taken. -/
  | faulted
  deriving DecidableEq, Repr

/-- The seven faults of the block (60_exceptions.md R321, R323). They are responses of the block and a change of phase,
not stops of the model. -/
inductive FaultKind where
  /-- `F_OUT_OF_RANGE`: an operand is outside its legal range. -/
  | outOfRange
  /-- `F_ILLEGAL_STATE`: the operation is not allowed in the unit's present state. -/
  | illegalState
  /-- `F_PROTOCOL`: the cascade reached a state the protocol forbids. -/
  | protocol
  /-- `F_TRUNCATED`: the source ran out inside a Huffman decision. -/
  | truncated
  /-- `F_ILLEGAL_CMD`: the word is no command, or a command of the other direction. -/
  | illegalCmd
  /-- `F_NODE_POOL_FULL`: the trie needs a node and the pool is full. -/
  | nodePoolFull
  /-- `F_COUNT_OVERFLOW`: a count at its maximum was to be incremented. -/
  | countOverflow
  deriving DecidableEq, Repr

/-- The `st` field of a response (60_exceptions.md R320, R321). -/
inductive Status where
  /-- `OK`. -/
  | ok
  /-- `END_OF_DATA`. -/
  | endOfData
  /-- `END_OF_STREAM`. -/
  | endOfStream
  /-- `NOT_FOUND`. -/
  | notFound
  /-- `REFUSED_UNCONF`. -/
  | refusedUnconf
  /-- `REFUSED_CLOSED`. -/
  | refusedClosed
  /-- `REFUSED_FAULTED`. -/
  | refusedFaulted
  /-- `BAD_CONFIG`. -/
  | badConfig
  /-- One of the seven fault codes. -/
  | fault (f : FaultKind)
  deriving DecidableEq, Repr

/-- A response: the three fields of the response word (30_encoding.md R93). -/
structure Response where
  st : Status
  cnt : BitVec 8
  r : Wide
  deriving DecidableEq, Repr

/-- An event of the byte sink (10_state.md R43). -/
inductive SinkEvent where
  | byte (b : Byte)
  | flush
  | close
  deriving DecidableEq, Repr

/-- A node of the trie (10_state.md R35). `NIL` is `none`. -/
structure Node where
  sym : Sym
  count : Nat
  parent : Option Nat
  next : Option Nat
  child : Option Nat
  deriving DecidableEq, Repr

/-- An entry of the candidate list (10_state.md R39): its kind, and for a symbol candidate its symbol and the trie node
it wraps (`none` at the uniform level). -/
inductive Cand where
  | sym (s : Sym) (node : Option Nat)
  | esc
  | eos
  deriving DecidableEq, Repr

/-- The mark snapshot (10_state.md R30): `MSPOS`, `MRBUF`, `MLIMIT`. -/
structure Mark where
  spos : Nat
  rbuf : List Bool
  limit : Wide
  deriving DecidableEq, Repr

/-- What the host can do to the block between two commands (00_scope.md R3, R6; assumption logs 7, 8, 19). -/
inductive HostInput where
  /-- Present a command word on the command port (30_encoding.md R90). -/
  | command (w : Word72)
  /-- Assert hardware reset (60_exceptions.md R340, 70_reset_and_hazards.md R360). -/
  | hwReset
  /-- Present the byte source of the next stream (47_system.md R310; it is that of the run the next INIT starts). -/
  | source (bytes : List Byte)
  deriving DecidableEq, Repr

/-- The state of the block, and of the host's side of its boundary. A comment at each field names the spec's element. -/
structure State where
  /-- The implementation parameters (00_scope.md R7): the model's own field, which no command changes. -/
  par : Params
  /-- `PHASE` (R24). -/
  phase : Phase
  /-- `CFG.DIR` (R25). -/
  dir : Dir
  /-- `CFG.MAXORDER` (R25). -/
  maxOrder : Wide
  /-- `FCODE` (R26). -/
  fcode : BitVec 8
  /-- `FCMD` (R26). -/
  fcmd : BitVec 8
  /-- `EOS_SEEN` (R22). -/
  eosSeen : Bool
  /-- `WBUF`, oldest first; `WCNT` is its length (R27). -/
  wbuf : List Bool
  /-- `RBUF`, next bit first; `RCNT` is its length (R28). -/
  rbuf : List Bool
  /-- `SPOS` (R29). -/
  spos : Nat
  /-- The mark snapshot; `MVALID` is 1 when one is held (R30). -/
  mark : Option Mark
  /-- `HIST`, oldest first; `HLEN` is its length (R32). -/
  hist : List Sym
  /-- `WCTX`, oldest first; `WLEN` is its length (R33). -/
  wctx : List Sym
  /-- `XBITS` (R34). -/
  xbits : BitVec 256
  /-- `XCOUNT` (R34). -/
  xcount : Nat
  /-- `NODE[0 .. NALLOC-1]`; `NALLOC` is its length (R35, R36). -/
  nodes : List Node
  /-- `CL[0 .. CLLEN-1]`; `CLLEN` is its length (R39). -/
  cl : List Cand
  /-- `CLNULL` (R40). -/
  clnull : Bool
  /-- `SRC`, the host's byte source: that of the current run, fixed for the run (R42, 20_memory.md R62). -/
  src : List Byte
  /-- The source the host presents for the next stream (47_system.md R310; assumption log 8): `SRC` of the run the next
  INIT starts. -/
  nextSrc : List Byte
  /-- `SNK`, the host's byte sink, oldest event first (R43). -/
  snk : List SinkEvent
  /-- The responses given, oldest first (30_encoding.md R90, R93). -/
  rsps : List Response
  /-- What the host will do next, first input first. -/
  host : List HostInput
  /-- The counter free values are drawn with: the model's own field. -/
  free : Nat
  deriving DecidableEq, Repr

/-- Why the model stops (a closed list, and empty): no command and no input of the host stops it. A fault of the block
(`FaultKind`) is a response and a change of phase, which the model takes. -/
inductive Fault where
  deriving DecidableEq, Repr

/-- Why an instruction has no meaning (a closed list). -/
inductive Refusal where
  /-- Raised by `exec` for an instruction that has no meaning yet. No arm raises it: every command has its meaning. Safe. -/
  | notModelled (mnemonic : String)
  deriving DecidableEq, Repr

/-- The root of an empty trie (10_state.md R36): count 0, no links. Its symbol is a free value. -/
def rootNode : Node where
  sym := Config.rootSym
  count := 0
  parent := none
  next := none
  child := none

/-- The state right after hardware reset, of a block with parameters `p`, source `src`, nothing sent and nothing
answered. 10_state.md R44 gives `PHASE`, `FCODE` and `FCMD`; the other values are the model's (assumption log 1). -/
def State.resetWith (p : Params) (src : List Byte) : State where
  par := p
  phase := .unconf
  dir := .enc
  maxOrder := 0
  fcode := 0
  fcmd := 0
  eosSeen := false
  wbuf := []
  rbuf := []
  spos := 0
  mark := none
  hist := []
  wctx := []
  xbits := 0
  xcount := 0
  nodes := [rootNode]
  cl := []
  clnull := false
  src := src
  nextSrc := src
  snk := []
  rsps := []
  host := []
  free := 0

/-- The parameters at reset: R7's default `COUNT_W`, and the largest `ORDER_CAP` and `NODE_CAP` whose numbers fit a
response (DESIGN CHOICE, assumption log 2). -/
def Params.default : Params where
  orderCap := 2 ^ 56 - 1
  nodeCap := 2 ^ 56 - 1
  countW := 32

/-- The state right after hardware reset (10_state.md R44), before the host has done anything. -/
def State.reset : State := State.resetWith Params.default []

end Sys2Proof.Machine
end

