-- ==== Sys2Proof/Machine/Ops.lean ====
section
/-! DEFINITION. The operations every command is made of: the stream primitives (20_memory.md), the readers' and the writers'
internal functions (40_bit_reader.md, 41_bit_writer.md), the context's and the exclusion set's (42_context.md,
43_exclusion_set.md), answering a command, taking a fault and leaving one (60_exceptions.md, 47_system.md). -/

namespace Sys2Proof.Machine

/-! ## Outcomes of an internal function -/

/-- What an internal function that can `raise` a fault (00_scope.md R11) comes to: done with a result, or stopped at
`raise f` with what it had changed so far (60_exceptions.md R331). -/
inductive Res (σ α : Type) where
  | done (a : α) (s : σ)
  | raise (f : FaultKind) (s : σ)
  deriving DecidableEq, Repr

/-- Go on after an internal function, unless it raised a fault. -/
def Res.andThen {σ α β : Type} (x : Res σ α) (k : α → σ → Res σ β) : Res σ β :=
  match x with
  | .done a s => k a s
  | .raise f s => .raise f s

/-- An internal function of one unit, seen as one of the whole block. -/
def Res.lift {σ τ α : Type} (x : Res σ α) (put : σ → τ) : Res τ α :=
  match x with
  | .done a s => .done a (put s)
  | .raise f s => .raise f (put s)

/-! ## Bits and bytes -/

/-- A sequence of bits as a number, the first bit most significant (20_memory.md R64). -/
def bitsVal (bs : List Bool) : Nat := bs.foldl (fun x b => 2 * x + b.toNat) 0

/-- The low `k` bits of `x`, most significant first (20_memory.md R64). -/
def msbBits (x : Nat) : Nat → List Bool
  | 0 => []
  | k + 1 => x.testBit k :: msbBits x k

/-- The eight bits of a byte in stream order: bit 7 first (20_memory.md R64). -/
def byteBits (b : Byte) : List Bool := msbBits b.toNat 8

/-- Eight stream bits as a byte, the first in bit 7 (20_memory.md R64). -/
def bitsByte (bs : List Bool) : Byte := BitVec.ofNat 8 (bitsVal bs)

/-! ## The byte source and the bit reader -/

/-- `SrcRead(i)` (20_memory.md R62): the byte at index `i`, or `none` for `EOF`. -/
def srcRead (src : List Byte) (i : Nat) : Option Byte := src[i]?

/-- The reader's position: `RBUF` and `SPOS` (10_state.md R28, R29). -/
structure Reader where
  rbuf : List Bool
  spos : Nat
  deriving DecidableEq, Repr

/-- The loop of `Fill(k)` (40_bit_reader.md R121) over `rest`, the bytes from `SPOS` on: a byte is pulled only while
fewer than `k` bits are buffered. -/
def fillFrom (k : Nat) : List Byte → Reader → Reader
  | [], r => r
  | b :: rest, r =>
    if r.rbuf.length < k then fillFrom k rest ⟨r.rbuf ++ byteBits b, r.spos + 1⟩ else r

/-- `Fill(k)` (40_bit_reader.md R121). -/
def Reader.fill (src : List Byte) (k : Nat) (r : Reader) : Reader := fillFrom k (src.drop r.spos) r

/-- The number `Take(k)` returns (40_bit_reader.md R122). -/
def Reader.takeVal (k : Nat) (r : Reader) : Nat := bitsVal (r.rbuf.take k)

/-- The reader after `Take(k)` (40_bit_reader.md R122). -/
def Reader.drop (k : Nat) (r : Reader) : Reader := ⟨r.rbuf.drop k, r.spos⟩

/-- The loop of BR_SKIP (40_bit_reader.md R139): `want` bits are still to be skipped, `done` have been. Each turn empties
the buffer or ends, and each turn but the first pulls a byte, so `turns` bounds nothing the loop could reach
(assumption log 17). -/
def skipLoop (src : List Byte) : (turns want done : Nat) → Reader → Nat × Reader
  | 0, _, done, r => (done, r)
  | turns + 1, want, done, r =>
    if want = 0 then (done, r) else
      let r := r.fill src 1
      if r.rbuf.length = 0 then (done, r) else
        let t := min want r.rbuf.length
        skipLoop src turns (want - t) (done + t) (r.drop t)

/-- BR_SKIP's loop from its start (40_bit_reader.md R139): how many bits were skipped, and the reader after it. -/
def Reader.skip (src : List Byte) (k : Nat) (r : Reader) : Nat × Reader :=
  skipLoop src (src.length - r.spos + 2) k 0 r

/-- The reader of a block. -/
def State.reader (s : State) : Reader := ⟨s.rbuf, s.spos⟩

/-- Move the reader. -/
def State.setReader (s : State) (r : Reader) : State := { s with rbuf := r.rbuf, spos := r.spos }

/-- `Fill(k)` on the block (40_bit_reader.md R121). -/
def State.fill (s : State) (k : Nat) : State := s.setReader (s.reader.fill s.src k)

/-- `Take(k)` on the block, without its result (40_bit_reader.md R122). -/
def State.consume (s : State) (k : Nat) : State := s.setReader (s.reader.drop k)

/-- BR_MARK's snapshot (40_bit_reader.md R141). -/
def State.setMark (s : State) (limit : Wide) : State := { s with mark := some ⟨s.spos, s.rbuf, limit⟩ }

/-- `EOS_SEEN <- 1` (45_cascade.md R269). -/
def State.setEosSeen (s : State) : State := { s with eosSeen := true }

/-! ## The byte sink and the bit writer -/

/-- The writer and the sink it pushes to: `WBUF` and `SNK` (10_state.md R27, R43). -/
structure Writer where
  buf : List Bool
  snk : List SinkEvent
  deriving DecidableEq, Repr

/-- `SnkPush(b)` (20_memory.md R63). -/
def snkPush (b : Byte) (snk : List SinkEvent) : List SinkEvent := snk ++ [.byte b]

/-- `SnkFlush()` (20_memory.md R63). -/
def snkFlush (snk : List SinkEvent) : List SinkEvent := snk ++ [.flush]

/-- `SnkClose()` (20_memory.md R63). -/
def snkClose (snk : List SinkEvent) : List SinkEvent := snk ++ [.close]

/-- `PutBit(b)` (41_bit_writer.md R161). -/
def Writer.putBit (w : Writer) (b : Bool) : Writer :=
  let buf := w.buf ++ [b]
  if buf.length = 8 then ⟨[], snkPush (bitsByte buf) w.snk⟩ else ⟨buf, w.snk⟩

/-- `PutBit` for each bit of a sequence, in order. -/
def Writer.putAll (w : Writer) (bs : List Bool) : Writer := bs.foldl Writer.putBit w

/-- `PutBits(x, k)` (41_bit_writer.md R162). -/
def Writer.putBits (w : Writer) (x k : Nat) : Writer := w.putAll (msbBits x k)

/-- How many bits `PadZero()` writes (41_bit_writer.md R162). -/
def Writer.padLen (w : Writer) : Nat := (8 - w.buf.length) % 8

/-- `PadZero()` (41_bit_writer.md R162). -/
def Writer.padZero (w : Writer) : Writer := w.putAll (List.replicate w.padLen false)

/-- The writer of a block. -/
def State.writer (s : State) : Writer := ⟨s.wbuf, s.snk⟩

/-- Move the writer and the sink. -/
def State.setWriter (s : State) (w : Writer) : State := { s with wbuf := w.buf, snk := w.snk }

/-- `PutBit` on the block for each bit of a sequence. -/
def State.put (s : State) (bs : List Bool) : State := s.setWriter (s.writer.putAll bs)

/-- `PutBits(x, k)` on the block. -/
def State.putBits (s : State) (x k : Nat) : State := s.setWriter (s.writer.putBits x k)

/-- `PadZero()` on the block. -/
def State.padZero (s : State) : State := s.setWriter s.writer.padZero

/-- `WBUF <- []` (41_bit_writer.md R177). -/
def State.discard (s : State) : State := s.setWriter ⟨[], s.snk⟩

/-- `SnkFlush()` on the block. -/
def State.sinkFlush (s : State) : State := s.setWriter ⟨s.wbuf, snkFlush s.snk⟩

/-- `SnkClose()` on the block. -/
def State.sinkClose (s : State) : State := s.setWriter ⟨s.wbuf, snkClose s.snk⟩

/-! ## Contexts -/

/-- `CtxAppend(X, s)` with capacity `cap` (42_context.md R190). -/
def ctxAppend (cap : Nat) (X : List Sym) (sym : Sym) : List Sym :=
  if cap = 0 then X else (if X.length = cap then X.drop 1 else X) ++ [sym]

/-- `CtxDrop(X)` of a context that is not empty (42_context.md R191). -/
def ctxDrop (X : List Sym) : List Sym := X.drop 1

/-- `HIST <- X`. -/
def State.setHist (s : State) (X : List Sym) : State := { s with hist := X }

/-- `WCTX <- X`. -/
def State.setWctx (s : State) (X : List Sym) : State := { s with wctx := X }

/-! ## The exclusion set -/

/-- The exclusion set: `XBITS` and `XCOUNT` (10_state.md R34). -/
structure XSet where
  bits : BitVec 256
  count : Nat
  deriving DecidableEq, Repr

/-- `XsIsExcluded(s)` (43_exclusion_set.md R210). -/
def XSet.has (x : XSet) (sym : Sym) : Bool := x.bits.getLsbD sym.toNat

/-- `XsExclude(s)` (43_exclusion_set.md R210). -/
def XSet.exclude (x : XSet) (sym : Sym) : XSet :=
  if x.has sym then x else ⟨x.bits ||| BitVec.twoPow 256 sym.toNat, x.count + 1⟩

/-- `XsClear()` (43_exclusion_set.md R210). -/
def XSet.clear (x : XSet) : XSet := if x.count ≠ 0 then ⟨0, 0⟩ else x

/-- `XsExclude` for each symbol candidate of a list: `ExcludeAll()` (44_model.md R232). -/
def XSet.excludeCands (x : XSet) : List Cand → XSet
  | [] => x
  | .sym sym _ :: rest => (x.exclude sym).excludeCands rest
  | .esc :: rest => x.excludeCands rest
  | .eos :: rest => x.excludeCands rest

/-- The exclusion set of a block. -/
def State.xset (s : State) : XSet := ⟨s.xbits, s.xcount⟩

/-- Replace the exclusion set. -/
def State.setXset (s : State) (x : XSet) : State := { s with xbits := x.bits, xcount := x.count }

/-! ## The model's storage and the candidate list -/

/-- Replace the node pool. -/
def State.setNodes (s : State) (ns : List Node) : State := { s with nodes := ns }

/-- Replace the candidate list; the flag `CLNULL` goes with it (10_state.md R40). -/
def State.setList (s : State) (l : List Cand) (isNull : Bool) : State := { s with cl := l, clnull := isNull }

/-! ## Phases, answers and faults -/

/-- `PHASE <- p` (60_exceptions.md R340). -/
def State.setPhase (s : State) (p : Phase) : State := { s with phase := p }

/-- Draw a free value: the next one is another. -/
def State.drawFree (s : State) : State := { s with free := s.free + 1 }

/-- Give the command its response (60_exceptions.md R320). -/
def State.respond (s : State) (rsp : Response) : State := { s with rsps := s.rsps ++ [rsp] }

/-- The code of a fault (60_exceptions.md R321). -/
def FaultKind.code : FaultKind → BitVec 8
  | .outOfRange => 0x81
  | .illegalState => 0x82
  | .protocol => 0x83
  | .truncated => 0x84
  | .illegalCmd => 0x85
  | .nodePoolFull => 0x86
  | .countOverflow => 0x87

/-- The code of a status (60_exceptions.md R321). -/
def Status.code : Status → BitVec 8
  | .ok => 0x00
  | .endOfData => 0x01
  | .endOfStream => 0x02
  | .notFound => 0x03
  | .refusedUnconf => 0x40
  | .refusedClosed => 0x41
  | .refusedFaulted => 0x42
  | .badConfig => 0x43
  | .fault f => f.code

/-- The response word (30_encoding.md R93). -/
def Response.word (rsp : Response) : Word72 := rsp.st.code ++ rsp.cnt ++ rsp.r

/-- `OK(cnt, r)` (00_scope.md R12), the counts given as numbers. -/
def okRsp (cnt : Nat) (r : Wide) : Response := ⟨.ok, BitVec.ofNat 8 cnt, r⟩

/-- TAKING A FAULT (60_exceptions.md R330): latch the code and the opcode, go to `FAULTED`, answer `(code, 0, 0)`.
The command's earlier changes stay (R331). -/
def State.takeFault (s : State) (f : FaultKind) (opc : BitVec 8) : State :=
  { s with fcode := f.code, fcmd := opc, phase := .faulted, rsps := s.rsps ++ [⟨.fault f, 0, 0⟩] }

/-- The status of a refusal in a phase (60_exceptions.md R341). In `READY` no word is refused. -/
def Phase.refusal : Phase → Option Status
  | .unconf => some .refusedUnconf
  | .closed => some .refusedClosed
  | .faulted => some .refusedFaulted
  | .ready => none

/-- How a command that was executed ends: with its response, or with the fault it raised (60_exceptions.md R330). -/
def Res.finish (x : Res State Response) (opc : BitVec 8) : State :=
  match x with
  | .done rsp s => s.respond rsp
  | .raise f s => s.takeFault f opc

/-- The checks before a command other than INIT and GET_STATUS, in the order of 60_exceptions.md R345 (steps 2 and 4;
step 3 is the decoder's), and then its pseudocode. -/
def command (i : Instr) (s : State) (body : State → Res State Response) : Host.Outcome State Fault Refusal :=
  match s.phase.refusal with
  | some st => .next (s.respond ⟨st, 0, 0⟩)
  | none =>
    if i.dirNeed.allows s.dir then .next ((body s).finish i.opcode)
    else .next (s.takeFault .illegalCmd i.opcode)

/-- An illegal word (30_encoding.md R97): refused outside `READY` (60_exceptions.md R341), a fault in it (R345 step 3). -/
def illegalWord (opc : BitVec 8) (s : State) : Host.Outcome State Fault Refusal :=
  match s.phase.refusal with
  | some st => .next (s.respond ⟨st, 0, 0⟩)
  | none => .next (s.takeFault .illegalCmd opc)

/-- LEAVING A FAULT, and starting a stream: the state after INIT (10_state.md R45), which is the only way out of `FAULTED`
but hardware reset (60_exceptions.md R333). The reader of the new stream reads the source the host presents for it, from its
start (47_system.md R310). The sink and the model's own fields stay. -/
def State.initialise (s : State) (d : Dir) (m : Wide) : State :=
  { s with
    phase := .ready, dir := d, maxOrder := m, fcode := 0, fcmd := 0, eosSeen := false
    wbuf := [], rbuf := [], spos := 0, mark := none
    hist := [], wctx := [], xbits := 0, xcount := 0, nodes := [rootNode], cl := [], clnull := false
    src := s.nextSrc }

/-- Hardware reset (10_state.md R44, 70_reset_and_hazards.md R360): the block's elements take their reset values; the
source, the sink and what the host holds are not touched (assumption logs 1, 19). -/
def State.hardwareReset (s : State) : State :=
  { State.resetWith s.par s.src with
    nextSrc := s.nextSrc, snk := s.snk, rsps := s.rsps, host := s.host, free := s.free }

/-- Present the source of the next stream, in any phase (47_system.md R310, 70_reset_and_hazards.md R362, R379): the run under
way keeps its own (20_memory.md R62), and the next INIT takes this one (assumption log 8). -/
def State.presentSource (s : State) (bytes : List Byte) : State := { s with nextSrc := bytes }

/-- The host's next input, and the state with that input taken (00_scope.md R3). -/
def State.takeInput (s : State) : Option (HostInput × State) :=
  match s.host with
  | [] => none
  | h :: rest => some (h, { s with host := rest })

end Sys2Proof.Machine
end

