-- ==== Sys2Proof/Machine/Operands.lean ====
section
/-! DEFINITION. How operands are read and results written (30_encoding.md R93, R94): extension to the 56 bits of `r`, byte
swaps, the context a selector names, the candidate an index names. -/

namespace Sys2Proof.Machine

/-- `zext_56` of a number (00_scope.md R9, 30_encoding.md R94). -/
def zext56 (x : Nat) : Wide := BitVec.ofNat 56 x

/-- `sext_56` of a number of width `n` (00_scope.md R9, 40_bit_reader.md R125). Width 0 gives 0. -/
def sext56 (n x : Nat) : Wide := (BitVec.ofNat n x).signExtend 56

/-- `swap16` (40_bit_reader.md, section 3). -/
def swap16 (x : Nat) : Nat :=
  let b : BitVec 16 := BitVec.ofNat 16 x
  (b.extractLsb' 0 8 ++ b.extractLsb' 8 8).toNat

/-- `swap32` (40_bit_reader.md, section 3). -/
def swap32 (x : Nat) : Nat :=
  let b : BitVec 32 := BitVec.ofNat 32 x
  (b.extractLsb' 0 8 ++ b.extractLsb' 8 8 ++ b.extractLsb' 16 8 ++ b.extractLsb' 24 8).toNat

/-- A flag result: 1 or 0 (30_encoding.md R94). -/
def flag56 (b : Bool) : Wide := if b then 1 else 0

/-- `ctx(c)` (42_context.md): the context a selector names. -/
def State.ctx (s : State) : Sel → List Sym
  | .hist => s.hist
  | .work => s.wctx

/-- `ctx(c) <- X`. -/
def State.setCtx (s : State) (c : Sel) (X : List Sym) : State :=
  match c with
  | .hist => s.setHist X
  | .work => s.setWctx X

/-- The capacity of both contexts (42_context.md). -/
def State.cap (s : State) : Nat := s.maxOrder.toNat

/-- The code of a candidate's kind (10_state.md R39). -/
def Cand.kind : Cand → Nat
  | .sym _ _ => 0
  | .esc => 1
  | .eos => 2

/-- The `sym` field of a candidate: 0 for a sentinel (10_state.md R39). -/
def Cand.symField : Cand → Sym
  | .sym t _ => t
  | .esc => 0
  | .eos => 0

/-- `CL[idx]`, or `none` where `idx >= CLLEN` (30_encoding.md R94). -/
def State.cand (s : State) (idx : Nat) : Option Cand := s.cl[idx]?

/-- The result of CL_GET (44_model.md R237): `zext_48(weight) ++ sym`. -/
def candResult (weight : Nat) (sym : Sym) : Wide := BitVec.ofNat 48 weight ++ sym

/-- The result of MD_ADD (44_model.md R223): NALLOC, and a free value where it does not fit `r` (assumption log 6). -/
def allocResult (nalloc : Nat) : Wide :=
  if nalloc < 2 ^ 56 then zext56 nalloc else Config.freeAllocCount nalloc

end Sys2Proof.Machine
end

