-- ==== Sys2Proof/Machine/Flags.lean ====
section
/-! DEFINITION. The flags of the block and the STATUS view (10_state.md R22, R23). -/

namespace Sys2Proof.Machine

/-- `WCNT` (10_state.md R27). -/
def State.wcnt (s : State) : Nat := s.wbuf.length

/-- `RCNT` (10_state.md R28). -/
def State.rcnt (s : State) : Nat := s.rbuf.length

/-- `CLLEN` (10_state.md R39). -/
def State.cllen (s : State) : Nat := s.cl.length

/-- `NALLOC` (10_state.md R35). -/
def State.nalloc (s : State) : Nat := s.nodes.length

/-- The writer is at a byte boundary: `WCNT = 0` (10_state.md R22, 41_bit_writer.md R181). -/
def State.writerAligned (s : State) : Bool := s.wcnt == 0

/-- The reader is at a byte boundary: `RCNT mod 8 = 0` (10_state.md R22, 40_bit_reader.md R143). -/
def State.readerAligned (s : State) : Bool := s.rcnt % 8 == 0

/-- `ALIGNED` (10_state.md R22). -/
def State.aligned (s : State) : Bool :=
  match s.dir with
  | .enc => s.writerAligned
  | .dec => s.readerAligned

/-- `MVALID` (10_state.md R22, R30). -/
def State.mvalid (s : State) : Bool := s.mark.isSome

/-- The code of a phase (10_state.md R23). -/
def Phase.code : Phase → BitVec 2
  | .unconf => 0
  | .ready => 1
  | .closed => 2
  | .faulted => 3

/-- The code of a direction (10_state.md R25). -/
def dirCode : Dir → BitVec 1
  | .enc => 0
  | .dec => 1

/-- STATUS bits 6 to 3: `CLNULL`, `MVALID`, `ALIGNED`, `EOS_SEEN` (10_state.md R23). -/
def State.flagBits (s : State) : BitVec 4 :=
  BitVec.ofBool s.clnull ++ BitVec.ofBool s.mvalid ++ BitVec.ofBool s.aligned ++ BitVec.ofBool s.eosSeen

/-- STATUS bits 6 to 3 as read: a free value in `UNCONF` and in `FAULTED` (10_state.md R23; assumption log 3). -/
def State.statusFlags (s : State) : BitVec 4 :=
  match s.phase with
  | .unconf => Config.freeFlags s.free
  | .faulted => Config.freeFlags s.free
  | .ready => s.flagBits
  | .closed => s.flagBits

/-- STATUS bit 2 as read: a free value in `UNCONF` (10_state.md R23; assumption log 3). -/
def State.statusDir (s : State) : BitVec 1 :=
  match s.phase with
  | .unconf => Config.freeDir s.free
  | .ready => dirCode s.dir
  | .closed => dirCode s.dir
  | .faulted => dirCode s.dir

/-- The status register STATUS (10_state.md R23): the reserved bits read 0. -/
def State.statusWord (s : State) : Wide :=
  (0 : BitVec 32) ++ s.fcmd ++ s.fcode ++ (0 : BitVec 1) ++ s.statusFlags ++ s.statusDir ++ s.phase.code

/-- `CFG.MAXORDER` as GET_STATUS reads it: a free value before the first INIT (47_system.md R312; assumption log 4). -/
def State.maxOrderPage (s : State) : Wide :=
  match s.phase with
  | .unconf => Config.freeMaxOrder s.free
  | .ready => s.maxOrder
  | .closed => s.maxOrder
  | .faulted => s.maxOrder

end Sys2Proof.Machine
end

