-- ==== Sys2Proof/Machine/BitReader.lean ====
section
/-! DEFINITION. The bit reader's commands (40_bit_reader.md). -/

namespace Sys2Proof.Machine

/-- A read of `k` bits: `Fill(k)`, then `END_OF_DATA` with nothing consumed (40_bit_reader.md R123), or `Take(k)` and the
result `f` makes of the number read. -/
def readBits (k : Nat) (f : Nat → Wide) (s : State) : Res State Response :=
  let s := s.fill k
  if s.rcnt < k then .done ⟨.endOfData, BitVec.ofNat 8 s.rcnt, 0⟩ s
  else .done (okRsp k (f (s.reader.takeVal k))) (s.consume k)

/-- BR_READ_U (40_bit_reader.md R124). -/
def execBrReadU (n : BitVec 8) (s : State) : Host.Outcome State Fault Refusal :=
  command (.brReadU n) s fun s => if n.toNat > maxBits then .raise .outOfRange s else readBits n.toNat zext56 s

/-- BR_READ_S (40_bit_reader.md R125). -/
def execBrReadS (n : BitVec 8) (s : State) : Host.Outcome State Fault Refusal :=
  command (.brReadS n) s fun s =>
    if n.toNat > maxBits then .raise .outOfRange s else readBits n.toNat (sext56 n.toNat) s

/-- BR_READ_BIT (40_bit_reader.md R126). -/
def execBrReadBit (s : State) : Host.Outcome State Fault Refusal := command .brReadBit s (readBits 1 zext56)

/-- BR_READ_U8 (40_bit_reader.md R127). -/
def execBrReadU8 (s : State) : Host.Outcome State Fault Refusal := command .brReadU8 s (readBits 8 zext56)

/-- BR_READ_S8 (40_bit_reader.md R128). -/
def execBrReadS8 (s : State) : Host.Outcome State Fault Refusal := command .brReadS8 s (readBits 8 (sext56 8))

/-- BR_READ_U16BE (40_bit_reader.md R129). -/
def execBrReadU16BE (s : State) : Host.Outcome State Fault Refusal := command .brReadU16BE s (readBits 16 zext56)

/-- BR_READ_U16LE (40_bit_reader.md R130). -/
def execBrReadU16LE (s : State) : Host.Outcome State Fault Refusal :=
  command .brReadU16LE s (readBits 16 fun x => zext56 (swap16 x))

/-- BR_READ_S16BE (40_bit_reader.md R131). -/
def execBrReadS16BE (s : State) : Host.Outcome State Fault Refusal := command .brReadS16BE s (readBits 16 (sext56 16))

/-- BR_READ_S16LE (40_bit_reader.md R132). -/
def execBrReadS16LE (s : State) : Host.Outcome State Fault Refusal :=
  command .brReadS16LE s (readBits 16 fun x => sext56 16 (swap16 x))

/-- BR_READ_U32BE (40_bit_reader.md R133). -/
def execBrReadU32BE (s : State) : Host.Outcome State Fault Refusal := command .brReadU32BE s (readBits 32 zext56)

/-- BR_READ_U32LE (40_bit_reader.md R134). -/
def execBrReadU32LE (s : State) : Host.Outcome State Fault Refusal :=
  command .brReadU32LE s (readBits 32 fun x => zext56 (swap32 x))

/-- BR_READ_S32BE (40_bit_reader.md R135). -/
def execBrReadS32BE (s : State) : Host.Outcome State Fault Refusal := command .brReadS32BE s (readBits 32 (sext56 32))

/-- BR_READ_S32LE (40_bit_reader.md R136). -/
def execBrReadS32LE (s : State) : Host.Outcome State Fault Refusal :=
  command .brReadS32LE s (readBits 32 fun x => sext56 32 (swap32 x))

/-- BR_ALIGN (40_bit_reader.md R137). -/
def execBrAlign (s : State) : Host.Outcome State Fault Refusal :=
  command .brAlign s fun s =>
    let t := s.rcnt % 8
    .done (okRsp t (zext56 (s.reader.takeVal t))) (s.consume t)

/-- BR_COUNT (40_bit_reader.md R138). -/
def execBrCount (s : State) : Host.Outcome State Fault Refusal :=
  command .brCount s fun s => .done (okRsp 0 (zext56 s.rcnt)) s

/-- BR_SKIP (40_bit_reader.md R139). -/
def execBrSkip (k : Wide) (s : State) : Host.Outcome State Fault Refusal :=
  command (.brSkip k) s fun s =>
    let x := s.reader.skip s.src k.toNat
    .done (okRsp 0 (zext56 x.1)) (s.setReader x.2)

/-- BR_READ_BYTE (40_bit_reader.md R140). -/
def execBrReadByte (s : State) : Host.Outcome State Fault Refusal :=
  command .brReadByte s fun s =>
    let s := s.fill 8
    if s.rcnt = 0 then .done ⟨.endOfData, 0, 0⟩ s
    else
      let t := min 8 s.rcnt
      .done (okRsp t (zext56 (s.reader.takeVal t))) (s.consume t)

/-- BR_MARK (40_bit_reader.md R141). -/
def execBrMark (limit : Wide) (s : State) : Host.Outcome State Fault Refusal :=
  command (.brMark limit) s fun s => .done (okRsp 0 0) (s.setMark limit)

/-- BR_RESET (40_bit_reader.md R142). -/
def execBrReset (s : State) : Host.Outcome State Fault Refusal :=
  command .brReset s fun s =>
    match s.mark with
    | none => .raise .illegalState s
    | some mk =>
      if s.spos - mk.spos > mk.limit.toNat then .raise .illegalState s
      else .done (okRsp 0 0) (s.setReader ⟨mk.rbuf, mk.spos⟩)

/-- BR_IS_ALIGNED (40_bit_reader.md R143). -/
def execBrIsAligned (s : State) : Host.Outcome State Fault Refusal :=
  command .brIsAligned s fun s => .done (okRsp 0 (flag56 s.readerAligned)) s

end Sys2Proof.Machine
end

