-- ==== Sys2Proof/Machine/BitWriter.lean ====
section
/-! DEFINITION. The bit writer's commands (41_bit_writer.md). -/

namespace Sys2Proof.Machine

/-- BW_WRITE_BITS (41_bit_writer.md R163). -/
def execBwWriteBits (n : BitVec 8) (v : Wide) (s : State) : Host.Outcome State Fault Refusal :=
  command (.bwWriteBits n v) s fun s =>
    if n.toNat > maxBits then .raise .outOfRange s else .done (okRsp n.toNat 0) (s.putBits v.toNat n.toNat)

/-- BW_WRITE_BIT (41_bit_writer.md R164). -/
def execBwWriteBit (v : Wide) (s : State) : Host.Outcome State Fault Refusal :=
  command (.bwWriteBit v) s fun s => .done (okRsp 1 0) (s.put [v.getLsbD 0])

/-- BW_WRITE_8 (41_bit_writer.md R165). -/
def execBwWrite8 (v : Wide) (s : State) : Host.Outcome State Fault Refusal :=
  command (.bwWrite8 v) s fun s => .done (okRsp 8 0) (s.putBits (v.extractLsb' 0 8).toNat 8)

/-- BW_WRITE_16BE (41_bit_writer.md R166). -/
def execBwWrite16BE (v : Wide) (s : State) : Host.Outcome State Fault Refusal :=
  command (.bwWrite16BE v) s fun s => .done (okRsp 16 0) (s.putBits (v.extractLsb' 0 16).toNat 16)

/-- BW_WRITE_16LE (41_bit_writer.md R167). -/
def execBwWrite16LE (v : Wide) (s : State) : Host.Outcome State Fault Refusal :=
  command (.bwWrite16LE v) s fun s =>
    .done (okRsp 16 0) ((s.putBits (v.extractLsb' 0 8).toNat 8).putBits (v.extractLsb' 8 8).toNat 8)

/-- BW_WRITE_32BE (41_bit_writer.md R168). -/
def execBwWrite32BE (v : Wide) (s : State) : Host.Outcome State Fault Refusal :=
  command (.bwWrite32BE v) s fun s => .done (okRsp 32 0) (s.putBits (v.extractLsb' 0 32).toNat 32)

/-- BW_WRITE_32LE (41_bit_writer.md R169). -/
def execBwWrite32LE (v : Wide) (s : State) : Host.Outcome State Fault Refusal :=
  command (.bwWrite32LE v) s fun s =>
    .done (okRsp 32 0) ((((s.putBits (v.extractLsb' 0 8).toNat 8).putBits (v.extractLsb' 8 8).toNat 8).putBits
      (v.extractLsb' 16 8).toNat 8).putBits (v.extractLsb' 24 8).toNat 8)

/-- BW_PAD (41_bit_writer.md R176). -/
def execBwPad (s : State) : Host.Outcome State Fault Refusal :=
  command .bwPad s fun s => .done (okRsp s.writer.padLen 0) s.padZero

/-- BW_DISCARD (41_bit_writer.md R177). -/
def execBwDiscard (s : State) : Host.Outcome State Fault Refusal :=
  command .bwDiscard s fun s => .done (okRsp s.wcnt 0) s.discard

/-- BW_FLUSH (41_bit_writer.md R178). -/
def execBwFlush (s : State) : Host.Outcome State Fault Refusal :=
  command .bwFlush s fun s => if s.wcnt ≠ 0 then .raise .illegalState s else .done (okRsp 0 0) s.sinkFlush

/-- BW_PAD_FLUSH (41_bit_writer.md R179). -/
def execBwPadFlush (s : State) : Host.Outcome State Fault Refusal :=
  command .bwPadFlush s fun s => .done (okRsp s.writer.padLen 0) s.padZero.sinkFlush

/-- BW_CLOSE (41_bit_writer.md R180). -/
def execBwClose (s : State) : Host.Outcome State Fault Refusal :=
  command .bwClose s fun s => .done (okRsp s.writer.padLen 0) (s.padZero.sinkFlush.sinkClose.setPhase .closed)

/-- BW_IS_ALIGNED (41_bit_writer.md R181). -/
def execBwIsAligned (s : State) : Host.Outcome State Fault Refusal :=
  command .bwIsAligned s fun s => .done (okRsp 0 (flag56 s.writerAligned)) s

end Sys2Proof.Machine
end

