-- ==== Sys2Proof/Machine/Trie.lean ====
section
/-! DEFINITION. The trie and the candidate lists (10_state.md R35 to R40, 44_model.md R220 to R232). -/

namespace Sys2Proof.Machine

/-! ## The node pool -/

/-- `NODE[q]`. No rule reads a node that is not in use (10_state.md R47); the value there is the model's (assumption
log 12). -/
def nodeAt (ns : List Node) (q : Nat) : Node := ns[q]?.getD rootNode

/-- The nodes on a sibling list from `q` on (10_state.md R38). A list that visits a node twice, which no command makes,
is cut at `fuel` nodes (assumption log 12). -/
def siblings (ns : List Node) : Nat → Option Nat → List Nat
  | 0, _ => []
  | _ + 1, none => []
  | fuel + 1, some q => q :: siblings ns fuel (nodeAt ns q).next

/-- `children(p)` (10_state.md R38). -/
def children (ns : List Node) (p : Nat) : List Nat := siblings ns ns.length (nodeAt ns p).child

/-- `childBySym(p, s)` (10_state.md R38). -/
def childBySym (ns : List Node) (p : Nat) (sym : Sym) : Option Nat :=
  (children ns p).find? fun c => (nodeAt ns c).sym == sym

/-- Link the new node `q` at the tail of the children of `p` (44_model.md R221). -/
def linkChild (ns : List Node) (p q : Nat) : List Node :=
  match (children ns p).getLast? with
  | none => ns.modify p fun nd => { nd with child := some q }
  | some t => ns.modify t fun nd => { nd with next := some q }

/-- `NewNode(p, s)` with a pool of `cap` nodes (44_model.md R221). -/
def newNode (cap p : Nat) (sym : Sym) (ns : List Node) : Res (List Node) Nat :=
  if ns.length = cap then .raise .nodePoolFull ns
  else .done ns.length (linkChild ns p ns.length ++ [⟨sym, 0, some p, none, none⟩])

/-- The child of `p` for `sym`, made when it is missing (44_model.md R222). -/
def childOrNew (cap p : Nat) (sym : Sym) (ns : List Node) : Res (List Node) Nat :=
  match childBySym ns p sym with
  | some q => .done q ns
  | none => newNode cap p sym ns

/-- Walk from `p` along the symbols of a sub-context, making missing nodes (44_model.md R222). -/
def walkAdd (cap : Nat) : List Sym → Nat → List Node → Res (List Node) Nat
  | [], p, ns => .done p ns
  | x :: xs, p, ns => (childOrNew cap p x ns).andThen fun q ns => walkAdd cap xs q ns

/-- Increment the count of node `q`, a count of `w` bits (44_model.md R222). -/
def bumpCount (w q : Nat) (ns : List Node) : Res (List Node) Unit :=
  if (nodeAt ns q).count = 2 ^ w - 1 then .raise .countOverflow ns
  else .done () (ns.modify q fun nd => { nd with count := nd.count + 1 })

/-- One turn of ModelAdd's loop, for one sub-context (44_model.md R222). -/
def addAlong (cap w : Nat) (sub : List Sym) (sym : Sym) (ns : List Node) : Res (List Node) Unit :=
  (walkAdd cap sub 0 ns).andThen fun p ns => (childOrNew cap p sym ns).andThen fun q ns => bumpCount w q ns

/-- The suffix of length `j` of a context: its `j` most recent symbols (44_model.md R220). -/
def subContext (X : List Sym) (j : Nat) : List Sym := X.drop (X.length - j)

/-- ModelAdd's loop over the sub-context lengths still to come (44_model.md R222). -/
def addLengths (cap w : Nat) (X : List Sym) (sym : Sym) : List Nat → List Node → Res (List Node) Unit
  | [], ns => .done () ns
  | j :: js, ns => (addAlong cap w (subContext X j) sym ns).andThen fun _ ns => addLengths cap w X sym js ns

/-- `ModelAdd(X, s)` on the pool: every sub-context length from 0 to `len(X)`, ascending (44_model.md R222). -/
def poolAdd (cap w : Nat) (X : List Sym) (sym : Sym) (ns : List Node) : Res (List Node) Unit :=
  addLengths cap w X sym (List.range (X.length + 1)) ns

/-- The node a context resolves to from `p`, or `none` (44_model.md R224). -/
def resolveFrom (ns : List Node) : List Sym → Nat → Option Nat
  | [], p => some p
  | x :: xs, p =>
    match childBySym ns p x with
    | none => none
    | some q => resolveFrom ns xs q

/-- The trie list of a node: its children that are not excluded, in order, then `ESC` (44_model.md R224). -/
def trieList (ns : List Node) (x : XSet) (p : Nat) : List Cand :=
  ((children ns p).filter fun q => !x.has (nodeAt ns q).sym).map (fun q => .sym (nodeAt ns q).sym (some q)) ++ [.esc]

/-- The uniform list: the symbols that are not excluded, ascending, then `ESC`, then `EOS` (44_model.md R226). -/
def uniformList (x : XSet) : List Cand :=
  (((List.range 256).map (BitVec.ofNat 8)).filter fun sym => !x.has sym).map (fun sym => .sym sym none) ++ [.esc, .eos]

/-- The weight of a candidate: its node's present count, or 1 (10_state.md R37, R39). -/
def candWeight (ns : List Node) : Cand → Nat
  | .sym _ (some q) => (nodeAt ns q).count
  | .sym _ none => 1
  | .esc => 1
  | .eos => 1

/-! ## On the block -/

/-- `ModelAdd(X, s)` (44_model.md R222). -/
def State.modelAdd (s : State) (X : List Sym) (sym : Sym) : Res State Unit :=
  (poolAdd s.par.nodeCap s.par.countW X sym s.nodes).lift s.setNodes

/-- `ModelGetList(X)` (44_model.md R224): `true` for FOUND, `false` for NULL. -/
def State.modelGetList (s : State) (X : List Sym) : Bool × State :=
  match resolveFrom s.nodes X 0 with
  | none => (false, s.setList [] true)
  | some p => (true, s.setList (trieList s.nodes s.xset p) false)

/-- `ModelGetUniform()` (44_model.md R226). -/
def State.modelGetUniform (s : State) : State := s.setList (uniformList s.xset) false

/-- `FindSym(s)` (44_model.md R228). -/
def State.findSym (s : State) (sym : Sym) : Option Nat :=
  s.cl.findIdx? fun
    | .sym t _ => t == sym
    | .esc => false
    | .eos => false

/-- `FindEsc()` (44_model.md R228). -/
def State.findEsc (s : State) : Option Nat := s.cl.findIdx? (· == .esc)

/-- `FindEos()` (44_model.md R228). -/
def State.findEos (s : State) : Option Nat := s.cl.findIdx? (· == .eos)

/-- `ExcludeAll()` (44_model.md R232). -/
def State.excludeAll (s : State) : State := s.setXset (s.xset.excludeCands s.cl)

/-- `weight(e)` (10_state.md R39). -/
def State.weight (s : State) (e : Cand) : Nat := candWeight s.nodes e

end Sys2Proof.Machine
end

