-- ==== Sys2Proof/Machine/HuffTree.lean ====
section
/-! DEFINITION. The Huffman tree of one decision (46_huffman.md R290 to R298). The tree is transient (10_state.md R41), so it is
a value inside one command and no field of State. -/

namespace Sys2Proof.Machine

/-- A tree: a leaf for the candidate at an index of `CL`, or a node with its left and its right child (46_huffman.md R290;
assumption log 16). -/
inductive HTree where
  | leaf (i : Nat)
  | node (left right : HTree)
  deriving DecidableEq, Repr

/-- A member of the set `A` of 46_huffman.md R291: a node not yet merged, with its weight and its index in `T`. -/
structure HItem where
  w : Nat
  idx : Nat
  tree : HTree
  deriving DecidableEq, Repr

/-- The order of 46_huffman.md R291: the smaller weight first, then the smaller index. -/
def HItem.before (a b : HItem) : Bool := a.w < b.w || (a.w == b.w && a.idx < b.idx)

/-- Put a member into the set `A`, which is kept in the order of R291, so that its least member stands first. -/
def insertItem (x : HItem) : List HItem → List HItem
  | [] => [x]
  | y :: rest => if x.before y then x :: y :: rest else y :: insertItem x rest

/-- HuffBuild's loop (46_huffman.md R291): `turns` more merges, each of the two least members, into node `m` with the first
removed on the left. A set of fewer than two members is finished. -/
def mergeAll : (turns m : Nat) → List HItem → List HItem
  | turns + 1, m, a :: b :: rest => mergeAll turns (m + 1) (insertItem ⟨a.w + b.w, m, .node a.tree b.tree⟩ rest)
  | _, _, A => A

/-- The set `A` of the leaves of a list of weights, from index `i` on (46_huffman.md R291). -/
def leavesFrom : Nat → List Nat → List HItem
  | _, [] => []
  | i, w :: ws => insertItem ⟨w, i, .leaf i⟩ (leavesFrom (i + 1) ws)

/-- `HuffBuild()` (46_huffman.md R291) from the candidates' weights: `L - 1` merges leave the root. An empty list has no
tree. -/
def huffBuild (ws : List Nat) : Option HTree :=
  (mergeAll (ws.length - 1) ws.length (leavesFrom 0 ws)).head?.map HItem.tree

/-- `Path(i)` (46_huffman.md R294): the bits from the root down to leaf `i`, left 0 and right 1. -/
def HTree.path (i : Nat) : HTree → Option (List Bool)
  | .leaf j => if j = i then some [] else none
  | .node l r =>
    match l.path i with
    | some bs => some (false :: bs)
    | none =>
      match r.path i with
      | some bs => some (true :: bs)
      | none => none

/-- `HuffDecode()`'s walk (46_huffman.md R298): at an internal node one bit is read; without one, `F_TRUNCATED`. -/
def HTree.walk : HTree → State → Res State Nat
  | .leaf i, s => .done i s
  | .node l r, s =>
    let s := s.fill 1
    match s.rbuf with
    | [] => .raise .truncated s
    | b :: _ => if b then r.walk (s.consume 1) else l.walk (s.consume 1)

/-- The tree of the block's candidate list (46_huffman.md R291). -/
def State.huffTree (s : State) : Option HTree := huffBuild (s.cl.map s.weight)

/-- `Path(i)` in the tree of the block's candidate list (46_huffman.md R294). -/
def State.huffPath (s : State) (i : Nat) : List Bool := ((s.huffTree.bind (HTree.path i)).getD [])

/-- `HuffEncode(i)` (46_huffman.md R295). -/
def State.huffEncode (s : State) (i : Nat) : State := s.put (s.huffPath i)

/-- `HuffDecode()` (46_huffman.md R298). Its callers see to it that the list is not empty; an empty list has no tree, and
the fault there is HF_DECODE's own (R299). -/
def State.huffDecode (s : State) : Res State Nat :=
  match s.huffTree with
  | some t => t.walk s
  | none => .raise .illegalState s

end Sys2Proof.Machine
end

