-- ==== Sys2Proof/Machine/Cascade.lean ====
section
/-! DEFINITION. The steps of the escape cascade (45_cascade.md R260 to R264) and the cascade all three codec commands walk. -/

namespace Sys2Proof.Machine

/-- `CascadeStart()` (45_cascade.md R261). -/
def State.cascadeStart (s : State) : State := (s.setXset s.xset.clear).setWctx s.hist

/-- `Level()` (45_cascade.md R262). -/
def State.level (s : State) : Res State Unit :=
  match s.modelGetList s.wctx with
  | (true, s) => .done () s
  | (false, s) => .raise .protocol s

/-- `Resolve(s)` (45_cascade.md R263). -/
def State.resolve (s : State) (sym : Sym) : Res State Unit :=
  (s.modelAdd s.hist sym).andThen fun _ s => .done () (s.setHist (ctxAppend s.cap s.hist sym))

/-- One trie level of a cascade: fetch the list, code a decision over it (`decide` answers `some a` when it resolves the
cascade and `none` when it is `ESC`); after `ESC` the whole list is excluded and the cascade goes on with `next`
(45_cascade.md R260 steps 1 to 4, R264). -/
def trieLevel {α : Type} (decide : State → Res State (Option α)) (next : State → Res State α) (s : State) : Res State α :=
  s.level.andThen fun _ s => (decide s).andThen fun a s =>
    match a with
    | some a => .done a s
    | none => next s.excludeAll

/-- The cascade from a working context down (45_cascade.md R260, R264, R272): after `ESC` at a trie level the oldest symbol
is dropped, and after `ESC` at order 0 the uniform list is fetched and `uniform` codes the last decision. The list
argument is the working context at the level, `WCTX`. -/
def cascade {α : Type} (decide : State → Res State (Option α)) (uniform : State → Res State α) :
    List Sym → State → Res State α
  | [], s => trieLevel decide (fun s => uniform s.modelGetUniform) s
  | _ :: X, s => trieLevel decide (fun s => cascade decide uniform X (s.setWctx (ctxDrop s.wctx))) s

/-- `HuffEncode(FindEsc())` (45_cascade.md R265, R267). A list made by the cascade always holds `ESC` (44_model.md R230);
the other case is F_PROTOCOL, as R265 treats the uniform level's (assumption log 13). -/
def State.encodeEsc (s : State) : Res State Unit :=
  match s.findEsc with
  | some i => .done () (s.huffEncode i)
  | none => .raise .protocol s

/-- The encoder's decision at a trie level: the symbol where the list offers it, else `ESC` (45_cascade.md R265). -/
def encodeSym (sym : Sym) (s : State) : Res State (Option Unit) :=
  match s.findSym sym with
  | some i => .done (some ()) (s.huffEncode i)
  | none => s.encodeEsc.andThen fun _ s => .done none s

/-- The encoder's decision at the uniform level (45_cascade.md R265, R266). -/
def encodeSymUniform (sym : Sym) (s : State) : Res State Unit :=
  match s.findSym sym with
  | some i => .done () (s.huffEncode i)
  | none => .raise .protocol s

/-- The closing cascade's decision at a trie level: always `ESC` (45_cascade.md R267). -/
def encodeEnd (s : State) : Res State (Option Unit) := s.encodeEsc.andThen fun _ s => .done none s

/-- The closing cascade's decision at the uniform level: `EOS` (45_cascade.md R267; assumption log 13). -/
def encodeEndUniform (s : State) : Res State Unit :=
  match s.findEos with
  | some i => .done () (s.huffEncode i)
  | none => .raise .protocol s

/-- The decoder's decision at a trie level: a symbol resolves the cascade, anything else is `ESC` (45_cascade.md R268,
R269). -/
def decodeLevel (s : State) : Res State (Option (Option Sym)) :=
  s.huffDecode.andThen fun i s =>
    match s.cand i with
    | some (.sym sym _) => .done (some (some sym)) s
    | some .esc => .done none s
    | some .eos => .done none s
    | none => .done none s

/-- The decoder's decision at the uniform level: a symbol, the end of the stream, or the protocol fault (45_cascade.md
R269). -/
def decodeUniform (s : State) : Res State (Option Sym) :=
  s.huffDecode.andThen fun i s =>
    match s.cand i with
    | some (.sym sym _) => .done (some sym) s
    | some .eos => .done none s
    | some .esc => .raise .protocol s
    | none => .raise .protocol s

end Sys2Proof.Machine
end

