-- ==== Sys2Proof/Machine/Codec.lean ====
section
/-! DEFINITION. The codec's commands (45_cascade.md). -/

namespace Sys2Proof.Machine

/-- ENC_PUT (45_cascade.md R265). -/
def execEncPut (sym : Sym) (s : State) : Host.Outcome State Fault Refusal :=
  command (.encPut sym) s fun s =>
    let s := s.cascadeStart
    (cascade (encodeSym sym) (encodeSymUniform sym) s.wctx s).andThen fun _ s =>
      (s.resolve sym).andThen fun _ s => .done (okRsp 0 0) s

/-- ENC_CLOSE (45_cascade.md R267). -/
def execEncClose (s : State) : Host.Outcome State Fault Refusal :=
  command .encClose s fun s =>
    let s := s.cascadeStart
    (cascade encodeEnd encodeEndUniform s.wctx s).andThen fun _ s =>
      .done (okRsp s.writer.padLen 0) (s.padZero.sinkFlush.sinkClose.setPhase .closed)

/-- DEC_GET (45_cascade.md R269, R270). -/
def execDecGet (s : State) : Host.Outcome State Fault Refusal :=
  command .decGet s fun s =>
    if s.eosSeen then .done ⟨.endOfStream, 0, 0⟩ s else
      let s := s.cascadeStart
      (cascade decodeLevel decodeUniform s.wctx s).andThen fun a s =>
        match a with
        | none => .done ⟨.endOfStream, 0, 0⟩ s.setEosSeen
        | some sym => (s.resolve sym).andThen fun _ s => .done (okRsp 8 (zext56 sym.toNat)) s

/-- DEC_CLOSE (45_cascade.md R271). -/
def execDecClose (s : State) : Host.Outcome State Fault Refusal :=
  command .decClose s fun s => .done (okRsp 0 0) (s.setPhase .closed)

end Sys2Proof.Machine
end

