-- ==== Sys2Proof/Machine/Context.lean ====
section
/-! DEFINITION. The context's commands (42_context.md). -/

namespace Sys2Proof.Machine

/-- CX_ORDER (42_context.md R192). -/
def execCxOrder (c : Sel) (s : State) : Host.Outcome State Fault Refusal :=
  command (.cxOrder c) s fun s => .done (okRsp 0 (zext56 (s.ctx c).length)) s

/-- CX_DROP (42_context.md R191, R193). -/
def execCxDrop (c : Sel) (s : State) : Host.Outcome State Fault Refusal :=
  command (.cxDrop c) s fun s =>
    if (s.ctx c).length = 0 then .raise .outOfRange s else .done (okRsp 0 0) (s.setCtx c (ctxDrop (s.ctx c)))

/-- CX_APPEND (42_context.md R194). -/
def execCxAppend (c : Sel) (sym : Sym) (s : State) : Host.Outcome State Fault Refusal :=
  command (.cxAppend c sym) s fun s => .done (okRsp 0 0) (s.setCtx c (ctxAppend s.cap (s.ctx c) sym))

/-- CX_GETAT (42_context.md R195). -/
def execCxGetAt (c : Sel) (i : Wide) (s : State) : Host.Outcome State Fault Refusal :=
  command (.cxGetAt c i) s fun s =>
    match (s.ctx c)[i.toNat]? with
    | none => .raise .outOfRange s
    | some sym => .done (okRsp 0 (zext56 sym.toNat)) s

/-- CX_CLONE (42_context.md R196). -/
def execCxClone (s : State) : Host.Outcome State Fault Refusal :=
  command .cxClone s fun s => .done (okRsp 0 0) (s.setWctx s.hist)

end Sys2Proof.Machine
end

