-- ==== Sys2Proof/Machine/Exclusion.lean ====
section
/-! DEFINITION. The exclusion set's commands (43_exclusion_set.md). -/

namespace Sys2Proof.Machine

/-- XS_EXCLUDE (43_exclusion_set.md R211). -/
def execXsExclude (sym : Sym) (s : State) : Host.Outcome State Fault Refusal :=
  command (.xsExclude sym) s fun s => .done (okRsp 0 0) (s.setXset (s.xset.exclude sym))

/-- XS_IS_EXCLUDED (43_exclusion_set.md R212). -/
def execXsIsExcluded (sym : Sym) (s : State) : Host.Outcome State Fault Refusal :=
  command (.xsIsExcluded sym) s fun s => .done (okRsp 0 (flag56 (s.xset.has sym))) s

/-- XS_CLEAR (43_exclusion_set.md R213). -/
def execXsClear (s : State) : Host.Outcome State Fault Refusal :=
  command .xsClear s fun s => .done (okRsp 0 0) (s.setXset s.xset.clear)

/-- XS_COUNT (43_exclusion_set.md R214). -/
def execXsCount (s : State) : Host.Outcome State Fault Refusal :=
  command .xsCount s fun s => .done (okRsp 0 (zext56 s.xcount)) s

end Sys2Proof.Machine
end

