-- ==== Sys2Proof/Machine/Huffman.lean ====
section
/-! DEFINITION. The Huffman decision coder's commands (46_huffman.md). -/

namespace Sys2Proof.Machine

/-- HF_ENCODE (46_huffman.md R297). -/
def execHfEncode (idx : BitVec 9) (s : State) : Host.Outcome State Fault Refusal :=
  command (.hfEncode idx) s fun s =>
    if s.cllen ≤ idx.toNat then .raise .outOfRange s
    else .done (okRsp 0 (zext56 (s.huffPath idx.toNat).length)) (s.huffEncode idx.toNat)

/-- HF_DECODE (46_huffman.md R299). -/
def execHfDecode (s : State) : Host.Outcome State Fault Refusal :=
  command .hfDecode s fun s =>
    if s.cllen = 0 then .raise .illegalState s
    else s.huffDecode.andThen fun i s =>
      .done (okRsp (((s.cand i).map Cand.kind).getD 0) (zext56 i)) s

end Sys2Proof.Machine
end

