-- ==== Sys2Proof/Machine/Model.lean ====
section
/-! DEFINITION. The commands of the model and of the candidate list (44_model.md). -/

namespace Sys2Proof.Machine

/-- The answer of a search of the list: the index, or `NOT_FOUND` (44_model.md R229). -/
def foundAt (i : Option Nat) : Response :=
  match i with
  | none => ⟨.notFound, 0, 0⟩
  | some i => okRsp 0 (zext56 i)

/-- MD_ADD (44_model.md R223). -/
def execMdAdd (c : Sel) (sym : Sym) (s : State) : Host.Outcome State Fault Refusal :=
  command (.mdAdd c sym) s fun s =>
    (s.modelAdd (s.ctx c) sym).andThen fun _ s => .done (okRsp 0 (allocResult s.nalloc)) s

/-- MD_GETLIST (44_model.md R225). -/
def execMdGetList (c : Sel) (s : State) : Host.Outcome State Fault Refusal :=
  command (.mdGetList c) s fun s =>
    match s.modelGetList (s.ctx c) with
    | (false, s) => .done ⟨.notFound, 0, 0⟩ s
    | (true, s) => .done (okRsp 0 (zext56 s.cllen)) s

/-- MD_GETUNIFORM (44_model.md R227). -/
def execMdGetUniform (s : State) : Host.Outcome State Fault Refusal :=
  command .mdGetUniform s fun s => .done (okRsp 0 (zext56 s.modelGetUniform.cllen)) s.modelGetUniform

/-- MD_FIND_SYM (44_model.md R229). -/
def execMdFindSym (sym : Sym) (s : State) : Host.Outcome State Fault Refusal :=
  command (.mdFindSym sym) s fun s => .done (foundAt (s.findSym sym)) s

/-- MD_FIND_ESC (44_model.md R230). -/
def execMdFindEsc (s : State) : Host.Outcome State Fault Refusal :=
  command .mdFindEsc s fun s => .done (foundAt s.findEsc) s

/-- MD_FIND_EOS (44_model.md R231). -/
def execMdFindEos (s : State) : Host.Outcome State Fault Refusal :=
  command .mdFindEos s fun s => .done (foundAt s.findEos) s

/-- MD_EXCLUDE_ALL (44_model.md R233). -/
def execMdExcludeAll (s : State) : Host.Outcome State Fault Refusal :=
  command .mdExcludeAll s fun s => .done (okRsp 0 (zext56 s.excludeAll.xcount)) s.excludeAll

/-- MD_IS_ESC (44_model.md R234). -/
def execMdIsEsc (idx : BitVec 9) (s : State) : Host.Outcome State Fault Refusal :=
  command (.mdIsEsc idx) s fun s =>
    match s.cand idx.toNat with
    | none => .raise .outOfRange s
    | some e => .done (okRsp 0 (flag56 (e == .esc))) s

/-- MD_IS_EOS (44_model.md R235). -/
def execMdIsEos (idx : BitVec 9) (s : State) : Host.Outcome State Fault Refusal :=
  command (.mdIsEos idx) s fun s =>
    match s.cand idx.toNat with
    | none => .raise .outOfRange s
    | some e => .done (okRsp 0 (flag56 (e == .eos))) s

/-- CL_LEN (44_model.md R236). -/
def execClLen (s : State) : Host.Outcome State Fault Refusal :=
  command .clLen s fun s =>
    if s.clnull then .done ⟨.notFound, 0, 0⟩ s else .done (okRsp 0 (zext56 s.cllen)) s

/-- CL_GET (44_model.md R237). -/
def execClGet (idx : BitVec 9) (s : State) : Host.Outcome State Fault Refusal :=
  command (.clGet idx) s fun s =>
    match s.cand idx.toNat with
    | none => .raise .outOfRange s
    | some e => .done (okRsp e.kind (candResult (s.weight e) e.symField)) s

end Sys2Proof.Machine
end

