-- ==== Sys2Proof/Machine/System.lean ====
section
/-! DEFINITION. The system commands (47_system.md). They execute in every phase (60_exceptions.md R345 step 1). -/

namespace Sys2Proof.Machine

/-- INIT (47_system.md R310): refused with `BAD_CONFIG` above `ORDER_CAP`, else the state of 10_state.md R45. -/
def execInit (d : Dir) (m : Wide) (s : State) : Host.Outcome State Fault Refusal :=
  .next (if m.toNat > s.par.orderCap then s.respond ⟨.badConfig, 0, 0⟩ else (s.initialise d m).respond (okRsp 0 0))

/-- GET_STATUS (47_system.md R312). A free value is drawn where the page holds unspecified bits (assumption logs 3, 4). -/
def execGetStatus (p : Page) (s : State) : Host.Outcome State Fault Refusal :=
  match p with
  | .status =>
    let t := if s.phase = .unconf ∨ s.phase = .faulted then s.drawFree else s
    .next (t.respond (okRsp 0 s.statusWord))
  | .maxOrder =>
    let t := if s.phase = .unconf then s.drawFree else s
    .next (t.respond (okRsp 0 s.maxOrderPage))

end Sys2Proof.Machine
end

