-- ==== Sys2Proof/Machine/Dispatch.lean ====
section
/-! DEFINITION. The meaning of every command: 30_encoding.md R96 names the rule of each. -/

namespace Sys2Proof.Machine

def exec (i : Instr) (s : State) : Host.Outcome State Fault Refusal :=
  match i with
  | .init d m => Sys2Proof.Machine.execInit d m s
  | .getStatus p => Sys2Proof.Machine.execGetStatus p s
  | .brReadU n => Sys2Proof.Machine.execBrReadU n s
  | .brReadS n => Sys2Proof.Machine.execBrReadS n s
  | .brReadBit => Sys2Proof.Machine.execBrReadBit s
  | .brReadU8 => Sys2Proof.Machine.execBrReadU8 s
  | .brReadS8 => Sys2Proof.Machine.execBrReadS8 s
  | .brReadU16BE => Sys2Proof.Machine.execBrReadU16BE s
  | .brReadU16LE => Sys2Proof.Machine.execBrReadU16LE s
  | .brReadS16BE => Sys2Proof.Machine.execBrReadS16BE s
  | .brReadS16LE => Sys2Proof.Machine.execBrReadS16LE s
  | .brReadU32BE => Sys2Proof.Machine.execBrReadU32BE s
  | .brReadU32LE => Sys2Proof.Machine.execBrReadU32LE s
  | .brReadS32BE => Sys2Proof.Machine.execBrReadS32BE s
  | .brReadS32LE => Sys2Proof.Machine.execBrReadS32LE s
  | .brAlign => Sys2Proof.Machine.execBrAlign s
  | .brCount => Sys2Proof.Machine.execBrCount s
  | .brSkip k => Sys2Proof.Machine.execBrSkip k s
  | .brReadByte => Sys2Proof.Machine.execBrReadByte s
  | .brMark limit => Sys2Proof.Machine.execBrMark limit s
  | .brReset => Sys2Proof.Machine.execBrReset s
  | .brIsAligned => Sys2Proof.Machine.execBrIsAligned s
  | .bwWriteBits n v => Sys2Proof.Machine.execBwWriteBits n v s
  | .bwWriteBit v => Sys2Proof.Machine.execBwWriteBit v s
  | .bwWrite8 v => Sys2Proof.Machine.execBwWrite8 v s
  | .bwWrite16BE v => Sys2Proof.Machine.execBwWrite16BE v s
  | .bwWrite16LE v => Sys2Proof.Machine.execBwWrite16LE v s
  | .bwWrite32BE v => Sys2Proof.Machine.execBwWrite32BE v s
  | .bwWrite32LE v => Sys2Proof.Machine.execBwWrite32LE v s
  | .bwPad => Sys2Proof.Machine.execBwPad s
  | .bwDiscard => Sys2Proof.Machine.execBwDiscard s
  | .bwFlush => Sys2Proof.Machine.execBwFlush s
  | .bwPadFlush => Sys2Proof.Machine.execBwPadFlush s
  | .bwClose => Sys2Proof.Machine.execBwClose s
  | .bwIsAligned => Sys2Proof.Machine.execBwIsAligned s
  | .cxOrder c => Sys2Proof.Machine.execCxOrder c s
  | .cxDrop c => Sys2Proof.Machine.execCxDrop c s
  | .cxAppend c sym => Sys2Proof.Machine.execCxAppend c sym s
  | .cxGetAt c k => Sys2Proof.Machine.execCxGetAt c k s
  | .cxClone => Sys2Proof.Machine.execCxClone s
  | .xsExclude sym => Sys2Proof.Machine.execXsExclude sym s
  | .xsIsExcluded sym => Sys2Proof.Machine.execXsIsExcluded sym s
  | .xsClear => Sys2Proof.Machine.execXsClear s
  | .xsCount => Sys2Proof.Machine.execXsCount s
  | .mdAdd c sym => Sys2Proof.Machine.execMdAdd c sym s
  | .mdGetList c => Sys2Proof.Machine.execMdGetList c s
  | .mdGetUniform => Sys2Proof.Machine.execMdGetUniform s
  | .mdFindSym sym => Sys2Proof.Machine.execMdFindSym sym s
  | .mdFindEsc => Sys2Proof.Machine.execMdFindEsc s
  | .mdFindEos => Sys2Proof.Machine.execMdFindEos s
  | .mdExcludeAll => Sys2Proof.Machine.execMdExcludeAll s
  | .mdIsEsc idx => Sys2Proof.Machine.execMdIsEsc idx s
  | .mdIsEos idx => Sys2Proof.Machine.execMdIsEos idx s
  | .clLen => Sys2Proof.Machine.execClLen s
  | .clGet idx => Sys2Proof.Machine.execClGet idx s
  | .hfEncode idx => Sys2Proof.Machine.execHfEncode idx s
  | .hfDecode => Sys2Proof.Machine.execHfDecode s
  | .encPut sym => Sys2Proof.Machine.execEncPut sym s
  | .encClose => Sys2Proof.Machine.execEncClose s
  | .decGet => Sys2Proof.Machine.execDecGet s
  | .decClose => Sys2Proof.Machine.execDecClose s

end Sys2Proof.Machine
end

