-- ==== Sys2Proof/Machine/Step.lean ====
section
/-! DEFINITION. One step of the machine: the host's next input is taken (00_scope.md R3; assumption log 7). -/

namespace Sys2Proof.Machine

/-- A command word is decoded and executed (60_exceptions.md R345); an illegal one is refused or faults. -/
def stepWord (w : Word72) (s : State) : Host.Outcome State Fault Refusal :=
  match decode w with
  | some i => exec i s
  | none => illegalWord (opcOf w) s

/-- One step: with no input the block is idle and nothing changes (70_reset_and_hazards.md R360). -/
def step (s : State) : Host.Outcome State Fault Refusal :=
  match s.takeInput with
  | none => .next s
  | some (.command w, t) => stepWord w t
  | some (.hwReset, t) => .next t.hardwareReset
  | some (.source bytes, t) => .next (t.presentSource bytes)

/-- The state with a word of the opcode table as the command the host presents next (assumption logs 7, 22). -/
def State.withFetchWord (s : State) (nbits w : Nat) : State :=
  { s with host := .command (BitVec.ofNat 72 (w % 2 ^ nbits)) :: s.host }

end Sys2Proof.Machine
end

