-- ==== Sys2Proof/Safety.lean ====
section
/-! DEFINITION. The words claims are made in: the bits that remain to be read and the bits written (20_memory.md R77,
40_bit_reader.md R120), what a context has been followed by (44_model.md R220), and what holds in every state a run
reaches (10_state.md R27 to R40). -/

namespace Sys2Proof.Machine

/-! ## Positions -/

/-- The bits that remain to be read (40_bit_reader.md R120): `RBUF`, then the bytes of the source from `SPOS` on. -/
def State.remaining (s : State) : List Bool := s.rbuf ++ (s.src.drop s.spos).flatMap byteBits

/-- `bytes(SNK)` of a sequence of events (10_state.md R43). -/
def bytesOf : List SinkEvent → List Byte
  | [] => []
  | .byte b :: rest => b :: bytesOf rest
  | .flush :: rest => bytesOf rest
  | .close :: rest => bytesOf rest

/-- The bits written and not discarded (20_memory.md R77): those of the sink's bytes, then `WBUF`. -/
def State.written (s : State) : List Bool := (bytesOf s.snk).flatMap byteBits ++ s.wbuf

/-! ## Frames -/

/-- From `s` to `t` only the reader has moved, and one response was given. -/
def OnlyReader (s t : State) (rsp : Response) : Prop :=
  t = { s with rbuf := t.rbuf, spos := t.spos, rsps := s.rsps ++ [rsp] }

/-- From `s` to `t` only the writer and the sink have moved, and one response was given. -/
def OnlyWriter (s t : State) (rsp : Response) : Prop :=
  t = { s with wbuf := t.wbuf, snk := t.snk, rsps := s.rsps ++ [rsp] }

/-- The state in which a command that raised a fault before it changed anything leaves the block (60_exceptions.md
R330, R331). -/
def State.faultedBy (s : State) (f : FaultKind) (opc : BitVec 8) : State :=
  { s with phase := .faulted, fcode := f.code, fcmd := opc, rsps := s.rsps ++ [⟨.fault f, 0, 0⟩] }

/-- The state of a command that changed nothing but to give its response. -/
def State.answered (s : State) (rsp : Response) : State := { s with rsps := s.rsps ++ [rsp] }

/-- A row of the opcode map (30_encoding.md R96): the command's opcode, its format and its direction. -/
def Row (i : Instr) (opc : BitVec 8) (f : Format) (d : DirNeed) : Prop := i.opcode = opc ∧ i.format = f ∧ i.dirNeed = d

/-- The state with another context (42_context.md): `HIST` or `WCTX`. -/
def State.withCtx (s : State) (c : Sel) (X : List Sym) : State :=
  match c with
  | .hist => { s with hist := X }
  | .work => { s with wctx := X }

/-- The command `i` finds the least index of the list whose candidate is a `P`, or answers `NOT_FOUND`; it changes nothing
(44_model.md R228 to R231). -/
def Finds (i : Instr) (P : Cand → Prop) (s : State) : Prop :=
  (∀ k e, s.cl[k]? = some e → P e → (∀ j f, j < k → s.cl[j]? = some f → ¬ P f) →
    exec i s = .next (s.answered ⟨.ok, 0, BitVec.ofNat 56 k⟩)) ∧
  ((∀ e ∈ s.cl, ¬ P e) → exec i s = .next (s.answered ⟨.notFound, 0, 0⟩))

/-! ## What a read and a write come to -/

/-- From `s` to `t` the reader has consumed the first `k` of the bits that remained (40_bit_reader.md R120, R122). The number
of bits consumed in all is `8 * SPOS - RCNT` (20_memory.md R77), and no byte was pulled that was not needed
(40_bit_reader.md R121). -/
structure Consumes (s t : State) (k : Nat) : Prop where
  remaining : t.remaining = s.remaining.drop k
  position : 8 * t.spos + s.rbuf.length = 8 * s.spos + k + t.rbuf.length
  lookahead : t.spos = s.spos ∨ t.rbuf.length ≤ 7

/-- From `s` to `t` a read has found too few bits: nothing is consumed, and all that remains is buffered
(40_bit_reader.md R123). -/
structure RanOut (s t : State) : Prop where
  remaining : t.remaining = s.remaining
  buffered : t.rbuf = s.remaining
  position : 8 * t.spos + s.rbuf.length = 8 * s.spos + t.rbuf.length

/-- From `s` to `t` the writer has written the bits `bs` (41_bit_writer.md R160, R161): each group of eight bits is a byte
event of the sink, and the rest, fewer than eight, waits. -/
structure Writes (s t : State) (bs : List Bool) : Prop where
  written : t.written = s.written ++ bs
  waiting : t.wbuf.length ≤ 7
  bytes : ∃ l : List Byte, t.snk = s.snk ++ l.map .byte

/-- The `k` bits of `v` from bit `lo` up, the most significant first (20_memory.md R64). -/
def fieldBits (v : Wide) (lo k : Nat) : List Bool := (List.range k).map fun j => v.getLsbD (lo + (k - 1 - j))

/-- A number of `k` bits read as two's complement, as 56 bits (00_scope.md R13, 40_bit_reader.md R125). -/
def signed56 (k x : Nat) : Wide := BitVec.ofInt 56 (if x < 2 ^ (k - 1) then (x : Int) else (x : Int) - 2 ^ k)

/-- Stream bits as a number whose first byte is the least significant (20_memory.md R65). -/
def leVal : (bytes : Nat) → List Bool → Nat
  | 0, _ => 0
  | n + 1, bs => bitsVal (bs.take 8) + 2 ^ 8 * leVal n (bs.drop 8)

/-- The width of each fixed-width read and what it makes of the bits read (40_bit_reader.md R126 to R136). -/
def fixedRead : Instr → Option (Nat × (List Bool → Wide))
  | .brReadBit => some (1, fun bs => zext56 (bitsVal bs))
  | .brReadU8 => some (8, fun bs => zext56 (bitsVal bs))
  | .brReadS8 => some (8, fun bs => signed56 8 (bitsVal bs))
  | .brReadU16BE => some (16, fun bs => zext56 (bitsVal bs))
  | .brReadU16LE => some (16, fun bs => zext56 (leVal 2 bs))
  | .brReadS16BE => some (16, fun bs => signed56 16 (bitsVal bs))
  | .brReadS16LE => some (16, fun bs => signed56 16 (leVal 2 bs))
  | .brReadU32BE => some (32, fun bs => zext56 (bitsVal bs))
  | .brReadU32LE => some (32, fun bs => zext56 (leVal 4 bs))
  | .brReadS32BE => some (32, fun bs => signed56 32 (bitsVal bs))
  | .brReadS32LE => some (32, fun bs => signed56 32 (leVal 4 bs))
  | _ => none

/-- The bits each one-bit and fixed-width write writes (41_bit_writer.md R164 to R169). -/
def fixedWrite : Instr → Option (List Bool)
  | .bwWriteBit v => some (fieldBits v 0 1)
  | .bwWrite8 v => some (fieldBits v 0 8)
  | .bwWrite16BE v => some (fieldBits v 0 16)
  | .bwWrite16LE v => some (fieldBits v 0 8 ++ fieldBits v 8 8)
  | .bwWrite32BE v => some (fieldBits v 0 32)
  | .bwWrite32LE v => some (fieldBits v 0 8 ++ fieldBits v 8 8 ++ fieldBits v 16 8 ++ fieldBits v 24 8)
  | _ => none

/-! ## Runs and faults -/

/-- The block after a sequence of commands, each executed after the response to the one before (20_memory.md R70). -/
def State.after (s : State) : List Instr → State
  | [] => s
  | i :: is =>
    match exec i s with
    | .next t => t.after is
    | .fault _ => s
    | .refused _ => s

/-- The faults a command can raise once it is decoded and of the configured direction (60_exceptions.md R323). -/
def causesOf : Instr → List FaultKind
  | .brReadU _ | .brReadS _ | .bwWriteBits _ _ | .cxDrop _ | .cxGetAt _ _ | .mdIsEsc _ | .mdIsEos _ | .clGet _ | .hfEncode _ =>
    [.outOfRange]
  | .bwFlush | .brReset => [.illegalState]
  | .hfDecode => [.illegalState, .truncated]
  | .mdAdd _ _ => [.nodePoolFull, .countOverflow]
  | .encPut _ => [.protocol, .nodePoolFull, .countOverflow]
  | .encClose => [.protocol]
  | .decGet => [.protocol, .truncated, .nodePoolFull, .countOverflow]
  | .init _ _ | .getStatus _ | .brReadBit | .brReadU8 | .brReadS8 | .brReadU16BE | .brReadU16LE | .brReadS16BE |
    .brReadS16LE | .brReadU32BE | .brReadU32LE | .brReadS32BE | .brReadS32LE | .brAlign | .brCount | .brSkip _ |
    .brReadByte | .brMark _ | .brIsAligned | .bwWriteBit _ | .bwWrite8 _ | .bwWrite16BE _ | .bwWrite16LE _ |
    .bwWrite32BE _ | .bwWrite32LE _ | .bwPad | .bwDiscard | .bwPadFlush | .bwClose | .bwIsAligned | .cxOrder _ |
    .cxAppend _ _ | .cxClone | .xsExclude _ | .xsIsExcluded _ | .xsClear | .xsCount | .mdGetList _ | .mdGetUniform |
    .mdFindSym _ | .mdFindEsc | .mdFindEos | .mdExcludeAll | .clLen | .decClose => []

/-- The status is a fault (60_exceptions.md R320, class 4). -/
def Status.isFault : Status → Bool
  | .fault _ => true
  | .ok | .endOfData | .endOfStream | .notFound | .refusedUnconf | .refusedClosed | .refusedFaulted | .badConfig => false

/-- The phase after a word presented in phase `p` and answered with the status `st` (60_exceptions.md R340); the word is the
command `i`, or none. -/
def nextPhase (p : Phase) (i : Option Instr) (st : Status) : Phase :=
  match i with
  | some (.init _ _) => if st = .ok then .ready else p
  | _ =>
    if p ≠ .ready then p
    else if st.isFault then .faulted
    else if st = .ok ∧ i ∈ [some .bwClose, some .encClose, some .decClose] then .closed
    else .ready

/-! ## What the trie holds -/

/-- The node a sequence of symbols leads to from the root (44_model.md R220). -/
def pathNode (ns : List Node) (path : List Sym) : Option Nat := resolveFrom ns path 0

/-- The count of the node a sequence of symbols leads to, 0 where there is none (44_model.md R220). -/
def pathCount (ns : List Node) (path : List Sym) : Nat :=
  match pathNode ns path with
  | some q => (nodeAt ns q).count
  | none => 0

/-- Every suffix of a context leads to a node (44_model.md R238). -/
def suffixesResolve (ns : List Node) (X : List Sym) : Prop := ∀ Y, Y <:+ X → (pathNode ns Y).isSome

/-- The paths ModelAdd visits, in its order (44_model.md R222): for every length from 0 to that of the context, ascending, the
beginnings of the suffix of that length and the symbol, the shorter first. -/
def visitedPaths (X : List Sym) (sym : Sym) : List (List Sym) :=
  (List.range (X.length + 1)).flatMap fun j => (X.drop (X.length - j) ++ [sym]).inits

/-- The paths of a list that lead nowhere yet, each where it stands first. -/
def firstNew (ns : List Node) (paths : List (List Sym)) : List (List Sym) :=
  (paths.filter fun P => (pathNode ns P).isNone).eraseDups

/-- The paths ModelAdd has to make nodes for, in the order in which it makes them (44_model.md R221, R222). -/
def newPaths (ns : List Node) (X : List Sym) (sym : Sym) : List (List Sym) := firstNew ns (visitedPaths X sym)

/-- The pool of a block has room for what ModelAdd makes, and no count it raises is at its maximum (44_model.md R221, R222). -/
def State.canAdd (s : State) (X : List Sym) (sym : Sym) : Prop :=
  s.nodes.length + (newPaths s.nodes X sym).length ≤ s.par.nodeCap ∧
    ∀ Y, Y <:+ X → pathCount s.nodes (Y ++ [sym]) < 2 ^ s.par.countW - 1

/-- What ModelAdd makes of a node pool (44_model.md R220 to R222): the count of every suffix of the context followed by the
symbol is raised by one and no other, the missing nodes on the way are made and no others, in the order of `newPaths` with
rising indices, and a node keeps its index, its symbol and its parent. Siblings stand in the order of their indices
(10_state.md R35, `PoolOk.order`), so the order in which nodes are made is that of the candidate lists. -/
structure AddedTo (ns : List Node) (X : List Sym) (sym : Sym) (ms : List Node) : Prop where
  raised : ∀ Y, Y <:+ X → pathCount ms (Y ++ [sym]) = pathCount ns (Y ++ [sym]) + 1
  others : ∀ P, (∀ Y, Y <:+ X → P ≠ Y ++ [sym]) → pathCount ms P = pathCount ns P
  made : ms.length = ns.length + (newPaths ns X sym).length
  paths : ∀ P, (pathNode ms P).isSome ↔ (pathNode ns P).isSome ∨ ∃ Y, Y <:+ X ∧ P <+: Y ++ [sym]
  order : ∀ k P, (newPaths ns X sym)[k]? = some P → pathNode ms P = some (ns.length + k)
  kept : ∀ P q, pathNode ns P = some q → pathNode ms P = some q

/-- From `s` the command with opcode `opc` has stopped where ModelAdd cannot be done: with F_NODE_POOL_FULL where the pool
has no room for the nodes to be made, with F_COUNT_OVERFLOW where a count to be raised is at its maximum (44_model.md R221,
R222). -/
def AddFault (s t : State) (X : List Sym) (sym : Sym) (opc : BitVec 8) : Prop :=
  t.phase = .faulted ∧ t.fcmd = opc ∧
    ((t.fcode = 0x86 ∧ s.par.nodeCap < s.nodes.length + (newPaths s.nodes X sym).length) ∨
      (t.fcode = 0x87 ∧ ∃ Y, Y <:+ X ∧ 2 ^ s.par.countW - 1 ≤ pathCount s.nodes (Y ++ [sym])))

/-! ## The tree of a decision -/

/-- The order in which nodes are removed from the set `A` (46_huffman.md R291, R292): the smaller weight first, among equal
weights the smaller index. -/
def HItem.goesBefore (a x : HItem) : Prop := a.w < x.w ∨ a.w = x.w ∧ a.idx < x.idx

/-- HuffBuild's loop as a relation (46_huffman.md R291): from a set of nodes not yet merged, in whatever order they are listed,
and the index `m` of the next node, the tree that remains. Of the two nodes that go before all others the first becomes the
left child and the second the right child of node `m`, whose weight is their sum. -/
inductive Merges : Nat → List HItem → HTree → Prop where
  | root (m : Nat) (x : HItem) : Merges m [x] x.tree
  | merge (m : Nat) {A rest : List HItem} {a b : HItem} {t : HTree} (members : A.Perm (a :: b :: rest))
      (first : ∀ x ∈ b :: rest, a.goesBefore x) (second : ∀ x ∈ rest, b.goesBefore x)
      (go : Merges (m + 1) (⟨a.w + b.w, m, .node a.tree b.tree⟩ :: rest) t) : Merges m A t

/-- The leaves of a sequence of weights: leaf `i` has the weight of candidate `i` and the index `i` (46_huffman.md R290). -/
def leavesOf (ws : List Nat) : List HItem := ws.mapIdx fun i w => ⟨w, i, .leaf i⟩

/-- `t` is the one tree HuffBuild's loop makes of a sequence of weights (46_huffman.md R291). -/
def IsTreeOf (ws : List Nat) (t : HTree) : Prop := ∀ u, Merges ws.length (leavesOf ws) u ↔ u = t

/-- The subtree that bits lead to: 0 to the left child, 1 to the right child (46_huffman.md R294). -/
def HTree.follow : HTree → List Bool → Option HTree
  | t, [] => some t
  | .leaf _, _ :: _ => none
  | .node l r, b :: bs => if b then r.follow bs else l.follow bs

/-! ## The decisions of a cascade -/

/-- What a cascade is to come to: a symbol (45_cascade.md R265, R269), the end of the stream (R267, R269), or ESC at the
uniform level too, which no encoder writes (R269). -/
inductive Goal where
  | symbol (t : Sym)
  | endOfStream
  | escape
  deriving DecidableEq, Repr

/-- The candidate is the goal. -/
def Goal.isMet (g : Goal) : Cand → Bool
  | .sym t _ => g == .symbol t
  | .eos => g == .endOfStream
  | .esc => false

/-- The index of the decision over a list: the goal where the list offers it, else ESC (45_cascade.md R265, R267). -/
def Goal.choice (g : Goal) (l : List Cand) : Nat := (l.findIdx? g.isMet).getD (l.idxOf .esc)

/-- The list of the level with working context `X`, where the symbols `excl` are excluded: the children of the context's node
that are not excluded, in order, then ESC (44_model.md R224). -/
def levelList (ns : List Node) (X excl : List Sym) : List Cand :=
  (match pathNode ns X with
    | some p => ((children ns p).filter fun q => (nodeAt ns q).sym ∉ excl).map fun q => .sym (nodeAt ns q).sym (some q)
    | none => []) ++ [.esc]

/-- The list of the uniform level: every symbol that is not excluded, ascending, then ESC, then EOS (44_model.md R226). -/
def lastList (excl : List Sym) : List Cand :=
  (((List.range 256).map (BitVec.ofNat 8)).filter fun t => t ∉ excl).map (fun t => .sym t none) ++ [.esc, .eos]

/-- The symbols a list offers. -/
def offeredSyms (l : List Cand) : List Sym := l.filterMap fun
  | .sym t _ => some t
  | .esc => none
  | .eos => none

/-- The decisions of the cascade towards a goal, from the working context down, where the symbols `excl` are excluded
(45_cascade.md R260, R264, R272): of each level the list and the index of the candidate coded. After ESC every symbol of
the list is excluded and the oldest symbol of the context is dropped; after ESC in the empty context comes the uniform
level. -/
def decisionsFrom (ns : List Node) (g : Goal) : (X excl : List Sym) → List (List Cand × Nat)
  | [], excl =>
    let l := levelList ns [] excl
    let u := lastList (excl ++ offeredSyms l)
    (l, g.choice l) :: if l.any g.isMet then [] else [(u, g.choice u)]
  | x :: X, excl =>
    let l := levelList ns (x :: X) excl
    (l, g.choice l) :: if l.any g.isMet then [] else decisionsFrom ns g X (excl ++ offeredSyms l)

/-- The decisions of a codec command towards a goal: from HIST down, with nothing excluded (45_cascade.md R261). -/
def State.decisions (s : State) (g : Goal) : List (List Cand × Nat) := decisionsFrom s.nodes g s.hist []

/-- The path of a candidate in the tree of a list (46_huffman.md R294). -/
def State.pathIn (s : State) (l : List Cand) (i : Nat) : List Bool := State.huffPath { s with cl := l } i

/-- The bits of a cascade towards a goal: the path of each decision, in order (45_cascade.md R265, R274). -/
def State.codeBits (s : State) (g : Goal) : List Bool := (s.decisions g).flatMap fun d => s.pathIn d.1 d.2

/-- What a cascade leaves for the host to see (45_cascade.md R265): the working context of the last level (the empty one after
the uniform level), its list, and as excluded the symbols of every list before it. -/
structure LeftBy (s t : State) (ds : List (List Cand × Nat)) : Prop where
  wctx : t.wctx = s.hist.drop (ds.length - 1)
  list : (ds.getLast?.map Prod.fst) = some t.cl ∧ t.clnull = false
  excluded : ∀ u : Sym, t.xbits.getLsbD u.toNat = true ↔ ∃ d ∈ ds.dropLast, u ∈ offeredSyms d.1

/-! ## What an encoder writes -/

/-- An encoder with the model and the contexts of the block, at the start of its sink. -/
def State.asEncoder (s : State) : State := { s with dir := .enc, wbuf := [], snk := [] }

/-! ## What holds in every state a run reaches -/

/-- The block is a configured, usable encoder (10_state.md R24, R25). -/
def State.encReady (s : State) : Prop := s.phase = .ready ∧ s.dir = .enc

/-- The block is a configured, usable decoder. -/
def State.decReady (s : State) : Prop := s.phase = .ready ∧ s.dir = .dec

/-- The bounds of the bit buffers (10_state.md R27, R28), of the mark's copy (R30), and SPOS >= MSPOS (00_scope.md R13). -/
structure State.BuffersOk (s : State) : Prop where
  wbuf_le : s.wbuf.length ≤ 7
  rbuf_le : s.rbuf.length ≤ 63
  mark_le : ∀ mk ∈ s.mark, mk.rbuf.length ≤ 63 ∧ mk.spos ≤ s.spos

/-- The bound of 40_bit_reader.md R144: at most 7 bits are buffered, now and at the mark. -/
def State.readerShort (s : State) : Prop := s.rbuf.length ≤ 7 ∧ ∀ mk ∈ s.mark, mk.rbuf.length ≤ 7

/-- The bounds of MAXORDER (10_state.md R25) and of the contexts (R32, R33). -/
structure State.ContextsOk (s : State) : Prop where
  order_le : s.maxOrder.toNat ≤ s.par.orderCap
  hist_le : s.hist.length ≤ s.cap
  wctx_le : s.wctx.length ≤ s.cap

/-- The number of ones of `XBITS`. -/
def XSet.ones (x : XSet) : Nat := (List.range 256).countP fun i => x.bits.getLsbD i

/-- `XCOUNT` counts the members of `XBITS` (10_state.md R34). -/
def State.XsetOk (s : State) : Prop := s.xcount = s.xset.ones

/-- A sibling chain: the nodes of `cs` in order, each linked to the next, the last to `NIL` (10_state.md R38). -/
def linked (ns : List Node) : Option Nat → List Nat → Prop
  | none, [] => True
  | none, _ :: _ => False
  | some _, [] => False
  | some q, c :: cs => q = c ∧ linked ns (nodeAt ns c).next cs

/-- The invariants of the trie (10_state.md R35, R36, R38), with counts of `w` bits. -/
structure PoolOk (w : Nat) (ns : List Node) : Prop where
  /-- The root is in use, has no parent, no sibling and count 0 (R36). -/
  root : 0 < ns.length ∧ (nodeAt ns 0).parent = none ∧ (nodeAt ns 0).next = none ∧ (nodeAt ns 0).count = 0
  /-- `children(p)` is the whole sibling list (R38). -/
  chain : ∀ p < ns.length, linked ns (nodeAt ns p).child (children ns p)
  /-- Siblings are in creation order (R35). -/
  order : ∀ p < ns.length, (children ns p).Pairwise (· < ·)
  /-- Every child is in use and has its parent link (R38). -/
  owned : ∀ p < ns.length, ∀ c ∈ children ns p, c < ns.length ∧ (nodeAt ns c).parent = some p
  /-- Every node but the root is some node's child (R38). -/
  reached : ∀ q < ns.length, q ≠ 0 → ∃ p < ns.length, q ∈ children ns p
  /-- No two children of a node have the same symbol (R38). -/
  distinct : ∀ p < ns.length, ((children ns p).map fun c => (nodeAt ns c).sym).Nodup
  /-- Counts fit their width (R35). -/
  counts : ∀ q < ns.length, (nodeAt ns q).count < 2 ^ w

/-- The trie of a block: legal parameters, no more nodes than the pool holds, and R38's invariants. -/
structure State.TrieOk (s : State) : Prop where
  par : s.par.Legal
  alloc : s.nodes.length ≤ s.par.nodeCap
  pool : PoolOk s.par.countW s.nodes

/-- A candidate wraps a node in use that holds its symbol (10_state.md R39). -/
def candOk (ns : List Node) : Cand → Prop
  | .sym t (some q) => q < ns.length ∧ (nodeAt ns q).sym = t
  | .sym _ none => True
  | .esc => True
  | .eos => True

/-- The bounds of the candidate list (10_state.md R39, R40). -/
structure State.ListOk (s : State) : Prop where
  len : s.cl.length ≤ clCap
  null : s.clnull = true → s.cl = []
  nodes : ∀ e ∈ s.cl, candOk s.nodes e

/-- The fault latches hold a fault's code exactly in phase FAULTED (10_state.md R26). -/
def State.LatchOk (s : State) : Prop :=
  (s.phase = .faulted → ∃ f : FaultKind, s.fcode = f.code) ∧ (s.phase ≠ .faulted → s.fcode = 0 ∧ s.fcmd = 0)

/-- What holds in every state a run reaches. -/
structure State.Inv (s : State) : Prop where
  buffers : s.BuffersOk
  contexts : s.ContextsOk
  xset : s.XsetOk
  trie : s.TrieOk
  list : s.ListOk
  latch : s.LatchOk

end Sys2Proof.Machine
end

