-- ==== Sys2Proof/Certificates/Slice0/Obligations.lean ====
section
/-! DEFINITION. The statements about the model, from the numbered rules of spec/. OBLIGATIONS.json says of each what it
formalises. A statement rests on a choice of the model only where its docstring says so. -/

open Sys2Proof Sys2Proof.Machine

/-! ## Encoding (30_encoding.md) -/

/-- The encoder and the decoder agree: every command, with every operand at every value its field admits, is read back
from its word (R91, R92, R94, R96). -/
def Obligations.DecodeEncode : Prop := ∀ i : Instr, decode (encode i) = some i

/-- A command has one word only: the word a command is read from is the command's own (R91, R92, R94, R96, R97). -/
def Obligations.EncodeDecode : Prop := ∀ (w : Word72) (i : Instr), decode w = some i → encode i = w

/-- R92: the masks of the nine formats, and that a word is the command of a row exactly when its masked bits are the row's
opcode and zeros. -/
def Obligations.WordsMatchTheirRow : Prop :=
  Format.Z.mask = 0xFFFFFFFFFFFFFFFFFF ∧ Format.N.mask = 0xFF00FFFFFFFFFFFFFF ∧
  Format.V.mask = 0xFFFF00000000000000 ∧ Format.NV.mask = 0xFF0000000000000000 ∧
  Format.S.mask = 0xFFFFFFFFFFFFFFFF00 ∧ Format.C.mask = 0xFFFEFFFFFFFFFFFFFF ∧
  Format.CS.mask = 0xFFFEFFFFFFFFFFFF00 ∧ Format.CV.mask = 0xFFFE00000000000000 ∧
  Format.I.mask = 0xFFFFFFFFFFFFFFFE00 ∧
  ∀ (w : Word72) (i : Instr),
    w &&& i.format.mask = mkWord i.opcode 0 0 ↔ ∃ j, decode w = some j ∧ j.opcode = i.opcode

/-- Words written out from the spec's encoding are the commands they stand for (R91, R92, R94, R96; the examples of R102 and
of 47_system.md R310). -/
def Obligations.DecodedWords : Prop :=
  decode 0x010000000000000002 = some (.init .enc 2) ∧
  decode 0x010100000000000002 = some (.init .dec 2) ∧
  decode 0x100C00000000000000 = some (.brReadU 12) ∧
  decode 0x1F0000000000000064 = some (.brSkip 100) ∧
  decode 0x300500000000000015 = some (.bwWriteBits 5 0x15) ∧
  decode 0x420000000000000041 = some (.cxAppend .hist 0x41) ∧
  decode 0x500000000000000041 = some (.xsExclude 0x41) ∧
  decode 0x610100000000000000 = some (.mdGetList .work) ∧
  decode 0x700000000000000003 = some (.hfEncode 3) ∧
  decode 0x800000000000000041 = some (.encPut 0x41)

/-- R97: a word whose opcode is not in the map, or whose format's reserved bits are not all 0, is no command. In phase READY
it raises F_ILLEGAL_CMD; in the other phases it is refused. -/
def Obligations.IllegalWords : Prop :=
  (∀ w : Word72,
    ((opcOf w).toNat = 0x00 ∨ (0x03 ≤ (opcOf w).toNat ∧ (opcOf w).toNat ≤ 0x0F) ∨
      (0x24 ≤ (opcOf w).toNat ∧ (opcOf w).toNat ≤ 0x2F) ∨ (0x3D ≤ (opcOf w).toNat ∧ (opcOf w).toNat ≤ 0x3F) ∨
      (0x45 ≤ (opcOf w).toNat ∧ (opcOf w).toNat ≤ 0x4F) ∨ (0x54 ≤ (opcOf w).toNat ∧ (opcOf w).toNat ≤ 0x5F) ∨
      (0x6B ≤ (opcOf w).toNat ∧ (opcOf w).toNat ≤ 0x6F) ∨ (0x72 ≤ (opcOf w).toNat ∧ (opcOf w).toNat ≤ 0x7F) ∨
      0x84 ≤ (opcOf w).toNat) → decode w = none) ∧
  (∀ (w : Word72) (i : Instr), opcOf w = i.opcode → w &&& i.format.mask ≠ mkWord i.opcode 0 0 → decode w = none) ∧
  ∀ (s : State) (w : Word72) (rest : List HostInput), s.host = .command w :: rest → decode w = none →
    (s.phase = .ready → step s = .next (State.faultedBy { s with host := rest } .illegalCmd (opcOf w))) ∧
    (s.phase = .unconf → step s = .next (State.answered { s with host := rest } ⟨.refusedUnconf, 0, 0⟩)) ∧
    (s.phase = .closed → step s = .next (State.answered { s with host := rest } ⟨.refusedClosed, 0, 0⟩)) ∧
    (s.phase = .faulted → step s = .next (State.answered { s with host := rest } ⟨.refusedFaulted, 0, 0⟩))

/-! ## The step -/

/-- A step runs the command the presented word decodes to, on the state with that word taken (00_scope.md R3). -/
def Obligations.StepRunsDecoded : Prop :=
  ∀ (s : State) (w : Word72) (rest : List HostInput) (i : Instr), s.host = .command w :: rest → decode w = some i →
    step s = exec i { s with host := rest }

/-- What the host can do besides presenting a word. With nothing to take, nothing changes (70_reset_and_hazards.md R360).
Hardware reset leaves PHASE = UNCONF, FCODE = FCMD = 0 and touches neither the source nor the sink (10_state.md R44, R360).
A source may be presented in any phase, for the next stream (47_system.md R310): the run under way keeps its own (20_memory.md
R62), and the next INIT takes the one presented last (model's choice of when, assumption log 8). So every step has a next
state. -/
def Obligations.StepHostInputs : Prop :=
  (∀ s : State, s.host = [] → step s = .next s) ∧
  (∀ (s : State) (rest : List HostInput), s.host = .hwReset :: rest →
    ∃ t, step s = .next t ∧ t.phase = .unconf ∧ t.fcode = 0 ∧ t.fcmd = 0 ∧ t.src = s.src ∧ t.nextSrc = s.nextSrc ∧
      t.snk = s.snk ∧ t.rsps = s.rsps ∧ t.host = rest) ∧
  (∀ (s : State) (bytes : List Byte) (rest : List HostInput), s.host = .source bytes :: rest →
    step s = .next { s with host := rest, nextSrc := bytes }) ∧
  (∀ s : State, ∃ t, step s = .next t)

/-! ## Phases, refusals and faults (60_exceptions.md) -/

/-- R341: outside READY every word that is not a well-formed INIT or GET_STATUS is refused and changes nothing. -/
def Obligations.RefusedOutsideReady : Prop :=
  ∀ (s : State) (w : Word72) (rest : List HostInput), s.host = .command w :: rest →
    (∀ d m, decode w ≠ some (.init d m)) → (∀ p, decode w ≠ some (.getStatus p)) →
    (s.phase = .unconf → step s = .next (State.answered { s with host := rest } ⟨.refusedUnconf, 0, 0⟩)) ∧
    (s.phase = .closed → step s = .next (State.answered { s with host := rest } ⟨.refusedClosed, 0, 0⟩)) ∧
    (s.phase = .faulted → step s = .next (State.answered { s with host := rest } ⟨.refusedFaulted, 0, 0⟩))

/-- 30_encoding.md R98: a command of one direction issued to a block configured for the other raises F_ILLEGAL_CMD, whatever
its operands; in its own direction, and either way where the command is of both, no command does. -/
def Obligations.WrongDirection : Prop :=
  ∀ (i : Instr) (s : State), s.phase = .ready →
    (i.dirNeed.allows s.dir = false → exec i s = .next (s.faultedBy .illegalCmd i.opcode)) ∧
    (i.dirNeed.allows s.dir = true → ∀ t, exec i s = .next t → t.phase = .faulted → t.fcode ≠ 0x85)

/-- R323: a command that is decoded and of the configured direction faults only for a cause the rule lists for it; the
commands with no cause listed never fault. -/
def Obligations.FaultCauses : Prop :=
  ∀ (i : Instr) (s t : State), s.phase = .ready → i.dirNeed.allows s.dir = true → exec i s = .next t →
    t.phase = .faulted → ∃ f ∈ causesOf i, t.fcode = f.code

/-- R340: the phase after any word is the one the table gives for the phase before, the command and the answer; hardware
reset leaves UNCONF. -/
def Obligations.PhaseTransitions : Prop :=
  (∀ (s t : State) (w : Word72) (rest : List HostInput), s.host = .command w :: rest → step s = .next t →
    ∃ rsp, t.rsps = s.rsps ++ [rsp] ∧ t.phase = nextPhase s.phase (decode w) rsp.st) ∧
  ∀ (s : State) (rest : List HostInput), s.host = .hwReset :: rest → ∃ t, step s = .next t ∧ t.phase = .unconf

/-- R320, and 30_encoding.md R93: every word gets exactly one response; a refusal changes nothing else and carries zeros, a
fault leaves the block FAULTED and carries zeros, a status leaves the phase as it was. -/
def Obligations.OneResponse : Prop :=
  ∀ (s : State) (w : Word72) (rest : List HostInput), s.host = .command w :: rest →
    ∃ t rsp, step s = .next t ∧ t.rsps = s.rsps ++ [rsp] ∧ t.host = rest ∧
      (∀ st ∈ [Status.refusedUnconf, .refusedClosed, .refusedFaulted, .badConfig], rsp.st = st →
        rsp = ⟨st, 0, 0⟩ ∧ t = State.answered { s with host := rest } rsp) ∧
      (∀ f, rsp.st = .fault f → rsp = ⟨.fault f, 0, 0⟩ ∧ t.phase = .faulted) ∧
      (∀ st ∈ [Status.endOfData, .endOfStream, .notFound], rsp.st = st → t.phase = s.phase)

/-- R321: the status codes; bit 7 is 1 exactly for faults, bit 6 exactly for refusals. -/
def Obligations.StatusCodes : Prop :=
  Status.ok.code = 0x00 ∧ Status.endOfData.code = 0x01 ∧ Status.endOfStream.code = 0x02 ∧ Status.notFound.code = 0x03 ∧
  Status.refusedUnconf.code = 0x40 ∧ Status.refusedClosed.code = 0x41 ∧ Status.refusedFaulted.code = 0x42 ∧
  Status.badConfig.code = 0x43 ∧
  (Status.fault .outOfRange).code = 0x81 ∧ (Status.fault .illegalState).code = 0x82 ∧
  (Status.fault .protocol).code = 0x83 ∧ (Status.fault .truncated).code = 0x84 ∧
  (Status.fault .illegalCmd).code = 0x85 ∧ (Status.fault .nodePoolFull).code = 0x86 ∧
  (Status.fault .countOverflow).code = 0x87 ∧
  ∀ st : Status, (st.code.getLsbD 7 = true ↔ ∃ f, st = .fault f) ∧
    (st.code.getLsbD 6 = true ↔ st ∈ [Status.refusedUnconf, .refusedClosed, .refusedFaulted, .badConfig])

/-- R330, R331: a fault latches its code and the opcode byte of the word, answers (code, 0, 0), leaves CFG as it was and
retracts nothing from the sink, which has gained bytes at most. The faults of a check at the top of a command change
nothing else at all. -/
def Obligations.FaultEntry : Prop :=
  ∀ (s t : State) (w : Word72) (rest : List HostInput), s.host = .command w :: rest → s.phase = .ready →
    step s = .next t → t.phase = .faulted →
    ∃ f : FaultKind, t.fcode = f.code ∧ t.fcmd = opcOf w ∧ t.rsps = s.rsps ++ [⟨.fault f, 0, 0⟩] ∧
      t.dir = s.dir ∧ t.maxOrder = s.maxOrder ∧ (∃ l : List Byte, t.snk = s.snk ++ l.map .byte) ∧
      (f ∈ [FaultKind.outOfRange, .illegalState, .illegalCmd] →
        t = State.faultedBy { s with host := rest } f (opcOf w))

/-- R333, and 10_state.md R26: a block leaves FAULTED only by INIT or hardware reset, both of which clear the latches; until
then the latches hold. -/
def Obligations.LeavingFaulted : Prop :=
  ∀ s t : State, s.phase = .faulted → step s = .next t →
    (t.phase = .faulted ∧ t.fcode = s.fcode ∧ t.fcmd = s.fcmd) ∨
    (t.phase = .ready ∧ t.fcode = 0 ∧ t.fcmd = 0 ∧
      ∃ w rest d m, s.host = .command w :: rest ∧ decode w = some (.init d m)) ∨
    (t.phase = .unconf ∧ t.fcode = 0 ∧ t.fcmd = 0 ∧ ∃ rest, s.host = .hwReset :: rest)

/-- What no command changes: CFG is written by INIT only (10_state.md R25), the source is only read (R42): that of a run is
fixed for the run (20_memory.md R62), and INIT, which starts one, leaves what the host presents as it is (47_system.md
R310). The sink is only appended to, and by a configured encoder alone (R43, 20_memory.md R63). -/
def Obligations.CommandFrame : Prop :=
  ∀ (i : Instr) (s t : State), exec i s = .next t →
    t.par = s.par ∧ t.nextSrc = s.nextSrc ∧ t.host = s.host ∧
    ((∀ d m, i ≠ .init d m) → t.dir = s.dir ∧ t.maxOrder = s.maxOrder ∧ t.src = s.src) ∧
    ∃ l : List SinkEvent, t.snk = s.snk ++ l ∧ (l ≠ [] → s.phase = .ready ∧ s.dir = .enc)

/-! ## Invariants (10_state.md) -/

/-- The state after hardware reset, with the values the model chose for the elements 10_state.md R44 leaves unspecified
(assumption logs 1, 2, 8, 9), has the invariant. -/
def Obligations.ResetInv : Prop := State.reset.Inv

/-- The bit buffers stay within R27's 7 and R28's 63 bits, and SPOS does not fall below MSPOS (R30, 00_scope.md R13). After a
hardware reset R44 leaves WBUF, RBUF and the mark unspecified, and after a fault taken part-way 60_exceptions.md R331 does;
there the clause is the model's choice (assumption logs 1 and 11). -/
def Obligations.BuffersKept : Prop := ∀ s t : State, s.BuffersOk → step s = .next t → t.BuffersOk

/-- R38's invariants of the trie, with R35's and R36's, are kept by every step. After a hardware reset R44 leaves the trie
unspecified, and after a fault taken part-way 60_exceptions.md R331 does; there the clause is the model's choice (assumption
logs 1 and 11). -/
def Obligations.TrieKept : Prop := ∀ s t : State, s.TrieOk → step s = .next t → t.TrieOk

/-- All that Inv says (R25 to R40) is kept by every step. After a hardware reset R44 gives only PHASE, FCODE and FCMD, and after
a fault taken part-way 60_exceptions.md R331 leaves the state of the components unspecified; there the invariant rests on the
model's values (assumption logs 1 and 11). -/
def Obligations.InvKept : Prop := ∀ s t : State, s.Inv → step s = .next t → t.Inv

/-- 40_bit_reader.md R144 as what each command keeps: where at most 7 bits are buffered, now and at the mark, that is so
after any command but one that returned END_OF_DATA. -/
def Obligations.ReaderStaysShort : Prop :=
  (∀ (d : Dir) (m : Wide) (s t : State), m.toNat ≤ s.par.orderCap → exec (.init d m) s = .next t → t.readerShort) ∧
  ∀ (i : Instr) (s t : State), s.readerShort → exec i s = .next t →
    (∀ rsp, t.rsps = s.rsps ++ [rsp] → rsp.st ≠ .endOfData) → t.readerShort

/-! ## The bit reader (40_bit_reader.md) -/

/-- R124: BR_READ_U. -/
def Obligations.ReadUnsigned : Prop :=
  ∀ (n : BitVec 8) (s : State), s.decReady →
    Row (.brReadU n) 0x10 .N (.only .dec) ∧
    (56 < n.toNat → exec (.brReadU n) s = .next (s.faultedBy .outOfRange 0x10)) ∧
    (n.toNat ≤ 56 → n.toNat ≤ s.remaining.length →
      ∃ t, exec (.brReadU n) s = .next t ∧
        OnlyReader s t ⟨.ok, n, BitVec.ofNat 56 (bitsVal (s.remaining.take n.toNat))⟩ ∧ Consumes s t n.toNat) ∧
    (n.toNat ≤ 56 → s.remaining.length < n.toNat →
      ∃ t, exec (.brReadU n) s = .next t ∧
        OnlyReader s t ⟨.endOfData, BitVec.ofNat 8 s.remaining.length, 0⟩ ∧ RanOut s t)

/-- R125: BR_READ_S. -/
def Obligations.ReadSigned : Prop :=
  ∀ (n : BitVec 8) (s : State), s.decReady →
    Row (.brReadS n) 0x11 .N (.only .dec) ∧
    (56 < n.toNat → exec (.brReadS n) s = .next (s.faultedBy .outOfRange 0x11)) ∧
    (n.toNat ≤ 56 → n.toNat ≤ s.remaining.length →
      ∃ t, exec (.brReadS n) s = .next t ∧
        OnlyReader s t ⟨.ok, n, signed56 n.toNat (bitsVal (s.remaining.take n.toNat))⟩ ∧ Consumes s t n.toNat) ∧
    (n.toNat ≤ 56 → s.remaining.length < n.toNat →
      ∃ t, exec (.brReadS n) s = .next t ∧
        OnlyReader s t ⟨.endOfData, BitVec.ofNat 8 s.remaining.length, 0⟩ ∧ RanOut s t)

/-- R126 to R136: the one-bit read and the ten fixed-width reads. -/
def Obligations.FixedReads : Prop :=
  Row .brReadBit 0x12 .Z (.only .dec) ∧ Row .brReadU8 0x13 .Z (.only .dec) ∧ Row .brReadS8 0x14 .Z (.only .dec) ∧
  Row .brReadU16BE 0x15 .Z (.only .dec) ∧ Row .brReadU16LE 0x16 .Z (.only .dec) ∧
  Row .brReadS16BE 0x17 .Z (.only .dec) ∧ Row .brReadS16LE 0x18 .Z (.only .dec) ∧
  Row .brReadU32BE 0x19 .Z (.only .dec) ∧ Row .brReadU32LE 0x1A .Z (.only .dec) ∧
  Row .brReadS32BE 0x1B .Z (.only .dec) ∧ Row .brReadS32LE 0x1C .Z (.only .dec) ∧
  ∀ (i : Instr) (k : Nat) (val : List Bool → Wide), fixedRead i = some (k, val) → ∀ s : State, s.decReady →
    (k ≤ s.remaining.length →
      ∃ t, exec i s = .next t ∧ OnlyReader s t ⟨.ok, BitVec.ofNat 8 k, val (s.remaining.take k)⟩ ∧ Consumes s t k) ∧
    (s.remaining.length < k →
      ∃ t, exec i s = .next t ∧ OnlyReader s t ⟨.endOfData, BitVec.ofNat 8 s.remaining.length, 0⟩ ∧ RanOut s t)

/-- R137, R138, R143: BR_ALIGN, BR_COUNT, BR_IS_ALIGNED. -/
def Obligations.AlignAndCount : Prop :=
  Row .brAlign 0x1D .Z (.only .dec) ∧ Row .brCount 0x1E .Z (.only .dec) ∧ Row .brIsAligned 0x23 .Z (.only .dec) ∧
  ∀ s : State, s.decReady →
    exec .brAlign s = .next (State.answered { s with rbuf := s.rbuf.drop (s.rbuf.length % 8) }
      ⟨.ok, BitVec.ofNat 8 (s.rbuf.length % 8), BitVec.ofNat 56 (bitsVal (s.rbuf.take (s.rbuf.length % 8)))⟩) ∧
    exec .brCount s = .next (s.answered ⟨.ok, 0, BitVec.ofNat 56 s.rbuf.length⟩) ∧
    exec .brIsAligned s = .next (s.answered ⟨.ok, 0, if s.rbuf.length % 8 = 0 then 1 else 0⟩)

/-- R139: BR_SKIP. -/
def Obligations.Skip : Prop :=
  ∀ (k : Wide) (s : State), s.decReady →
    Row (.brSkip k) 0x1F .V (.only .dec) ∧
    ∃ t, exec (.brSkip k) s = .next t ∧
      OnlyReader s t ⟨.ok, 0, BitVec.ofNat 56 (min k.toNat s.remaining.length)⟩ ∧
      Consumes s t (min k.toNat s.remaining.length)

/-- R140: BR_READ_BYTE. -/
def Obligations.ReadByte : Prop :=
  Row .brReadByte 0x20 .Z (.only .dec) ∧
  ∀ s : State, s.decReady →
    (0 < s.remaining.length →
      ∃ t, exec .brReadByte s = .next t ∧
        OnlyReader s t ⟨.ok, BitVec.ofNat 8 (min 8 s.remaining.length),
          BitVec.ofNat 56 (bitsVal (s.remaining.take (min 8 s.remaining.length)))⟩ ∧
        Consumes s t (min 8 s.remaining.length)) ∧
    (s.remaining.length = 0 → exec .brReadByte s = .next (s.answered ⟨.endOfData, 0, 0⟩))

/-- R141, R142: BR_MARK and BR_RESET; after a reset the bits that remain are what they were at the mark. -/
def Obligations.MarkAndReset : Prop :=
  (∀ (limit : Wide) (s : State), s.decReady →
    Row (.brMark limit) 0x21 .V (.only .dec) ∧
    exec (.brMark limit) s = .next (State.answered { s with mark := some ⟨s.spos, s.rbuf, limit⟩ } ⟨.ok, 0, 0⟩)) ∧
  (∀ s : State, s.decReady →
    Row .brReset 0x22 .Z (.only .dec) ∧
    (s.mark = none → exec .brReset s = .next (s.faultedBy .illegalState 0x22)) ∧
    ∀ mk, s.mark = some mk →
      (mk.limit.toNat < s.spos - mk.spos → exec .brReset s = .next (s.faultedBy .illegalState 0x22)) ∧
      (s.spos - mk.spos ≤ mk.limit.toNat →
        exec .brReset s = .next (State.answered { s with spos := mk.spos, rbuf := mk.rbuf } ⟨.ok, 0, 0⟩))) ∧
  ∀ (limit : Wide) (s t u v : State), s.decReady → exec (.brMark limit) s = .next t → u.decReady → u.mark = t.mark →
    u.src = s.src → exec .brReset u = .next v → v.phase = .ready → v.remaining = s.remaining

/-! ## The bit writer (41_bit_writer.md) -/

/-- R163: BW_WRITE_BITS. -/
def Obligations.WriteBits : Prop :=
  ∀ (n : BitVec 8) (v : Wide) (s : State), s.encReady → s.wbuf.length ≤ 7 →
    Row (.bwWriteBits n v) 0x30 .NV (.only .enc) ∧
    (56 < n.toNat → exec (.bwWriteBits n v) s = .next (s.faultedBy .outOfRange 0x30)) ∧
    (n.toNat ≤ 56 →
      ∃ t, exec (.bwWriteBits n v) s = .next t ∧ OnlyWriter s t ⟨.ok, n, 0⟩ ∧ Writes s t (fieldBits v 0 n.toNat))

/-- R164 to R169: the one-bit write and the five fixed-width writes. -/
def Obligations.FixedWrites : Prop :=
  (∀ v : Wide, Row (.bwWriteBit v) 0x31 .V (.only .enc) ∧ Row (.bwWrite8 v) 0x32 .V (.only .enc) ∧
    Row (.bwWrite16BE v) 0x33 .V (.only .enc) ∧ Row (.bwWrite16LE v) 0x34 .V (.only .enc) ∧
    Row (.bwWrite32BE v) 0x35 .V (.only .enc) ∧ Row (.bwWrite32LE v) 0x36 .V (.only .enc)) ∧
  ∀ (i : Instr) (bs : List Bool), fixedWrite i = some bs → ∀ s : State, s.encReady → s.wbuf.length ≤ 7 →
    ∃ t, exec i s = .next t ∧ OnlyWriter s t ⟨.ok, BitVec.ofNat 8 bs.length, 0⟩ ∧ Writes s t bs

/-- R176, R177, R179, R180: BW_PAD, BW_DISCARD, BW_PAD_FLUSH, BW_CLOSE. With `k` bits waiting the pad is (8 - k) mod 8 zero
bits, and where it is not empty it completes one byte. -/
def Obligations.PadAndClose : Prop :=
  Row .bwPad 0x37 .Z (.only .enc) ∧ Row .bwDiscard 0x38 .Z (.only .enc) ∧ Row .bwPadFlush 0x3A .Z (.only .enc) ∧
  Row .bwClose 0x3B .Z (.only .enc) ∧
  ∀ s : State, s.encReady → s.wbuf.length ≤ 7 →
    exec .bwDiscard s = .next (State.answered { s with wbuf := [] } ⟨.ok, BitVec.ofNat 8 s.wbuf.length, 0⟩) ∧
    ∃ l : List Byte,
      (s.wbuf = [] → l = []) ∧
      (s.wbuf ≠ [] → ∃ b, l = [b] ∧ byteBits b = s.wbuf ++ List.replicate (8 - s.wbuf.length) false) ∧
      exec .bwPad s = .next (State.answered { s with wbuf := [], snk := s.snk ++ l.map .byte }
        ⟨.ok, BitVec.ofNat 8 ((8 - s.wbuf.length) % 8), 0⟩) ∧
      exec .bwPadFlush s = .next (State.answered { s with wbuf := [], snk := s.snk ++ l.map .byte ++ [.flush] }
        ⟨.ok, BitVec.ofNat 8 ((8 - s.wbuf.length) % 8), 0⟩) ∧
      exec .bwClose s = .next (State.answered
        { s with wbuf := [], snk := s.snk ++ l.map .byte ++ [.flush, .close], phase := .closed }
        ⟨.ok, BitVec.ofNat 8 ((8 - s.wbuf.length) % 8), 0⟩)

/-- R178, R181: BW_FLUSH and BW_IS_ALIGNED. -/
def Obligations.FlushWhenAligned : Prop :=
  Row .bwFlush 0x39 .Z (.only .enc) ∧ Row .bwIsAligned 0x3C .Z (.only .enc) ∧
  ∀ s : State, s.encReady →
    (s.wbuf = [] → exec .bwFlush s = .next (State.answered { s with snk := s.snk ++ [.flush] } ⟨.ok, 0, 0⟩)) ∧
    (s.wbuf ≠ [] → exec .bwFlush s = .next (s.faultedBy .illegalState 0x39)) ∧
    exec .bwIsAligned s = .next (s.answered ⟨.ok, 0, if s.wbuf.length = 0 then 1 else 0⟩)

/-- R182: what an encoder writes with BW_WRITE_BITS and pads, a decoder over the bytes of its sink reads back with
BR_READ_U. -/
def Obligations.WriteThenRead : Prop :=
  ∀ (s d : State) (m m' : Wide) (ws : List (BitVec 8 × Wide)), m.toNat ≤ s.par.orderCap → m'.toNat ≤ d.par.orderCap →
    (∀ x ∈ ws, x.1.toNat ≤ 56) →
    d.nextSrc = bytesOf ((s.after (.init .enc m :: (ws.map fun x => .bwWriteBits x.1 x.2) ++ [.bwPad])).snk.drop s.snk.length) →
    (d.after (.init .dec m' :: ws.map fun x => .brReadU x.1)).rsps =
      d.rsps ++ ⟨.ok, 0, 0⟩ :: ws.map fun x => ⟨.ok, x.1, BitVec.ofNat 56 (x.2.toNat % 2 ^ x.1.toNat)⟩

/-! ## The contexts (42_context.md) -/

/-- R192, R195: CX_ORDER and CX_GETAT. -/
def Obligations.ContextReads : Prop :=
  ∀ (c : Sel) (k : Wide) (s : State), s.phase = .ready →
    Row (.cxOrder c) 0x40 .C .any ∧ Row (.cxGetAt c k) 0x43 .CV .any ∧
    exec (.cxOrder c) s = .next (s.answered ⟨.ok, 0, BitVec.ofNat 56 (s.ctx c).length⟩) ∧
    (∀ sym, (s.ctx c)[k.toNat]? = some sym →
      exec (.cxGetAt c k) s = .next (s.answered ⟨.ok, 0, sym.zeroExtend 56⟩)) ∧
    ((s.ctx c).length ≤ k.toNat → exec (.cxGetAt c k) s = .next (s.faultedBy .outOfRange 0x43))

/-- R193, R194, R196, by R190 and R191: CX_DROP, CX_APPEND, CX_CLONE. -/
def Obligations.ContextWrites : Prop :=
  ∀ (c : Sel) (sym : Sym) (s : State), s.phase = .ready →
    Row (.cxDrop c) 0x41 .C .any ∧ Row (.cxAppend c sym) 0x42 .CS .any ∧ Row .cxClone 0x44 .Z .any ∧
    (s.ctx c = [] → exec (.cxDrop c) s = .next (s.faultedBy .outOfRange 0x41)) ∧
    (∀ x X, s.ctx c = x :: X → exec (.cxDrop c) s = .next ((s.withCtx c X).answered ⟨.ok, 0, 0⟩)) ∧
    (s.maxOrder.toNat = 0 → exec (.cxAppend c sym) s = .next (s.answered ⟨.ok, 0, 0⟩)) ∧
    (∀ x X, s.ctx c = x :: X → (s.ctx c).length = s.maxOrder.toNat →
      exec (.cxAppend c sym) s = .next ((s.withCtx c (X ++ [sym])).answered ⟨.ok, 0, 0⟩)) ∧
    (s.maxOrder.toNat ≠ 0 → (s.ctx c).length ≠ s.maxOrder.toNat →
      exec (.cxAppend c sym) s = .next ((s.withCtx c (s.ctx c ++ [sym])).answered ⟨.ok, 0, 0⟩)) ∧
    exec .cxClone s = .next (State.answered { s with wctx := s.hist } ⟨.ok, 0, 0⟩)

/-- R197: a context that was empty holds, after appends alone, the last symbols appended, as many as fit; and no command
makes a context longer than MAXORDER. -/
def Obligations.WindowBound : Prop :=
  (∀ (c : Sel) (syms : List Sym) (s : State), s.phase = .ready → s.ctx c = [] →
    (s.after (syms.map (.cxAppend c ·))).ctx c = syms.drop (syms.length - s.maxOrder.toNat)) ∧
  ∀ (i : Instr) (s t : State) (c : Sel), s.ContextsOk → exec i s = .next t → (t.ctx c).length ≤ t.maxOrder.toNat

/-! ## The exclusion set (43_exclusion_set.md) -/

/-- R211 to R214, by R210: the four commands of the exclusion set. -/
def Obligations.ExclusionCommands : Prop :=
  ∀ (sym : Sym) (s : State), s.phase = .ready → s.XsetOk →
    Row (.xsExclude sym) 0x50 .S .any ∧ Row (.xsIsExcluded sym) 0x51 .S .any ∧ Row .xsClear 0x52 .Z .any ∧
    Row .xsCount 0x53 .Z .any ∧
    (s.xbits.getLsbD sym.toNat = true → exec (.xsExclude sym) s = .next (s.answered ⟨.ok, 0, 0⟩)) ∧
    (s.xbits.getLsbD sym.toNat = false →
      exec (.xsExclude sym) s = .next (State.answered
        { s with xbits := s.xbits ||| BitVec.twoPow 256 sym.toNat, xcount := s.xcount + 1 } ⟨.ok, 0, 0⟩)) ∧
    exec (.xsIsExcluded sym) s = .next (s.answered ⟨.ok, 0, if s.xbits.getLsbD sym.toNat then 1 else 0⟩) ∧
    exec .xsClear s = .next (State.answered { s with xbits := 0, xcount := 0 } ⟨.ok, 0, 0⟩) ∧
    exec .xsCount s = .next (s.answered ⟨.ok, 0, BitVec.ofNat 56 s.xcount⟩)

/-- R215: between two clearings no member leaves the set and the count does not fall. The commands that clear the set are
INIT, XS_CLEAR and, once at its start, a cascade. -/
def Obligations.ExclusionMonotone : Prop :=
  ∀ (i : Instr) (s t : State), exec i s = .next t → (∀ d m, i ≠ .init d m) → i ≠ .xsClear → (∀ sym, i ≠ .encPut sym) →
    i ≠ .encClose → i ≠ .decGet →
    s.xcount ≤ t.xcount ∧ ∀ k, s.xbits.getLsbD k = true → t.xbits.getLsbD k = true

/-! ## The model and the candidate list (44_model.md) -/

/-- R221, R222, R223: MD_ADD, where the pool has room and no count is at its maximum. The missing nodes are made for the
lengths of the suffixes ascending and on each path from the root down, with rising indices, which is their order among their
siblings and in the candidate lists. The result is NALLOC where it fits its field. -/
def Obligations.AddCounts : Prop :=
  ∀ (c : Sel) (sym : Sym) (s : State), s.phase = .ready → s.TrieOk → s.canAdd (s.ctx c) sym →
    Row (.mdAdd c sym) 0x60 .CS .any ∧
    ∃ ms r, exec (.mdAdd c sym) s = .next (State.answered { s with nodes := ms } ⟨.ok, 0, r⟩) ∧
      AddedTo s.nodes (s.ctx c) sym ms ∧ (ms.length < 2 ^ 56 → r = BitVec.ofNat 56 ms.length)

/-- R221, R222, and 45_cascade.md R263: where the pool has no room for a node ModelAdd has to make, or a count it has to raise
is at its maximum, MD_ADD faults with F_NODE_POOL_FULL or F_COUNT_OVERFLOW, and so do ENC_PUT of the symbol and a DEC_GET
that has decoded it. -/
def Obligations.AddStops : Prop :=
  ∀ (sym : Sym) (s : State),
    (∀ c : Sel, s.phase = .ready → s.TrieOk → ¬ s.canAdd (s.ctx c) sym →
      ∃ t, exec (.mdAdd c sym) s = .next t ∧ AddFault s t (s.ctx c) sym 0x60) ∧
    (s.encReady → s.Inv → suffixesResolve s.nodes s.hist → ¬ s.canAdd s.hist sym →
      ∃ t, exec (.encPut sym) s = .next t ∧ AddFault s t s.hist sym 0x80) ∧
    (s.decReady → s.Inv → s.eosSeen = false → suffixesResolve s.nodes s.hist → ¬ s.canAdd s.hist sym →
      s.codeBits (.symbol sym) <+: s.remaining →
      ∃ t, exec .decGet s = .next t ∧ AddFault s t s.hist sym 0x82)

/-- R225, by R224: MD_GETLIST. -/
def Obligations.GetList : Prop :=
  ∀ (c : Sel) (s : State), s.phase = .ready → s.TrieOk →
    Row (.mdGetList c) 0x61 .C .any ∧
    (pathNode s.nodes (s.ctx c) = none →
      exec (.mdGetList c) s = .next (State.answered { s with cl := [], clnull := true } ⟨.notFound, 0, 0⟩)) ∧
    ∀ p, pathNode s.nodes (s.ctx c) = some p → ∃ l : List (Sym × Nat),
      exec (.mdGetList c) s = .next (State.answered
        { s with cl := (l.map fun x => .sym x.1 (some x.2)) ++ [.esc], clnull := false }
        ⟨.ok, 0, BitVec.ofNat 56 (l.length + 1)⟩) ∧
      l.length ≤ 256 ∧
      (∀ t q, (t, q) ∈ l ↔ pathNode s.nodes (s.ctx c ++ [t]) = some q ∧ s.xbits.getLsbD t.toNat = false) ∧
      (l.map Prod.snd).Pairwise (· < ·)

/-- R227, by R226: MD_GETUNIFORM. -/
def Obligations.GetUniform : Prop :=
  ∀ s : State, s.phase = .ready → s.XsetOk →
    Row .mdGetUniform 0x62 .Z .any ∧ ∃ l : List Sym,
      exec .mdGetUniform s = .next (State.answered
        { s with cl := (l.map fun t => .sym t none) ++ [.esc, .eos], clnull := false }
        ⟨.ok, 0, BitVec.ofNat 56 (258 - s.xcount)⟩) ∧
      l.length + s.xcount = 256 ∧ (∀ t, t ∈ l ↔ s.xbits.getLsbD t.toNat = false) ∧
      l.Pairwise (fun a b => a.toNat < b.toNat)

/-- R229 to R231, by R228: MD_FIND_SYM, MD_FIND_ESC, MD_FIND_EOS. -/
def Obligations.FindCommands : Prop :=
  ∀ (sym : Sym) (s : State), s.phase = .ready →
    Row (.mdFindSym sym) 0x63 .S .any ∧ Row .mdFindEsc 0x64 .Z .any ∧ Row .mdFindEos 0x65 .Z .any ∧
    Finds (.mdFindSym sym) (fun e => ∃ q, e = .sym sym q) s ∧ Finds .mdFindEsc (· = .esc) s ∧ Finds .mdFindEos (· = .eos) s

/-- R233, by R232: MD_EXCLUDE_ALL. -/
def Obligations.ExcludeAll : Prop :=
  ∀ s : State, s.phase = .ready → s.XsetOk →
    Row .mdExcludeAll 0x66 .Z .any ∧ ∃ (b : BitVec 256) (n : Nat),
      exec .mdExcludeAll s = .next (State.answered { s with xbits := b, xcount := n } ⟨.ok, 0, BitVec.ofNat 56 n⟩) ∧
      (∀ t : Sym, b.getLsbD t.toNat = true ↔ s.xbits.getLsbD t.toNat = true ∨ ∃ q, Cand.sym t q ∈ s.cl) ∧
      n = (XSet.mk b n).ones

/-- R234 to R237: MD_IS_ESC, MD_IS_EOS, CL_LEN, CL_GET. The weight of a candidate is its node's present count, or 1
(10_state.md R39). -/
def Obligations.CandidateReads : Prop :=
  ∀ (idx : BitVec 9) (s : State), s.phase = .ready → s.TrieOk → s.ListOk →
    Row (.mdIsEsc idx) 0x67 .I .any ∧ Row (.mdIsEos idx) 0x68 .I .any ∧ Row .clLen 0x69 .Z .any ∧
    Row (.clGet idx) 0x6A .I .any ∧
    (s.cl.length ≤ idx.toNat →
      exec (.mdIsEsc idx) s = .next (s.faultedBy .outOfRange 0x67) ∧
      exec (.mdIsEos idx) s = .next (s.faultedBy .outOfRange 0x68) ∧
      exec (.clGet idx) s = .next (s.faultedBy .outOfRange 0x6A)) ∧
    (∀ e, s.cl[idx.toNat]? = some e →
      exec (.mdIsEsc idx) s = .next (s.answered ⟨.ok, 0, if e = .esc then 1 else 0⟩) ∧
      exec (.mdIsEos idx) s = .next (s.answered ⟨.ok, 0, if e = .eos then 1 else 0⟩) ∧
      ∃ kind r, exec (.clGet idx) s = .next (s.answered ⟨.ok, kind, r⟩) ∧
        (∀ t q, e = .sym t (some q) → kind = 0 ∧ r.toNat = 2 ^ 8 * (nodeAt s.nodes q).count + t.toNat) ∧
        (∀ t, e = .sym t none → kind = 0 ∧ r.toNat = 2 ^ 8 * 1 + t.toNat) ∧
        (e = .esc → kind = 1 ∧ r.toNat = 2 ^ 8 * 1) ∧ (e = .eos → kind = 2 ∧ r.toNat = 2 ^ 8 * 1)) ∧
    (s.clnull = false → exec .clLen s = .next (s.answered ⟨.ok, 0, BitVec.ofNat 56 s.cl.length⟩)) ∧
    (s.clnull = true → exec .clLen s = .next (s.answered ⟨.notFound, 0, 0⟩))

/-- R238: where every suffix of HIST leads to a node, as it does after INIT, it does so after every symbol an ENC_PUT or a
DEC_GET resolves. -/
def Obligations.NoUnseenContext : Prop :=
  (∀ (d : Dir) (m : Wide) (s t : State), m.toNat ≤ s.par.orderCap → exec (.init d m) s = .next t →
    suffixesResolve t.nodes t.hist) ∧
  ∀ (i : Instr) (s t : State), ((∃ sym, i = .encPut sym) ∨ i = .decGet) → s.Inv → suffixesResolve s.nodes s.hist →
    exec i s = .next t → t.phase = .ready → suffixesResolve t.nodes t.hist

/-! ## The Huffman decision coder (46_huffman.md) -/

/-- Paths of the table of R301, computed by R291 and R294. -/
def Obligations.PathTable : Prop :=
  let paths (ws : List Nat) := (huffBuild ws).map fun t => (List.range ws.length).map t.path
  paths [1] = some [some []] ∧
  paths [1, 1] = some [some [false], some [true]] ∧
  paths [2, 1] = some [some [true], some [false]] ∧
  paths [0, 1] = some [some [false], some [true]] ∧
  paths [1, 1, 1] = some [some [true, false], some [true, true], some [false]] ∧
  paths [2, 1, 1] = some [some [false], some [true, false], some [true, true]] ∧
  paths [1, 2, 1] = some [some [true, false], some [false], some [true, true]] ∧
  paths [2, 2, 1] = some [some [true, true], some [false], some [true, false]] ∧
  paths [1, 1, 1, 1] = some [some [false, false], some [false, true], some [true, false], some [true, true]] ∧
  paths [3, 1, 1, 1] = some [some [false], some [true, true, false], some [true, true, true], some [true, false]] ∧
  paths [1, 2, 3, 4] = some [some [true, true, false], some [true, true, true], some [true, false], some [false]]

/-- R293, R300: one candidate has the empty path; of two or more, every path has 1 to L - 1 bits, and no path is the
beginning of another's. And R291, R292, R294, for every list and so for every sequence of weights: the path of candidate i
leads, 0 to the left and 1 to the right, to leaf i of the one tree that is made by merging again and again the two nodes of
the least weight, and at equal weights of the least index, the first removed to the left. -/
def Obligations.PathShape : Prop :=
  ∀ s : State,
    (s.cl.length = 1 → s.huffPath 0 = []) ∧
    (2 ≤ s.cl.length → ∀ i < s.cl.length, 1 ≤ (s.huffPath i).length ∧ (s.huffPath i).length ≤ s.cl.length - 1) ∧
    (∀ i < s.cl.length, ∀ j < s.cl.length, s.huffPath i <+: s.huffPath j → i = j) ∧
    (s.cl ≠ [] → ∃ t, IsTreeOf (s.cl.map s.weight) t ∧ ∀ i < s.cl.length, t.follow (s.huffPath i) = some (.leaf i))

/-- R297: HF_ENCODE. -/
def Obligations.HuffEncodes : Prop :=
  ∀ (idx : BitVec 9) (s : State), s.encReady → s.wbuf.length ≤ 7 →
    Row (.hfEncode idx) 0x70 .I (.only .enc) ∧
    (s.cl.length ≤ idx.toNat → exec (.hfEncode idx) s = .next (s.faultedBy .outOfRange 0x70)) ∧
    (idx.toNat < s.cl.length →
      ∃ t, exec (.hfEncode idx) s = .next t ∧
        OnlyWriter s t ⟨.ok, 0, BitVec.ofNat 56 (s.huffPath idx.toNat).length⟩ ∧ Writes s t (s.huffPath idx.toNat))

/-- R299, by R298: HF_DECODE. It returns the candidate whose path the bits that remain begin with, has consumed exactly that path
and pulled no byte it did not need, and faults where the bits end inside a path. -/
def Obligations.HuffDecodes : Prop :=
  Row .hfDecode 0x71 .Z (.only .dec) ∧
  ∀ s : State, s.decReady →
    (s.cl = [] → exec .hfDecode s = .next (s.faultedBy .illegalState 0x71)) ∧
    (∀ i e rest, s.cl[i]? = some e → s.remaining = s.huffPath i ++ rest →
      ∃ t, exec .hfDecode s = .next t ∧ OnlyReader s t ⟨.ok, BitVec.ofNat 8 e.kind, BitVec.ofNat 56 i⟩ ∧
        Consumes s t (s.huffPath i).length ∧ t.remaining = rest) ∧
    (∀ i b bs, i < s.cl.length → s.huffPath i = s.remaining ++ b :: bs →
      ∃ t, exec .hfDecode s = .next t ∧ t.phase = .faulted ∧ t.fcode = 0x84 ∧ t.fcmd = 0x71)

/-- R300: what HF_ENCODE writes for a candidate, HF_DECODE on the same list and counts reads back as that candidate, and
consumes exactly that. -/
def Obligations.Mirror : Prop :=
  ∀ (e d : State) (idx : BitVec 9) (rest : List Bool), e.encReady → e.wbuf.length ≤ 7 → idx.toNat < e.cl.length →
    d.decReady → d.cl = e.cl → d.nodes = e.nodes →
    ∃ t bits, exec (.hfEncode idx) e = .next t ∧ t.written = e.written ++ bits ∧
      (d.remaining = bits ++ rest →
        ∃ u kind, exec .hfDecode d = .next u ∧ OnlyReader d u ⟨.ok, kind, BitVec.ofNat 56 idx.toNat⟩ ∧
          Consumes d u bits.length ∧ u.remaining = rest)

/-! ## The codec (45_cascade.md) -/

/-- R265, by R261 to R264: ENC_PUT completes where the trie holds every suffix of HIST and has room for the symbol. It
writes the paths of its decisions (R274): at each order from HIST downward the symbol where the list offers it, else ESC,
every symbol of an escaped list being excluded at the levels below, and last the uniform level. It counts the symbol in the
model, appends it to HIST, and leaves the rest of the block alone but for what a cascade works on, which it leaves as R265
says. -/
def Obligations.EncodePut : Prop :=
  ∀ (sym : Sym) (s : State), s.encReady → s.Inv → suffixesResolve s.nodes s.hist → s.canAdd s.hist sym →
    Row (.encPut sym) 0x80 .S (.only .enc) ∧
    ∃ t, exec (.encPut sym) s = .next t ∧ Writes s t (s.codeBits (.symbol sym)) ∧ AddedTo s.nodes s.hist sym t.nodes ∧
      (s.maxOrder.toNat = 0 → t.hist = s.hist) ∧
      (s.maxOrder.toNat ≠ 0 → s.hist.length ≠ s.maxOrder.toNat → t.hist = s.hist ++ [sym]) ∧
      (s.maxOrder.toNat ≠ 0 → s.hist.length = s.maxOrder.toNat → t.hist = s.hist.tail ++ [sym]) ∧
      LeftBy s t (s.decisions (.symbol sym)) ∧
      t = { s with
        wbuf := t.wbuf, snk := t.snk, hist := t.hist, wctx := t.wctx, xbits := t.xbits, xcount := t.xcount
        nodes := t.nodes, cl := t.cl, clnull := t.clnull, rsps := s.rsps ++ [⟨.ok, 0, 0⟩] }

/-- R267: ENC_CLOSE completes where the trie holds every suffix of HIST. It writes the paths of the closing cascade's
decisions (R274), ESC at each order from HIST downward and the end of the stream at the uniform level, and then the (8 - k)
mod 8 zero bits of the pad where k bits wait; it flushes and closes the sink and leaves the model and HIST alone. -/
def Obligations.EncodeClose : Prop :=
  ∀ s : State, s.encReady → s.Inv → suffixesResolve s.nodes s.hist →
    Row .encClose 0x81 .Z (.only .enc) ∧
    ∃ t pad, exec .encClose s = .next t ∧
      pad = (8 - (s.wbuf.length + (s.codeBits .endOfStream).length) % 8) % 8 ∧ t.wbuf = [] ∧ t.phase = .closed ∧
      t.written = s.written ++ s.codeBits .endOfStream ++ List.replicate pad false ∧
      (∃ l : List Byte, t.snk = s.snk ++ l.map .byte ++ [.flush, .close]) ∧
      LeftBy s t (s.decisions .endOfStream) ∧
      t = { s with
        phase := .closed, wbuf := [], snk := t.snk, wctx := t.wctx, xbits := t.xbits, xcount := t.xcount
        cl := t.cl, clnull := t.clnull, rsps := s.rsps ++ [⟨.ok, BitVec.ofNat 8 pad, 0⟩] }

/-- R269, R273: DEC_GET completes where the bits that remain begin with those of a cascade towards a symbol, which are the bits
an encoder with the same model writes for it. It returns the symbol, has consumed exactly those bits and pulled no byte it did
not need (46_huffman.md R298), and then holds the model and HIST that encoder holds. -/
def Obligations.DecodeGet : Prop :=
  ∀ (sym : Sym) (d : State) (rest : List Bool), d.decReady → d.Inv → d.eosSeen = false →
    suffixesResolve d.nodes d.hist → d.canAdd d.hist sym → d.remaining = d.codeBits (.symbol sym) ++ rest →
    Row .decGet 0x82 .Z (.only .dec) ∧
    ∃ e t, exec (.encPut sym) d.asEncoder = .next e ∧ e.written = d.codeBits (.symbol sym) ∧ exec .decGet d = .next t ∧
      Consumes d t (d.codeBits (.symbol sym)).length ∧ t.remaining = rest ∧ t.nodes = e.nodes ∧ t.hist = e.hist ∧
      LeftBy d t (d.decisions (.symbol sym)) ∧
      t = { d with
        rbuf := t.rbuf, spos := t.spos, hist := t.hist, wctx := t.wctx, xbits := t.xbits, xcount := t.xcount
        nodes := t.nodes, cl := t.cl, clnull := t.clnull, rsps := d.rsps ++ [⟨.ok, 8, sym.zeroExtend 56⟩] }

/-- R269, R270: DEC_GET answers END_OF_STREAM where the bits that remain begin with those of a cascade towards the end of the
stream, at whatever bit of a byte they begin. It has consumed exactly those bits, so that the pad and whatever follows stay
unread, and leaves the model and HIST alone. Ever after it answers the same without changing anything. -/
def Obligations.DecodeEnd : Prop :=
  (∀ (d : State) (rest : List Bool), d.decReady → d.Inv → d.eosSeen = false → suffixesResolve d.nodes d.hist →
    d.remaining = d.codeBits .endOfStream ++ rest →
    ∃ t, exec .decGet d = .next t ∧ Consumes d t (d.codeBits .endOfStream).length ∧ t.remaining = rest ∧
      LeftBy d t (d.decisions .endOfStream) ∧
      t = { d with
        rbuf := t.rbuf, spos := t.spos, wctx := t.wctx, xbits := t.xbits, xcount := t.xcount, cl := t.cl
        clnull := t.clnull, eosSeen := true, rsps := d.rsps ++ [⟨.endOfStream, 0, 0⟩] }) ∧
  ∀ d : State, d.decReady → d.eosSeen = true → exec .decGet d = .next (d.answered ⟨.endOfStream, 0, 0⟩)

/-- R262: a codec command whose first level meets a context the trie does not hold raises F_PROTOCOL; no bit has been
written. R269: so does a DEC_GET whose decision at the uniform level is ESC; and a DEC_GET whose source ends inside a decision
(46_huffman.md R298) raises F_TRUNCATED. -/
def Obligations.UnseenContextFaults : Prop :=
  (∀ (i : Instr) (s : State), s.phase = .ready → i.dirNeed.allows s.dir = true → pathNode s.nodes s.hist = none →
    ((∃ sym, i = .encPut sym) ∨ i = .encClose ∨ (i = .decGet ∧ s.eosSeen = false)) →
    ∃ t, exec i s = .next t ∧ t.phase = .faulted ∧ t.fcode = 0x83 ∧ t.fcmd = i.opcode ∧ t.snk = s.snk ∧
      t.rsps = s.rsps ++ [⟨.fault .protocol, 0, 0⟩]) ∧
  ∀ s : State, s.decReady → s.Inv → s.eosSeen = false → suffixesResolve s.nodes s.hist →
    (s.codeBits .escape <+: s.remaining →
      ∃ t, exec .decGet s = .next t ∧ t.phase = .faulted ∧ t.fcode = 0x83 ∧ t.fcmd = 0x82 ∧
        t.rsps = s.rsps ++ [⟨.fault .protocol, 0, 0⟩]) ∧
    ∀ g b bs, s.codeBits g = s.remaining ++ b :: bs →
      ∃ t, exec .decGet s = .next t ∧ t.phase = .faulted ∧ t.fcode = 0x84 ∧ t.fcmd = 0x82 ∧
        t.rsps = s.rsps ++ [⟨.fault .truncated, 0, 0⟩]

/-- R271: DEC_CLOSE. -/
def Obligations.DecodeClose : Prop :=
  Row .decClose 0x83 .Z (.only .dec) ∧
  ∀ s : State, s.decReady → exec .decClose s = .next (State.answered { s with phase := .closed } ⟨.ok, 0, 0⟩)

/-- R273: what an encoder block codes and closes without a fault, a decoder block with the same parameters and the same
maximum order, over the bytes of that sink, decodes symbol for symbol and then reports the end of the stream. -/
def Obligations.RoundTrip : Prop :=
  ∀ (s d : State) (m : Wide) (S : List Sym), s.par.Legal → d.par = s.par → m.toNat ≤ s.par.orderCap →
    (s.after (.init .enc m :: S.map .encPut ++ [.encClose])).phase = .closed →
    d.nextSrc = bytesOf ((s.after (.init .enc m :: S.map .encPut ++ [.encClose])).snk.drop s.snk.length) →
    (d.after (.init .dec m :: List.replicate (S.length + 1) .decGet)).rsps =
      d.rsps ++ ⟨.ok, 0, 0⟩ :: S.map (fun sym => ⟨.ok, 8, sym.zeroExtend 56⟩) ++ [⟨.endOfStream, 0, 0⟩]

/-! ## The system commands (47_system.md) -/

/-- R310, with the table of 10_state.md R45, and 60_exceptions.md R342: INIT. The run it starts reads, from its start, the source
the host presents for the new stream, and what the host presents stays. The root's symbol is left open. -/
def Obligations.Init : Prop :=
  ∀ (d : Dir) (m : Wide) (s : State),
    Row (.init d m) 0x01 .CV .any ∧
    (m.toNat ≤ s.par.orderCap → ∃ rootSym : Sym, exec (.init d m) s = .next
      { par := s.par, phase := .ready, dir := d, maxOrder := m, fcode := 0, fcmd := 0, eosSeen := false
        wbuf := [], rbuf := [], spos := 0, mark := none, hist := [], wctx := [], xbits := 0, xcount := 0
        nodes := [⟨rootSym, 0, none, none, none⟩], cl := [], clnull := false
        src := s.nextSrc, nextSrc := s.nextSrc, snk := s.snk, rsps := s.rsps ++ [⟨.ok, 0, 0⟩], host := s.host
        free := s.free }) ∧
    (s.par.orderCap < m.toNat → exec (.init d m) s = .next (s.answered ⟨.badConfig, 0, 0⟩))

/-- R312, with the fields of 10_state.md R23: GET_STATUS. In UNCONF page 1 and bits 6:2 of page 0, and in FAULTED bits 6:3,
are left open. -/
def Obligations.GetStatus : Prop :=
  ∀ s : State,
    (∀ p, Row (.getStatus p) 0x02 .C .any) ∧
    (∃ t r, exec (.getStatus .status) s = .next t ∧ t = { s with free := t.free, rsps := s.rsps ++ [⟨.ok, 0, r⟩] } ∧
      r.extractLsb' 0 2 = (match s.phase with | .unconf => 0 | .ready => 1 | .closed => 2 | .faulted => 3) ∧
      (s.phase ≠ .unconf → (r.getLsbD 2 = true ↔ s.dir = .dec)) ∧
      (s.phase = .ready ∨ s.phase = .closed →
        r.getLsbD 3 = s.eosSeen ∧
        (r.getLsbD 4 = true ↔ (s.dir = .enc ∧ s.wbuf = []) ∨ (s.dir = .dec ∧ s.rbuf.length % 8 = 0)) ∧
        r.getLsbD 5 = s.mark.isSome ∧ r.getLsbD 6 = s.clnull) ∧
      r.getLsbD 7 = false ∧ r.extractLsb' 8 8 = s.fcode ∧ r.extractLsb' 16 8 = s.fcmd ∧ r.extractLsb' 24 32 = 0) ∧
    ∃ t r, exec (.getStatus .maxOrder) s = .next t ∧ t = { s with free := t.free, rsps := s.rsps ++ [⟨.ok, 0, r⟩] } ∧
      (s.phase ≠ .unconf → r = s.maxOrder)
end

