-- ==== Sys2Proof/Laws/Bits.lean ====
section
/-! SUPPORT. Numbers, bytes and their bits (20_memory.md R64): writing a number's bits and reading them back. -/

namespace Sys2Proof.Machine

theorem bitsVal_foldl (bs : List Bool) (a : Nat) :
    bs.foldl (fun x b => 2 * x + b.toNat) a = a * 2 ^ bs.length + bitsVal bs := by
  unfold bitsVal
  induction bs generalizing a with
  | nil => simp
  | cons b bs ih =>
    rw [List.foldl_cons, List.foldl_cons, ih, ih (2 * 0 + b.toNat), List.length_cons, pow_succ]
    ring

@[simp] theorem bitsVal_nil : bitsVal [] = 0 := rfl

theorem bitsVal_cons (b : Bool) (bs : List Bool) : bitsVal (b :: bs) = b.toNat * 2 ^ bs.length + bitsVal bs := by
  have h := bitsVal_foldl bs (2 * 0 + b.toNat)
  simpa [bitsVal] using h

theorem bitsVal_append (xs ys : List Bool) : bitsVal (xs ++ ys) = bitsVal xs * 2 ^ ys.length + bitsVal ys := by
  rw [bitsVal, List.foldl_append, bitsVal_foldl]; rfl

theorem bitsVal_lt (bs : List Bool) : bitsVal bs < 2 ^ bs.length := by
  induction bs with
  | nil => simp
  | cons b bs ih =>
    rw [bitsVal_cons, List.length_cons, pow_succ]
    cases b <;> simp <;> omega

@[simp] theorem length_msbBits (x k : Nat) : (msbBits x k).length = k := by
  induction k with
  | zero => rfl
  | succ k ih => simp [msbBits, ih]

/-- The `k` bits of a number, read back, are the number modulo `2 ^ k`. -/
theorem bitsVal_msbBits (x k : Nat) : bitsVal (msbBits x k) = x % 2 ^ k := by
  induction k with
  | zero => simp [msbBits, Nat.mod_one]
  | succ k ih =>
    rw [msbBits, bitsVal_cons, ih, length_msbBits, Nat.mod_pow_succ, Nat.testBit_eq_decide_div_mod_eq]
    rcases Nat.mod_two_eq_zero_or_one (x / 2 ^ k) with h | h <;> simp [h]
    omega

/-- Only the low `k` bits of a number are looked at (41_bit_writer.md R162). -/
theorem msbBits_mod (x k : Nat) : msbBits (x % 2 ^ k) k = msbBits x k := by
  have h : ∀ j ≤ k, msbBits (x % 2 ^ k) j = msbBits x j := by
    intro j hj
    induction j with
    | zero => rfl
    | succ j ih =>
      rw [msbBits, msbBits, ih (by omega), Nat.testBit_mod_two_pow]
      simp [show j < k by omega]
  exact h k le_rfl

/-- Bits determine the sequence that has them as its number's bits. -/
theorem msbBits_bitsVal (bs : List Bool) : msbBits (bitsVal bs) bs.length = bs := by
  induction bs with
  | nil => rfl
  | cons b bs ih =>
    have hlt := bitsVal_lt bs
    rw [List.length_cons, msbBits]
    congr 1
    · rw [bitsVal_cons, Nat.testBit_eq_decide_div_mod_eq]
      cases b
      · simp [Nat.div_eq_of_lt hlt]
      · simp [Nat.add_div_left _ (Nat.two_pow_pos _), Nat.div_eq_of_lt hlt]
    · rw [← msbBits_mod, bitsVal_cons, Nat.mul_comm, Nat.mul_add_mod, Nat.mod_eq_of_lt hlt, ih]

@[simp] theorem length_byteBits (b : Byte) : (byteBits b).length = 8 := length_msbBits _ _

/-- A byte made of eight bits has those bits, in stream order. -/
theorem byteBits_bitsByte (bs : List Bool) (h : bs.length = 8) : byteBits (bitsByte bs) = bs := by
  have hlt := bitsVal_lt bs
  rw [h] at hlt
  rw [byteBits, bitsByte, BitVec.toNat_ofNat, Nat.mod_eq_of_lt hlt, ← h, msbBits_bitsVal]

/-- The byte of a byte's bits is the byte. -/
theorem bitsByte_byteBits (b : Byte) : bitsByte (byteBits b) = b := by
  rw [bitsByte, byteBits, bitsVal_msbBits]
  apply BitVec.eq_of_toNat_eq
  simp [Nat.mod_eq_of_lt b.isLt]

theorem length_flatMap_byteBits (bs : List Byte) : (bs.flatMap byteBits).length = 8 * bs.length := by
  induction bs with
  | nil => rfl
  | cons b bs ih => simp [ih]; omega

theorem msbBits_append (x j k : Nat) : msbBits x (j + k) = msbBits (x / 2 ^ k) j ++ msbBits x k := by
  induction j with
  | zero => simp [msbBits]
  | succ j ih =>
    rw [show j + 1 + k = (j + k) + 1 by omega, msbBits, ih, msbBits, Nat.testBit_div_two_pow]
    simp [Nat.add_comm]

end Sys2Proof.Machine
end

