-- ==== Sys2Proof/Laws/State.lean ====
section
/-! SUPPORT. One lemma per field per named update of State: what the update makes of the field. Each is true by definition. -/

namespace Sys2Proof.Machine

@[simp] theorem State.setReader_par (s : State) (r : Reader) : (s.setReader r).par = s.par := rfl
@[simp] theorem State.setReader_phase (s : State) (r : Reader) : (s.setReader r).phase = s.phase := rfl
@[simp] theorem State.setReader_dir (s : State) (r : Reader) : (s.setReader r).dir = s.dir := rfl
@[simp] theorem State.setReader_maxOrder (s : State) (r : Reader) : (s.setReader r).maxOrder = s.maxOrder := rfl
@[simp] theorem State.setReader_fcode (s : State) (r : Reader) : (s.setReader r).fcode = s.fcode := rfl
@[simp] theorem State.setReader_fcmd (s : State) (r : Reader) : (s.setReader r).fcmd = s.fcmd := rfl
@[simp] theorem State.setReader_eosSeen (s : State) (r : Reader) : (s.setReader r).eosSeen = s.eosSeen := rfl
@[simp] theorem State.setReader_wbuf (s : State) (r : Reader) : (s.setReader r).wbuf = s.wbuf := rfl
@[simp] theorem State.setReader_rbuf (s : State) (r : Reader) : (s.setReader r).rbuf = r.rbuf := rfl
@[simp] theorem State.setReader_spos (s : State) (r : Reader) : (s.setReader r).spos = r.spos := rfl
@[simp] theorem State.setReader_mark (s : State) (r : Reader) : (s.setReader r).mark = s.mark := rfl
@[simp] theorem State.setReader_hist (s : State) (r : Reader) : (s.setReader r).hist = s.hist := rfl
@[simp] theorem State.setReader_wctx (s : State) (r : Reader) : (s.setReader r).wctx = s.wctx := rfl
@[simp] theorem State.setReader_xbits (s : State) (r : Reader) : (s.setReader r).xbits = s.xbits := rfl
@[simp] theorem State.setReader_xcount (s : State) (r : Reader) : (s.setReader r).xcount = s.xcount := rfl
@[simp] theorem State.setReader_nodes (s : State) (r : Reader) : (s.setReader r).nodes = s.nodes := rfl
@[simp] theorem State.setReader_cl (s : State) (r : Reader) : (s.setReader r).cl = s.cl := rfl
@[simp] theorem State.setReader_clnull (s : State) (r : Reader) : (s.setReader r).clnull = s.clnull := rfl
@[simp] theorem State.setReader_src (s : State) (r : Reader) : (s.setReader r).src = s.src := rfl
@[simp] theorem State.setReader_nextSrc (s : State) (r : Reader) : (s.setReader r).nextSrc = s.nextSrc := rfl
@[simp] theorem State.setReader_snk (s : State) (r : Reader) : (s.setReader r).snk = s.snk := rfl
@[simp] theorem State.setReader_rsps (s : State) (r : Reader) : (s.setReader r).rsps = s.rsps := rfl
@[simp] theorem State.setReader_host (s : State) (r : Reader) : (s.setReader r).host = s.host := rfl
@[simp] theorem State.setReader_free (s : State) (r : Reader) : (s.setReader r).free = s.free := rfl

@[simp] theorem State.fill_par (s : State) (k : Nat) : (s.fill k).par = s.par := rfl
@[simp] theorem State.fill_phase (s : State) (k : Nat) : (s.fill k).phase = s.phase := rfl
@[simp] theorem State.fill_dir (s : State) (k : Nat) : (s.fill k).dir = s.dir := rfl
@[simp] theorem State.fill_maxOrder (s : State) (k : Nat) : (s.fill k).maxOrder = s.maxOrder := rfl
@[simp] theorem State.fill_fcode (s : State) (k : Nat) : (s.fill k).fcode = s.fcode := rfl
@[simp] theorem State.fill_fcmd (s : State) (k : Nat) : (s.fill k).fcmd = s.fcmd := rfl
@[simp] theorem State.fill_eosSeen (s : State) (k : Nat) : (s.fill k).eosSeen = s.eosSeen := rfl
@[simp] theorem State.fill_wbuf (s : State) (k : Nat) : (s.fill k).wbuf = s.wbuf := rfl
@[simp] theorem State.fill_rbuf (s : State) (k : Nat) : (s.fill k).rbuf = (s.reader.fill s.src k).rbuf := rfl
@[simp] theorem State.fill_spos (s : State) (k : Nat) : (s.fill k).spos = (s.reader.fill s.src k).spos := rfl
@[simp] theorem State.fill_mark (s : State) (k : Nat) : (s.fill k).mark = s.mark := rfl
@[simp] theorem State.fill_hist (s : State) (k : Nat) : (s.fill k).hist = s.hist := rfl
@[simp] theorem State.fill_wctx (s : State) (k : Nat) : (s.fill k).wctx = s.wctx := rfl
@[simp] theorem State.fill_xbits (s : State) (k : Nat) : (s.fill k).xbits = s.xbits := rfl
@[simp] theorem State.fill_xcount (s : State) (k : Nat) : (s.fill k).xcount = s.xcount := rfl
@[simp] theorem State.fill_nodes (s : State) (k : Nat) : (s.fill k).nodes = s.nodes := rfl
@[simp] theorem State.fill_cl (s : State) (k : Nat) : (s.fill k).cl = s.cl := rfl
@[simp] theorem State.fill_clnull (s : State) (k : Nat) : (s.fill k).clnull = s.clnull := rfl
@[simp] theorem State.fill_src (s : State) (k : Nat) : (s.fill k).src = s.src := rfl
@[simp] theorem State.fill_nextSrc (s : State) (k : Nat) : (s.fill k).nextSrc = s.nextSrc := rfl
@[simp] theorem State.fill_snk (s : State) (k : Nat) : (s.fill k).snk = s.snk := rfl
@[simp] theorem State.fill_rsps (s : State) (k : Nat) : (s.fill k).rsps = s.rsps := rfl
@[simp] theorem State.fill_host (s : State) (k : Nat) : (s.fill k).host = s.host := rfl
@[simp] theorem State.fill_free (s : State) (k : Nat) : (s.fill k).free = s.free := rfl

@[simp] theorem State.consume_par (s : State) (k : Nat) : (s.consume k).par = s.par := rfl
@[simp] theorem State.consume_phase (s : State) (k : Nat) : (s.consume k).phase = s.phase := rfl
@[simp] theorem State.consume_dir (s : State) (k : Nat) : (s.consume k).dir = s.dir := rfl
@[simp] theorem State.consume_maxOrder (s : State) (k : Nat) : (s.consume k).maxOrder = s.maxOrder := rfl
@[simp] theorem State.consume_fcode (s : State) (k : Nat) : (s.consume k).fcode = s.fcode := rfl
@[simp] theorem State.consume_fcmd (s : State) (k : Nat) : (s.consume k).fcmd = s.fcmd := rfl
@[simp] theorem State.consume_eosSeen (s : State) (k : Nat) : (s.consume k).eosSeen = s.eosSeen := rfl
@[simp] theorem State.consume_wbuf (s : State) (k : Nat) : (s.consume k).wbuf = s.wbuf := rfl
@[simp] theorem State.consume_rbuf (s : State) (k : Nat) : (s.consume k).rbuf = s.rbuf.drop k := rfl
@[simp] theorem State.consume_spos (s : State) (k : Nat) : (s.consume k).spos = s.spos := rfl
@[simp] theorem State.consume_mark (s : State) (k : Nat) : (s.consume k).mark = s.mark := rfl
@[simp] theorem State.consume_hist (s : State) (k : Nat) : (s.consume k).hist = s.hist := rfl
@[simp] theorem State.consume_wctx (s : State) (k : Nat) : (s.consume k).wctx = s.wctx := rfl
@[simp] theorem State.consume_xbits (s : State) (k : Nat) : (s.consume k).xbits = s.xbits := rfl
@[simp] theorem State.consume_xcount (s : State) (k : Nat) : (s.consume k).xcount = s.xcount := rfl
@[simp] theorem State.consume_nodes (s : State) (k : Nat) : (s.consume k).nodes = s.nodes := rfl
@[simp] theorem State.consume_cl (s : State) (k : Nat) : (s.consume k).cl = s.cl := rfl
@[simp] theorem State.consume_clnull (s : State) (k : Nat) : (s.consume k).clnull = s.clnull := rfl
@[simp] theorem State.consume_src (s : State) (k : Nat) : (s.consume k).src = s.src := rfl
@[simp] theorem State.consume_nextSrc (s : State) (k : Nat) : (s.consume k).nextSrc = s.nextSrc := rfl
@[simp] theorem State.consume_snk (s : State) (k : Nat) : (s.consume k).snk = s.snk := rfl
@[simp] theorem State.consume_rsps (s : State) (k : Nat) : (s.consume k).rsps = s.rsps := rfl
@[simp] theorem State.consume_host (s : State) (k : Nat) : (s.consume k).host = s.host := rfl
@[simp] theorem State.consume_free (s : State) (k : Nat) : (s.consume k).free = s.free := rfl

@[simp] theorem State.setMark_par (s : State) (limit : Wide) : (s.setMark limit).par = s.par := rfl
@[simp] theorem State.setMark_phase (s : State) (limit : Wide) : (s.setMark limit).phase = s.phase := rfl
@[simp] theorem State.setMark_dir (s : State) (limit : Wide) : (s.setMark limit).dir = s.dir := rfl
@[simp] theorem State.setMark_maxOrder (s : State) (limit : Wide) : (s.setMark limit).maxOrder = s.maxOrder := rfl
@[simp] theorem State.setMark_fcode (s : State) (limit : Wide) : (s.setMark limit).fcode = s.fcode := rfl
@[simp] theorem State.setMark_fcmd (s : State) (limit : Wide) : (s.setMark limit).fcmd = s.fcmd := rfl
@[simp] theorem State.setMark_eosSeen (s : State) (limit : Wide) : (s.setMark limit).eosSeen = s.eosSeen := rfl
@[simp] theorem State.setMark_wbuf (s : State) (limit : Wide) : (s.setMark limit).wbuf = s.wbuf := rfl
@[simp] theorem State.setMark_rbuf (s : State) (limit : Wide) : (s.setMark limit).rbuf = s.rbuf := rfl
@[simp] theorem State.setMark_spos (s : State) (limit : Wide) : (s.setMark limit).spos = s.spos := rfl
@[simp] theorem State.setMark_mark (s : State) (limit : Wide) : (s.setMark limit).mark = some ⟨s.spos, s.rbuf, limit⟩ := rfl
@[simp] theorem State.setMark_hist (s : State) (limit : Wide) : (s.setMark limit).hist = s.hist := rfl
@[simp] theorem State.setMark_wctx (s : State) (limit : Wide) : (s.setMark limit).wctx = s.wctx := rfl
@[simp] theorem State.setMark_xbits (s : State) (limit : Wide) : (s.setMark limit).xbits = s.xbits := rfl
@[simp] theorem State.setMark_xcount (s : State) (limit : Wide) : (s.setMark limit).xcount = s.xcount := rfl
@[simp] theorem State.setMark_nodes (s : State) (limit : Wide) : (s.setMark limit).nodes = s.nodes := rfl
@[simp] theorem State.setMark_cl (s : State) (limit : Wide) : (s.setMark limit).cl = s.cl := rfl
@[simp] theorem State.setMark_clnull (s : State) (limit : Wide) : (s.setMark limit).clnull = s.clnull := rfl
@[simp] theorem State.setMark_src (s : State) (limit : Wide) : (s.setMark limit).src = s.src := rfl
@[simp] theorem State.setMark_nextSrc (s : State) (limit : Wide) : (s.setMark limit).nextSrc = s.nextSrc := rfl
@[simp] theorem State.setMark_snk (s : State) (limit : Wide) : (s.setMark limit).snk = s.snk := rfl
@[simp] theorem State.setMark_rsps (s : State) (limit : Wide) : (s.setMark limit).rsps = s.rsps := rfl
@[simp] theorem State.setMark_host (s : State) (limit : Wide) : (s.setMark limit).host = s.host := rfl
@[simp] theorem State.setMark_free (s : State) (limit : Wide) : (s.setMark limit).free = s.free := rfl

@[simp] theorem State.setEosSeen_par (s : State) : s.setEosSeen.par = s.par := rfl
@[simp] theorem State.setEosSeen_phase (s : State) : s.setEosSeen.phase = s.phase := rfl
@[simp] theorem State.setEosSeen_dir (s : State) : s.setEosSeen.dir = s.dir := rfl
@[simp] theorem State.setEosSeen_maxOrder (s : State) : s.setEosSeen.maxOrder = s.maxOrder := rfl
@[simp] theorem State.setEosSeen_fcode (s : State) : s.setEosSeen.fcode = s.fcode := rfl
@[simp] theorem State.setEosSeen_fcmd (s : State) : s.setEosSeen.fcmd = s.fcmd := rfl
@[simp] theorem State.setEosSeen_eosSeen (s : State) : s.setEosSeen.eosSeen = true := rfl
@[simp] theorem State.setEosSeen_wbuf (s : State) : s.setEosSeen.wbuf = s.wbuf := rfl
@[simp] theorem State.setEosSeen_rbuf (s : State) : s.setEosSeen.rbuf = s.rbuf := rfl
@[simp] theorem State.setEosSeen_spos (s : State) : s.setEosSeen.spos = s.spos := rfl
@[simp] theorem State.setEosSeen_mark (s : State) : s.setEosSeen.mark = s.mark := rfl
@[simp] theorem State.setEosSeen_hist (s : State) : s.setEosSeen.hist = s.hist := rfl
@[simp] theorem State.setEosSeen_wctx (s : State) : s.setEosSeen.wctx = s.wctx := rfl
@[simp] theorem State.setEosSeen_xbits (s : State) : s.setEosSeen.xbits = s.xbits := rfl
@[simp] theorem State.setEosSeen_xcount (s : State) : s.setEosSeen.xcount = s.xcount := rfl
@[simp] theorem State.setEosSeen_nodes (s : State) : s.setEosSeen.nodes = s.nodes := rfl
@[simp] theorem State.setEosSeen_cl (s : State) : s.setEosSeen.cl = s.cl := rfl
@[simp] theorem State.setEosSeen_clnull (s : State) : s.setEosSeen.clnull = s.clnull := rfl
@[simp] theorem State.setEosSeen_src (s : State) : s.setEosSeen.src = s.src := rfl
@[simp] theorem State.setEosSeen_nextSrc (s : State) : s.setEosSeen.nextSrc = s.nextSrc := rfl
@[simp] theorem State.setEosSeen_snk (s : State) : s.setEosSeen.snk = s.snk := rfl
@[simp] theorem State.setEosSeen_rsps (s : State) : s.setEosSeen.rsps = s.rsps := rfl
@[simp] theorem State.setEosSeen_host (s : State) : s.setEosSeen.host = s.host := rfl
@[simp] theorem State.setEosSeen_free (s : State) : s.setEosSeen.free = s.free := rfl

@[simp] theorem State.setWriter_par (s : State) (w : Writer) : (s.setWriter w).par = s.par := rfl
@[simp] theorem State.setWriter_phase (s : State) (w : Writer) : (s.setWriter w).phase = s.phase := rfl
@[simp] theorem State.setWriter_dir (s : State) (w : Writer) : (s.setWriter w).dir = s.dir := rfl
@[simp] theorem State.setWriter_maxOrder (s : State) (w : Writer) : (s.setWriter w).maxOrder = s.maxOrder := rfl
@[simp] theorem State.setWriter_fcode (s : State) (w : Writer) : (s.setWriter w).fcode = s.fcode := rfl
@[simp] theorem State.setWriter_fcmd (s : State) (w : Writer) : (s.setWriter w).fcmd = s.fcmd := rfl
@[simp] theorem State.setWriter_eosSeen (s : State) (w : Writer) : (s.setWriter w).eosSeen = s.eosSeen := rfl
@[simp] theorem State.setWriter_wbuf (s : State) (w : Writer) : (s.setWriter w).wbuf = w.buf := rfl
@[simp] theorem State.setWriter_rbuf (s : State) (w : Writer) : (s.setWriter w).rbuf = s.rbuf := rfl
@[simp] theorem State.setWriter_spos (s : State) (w : Writer) : (s.setWriter w).spos = s.spos := rfl
@[simp] theorem State.setWriter_mark (s : State) (w : Writer) : (s.setWriter w).mark = s.mark := rfl
@[simp] theorem State.setWriter_hist (s : State) (w : Writer) : (s.setWriter w).hist = s.hist := rfl
@[simp] theorem State.setWriter_wctx (s : State) (w : Writer) : (s.setWriter w).wctx = s.wctx := rfl
@[simp] theorem State.setWriter_xbits (s : State) (w : Writer) : (s.setWriter w).xbits = s.xbits := rfl
@[simp] theorem State.setWriter_xcount (s : State) (w : Writer) : (s.setWriter w).xcount = s.xcount := rfl
@[simp] theorem State.setWriter_nodes (s : State) (w : Writer) : (s.setWriter w).nodes = s.nodes := rfl
@[simp] theorem State.setWriter_cl (s : State) (w : Writer) : (s.setWriter w).cl = s.cl := rfl
@[simp] theorem State.setWriter_clnull (s : State) (w : Writer) : (s.setWriter w).clnull = s.clnull := rfl
@[simp] theorem State.setWriter_src (s : State) (w : Writer) : (s.setWriter w).src = s.src := rfl
@[simp] theorem State.setWriter_nextSrc (s : State) (w : Writer) : (s.setWriter w).nextSrc = s.nextSrc := rfl
@[simp] theorem State.setWriter_snk (s : State) (w : Writer) : (s.setWriter w).snk = w.snk := rfl
@[simp] theorem State.setWriter_rsps (s : State) (w : Writer) : (s.setWriter w).rsps = s.rsps := rfl
@[simp] theorem State.setWriter_host (s : State) (w : Writer) : (s.setWriter w).host = s.host := rfl
@[simp] theorem State.setWriter_free (s : State) (w : Writer) : (s.setWriter w).free = s.free := rfl

@[simp] theorem State.put_par (s : State) (bs : List Bool) : (s.put bs).par = s.par := rfl
@[simp] theorem State.put_phase (s : State) (bs : List Bool) : (s.put bs).phase = s.phase := rfl
@[simp] theorem State.put_dir (s : State) (bs : List Bool) : (s.put bs).dir = s.dir := rfl
@[simp] theorem State.put_maxOrder (s : State) (bs : List Bool) : (s.put bs).maxOrder = s.maxOrder := rfl
@[simp] theorem State.put_fcode (s : State) (bs : List Bool) : (s.put bs).fcode = s.fcode := rfl
@[simp] theorem State.put_fcmd (s : State) (bs : List Bool) : (s.put bs).fcmd = s.fcmd := rfl
@[simp] theorem State.put_eosSeen (s : State) (bs : List Bool) : (s.put bs).eosSeen = s.eosSeen := rfl
@[simp] theorem State.put_wbuf (s : State) (bs : List Bool) : (s.put bs).wbuf = (s.writer.putAll bs).buf := rfl
@[simp] theorem State.put_rbuf (s : State) (bs : List Bool) : (s.put bs).rbuf = s.rbuf := rfl
@[simp] theorem State.put_spos (s : State) (bs : List Bool) : (s.put bs).spos = s.spos := rfl
@[simp] theorem State.put_mark (s : State) (bs : List Bool) : (s.put bs).mark = s.mark := rfl
@[simp] theorem State.put_hist (s : State) (bs : List Bool) : (s.put bs).hist = s.hist := rfl
@[simp] theorem State.put_wctx (s : State) (bs : List Bool) : (s.put bs).wctx = s.wctx := rfl
@[simp] theorem State.put_xbits (s : State) (bs : List Bool) : (s.put bs).xbits = s.xbits := rfl
@[simp] theorem State.put_xcount (s : State) (bs : List Bool) : (s.put bs).xcount = s.xcount := rfl
@[simp] theorem State.put_nodes (s : State) (bs : List Bool) : (s.put bs).nodes = s.nodes := rfl
@[simp] theorem State.put_cl (s : State) (bs : List Bool) : (s.put bs).cl = s.cl := rfl
@[simp] theorem State.put_clnull (s : State) (bs : List Bool) : (s.put bs).clnull = s.clnull := rfl
@[simp] theorem State.put_src (s : State) (bs : List Bool) : (s.put bs).src = s.src := rfl
@[simp] theorem State.put_nextSrc (s : State) (bs : List Bool) : (s.put bs).nextSrc = s.nextSrc := rfl
@[simp] theorem State.put_snk (s : State) (bs : List Bool) : (s.put bs).snk = (s.writer.putAll bs).snk := rfl
@[simp] theorem State.put_rsps (s : State) (bs : List Bool) : (s.put bs).rsps = s.rsps := rfl
@[simp] theorem State.put_host (s : State) (bs : List Bool) : (s.put bs).host = s.host := rfl
@[simp] theorem State.put_free (s : State) (bs : List Bool) : (s.put bs).free = s.free := rfl

@[simp] theorem State.putBits_par (s : State) (x k : Nat) : (s.putBits x k).par = s.par := rfl
@[simp] theorem State.putBits_phase (s : State) (x k : Nat) : (s.putBits x k).phase = s.phase := rfl
@[simp] theorem State.putBits_dir (s : State) (x k : Nat) : (s.putBits x k).dir = s.dir := rfl
@[simp] theorem State.putBits_maxOrder (s : State) (x k : Nat) : (s.putBits x k).maxOrder = s.maxOrder := rfl
@[simp] theorem State.putBits_fcode (s : State) (x k : Nat) : (s.putBits x k).fcode = s.fcode := rfl
@[simp] theorem State.putBits_fcmd (s : State) (x k : Nat) : (s.putBits x k).fcmd = s.fcmd := rfl
@[simp] theorem State.putBits_eosSeen (s : State) (x k : Nat) : (s.putBits x k).eosSeen = s.eosSeen := rfl
@[simp] theorem State.putBits_wbuf (s : State) (x k : Nat) : (s.putBits x k).wbuf = (s.writer.putBits x k).buf := rfl
@[simp] theorem State.putBits_rbuf (s : State) (x k : Nat) : (s.putBits x k).rbuf = s.rbuf := rfl
@[simp] theorem State.putBits_spos (s : State) (x k : Nat) : (s.putBits x k).spos = s.spos := rfl
@[simp] theorem State.putBits_mark (s : State) (x k : Nat) : (s.putBits x k).mark = s.mark := rfl
@[simp] theorem State.putBits_hist (s : State) (x k : Nat) : (s.putBits x k).hist = s.hist := rfl
@[simp] theorem State.putBits_wctx (s : State) (x k : Nat) : (s.putBits x k).wctx = s.wctx := rfl
@[simp] theorem State.putBits_xbits (s : State) (x k : Nat) : (s.putBits x k).xbits = s.xbits := rfl
@[simp] theorem State.putBits_xcount (s : State) (x k : Nat) : (s.putBits x k).xcount = s.xcount := rfl
@[simp] theorem State.putBits_nodes (s : State) (x k : Nat) : (s.putBits x k).nodes = s.nodes := rfl
@[simp] theorem State.putBits_cl (s : State) (x k : Nat) : (s.putBits x k).cl = s.cl := rfl
@[simp] theorem State.putBits_clnull (s : State) (x k : Nat) : (s.putBits x k).clnull = s.clnull := rfl
@[simp] theorem State.putBits_src (s : State) (x k : Nat) : (s.putBits x k).src = s.src := rfl
@[simp] theorem State.putBits_nextSrc (s : State) (x k : Nat) : (s.putBits x k).nextSrc = s.nextSrc := rfl
@[simp] theorem State.putBits_snk (s : State) (x k : Nat) : (s.putBits x k).snk = (s.writer.putBits x k).snk := rfl
@[simp] theorem State.putBits_rsps (s : State) (x k : Nat) : (s.putBits x k).rsps = s.rsps := rfl
@[simp] theorem State.putBits_host (s : State) (x k : Nat) : (s.putBits x k).host = s.host := rfl
@[simp] theorem State.putBits_free (s : State) (x k : Nat) : (s.putBits x k).free = s.free := rfl

@[simp] theorem State.padZero_par (s : State) : s.padZero.par = s.par := rfl
@[simp] theorem State.padZero_phase (s : State) : s.padZero.phase = s.phase := rfl
@[simp] theorem State.padZero_dir (s : State) : s.padZero.dir = s.dir := rfl
@[simp] theorem State.padZero_maxOrder (s : State) : s.padZero.maxOrder = s.maxOrder := rfl
@[simp] theorem State.padZero_fcode (s : State) : s.padZero.fcode = s.fcode := rfl
@[simp] theorem State.padZero_fcmd (s : State) : s.padZero.fcmd = s.fcmd := rfl
@[simp] theorem State.padZero_eosSeen (s : State) : s.padZero.eosSeen = s.eosSeen := rfl
@[simp] theorem State.padZero_wbuf (s : State) : s.padZero.wbuf = s.writer.padZero.buf := rfl
@[simp] theorem State.padZero_rbuf (s : State) : s.padZero.rbuf = s.rbuf := rfl
@[simp] theorem State.padZero_spos (s : State) : s.padZero.spos = s.spos := rfl
@[simp] theorem State.padZero_mark (s : State) : s.padZero.mark = s.mark := rfl
@[simp] theorem State.padZero_hist (s : State) : s.padZero.hist = s.hist := rfl
@[simp] theorem State.padZero_wctx (s : State) : s.padZero.wctx = s.wctx := rfl
@[simp] theorem State.padZero_xbits (s : State) : s.padZero.xbits = s.xbits := rfl
@[simp] theorem State.padZero_xcount (s : State) : s.padZero.xcount = s.xcount := rfl
@[simp] theorem State.padZero_nodes (s : State) : s.padZero.nodes = s.nodes := rfl
@[simp] theorem State.padZero_cl (s : State) : s.padZero.cl = s.cl := rfl
@[simp] theorem State.padZero_clnull (s : State) : s.padZero.clnull = s.clnull := rfl
@[simp] theorem State.padZero_src (s : State) : s.padZero.src = s.src := rfl
@[simp] theorem State.padZero_nextSrc (s : State) : s.padZero.nextSrc = s.nextSrc := rfl
@[simp] theorem State.padZero_snk (s : State) : s.padZero.snk = s.writer.padZero.snk := rfl
@[simp] theorem State.padZero_rsps (s : State) : s.padZero.rsps = s.rsps := rfl
@[simp] theorem State.padZero_host (s : State) : s.padZero.host = s.host := rfl
@[simp] theorem State.padZero_free (s : State) : s.padZero.free = s.free := rfl

@[simp] theorem State.discard_par (s : State) : s.discard.par = s.par := rfl
@[simp] theorem State.discard_phase (s : State) : s.discard.phase = s.phase := rfl
@[simp] theorem State.discard_dir (s : State) : s.discard.dir = s.dir := rfl
@[simp] theorem State.discard_maxOrder (s : State) : s.discard.maxOrder = s.maxOrder := rfl
@[simp] theorem State.discard_fcode (s : State) : s.discard.fcode = s.fcode := rfl
@[simp] theorem State.discard_fcmd (s : State) : s.discard.fcmd = s.fcmd := rfl
@[simp] theorem State.discard_eosSeen (s : State) : s.discard.eosSeen = s.eosSeen := rfl
@[simp] theorem State.discard_wbuf (s : State) : s.discard.wbuf = [] := rfl
@[simp] theorem State.discard_rbuf (s : State) : s.discard.rbuf = s.rbuf := rfl
@[simp] theorem State.discard_spos (s : State) : s.discard.spos = s.spos := rfl
@[simp] theorem State.discard_mark (s : State) : s.discard.mark = s.mark := rfl
@[simp] theorem State.discard_hist (s : State) : s.discard.hist = s.hist := rfl
@[simp] theorem State.discard_wctx (s : State) : s.discard.wctx = s.wctx := rfl
@[simp] theorem State.discard_xbits (s : State) : s.discard.xbits = s.xbits := rfl
@[simp] theorem State.discard_xcount (s : State) : s.discard.xcount = s.xcount := rfl
@[simp] theorem State.discard_nodes (s : State) : s.discard.nodes = s.nodes := rfl
@[simp] theorem State.discard_cl (s : State) : s.discard.cl = s.cl := rfl
@[simp] theorem State.discard_clnull (s : State) : s.discard.clnull = s.clnull := rfl
@[simp] theorem State.discard_src (s : State) : s.discard.src = s.src := rfl
@[simp] theorem State.discard_nextSrc (s : State) : s.discard.nextSrc = s.nextSrc := rfl
@[simp] theorem State.discard_snk (s : State) : s.discard.snk = s.snk := rfl
@[simp] theorem State.discard_rsps (s : State) : s.discard.rsps = s.rsps := rfl
@[simp] theorem State.discard_host (s : State) : s.discard.host = s.host := rfl
@[simp] theorem State.discard_free (s : State) : s.discard.free = s.free := rfl

@[simp] theorem State.sinkFlush_par (s : State) : s.sinkFlush.par = s.par := rfl
@[simp] theorem State.sinkFlush_phase (s : State) : s.sinkFlush.phase = s.phase := rfl
@[simp] theorem State.sinkFlush_dir (s : State) : s.sinkFlush.dir = s.dir := rfl
@[simp] theorem State.sinkFlush_maxOrder (s : State) : s.sinkFlush.maxOrder = s.maxOrder := rfl
@[simp] theorem State.sinkFlush_fcode (s : State) : s.sinkFlush.fcode = s.fcode := rfl
@[simp] theorem State.sinkFlush_fcmd (s : State) : s.sinkFlush.fcmd = s.fcmd := rfl
@[simp] theorem State.sinkFlush_eosSeen (s : State) : s.sinkFlush.eosSeen = s.eosSeen := rfl
@[simp] theorem State.sinkFlush_wbuf (s : State) : s.sinkFlush.wbuf = s.wbuf := rfl
@[simp] theorem State.sinkFlush_rbuf (s : State) : s.sinkFlush.rbuf = s.rbuf := rfl
@[simp] theorem State.sinkFlush_spos (s : State) : s.sinkFlush.spos = s.spos := rfl
@[simp] theorem State.sinkFlush_mark (s : State) : s.sinkFlush.mark = s.mark := rfl
@[simp] theorem State.sinkFlush_hist (s : State) : s.sinkFlush.hist = s.hist := rfl
@[simp] theorem State.sinkFlush_wctx (s : State) : s.sinkFlush.wctx = s.wctx := rfl
@[simp] theorem State.sinkFlush_xbits (s : State) : s.sinkFlush.xbits = s.xbits := rfl
@[simp] theorem State.sinkFlush_xcount (s : State) : s.sinkFlush.xcount = s.xcount := rfl
@[simp] theorem State.sinkFlush_nodes (s : State) : s.sinkFlush.nodes = s.nodes := rfl
@[simp] theorem State.sinkFlush_cl (s : State) : s.sinkFlush.cl = s.cl := rfl
@[simp] theorem State.sinkFlush_clnull (s : State) : s.sinkFlush.clnull = s.clnull := rfl
@[simp] theorem State.sinkFlush_src (s : State) : s.sinkFlush.src = s.src := rfl
@[simp] theorem State.sinkFlush_nextSrc (s : State) : s.sinkFlush.nextSrc = s.nextSrc := rfl
@[simp] theorem State.sinkFlush_snk (s : State) : s.sinkFlush.snk = s.snk ++ [.flush] := rfl
@[simp] theorem State.sinkFlush_rsps (s : State) : s.sinkFlush.rsps = s.rsps := rfl
@[simp] theorem State.sinkFlush_host (s : State) : s.sinkFlush.host = s.host := rfl
@[simp] theorem State.sinkFlush_free (s : State) : s.sinkFlush.free = s.free := rfl

@[simp] theorem State.sinkClose_par (s : State) : s.sinkClose.par = s.par := rfl
@[simp] theorem State.sinkClose_phase (s : State) : s.sinkClose.phase = s.phase := rfl
@[simp] theorem State.sinkClose_dir (s : State) : s.sinkClose.dir = s.dir := rfl
@[simp] theorem State.sinkClose_maxOrder (s : State) : s.sinkClose.maxOrder = s.maxOrder := rfl
@[simp] theorem State.sinkClose_fcode (s : State) : s.sinkClose.fcode = s.fcode := rfl
@[simp] theorem State.sinkClose_fcmd (s : State) : s.sinkClose.fcmd = s.fcmd := rfl
@[simp] theorem State.sinkClose_eosSeen (s : State) : s.sinkClose.eosSeen = s.eosSeen := rfl
@[simp] theorem State.sinkClose_wbuf (s : State) : s.sinkClose.wbuf = s.wbuf := rfl
@[simp] theorem State.sinkClose_rbuf (s : State) : s.sinkClose.rbuf = s.rbuf := rfl
@[simp] theorem State.sinkClose_spos (s : State) : s.sinkClose.spos = s.spos := rfl
@[simp] theorem State.sinkClose_mark (s : State) : s.sinkClose.mark = s.mark := rfl
@[simp] theorem State.sinkClose_hist (s : State) : s.sinkClose.hist = s.hist := rfl
@[simp] theorem State.sinkClose_wctx (s : State) : s.sinkClose.wctx = s.wctx := rfl
@[simp] theorem State.sinkClose_xbits (s : State) : s.sinkClose.xbits = s.xbits := rfl
@[simp] theorem State.sinkClose_xcount (s : State) : s.sinkClose.xcount = s.xcount := rfl
@[simp] theorem State.sinkClose_nodes (s : State) : s.sinkClose.nodes = s.nodes := rfl
@[simp] theorem State.sinkClose_cl (s : State) : s.sinkClose.cl = s.cl := rfl
@[simp] theorem State.sinkClose_clnull (s : State) : s.sinkClose.clnull = s.clnull := rfl
@[simp] theorem State.sinkClose_src (s : State) : s.sinkClose.src = s.src := rfl
@[simp] theorem State.sinkClose_nextSrc (s : State) : s.sinkClose.nextSrc = s.nextSrc := rfl
@[simp] theorem State.sinkClose_snk (s : State) : s.sinkClose.snk = s.snk ++ [.close] := rfl
@[simp] theorem State.sinkClose_rsps (s : State) : s.sinkClose.rsps = s.rsps := rfl
@[simp] theorem State.sinkClose_host (s : State) : s.sinkClose.host = s.host := rfl
@[simp] theorem State.sinkClose_free (s : State) : s.sinkClose.free = s.free := rfl

@[simp] theorem State.setHist_par (s : State) (X : List Sym) : (s.setHist X).par = s.par := rfl
@[simp] theorem State.setHist_phase (s : State) (X : List Sym) : (s.setHist X).phase = s.phase := rfl
@[simp] theorem State.setHist_dir (s : State) (X : List Sym) : (s.setHist X).dir = s.dir := rfl
@[simp] theorem State.setHist_maxOrder (s : State) (X : List Sym) : (s.setHist X).maxOrder = s.maxOrder := rfl
@[simp] theorem State.setHist_fcode (s : State) (X : List Sym) : (s.setHist X).fcode = s.fcode := rfl
@[simp] theorem State.setHist_fcmd (s : State) (X : List Sym) : (s.setHist X).fcmd = s.fcmd := rfl
@[simp] theorem State.setHist_eosSeen (s : State) (X : List Sym) : (s.setHist X).eosSeen = s.eosSeen := rfl
@[simp] theorem State.setHist_wbuf (s : State) (X : List Sym) : (s.setHist X).wbuf = s.wbuf := rfl
@[simp] theorem State.setHist_rbuf (s : State) (X : List Sym) : (s.setHist X).rbuf = s.rbuf := rfl
@[simp] theorem State.setHist_spos (s : State) (X : List Sym) : (s.setHist X).spos = s.spos := rfl
@[simp] theorem State.setHist_mark (s : State) (X : List Sym) : (s.setHist X).mark = s.mark := rfl
@[simp] theorem State.setHist_hist (s : State) (X : List Sym) : (s.setHist X).hist = X := rfl
@[simp] theorem State.setHist_wctx (s : State) (X : List Sym) : (s.setHist X).wctx = s.wctx := rfl
@[simp] theorem State.setHist_xbits (s : State) (X : List Sym) : (s.setHist X).xbits = s.xbits := rfl
@[simp] theorem State.setHist_xcount (s : State) (X : List Sym) : (s.setHist X).xcount = s.xcount := rfl
@[simp] theorem State.setHist_nodes (s : State) (X : List Sym) : (s.setHist X).nodes = s.nodes := rfl
@[simp] theorem State.setHist_cl (s : State) (X : List Sym) : (s.setHist X).cl = s.cl := rfl
@[simp] theorem State.setHist_clnull (s : State) (X : List Sym) : (s.setHist X).clnull = s.clnull := rfl
@[simp] theorem State.setHist_src (s : State) (X : List Sym) : (s.setHist X).src = s.src := rfl
@[simp] theorem State.setHist_nextSrc (s : State) (X : List Sym) : (s.setHist X).nextSrc = s.nextSrc := rfl
@[simp] theorem State.setHist_snk (s : State) (X : List Sym) : (s.setHist X).snk = s.snk := rfl
@[simp] theorem State.setHist_rsps (s : State) (X : List Sym) : (s.setHist X).rsps = s.rsps := rfl
@[simp] theorem State.setHist_host (s : State) (X : List Sym) : (s.setHist X).host = s.host := rfl
@[simp] theorem State.setHist_free (s : State) (X : List Sym) : (s.setHist X).free = s.free := rfl

@[simp] theorem State.setWctx_par (s : State) (X : List Sym) : (s.setWctx X).par = s.par := rfl
@[simp] theorem State.setWctx_phase (s : State) (X : List Sym) : (s.setWctx X).phase = s.phase := rfl
@[simp] theorem State.setWctx_dir (s : State) (X : List Sym) : (s.setWctx X).dir = s.dir := rfl
@[simp] theorem State.setWctx_maxOrder (s : State) (X : List Sym) : (s.setWctx X).maxOrder = s.maxOrder := rfl
@[simp] theorem State.setWctx_fcode (s : State) (X : List Sym) : (s.setWctx X).fcode = s.fcode := rfl
@[simp] theorem State.setWctx_fcmd (s : State) (X : List Sym) : (s.setWctx X).fcmd = s.fcmd := rfl
@[simp] theorem State.setWctx_eosSeen (s : State) (X : List Sym) : (s.setWctx X).eosSeen = s.eosSeen := rfl
@[simp] theorem State.setWctx_wbuf (s : State) (X : List Sym) : (s.setWctx X).wbuf = s.wbuf := rfl
@[simp] theorem State.setWctx_rbuf (s : State) (X : List Sym) : (s.setWctx X).rbuf = s.rbuf := rfl
@[simp] theorem State.setWctx_spos (s : State) (X : List Sym) : (s.setWctx X).spos = s.spos := rfl
@[simp] theorem State.setWctx_mark (s : State) (X : List Sym) : (s.setWctx X).mark = s.mark := rfl
@[simp] theorem State.setWctx_hist (s : State) (X : List Sym) : (s.setWctx X).hist = s.hist := rfl
@[simp] theorem State.setWctx_wctx (s : State) (X : List Sym) : (s.setWctx X).wctx = X := rfl
@[simp] theorem State.setWctx_xbits (s : State) (X : List Sym) : (s.setWctx X).xbits = s.xbits := rfl
@[simp] theorem State.setWctx_xcount (s : State) (X : List Sym) : (s.setWctx X).xcount = s.xcount := rfl
@[simp] theorem State.setWctx_nodes (s : State) (X : List Sym) : (s.setWctx X).nodes = s.nodes := rfl
@[simp] theorem State.setWctx_cl (s : State) (X : List Sym) : (s.setWctx X).cl = s.cl := rfl
@[simp] theorem State.setWctx_clnull (s : State) (X : List Sym) : (s.setWctx X).clnull = s.clnull := rfl
@[simp] theorem State.setWctx_src (s : State) (X : List Sym) : (s.setWctx X).src = s.src := rfl
@[simp] theorem State.setWctx_nextSrc (s : State) (X : List Sym) : (s.setWctx X).nextSrc = s.nextSrc := rfl
@[simp] theorem State.setWctx_snk (s : State) (X : List Sym) : (s.setWctx X).snk = s.snk := rfl
@[simp] theorem State.setWctx_rsps (s : State) (X : List Sym) : (s.setWctx X).rsps = s.rsps := rfl
@[simp] theorem State.setWctx_host (s : State) (X : List Sym) : (s.setWctx X).host = s.host := rfl
@[simp] theorem State.setWctx_free (s : State) (X : List Sym) : (s.setWctx X).free = s.free := rfl

@[simp] theorem State.setXset_par (s : State) (x : XSet) : (s.setXset x).par = s.par := rfl
@[simp] theorem State.setXset_phase (s : State) (x : XSet) : (s.setXset x).phase = s.phase := rfl
@[simp] theorem State.setXset_dir (s : State) (x : XSet) : (s.setXset x).dir = s.dir := rfl
@[simp] theorem State.setXset_maxOrder (s : State) (x : XSet) : (s.setXset x).maxOrder = s.maxOrder := rfl
@[simp] theorem State.setXset_fcode (s : State) (x : XSet) : (s.setXset x).fcode = s.fcode := rfl
@[simp] theorem State.setXset_fcmd (s : State) (x : XSet) : (s.setXset x).fcmd = s.fcmd := rfl
@[simp] theorem State.setXset_eosSeen (s : State) (x : XSet) : (s.setXset x).eosSeen = s.eosSeen := rfl
@[simp] theorem State.setXset_wbuf (s : State) (x : XSet) : (s.setXset x).wbuf = s.wbuf := rfl
@[simp] theorem State.setXset_rbuf (s : State) (x : XSet) : (s.setXset x).rbuf = s.rbuf := rfl
@[simp] theorem State.setXset_spos (s : State) (x : XSet) : (s.setXset x).spos = s.spos := rfl
@[simp] theorem State.setXset_mark (s : State) (x : XSet) : (s.setXset x).mark = s.mark := rfl
@[simp] theorem State.setXset_hist (s : State) (x : XSet) : (s.setXset x).hist = s.hist := rfl
@[simp] theorem State.setXset_wctx (s : State) (x : XSet) : (s.setXset x).wctx = s.wctx := rfl
@[simp] theorem State.setXset_xbits (s : State) (x : XSet) : (s.setXset x).xbits = x.bits := rfl
@[simp] theorem State.setXset_xcount (s : State) (x : XSet) : (s.setXset x).xcount = x.count := rfl
@[simp] theorem State.setXset_nodes (s : State) (x : XSet) : (s.setXset x).nodes = s.nodes := rfl
@[simp] theorem State.setXset_cl (s : State) (x : XSet) : (s.setXset x).cl = s.cl := rfl
@[simp] theorem State.setXset_clnull (s : State) (x : XSet) : (s.setXset x).clnull = s.clnull := rfl
@[simp] theorem State.setXset_src (s : State) (x : XSet) : (s.setXset x).src = s.src := rfl
@[simp] theorem State.setXset_nextSrc (s : State) (x : XSet) : (s.setXset x).nextSrc = s.nextSrc := rfl
@[simp] theorem State.setXset_snk (s : State) (x : XSet) : (s.setXset x).snk = s.snk := rfl
@[simp] theorem State.setXset_rsps (s : State) (x : XSet) : (s.setXset x).rsps = s.rsps := rfl
@[simp] theorem State.setXset_host (s : State) (x : XSet) : (s.setXset x).host = s.host := rfl
@[simp] theorem State.setXset_free (s : State) (x : XSet) : (s.setXset x).free = s.free := rfl

@[simp] theorem State.setNodes_par (s : State) (ns : List Node) : (s.setNodes ns).par = s.par := rfl
@[simp] theorem State.setNodes_phase (s : State) (ns : List Node) : (s.setNodes ns).phase = s.phase := rfl
@[simp] theorem State.setNodes_dir (s : State) (ns : List Node) : (s.setNodes ns).dir = s.dir := rfl
@[simp] theorem State.setNodes_maxOrder (s : State) (ns : List Node) : (s.setNodes ns).maxOrder = s.maxOrder := rfl
@[simp] theorem State.setNodes_fcode (s : State) (ns : List Node) : (s.setNodes ns).fcode = s.fcode := rfl
@[simp] theorem State.setNodes_fcmd (s : State) (ns : List Node) : (s.setNodes ns).fcmd = s.fcmd := rfl
@[simp] theorem State.setNodes_eosSeen (s : State) (ns : List Node) : (s.setNodes ns).eosSeen = s.eosSeen := rfl
@[simp] theorem State.setNodes_wbuf (s : State) (ns : List Node) : (s.setNodes ns).wbuf = s.wbuf := rfl
@[simp] theorem State.setNodes_rbuf (s : State) (ns : List Node) : (s.setNodes ns).rbuf = s.rbuf := rfl
@[simp] theorem State.setNodes_spos (s : State) (ns : List Node) : (s.setNodes ns).spos = s.spos := rfl
@[simp] theorem State.setNodes_mark (s : State) (ns : List Node) : (s.setNodes ns).mark = s.mark := rfl
@[simp] theorem State.setNodes_hist (s : State) (ns : List Node) : (s.setNodes ns).hist = s.hist := rfl
@[simp] theorem State.setNodes_wctx (s : State) (ns : List Node) : (s.setNodes ns).wctx = s.wctx := rfl
@[simp] theorem State.setNodes_xbits (s : State) (ns : List Node) : (s.setNodes ns).xbits = s.xbits := rfl
@[simp] theorem State.setNodes_xcount (s : State) (ns : List Node) : (s.setNodes ns).xcount = s.xcount := rfl
@[simp] theorem State.setNodes_nodes (s : State) (ns : List Node) : (s.setNodes ns).nodes = ns := rfl
@[simp] theorem State.setNodes_cl (s : State) (ns : List Node) : (s.setNodes ns).cl = s.cl := rfl
@[simp] theorem State.setNodes_clnull (s : State) (ns : List Node) : (s.setNodes ns).clnull = s.clnull := rfl
@[simp] theorem State.setNodes_src (s : State) (ns : List Node) : (s.setNodes ns).src = s.src := rfl
@[simp] theorem State.setNodes_nextSrc (s : State) (ns : List Node) : (s.setNodes ns).nextSrc = s.nextSrc := rfl
@[simp] theorem State.setNodes_snk (s : State) (ns : List Node) : (s.setNodes ns).snk = s.snk := rfl
@[simp] theorem State.setNodes_rsps (s : State) (ns : List Node) : (s.setNodes ns).rsps = s.rsps := rfl
@[simp] theorem State.setNodes_host (s : State) (ns : List Node) : (s.setNodes ns).host = s.host := rfl
@[simp] theorem State.setNodes_free (s : State) (ns : List Node) : (s.setNodes ns).free = s.free := rfl

@[simp] theorem State.setList_par (s : State) (l : List Cand) (b : Bool) : (s.setList l b).par = s.par := rfl
@[simp] theorem State.setList_phase (s : State) (l : List Cand) (b : Bool) : (s.setList l b).phase = s.phase := rfl
@[simp] theorem State.setList_dir (s : State) (l : List Cand) (b : Bool) : (s.setList l b).dir = s.dir := rfl
@[simp] theorem State.setList_maxOrder (s : State) (l : List Cand) (b : Bool) : (s.setList l b).maxOrder = s.maxOrder := rfl
@[simp] theorem State.setList_fcode (s : State) (l : List Cand) (b : Bool) : (s.setList l b).fcode = s.fcode := rfl
@[simp] theorem State.setList_fcmd (s : State) (l : List Cand) (b : Bool) : (s.setList l b).fcmd = s.fcmd := rfl
@[simp] theorem State.setList_eosSeen (s : State) (l : List Cand) (b : Bool) : (s.setList l b).eosSeen = s.eosSeen := rfl
@[simp] theorem State.setList_wbuf (s : State) (l : List Cand) (b : Bool) : (s.setList l b).wbuf = s.wbuf := rfl
@[simp] theorem State.setList_rbuf (s : State) (l : List Cand) (b : Bool) : (s.setList l b).rbuf = s.rbuf := rfl
@[simp] theorem State.setList_spos (s : State) (l : List Cand) (b : Bool) : (s.setList l b).spos = s.spos := rfl
@[simp] theorem State.setList_mark (s : State) (l : List Cand) (b : Bool) : (s.setList l b).mark = s.mark := rfl
@[simp] theorem State.setList_hist (s : State) (l : List Cand) (b : Bool) : (s.setList l b).hist = s.hist := rfl
@[simp] theorem State.setList_wctx (s : State) (l : List Cand) (b : Bool) : (s.setList l b).wctx = s.wctx := rfl
@[simp] theorem State.setList_xbits (s : State) (l : List Cand) (b : Bool) : (s.setList l b).xbits = s.xbits := rfl
@[simp] theorem State.setList_xcount (s : State) (l : List Cand) (b : Bool) : (s.setList l b).xcount = s.xcount := rfl
@[simp] theorem State.setList_nodes (s : State) (l : List Cand) (b : Bool) : (s.setList l b).nodes = s.nodes := rfl
@[simp] theorem State.setList_cl (s : State) (l : List Cand) (b : Bool) : (s.setList l b).cl = l := rfl
@[simp] theorem State.setList_clnull (s : State) (l : List Cand) (b : Bool) : (s.setList l b).clnull = b := rfl
@[simp] theorem State.setList_src (s : State) (l : List Cand) (b : Bool) : (s.setList l b).src = s.src := rfl
@[simp] theorem State.setList_nextSrc (s : State) (l : List Cand) (b : Bool) : (s.setList l b).nextSrc = s.nextSrc := rfl
@[simp] theorem State.setList_snk (s : State) (l : List Cand) (b : Bool) : (s.setList l b).snk = s.snk := rfl
@[simp] theorem State.setList_rsps (s : State) (l : List Cand) (b : Bool) : (s.setList l b).rsps = s.rsps := rfl
@[simp] theorem State.setList_host (s : State) (l : List Cand) (b : Bool) : (s.setList l b).host = s.host := rfl
@[simp] theorem State.setList_free (s : State) (l : List Cand) (b : Bool) : (s.setList l b).free = s.free := rfl

@[simp] theorem State.setPhase_par (s : State) (p : Phase) : (s.setPhase p).par = s.par := rfl
@[simp] theorem State.setPhase_phase (s : State) (p : Phase) : (s.setPhase p).phase = p := rfl
@[simp] theorem State.setPhase_dir (s : State) (p : Phase) : (s.setPhase p).dir = s.dir := rfl
@[simp] theorem State.setPhase_maxOrder (s : State) (p : Phase) : (s.setPhase p).maxOrder = s.maxOrder := rfl
@[simp] theorem State.setPhase_fcode (s : State) (p : Phase) : (s.setPhase p).fcode = s.fcode := rfl
@[simp] theorem State.setPhase_fcmd (s : State) (p : Phase) : (s.setPhase p).fcmd = s.fcmd := rfl
@[simp] theorem State.setPhase_eosSeen (s : State) (p : Phase) : (s.setPhase p).eosSeen = s.eosSeen := rfl
@[simp] theorem State.setPhase_wbuf (s : State) (p : Phase) : (s.setPhase p).wbuf = s.wbuf := rfl
@[simp] theorem State.setPhase_rbuf (s : State) (p : Phase) : (s.setPhase p).rbuf = s.rbuf := rfl
@[simp] theorem State.setPhase_spos (s : State) (p : Phase) : (s.setPhase p).spos = s.spos := rfl
@[simp] theorem State.setPhase_mark (s : State) (p : Phase) : (s.setPhase p).mark = s.mark := rfl
@[simp] theorem State.setPhase_hist (s : State) (p : Phase) : (s.setPhase p).hist = s.hist := rfl
@[simp] theorem State.setPhase_wctx (s : State) (p : Phase) : (s.setPhase p).wctx = s.wctx := rfl
@[simp] theorem State.setPhase_xbits (s : State) (p : Phase) : (s.setPhase p).xbits = s.xbits := rfl
@[simp] theorem State.setPhase_xcount (s : State) (p : Phase) : (s.setPhase p).xcount = s.xcount := rfl
@[simp] theorem State.setPhase_nodes (s : State) (p : Phase) : (s.setPhase p).nodes = s.nodes := rfl
@[simp] theorem State.setPhase_cl (s : State) (p : Phase) : (s.setPhase p).cl = s.cl := rfl
@[simp] theorem State.setPhase_clnull (s : State) (p : Phase) : (s.setPhase p).clnull = s.clnull := rfl
@[simp] theorem State.setPhase_src (s : State) (p : Phase) : (s.setPhase p).src = s.src := rfl
@[simp] theorem State.setPhase_nextSrc (s : State) (p : Phase) : (s.setPhase p).nextSrc = s.nextSrc := rfl
@[simp] theorem State.setPhase_snk (s : State) (p : Phase) : (s.setPhase p).snk = s.snk := rfl
@[simp] theorem State.setPhase_rsps (s : State) (p : Phase) : (s.setPhase p).rsps = s.rsps := rfl
@[simp] theorem State.setPhase_host (s : State) (p : Phase) : (s.setPhase p).host = s.host := rfl
@[simp] theorem State.setPhase_free (s : State) (p : Phase) : (s.setPhase p).free = s.free := rfl

@[simp] theorem State.drawFree_par (s : State) : s.drawFree.par = s.par := rfl
@[simp] theorem State.drawFree_phase (s : State) : s.drawFree.phase = s.phase := rfl
@[simp] theorem State.drawFree_dir (s : State) : s.drawFree.dir = s.dir := rfl
@[simp] theorem State.drawFree_maxOrder (s : State) : s.drawFree.maxOrder = s.maxOrder := rfl
@[simp] theorem State.drawFree_fcode (s : State) : s.drawFree.fcode = s.fcode := rfl
@[simp] theorem State.drawFree_fcmd (s : State) : s.drawFree.fcmd = s.fcmd := rfl
@[simp] theorem State.drawFree_eosSeen (s : State) : s.drawFree.eosSeen = s.eosSeen := rfl
@[simp] theorem State.drawFree_wbuf (s : State) : s.drawFree.wbuf = s.wbuf := rfl
@[simp] theorem State.drawFree_rbuf (s : State) : s.drawFree.rbuf = s.rbuf := rfl
@[simp] theorem State.drawFree_spos (s : State) : s.drawFree.spos = s.spos := rfl
@[simp] theorem State.drawFree_mark (s : State) : s.drawFree.mark = s.mark := rfl
@[simp] theorem State.drawFree_hist (s : State) : s.drawFree.hist = s.hist := rfl
@[simp] theorem State.drawFree_wctx (s : State) : s.drawFree.wctx = s.wctx := rfl
@[simp] theorem State.drawFree_xbits (s : State) : s.drawFree.xbits = s.xbits := rfl
@[simp] theorem State.drawFree_xcount (s : State) : s.drawFree.xcount = s.xcount := rfl
@[simp] theorem State.drawFree_nodes (s : State) : s.drawFree.nodes = s.nodes := rfl
@[simp] theorem State.drawFree_cl (s : State) : s.drawFree.cl = s.cl := rfl
@[simp] theorem State.drawFree_clnull (s : State) : s.drawFree.clnull = s.clnull := rfl
@[simp] theorem State.drawFree_src (s : State) : s.drawFree.src = s.src := rfl
@[simp] theorem State.drawFree_nextSrc (s : State) : s.drawFree.nextSrc = s.nextSrc := rfl
@[simp] theorem State.drawFree_snk (s : State) : s.drawFree.snk = s.snk := rfl
@[simp] theorem State.drawFree_rsps (s : State) : s.drawFree.rsps = s.rsps := rfl
@[simp] theorem State.drawFree_host (s : State) : s.drawFree.host = s.host := rfl
@[simp] theorem State.drawFree_free (s : State) : s.drawFree.free = s.free + 1 := rfl

@[simp] theorem State.respond_par (s : State) (rsp : Response) : (s.respond rsp).par = s.par := rfl
@[simp] theorem State.respond_phase (s : State) (rsp : Response) : (s.respond rsp).phase = s.phase := rfl
@[simp] theorem State.respond_dir (s : State) (rsp : Response) : (s.respond rsp).dir = s.dir := rfl
@[simp] theorem State.respond_maxOrder (s : State) (rsp : Response) : (s.respond rsp).maxOrder = s.maxOrder := rfl
@[simp] theorem State.respond_fcode (s : State) (rsp : Response) : (s.respond rsp).fcode = s.fcode := rfl
@[simp] theorem State.respond_fcmd (s : State) (rsp : Response) : (s.respond rsp).fcmd = s.fcmd := rfl
@[simp] theorem State.respond_eosSeen (s : State) (rsp : Response) : (s.respond rsp).eosSeen = s.eosSeen := rfl
@[simp] theorem State.respond_wbuf (s : State) (rsp : Response) : (s.respond rsp).wbuf = s.wbuf := rfl
@[simp] theorem State.respond_rbuf (s : State) (rsp : Response) : (s.respond rsp).rbuf = s.rbuf := rfl
@[simp] theorem State.respond_spos (s : State) (rsp : Response) : (s.respond rsp).spos = s.spos := rfl
@[simp] theorem State.respond_mark (s : State) (rsp : Response) : (s.respond rsp).mark = s.mark := rfl
@[simp] theorem State.respond_hist (s : State) (rsp : Response) : (s.respond rsp).hist = s.hist := rfl
@[simp] theorem State.respond_wctx (s : State) (rsp : Response) : (s.respond rsp).wctx = s.wctx := rfl
@[simp] theorem State.respond_xbits (s : State) (rsp : Response) : (s.respond rsp).xbits = s.xbits := rfl
@[simp] theorem State.respond_xcount (s : State) (rsp : Response) : (s.respond rsp).xcount = s.xcount := rfl
@[simp] theorem State.respond_nodes (s : State) (rsp : Response) : (s.respond rsp).nodes = s.nodes := rfl
@[simp] theorem State.respond_cl (s : State) (rsp : Response) : (s.respond rsp).cl = s.cl := rfl
@[simp] theorem State.respond_clnull (s : State) (rsp : Response) : (s.respond rsp).clnull = s.clnull := rfl
@[simp] theorem State.respond_src (s : State) (rsp : Response) : (s.respond rsp).src = s.src := rfl
@[simp] theorem State.respond_nextSrc (s : State) (rsp : Response) : (s.respond rsp).nextSrc = s.nextSrc := rfl
@[simp] theorem State.respond_snk (s : State) (rsp : Response) : (s.respond rsp).snk = s.snk := rfl
@[simp] theorem State.respond_rsps (s : State) (rsp : Response) : (s.respond rsp).rsps = s.rsps ++ [rsp] := rfl
@[simp] theorem State.respond_host (s : State) (rsp : Response) : (s.respond rsp).host = s.host := rfl
@[simp] theorem State.respond_free (s : State) (rsp : Response) : (s.respond rsp).free = s.free := rfl

@[simp] theorem State.takeFault_par (s : State) (f : FaultKind) (opc : BitVec 8) : (s.takeFault f opc).par = s.par := rfl
@[simp] theorem State.takeFault_phase (s : State) (f : FaultKind) (opc : BitVec 8) : (s.takeFault f opc).phase = .faulted := rfl
@[simp] theorem State.takeFault_dir (s : State) (f : FaultKind) (opc : BitVec 8) : (s.takeFault f opc).dir = s.dir := rfl
@[simp] theorem State.takeFault_maxOrder (s : State) (f : FaultKind) (opc : BitVec 8) : (s.takeFault f opc).maxOrder = s.maxOrder := rfl
@[simp] theorem State.takeFault_fcode (s : State) (f : FaultKind) (opc : BitVec 8) : (s.takeFault f opc).fcode = f.code := rfl
@[simp] theorem State.takeFault_fcmd (s : State) (f : FaultKind) (opc : BitVec 8) : (s.takeFault f opc).fcmd = opc := rfl
@[simp] theorem State.takeFault_eosSeen (s : State) (f : FaultKind) (opc : BitVec 8) : (s.takeFault f opc).eosSeen = s.eosSeen := rfl
@[simp] theorem State.takeFault_wbuf (s : State) (f : FaultKind) (opc : BitVec 8) : (s.takeFault f opc).wbuf = s.wbuf := rfl
@[simp] theorem State.takeFault_rbuf (s : State) (f : FaultKind) (opc : BitVec 8) : (s.takeFault f opc).rbuf = s.rbuf := rfl
@[simp] theorem State.takeFault_spos (s : State) (f : FaultKind) (opc : BitVec 8) : (s.takeFault f opc).spos = s.spos := rfl
@[simp] theorem State.takeFault_mark (s : State) (f : FaultKind) (opc : BitVec 8) : (s.takeFault f opc).mark = s.mark := rfl
@[simp] theorem State.takeFault_hist (s : State) (f : FaultKind) (opc : BitVec 8) : (s.takeFault f opc).hist = s.hist := rfl
@[simp] theorem State.takeFault_wctx (s : State) (f : FaultKind) (opc : BitVec 8) : (s.takeFault f opc).wctx = s.wctx := rfl
@[simp] theorem State.takeFault_xbits (s : State) (f : FaultKind) (opc : BitVec 8) : (s.takeFault f opc).xbits = s.xbits := rfl
@[simp] theorem State.takeFault_xcount (s : State) (f : FaultKind) (opc : BitVec 8) : (s.takeFault f opc).xcount = s.xcount := rfl
@[simp] theorem State.takeFault_nodes (s : State) (f : FaultKind) (opc : BitVec 8) : (s.takeFault f opc).nodes = s.nodes := rfl
@[simp] theorem State.takeFault_cl (s : State) (f : FaultKind) (opc : BitVec 8) : (s.takeFault f opc).cl = s.cl := rfl
@[simp] theorem State.takeFault_clnull (s : State) (f : FaultKind) (opc : BitVec 8) : (s.takeFault f opc).clnull = s.clnull := rfl
@[simp] theorem State.takeFault_src (s : State) (f : FaultKind) (opc : BitVec 8) : (s.takeFault f opc).src = s.src := rfl
@[simp] theorem State.takeFault_nextSrc (s : State) (f : FaultKind) (opc : BitVec 8) : (s.takeFault f opc).nextSrc = s.nextSrc := rfl
@[simp] theorem State.takeFault_snk (s : State) (f : FaultKind) (opc : BitVec 8) : (s.takeFault f opc).snk = s.snk := rfl
@[simp] theorem State.takeFault_rsps (s : State) (f : FaultKind) (opc : BitVec 8) : (s.takeFault f opc).rsps = s.rsps ++ [⟨.fault f, 0, 0⟩] := rfl
@[simp] theorem State.takeFault_host (s : State) (f : FaultKind) (opc : BitVec 8) : (s.takeFault f opc).host = s.host := rfl
@[simp] theorem State.takeFault_free (s : State) (f : FaultKind) (opc : BitVec 8) : (s.takeFault f opc).free = s.free := rfl

@[simp] theorem State.initialise_par (s : State) (d : Dir) (m : Wide) : (s.initialise d m).par = s.par := rfl
@[simp] theorem State.initialise_phase (s : State) (d : Dir) (m : Wide) : (s.initialise d m).phase = .ready := rfl
@[simp] theorem State.initialise_dir (s : State) (d : Dir) (m : Wide) : (s.initialise d m).dir = d := rfl
@[simp] theorem State.initialise_maxOrder (s : State) (d : Dir) (m : Wide) : (s.initialise d m).maxOrder = m := rfl
@[simp] theorem State.initialise_fcode (s : State) (d : Dir) (m : Wide) : (s.initialise d m).fcode = 0 := rfl
@[simp] theorem State.initialise_fcmd (s : State) (d : Dir) (m : Wide) : (s.initialise d m).fcmd = 0 := rfl
@[simp] theorem State.initialise_eosSeen (s : State) (d : Dir) (m : Wide) : (s.initialise d m).eosSeen = false := rfl
@[simp] theorem State.initialise_wbuf (s : State) (d : Dir) (m : Wide) : (s.initialise d m).wbuf = [] := rfl
@[simp] theorem State.initialise_rbuf (s : State) (d : Dir) (m : Wide) : (s.initialise d m).rbuf = [] := rfl
@[simp] theorem State.initialise_spos (s : State) (d : Dir) (m : Wide) : (s.initialise d m).spos = 0 := rfl
@[simp] theorem State.initialise_mark (s : State) (d : Dir) (m : Wide) : (s.initialise d m).mark = none := rfl
@[simp] theorem State.initialise_hist (s : State) (d : Dir) (m : Wide) : (s.initialise d m).hist = [] := rfl
@[simp] theorem State.initialise_wctx (s : State) (d : Dir) (m : Wide) : (s.initialise d m).wctx = [] := rfl
@[simp] theorem State.initialise_xbits (s : State) (d : Dir) (m : Wide) : (s.initialise d m).xbits = 0 := rfl
@[simp] theorem State.initialise_xcount (s : State) (d : Dir) (m : Wide) : (s.initialise d m).xcount = 0 := rfl
@[simp] theorem State.initialise_nodes (s : State) (d : Dir) (m : Wide) : (s.initialise d m).nodes = [rootNode] := rfl
@[simp] theorem State.initialise_cl (s : State) (d : Dir) (m : Wide) : (s.initialise d m).cl = [] := rfl
@[simp] theorem State.initialise_clnull (s : State) (d : Dir) (m : Wide) : (s.initialise d m).clnull = false := rfl
@[simp] theorem State.initialise_src (s : State) (d : Dir) (m : Wide) : (s.initialise d m).src = s.nextSrc := rfl
@[simp] theorem State.initialise_nextSrc (s : State) (d : Dir) (m : Wide) : (s.initialise d m).nextSrc = s.nextSrc := rfl
@[simp] theorem State.initialise_snk (s : State) (d : Dir) (m : Wide) : (s.initialise d m).snk = s.snk := rfl
@[simp] theorem State.initialise_rsps (s : State) (d : Dir) (m : Wide) : (s.initialise d m).rsps = s.rsps := rfl
@[simp] theorem State.initialise_host (s : State) (d : Dir) (m : Wide) : (s.initialise d m).host = s.host := rfl
@[simp] theorem State.initialise_free (s : State) (d : Dir) (m : Wide) : (s.initialise d m).free = s.free := rfl

@[simp] theorem State.hardwareReset_par (s : State) : s.hardwareReset.par = s.par := rfl
@[simp] theorem State.hardwareReset_phase (s : State) : s.hardwareReset.phase = .unconf := rfl
@[simp] theorem State.hardwareReset_dir (s : State) : s.hardwareReset.dir = .enc := rfl
@[simp] theorem State.hardwareReset_maxOrder (s : State) : s.hardwareReset.maxOrder = 0 := rfl
@[simp] theorem State.hardwareReset_fcode (s : State) : s.hardwareReset.fcode = 0 := rfl
@[simp] theorem State.hardwareReset_fcmd (s : State) : s.hardwareReset.fcmd = 0 := rfl
@[simp] theorem State.hardwareReset_eosSeen (s : State) : s.hardwareReset.eosSeen = false := rfl
@[simp] theorem State.hardwareReset_wbuf (s : State) : s.hardwareReset.wbuf = [] := rfl
@[simp] theorem State.hardwareReset_rbuf (s : State) : s.hardwareReset.rbuf = [] := rfl
@[simp] theorem State.hardwareReset_spos (s : State) : s.hardwareReset.spos = 0 := rfl
@[simp] theorem State.hardwareReset_mark (s : State) : s.hardwareReset.mark = none := rfl
@[simp] theorem State.hardwareReset_hist (s : State) : s.hardwareReset.hist = [] := rfl
@[simp] theorem State.hardwareReset_wctx (s : State) : s.hardwareReset.wctx = [] := rfl
@[simp] theorem State.hardwareReset_xbits (s : State) : s.hardwareReset.xbits = 0 := rfl
@[simp] theorem State.hardwareReset_xcount (s : State) : s.hardwareReset.xcount = 0 := rfl
@[simp] theorem State.hardwareReset_nodes (s : State) : s.hardwareReset.nodes = [rootNode] := rfl
@[simp] theorem State.hardwareReset_cl (s : State) : s.hardwareReset.cl = [] := rfl
@[simp] theorem State.hardwareReset_clnull (s : State) : s.hardwareReset.clnull = false := rfl
@[simp] theorem State.hardwareReset_src (s : State) : s.hardwareReset.src = s.src := rfl
@[simp] theorem State.hardwareReset_nextSrc (s : State) : s.hardwareReset.nextSrc = s.nextSrc := rfl
@[simp] theorem State.hardwareReset_snk (s : State) : s.hardwareReset.snk = s.snk := rfl
@[simp] theorem State.hardwareReset_rsps (s : State) : s.hardwareReset.rsps = s.rsps := rfl
@[simp] theorem State.hardwareReset_host (s : State) : s.hardwareReset.host = s.host := rfl
@[simp] theorem State.hardwareReset_free (s : State) : s.hardwareReset.free = s.free := rfl

end Sys2Proof.Machine
end

