-- ==== Sys2Proof/Laws/Command.lean ====
section
/-! SUPPORT. What `command` and the outcomes of internal functions come to (60_exceptions.md R330, R341, R345). -/

namespace Sys2Proof.Machine

/-- The state an internal function ends in, whether it is done or has raised a fault (60_exceptions.md R331). -/
def Res.state {σ α : Type} : Res σ α → σ
  | .done _ s => s
  | .raise _ s => s

@[simp] theorem Res.state_done {σ α : Type} (a : α) (s : σ) : (Res.done a s).state = s := rfl
@[simp] theorem Res.state_raise {σ α : Type} (f : FaultKind) (s : σ) : (Res.raise f s : Res σ α).state = s := rfl
@[simp] theorem Res.done_andThen {σ α β : Type} (a : α) (s : σ) (k : α → σ → Res σ β) :
    (Res.done a s).andThen k = k a s := rfl
@[simp] theorem Res.raise_andThen {σ α β : Type} (f : FaultKind) (s : σ) (k : α → σ → Res σ β) :
    (Res.raise f s : Res σ α).andThen k = .raise f s := rfl
@[simp] theorem Res.lift_done {σ τ α : Type} (a : α) (s : σ) (put : σ → τ) :
    (Res.done a s).lift put = .done a (put s) := rfl
@[simp] theorem Res.lift_raise {σ τ α : Type} (f : FaultKind) (s : σ) (put : σ → τ) :
    (Res.raise f s : Res σ α).lift put = .raise f (put s) := rfl
@[simp] theorem Res.lift_state {σ τ α : Type} (x : Res σ α) (put : σ → τ) : (x.lift put).state = put x.state := by
  cases x <;> rfl
@[simp] theorem Res.finish_done (rsp : Response) (s : State) (opc : BitVec 8) :
    (Res.done rsp s).finish opc = s.respond rsp := rfl
@[simp] theorem Res.finish_raise (f : FaultKind) (s : State) (opc : BitVec 8) :
    (Res.raise f s).finish opc = s.takeFault f opc := rfl

/-- An outcome of `andThen` that is done went through both functions. -/
theorem Res.andThen_done {σ α β : Type} {x : Res σ α} {k : α → σ → Res σ β} {b : β} {t : σ}
    (h : x.andThen k = .done b t) : ∃ a s, x = .done a s ∧ k a s = .done b t := by
  cases x with
  | done a s => exact ⟨a, s, rfl, h⟩
  | raise f s => cases h

@[simp] theorem Phase.refusal_ready : Phase.ready.refusal = none := rfl

theorem Phase.refusal_none {p : Phase} : p.refusal = none ↔ p = .ready := by cases p <;> simp [Phase.refusal]

/-- A command in phase READY and in its direction runs its pseudocode (60_exceptions.md R345 step 5). -/
theorem command_run {i : Instr} {s : State} (body : State → Res State Response) (hp : s.phase = .ready)
    (hd : i.dirNeed.allows s.dir = true) : command i s body = .next ((body s).finish i.opcode) := by
  simp [command, hp, hd]

/-- A command of the other direction faults (30_encoding.md R98). -/
theorem command_wrongDir {i : Instr} {s : State} (body : State → Res State Response) (hp : s.phase = .ready)
    (hd : i.dirNeed.allows s.dir = false) : command i s body = .next (s.takeFault .illegalCmd i.opcode) := by
  simp [command, hp, hd]

/-- Outside READY a command is refused (60_exceptions.md R341). -/
theorem command_refused {i : Instr} {s : State} {st : Status} (body : State → Res State Response)
    (hp : s.phase.refusal = some st) : command i s body = .next (s.respond ⟨st, 0, 0⟩) := by
  simp [command, hp]

/-- All that a command can come to. -/
theorem command_cases {i : Instr} {s t : State} {body : State → Res State Response} (h : command i s body = .next t) :
    (∃ st, s.phase.refusal = some st ∧ t = s.respond ⟨st, 0, 0⟩) ∨
      (s.phase = .ready ∧ i.dirNeed.allows s.dir = false ∧ t = s.takeFault .illegalCmd i.opcode) ∨
      (s.phase = .ready ∧ i.dirNeed.allows s.dir = true ∧ t = (body s).finish i.opcode) := by
  cases hp : s.phase.refusal with
  | some st =>
    rw [command_refused body hp] at h
    exact .inl ⟨st, rfl, by cases h; rfl⟩
  | none =>
    have hr := Phase.refusal_none.1 hp
    cases hd : i.dirNeed.allows s.dir with
    | false =>
      rw [command_wrongDir body hr hd] at h
      exact .inr (.inl ⟨hr, rfl, by cases h; rfl⟩)
    | true =>
      rw [command_run body hr hd] at h
      exact .inr (.inr ⟨hr, rfl, by cases h; rfl⟩)

end Sys2Proof.Machine
end

