-- ==== Sys2Proof/Laws/Exclusion.lean ====
section
/-! SUPPORT. The exclusion set (43_exclusion_set.md R210) and the lists filtered by it (44_model.md R224, R226). -/

namespace Sys2Proof.Machine

/-- A symbol is a member after `XsExclude(t)` if it was one or is `t` (43_exclusion_set.md R210). -/
theorem XSet.has_exclude (x : XSet) (t sym : Sym) : (x.exclude t).has sym = (x.has sym || decide (sym = t)) := by
  unfold XSet.exclude
  split
  · next h =>
    by_cases e : sym = t
    · subst e; simp [h]
    · simp [e]
  · simp only [XSet.has, BitVec.getLsbD_or, BitVec.getLsbD_twoPow]
    have ht := t.isLt
    by_cases e : sym = t
    · subst e; simp [ht]
    · have : ¬ t.toNat = sym.toNat := fun h => e (BitVec.eq_of_toNat_eq h.symm)
      simp [e, this]

theorem XSet.count_exclude (x : XSet) (t : Sym) : (x.exclude t).count = x.count + if x.has t then 0 else 1 := by
  unfold XSet.exclude
  split <;> simp_all

/-- `XsExclude(t)` adds one member, unless `t` is one already. -/
theorem XSet.ones_exclude (x : XSet) (t : Sym) : (x.exclude t).ones = x.ones + if x.has t then 0 else 1 := by
  have hall : ∀ i < 256, (x.exclude t).bits.getLsbD i = (x.bits.getLsbD i || decide (i = t.toNat)) := by
    intro i hi
    have h := x.has_exclude t (BitVec.ofNat 8 i)
    simp only [XSet.has, BitVec.toNat_ofNat] at h
    rw [Nat.mod_eq_of_lt (by omega)] at h
    rw [h]
    congr 1
    refine decide_eq_decide.2 ⟨fun e => ?_, fun e => ?_⟩
    · rw [← e, BitVec.toNat_ofNat]; omega
    · subst e; simp
  have hcount : ∀ l : List Nat, l.Nodup → (∀ i ∈ l, i < 256) →
      l.countP (fun i => (x.exclude t).bits.getLsbD i) =
        l.countP (fun i => x.bits.getLsbD i) + if t.toNat ∈ l ∧ x.has t = false then 1 else 0 := by
    intro l
    induction l with
    | nil => intro _ _; simp
    | cons i l ih =>
      intro hn hl
      obtain ⟨hi, hn⟩ := List.nodup_cons.1 hn
      have h1 := hall i (hl i (by simp))
      have h2 := ih hn fun j hj => hl j (by simp [hj])
      simp only [List.countP_cons, h2, h1]
      by_cases e : i = t.toNat
      · subst e
        have hx : x.bits.getLsbD t.toNat = x.has t := rfl
        rw [hx]
        cases x.has t <;> simp [hi]
      · have e' : ¬ t.toNat = i := fun h => e h.symm
        simp only [e, decide_false, Bool.or_false, List.mem_cons, e', false_or]
        omega
  have h := hcount (List.range 256) List.nodup_range fun i hi => List.mem_range.1 hi
  have ht : t.toNat ∈ List.range 256 := List.mem_range.2 t.isLt
  unfold XSet.ones
  rw [h]
  cases x.has t <;> simp [ht]

theorem XSet.ones_zero : (⟨0, 0⟩ : XSet).ones = 0 := by
  rw [XSet.ones, List.countP_eq_zero]; simp

/-- The members among the symbols of a list of candidates. -/
theorem XSet.has_excludeCands (l : List Cand) (x : XSet) (sym : Sym) :
    (x.excludeCands l).has sym = true ↔ x.has sym = true ∨ ∃ q, Cand.sym sym q ∈ l := by
  induction l generalizing x with
  | nil => simp [XSet.excludeCands]
  | cons e l ih =>
    cases e with
    | sym t q =>
      rw [XSet.excludeCands, ih, XSet.has_exclude]
      simp only [Bool.or_eq_true, decide_eq_true_eq, List.mem_cons, Cand.sym.injEq, exists_or]
      constructor
      · rintro ((h | rfl) | h)
        · exact .inl h
        · exact .inr (.inl ⟨q, rfl, rfl⟩)
        · exact .inr (.inr h)
      · rintro (h | ⟨_, rfl, _⟩ | h)
        · exact .inl (.inl h)
        · exact .inl (.inr rfl)
        · exact .inr h
    | esc => rw [XSet.excludeCands, ih]; simp
    | eos => rw [XSet.excludeCands, ih]; simp

theorem XSet.clear_ones (x : XSet) (h : x.count = x.ones) : x.clear = ⟨0, 0⟩ := by
  unfold XSet.clear
  split
  · rfl
  · next hz =>
    have hz : x.count = 0 := by omega
    have h1 := List.countP_eq_zero.1 (h.symm.trans hz)
    obtain ⟨b, c⟩ := x
    have : b = 0 := by
      apply BitVec.eq_of_getLsbD_eq
      intro i hi
      have := h1 i (List.mem_range.2 hi)
      simpa using this
    have hc : c = 0 := hz
    rw [this, hc]

/-! ## The lists -/

theorem mem_allSyms (sym : Sym) : sym ∈ (List.range 256).map (BitVec.ofNat 8) :=
  List.mem_map.2 ⟨sym.toNat, List.mem_range.2 sym.isLt, by simp⟩

/-- The uniform list offers the symbols that are not excluded (44_model.md R226). -/
theorem sym_mem_uniformList {x : XSet} {sym : Sym} {q : Option Nat} :
    Cand.sym sym q ∈ uniformList x ↔ q = none ∧ x.has sym = false := by
  unfold uniformList
  simp only [List.mem_append, List.mem_map, List.mem_filter, Cand.sym.injEq, List.mem_cons, List.not_mem_nil, reduceCtorEq,
    or_false]
  constructor
  · rintro ⟨a, ⟨-, h⟩, rfl, rfl⟩
    exact ⟨rfl, by simpa using h⟩
  · rintro ⟨rfl, h⟩
    exact ⟨sym, ⟨List.mem_map.1 (mem_allSyms sym), by simpa using h⟩, rfl, rfl⟩

/-- The uniform list has 258 entries less one for each member of the set (44_model.md R227). -/
theorem length_uniformList (x : XSet) : (uniformList x).length + x.ones = 258 := by
  have h : ((List.range 256).map (BitVec.ofNat 8)).countP (fun sym => x.has sym) = x.ones := by
    rw [List.countP_map, XSet.ones]
    refine List.countP_congr fun i hi => ?_
    have := List.mem_range.1 hi
    simp [XSet.has, Nat.mod_eq_of_lt this]
  have h2 := List.length_eq_countP_add_countP (fun sym => x.has sym) (l := (List.range 256).map (BitVec.ofNat 8))
  rw [h] at h2
  simp only [uniformList, List.length_append, List.length_map, List.length_cons, List.length_nil, ← List.countP_eq_length_filter]
  simp only [List.length_map, List.length_range] at h2
  have h3 : (fun sym => !x.has sym) = fun a => decide ¬ x.has a = true := by
    funext a; cases x.has a <;> rfl
  rw [h3]
  omega

/-- The trie list offers the children that are not excluded (44_model.md R224). -/
theorem sym_mem_trieList {ns : List Node} {x : XSet} {p : Nat} {sym : Sym} {q : Option Nat} :
    Cand.sym sym q ∈ trieList ns x p ↔
      ∃ c ∈ children ns p, q = some c ∧ (nodeAt ns c).sym = sym ∧ x.has sym = false := by
  unfold trieList
  simp only [List.mem_append, List.mem_map, List.mem_filter, Cand.sym.injEq, List.mem_singleton, reduceCtorEq, or_false]
  constructor
  · rintro ⟨c, ⟨hc, h⟩, rfl, rfl⟩
    exact ⟨c, hc, rfl, rfl, by simpa using h⟩
  · rintro ⟨c, hc, rfl, rfl, h⟩
    exact ⟨c, ⟨hc, by simpa using h⟩, rfl, rfl⟩

theorem esc_mem_trieList (ns : List Node) (x : XSet) (p : Nat) : Cand.esc ∈ trieList ns x p := by simp [trieList]

/-- No more than 256 symbols are different from one another. -/
theorem length_le_of_nodup_syms {l : List Sym} (h : l.Nodup) : l.length ≤ 256 := by
  have := List.Subperm.length_le (List.subperm_of_subset h (fun a _ => mem_allSyms a))
  simpa using this

end Sys2Proof.Machine
end

