-- ==== Sys2Proof/Laws/Reader.lean ====
section
/-! SUPPORT. What the bit reader's internal functions do to the bits that remain (40_bit_reader.md R120 to R123, R139). -/

namespace Sys2Proof.Machine

/-- The bits that remain, for a reader over a source (40_bit_reader.md R120). -/
def Reader.rest (src : List Byte) (r : Reader) : List Bool := r.rbuf ++ (src.drop r.spos).flatMap byteBits

theorem State.remaining_eq (s : State) : s.remaining = s.reader.rest s.src := rfl

@[simp] theorem State.reader_rbuf (s : State) : s.reader.rbuf = s.rbuf := rfl
@[simp] theorem State.reader_spos (s : State) : s.reader.spos = s.spos := rfl
@[simp] theorem State.reader_setReader (s : State) (r : Reader) : (s.setReader r).reader = r := rfl
@[simp] theorem State.setReader_reader (s : State) : s.setReader s.reader = s := rfl

/-- All that `Fill(k)`'s loop over the bytes `l` can do. -/
theorem fillFrom_spec (k : Nat) (l : List Byte) (r : Reader) :
    ∃ j ≤ l.length, (fillFrom k l r).spos = r.spos + j ∧ (fillFrom k l r).rbuf = r.rbuf ++ (l.take j).flatMap byteBits ∧
      (k ≤ (fillFrom k l r).rbuf.length ∨ j = l.length) ∧ (fillFrom k l r).rbuf.length ≤ max r.rbuf.length (k + 7) ∧
      (k ≤ r.rbuf.length → j = 0) := by
  induction l generalizing r with
  | nil => exact ⟨0, by simp [fillFrom]⟩
  | cons b rest ih =>
    by_cases h : r.rbuf.length < k
    · obtain ⟨j, hj, h1, h2, h3, h4, -⟩ := ih ⟨r.rbuf ++ byteBits b, r.spos + 1⟩
      have e : fillFrom k (b :: rest) r = fillFrom k rest ⟨r.rbuf ++ byteBits b, r.spos + 1⟩ := by
        simp [fillFrom, h]
      refine ⟨j + 1, by simpa using hj, ?_, ?_, ?_, ?_, fun hk => absurd hk (by omega)⟩
      · rw [e, h1]; simp; omega
      · rw [e, h2]; simp
      · rw [e]; simpa using h3
      · rw [e]
        simp only [List.length_append, length_byteBits] at h4
        omega
    · refine ⟨0, by simp, ?_⟩
      simp [fillFrom, h]
      omega

/-- All that `Fill(k)` can do (40_bit_reader.md R121): the bits that remain are the same, and either `k` bits are buffered
or all that remain are. -/
theorem Reader.fill_spec (src : List Byte) (k : Nat) (r : Reader) :
    (r.fill src k).rest src = r.rest src ∧
      (k ≤ (r.fill src k).rbuf.length ∨ (r.fill src k).rbuf = r.rest src) ∧
      (r.fill src k).rbuf.length ≤ max r.rbuf.length (k + 7) ∧ r.spos ≤ (r.fill src k).spos ∧
      (k ≤ r.rbuf.length → r.fill src k = r) := by
  obtain ⟨j, hj, h1, h2, h3, h4, h5⟩ := fillFrom_spec k (src.drop r.spos) r
  have hrest : (r.fill src k).rest src = r.rest src := by
    unfold Reader.rest Reader.fill
    rw [h1, h2, List.append_assoc, ← List.drop_drop, ← List.flatMap_append, List.take_append_drop]
  refine ⟨hrest, ?_, h4, ?_, ?_⟩
  · rcases h3 with h3 | h3
    · exact .inl h3
    · right
      rw [Reader.fill, h2, h3, List.take_length, Reader.rest]
  · rw [Reader.fill, h1]; omega
  · intro hk
    have hj0 := h5 hk
    rw [hj0] at h1 h2
    cases r
    simp only [Reader.fill] at *
    generalize fillFrom k _ _ = x at *
    cases x
    simp_all

/-- After `Fill(k)` at least `k` bits are buffered exactly when at least `k` remain. -/
theorem Reader.fill_enough (src : List Byte) (k : Nat) (r : Reader) :
    k ≤ (r.fill src k).rbuf.length ↔ k ≤ (r.rest src).length := by
  obtain ⟨h1, h2, -⟩ := r.fill_spec src k
  constructor
  · intro h
    rw [← h1, Reader.rest, List.length_append]; omega
  · intro h
    rcases h2 with h2 | h2
    · exact h2
    · rw [h2]; exact h

/-- After a `Fill(k)` that found fewer than `k` bits, all that remain are buffered (40_bit_reader.md R123). -/
theorem Reader.fill_short (src : List Byte) (k : Nat) (r : Reader) (h : (r.rest src).length < k) :
    (r.fill src k).rbuf = r.rest src := by
  rcases (r.fill_spec src k).2.1 with h2 | h2
  · exact absurd ((r.fill_enough src k).1 h2) (by omega)
  · exact h2

/-- A prefix of the buffer is a prefix of what remains. -/
theorem Reader.take_rbuf (src : List Byte) (k : Nat) (r : Reader) (h : k ≤ r.rbuf.length) :
    r.rbuf.take k = (r.rest src).take k := by
  rw [Reader.rest, List.take_append_of_le_length h]

/-- `Take(k)` removes the first `k` of the bits that remain (40_bit_reader.md R122). -/
theorem Reader.drop_rest (src : List Byte) (k : Nat) (r : Reader) (h : k ≤ r.rbuf.length) :
    (r.drop k).rest src = (r.rest src).drop k := by
  rw [Reader.rest, Reader.rest, Reader.drop, List.drop_append_of_le_length h]

/-- The number `Take(k)` returns after `Fill(k)`: the first `k` of the bits that remain. -/
theorem Reader.fill_takeVal (src : List Byte) (k : Nat) (r : Reader) (h : k ≤ (r.rest src).length) :
    (r.fill src k).takeVal k = bitsVal ((r.rest src).take k) := by
  rw [Reader.takeVal, Reader.take_rbuf src k _ ((r.fill_enough src k).2 h), (r.fill_spec src k).1]

/-- `Fill(k)` and `Take(k)` move the reader past the first `k` of the bits that remain. -/
theorem Reader.fill_drop_rest (src : List Byte) (k : Nat) (r : Reader) (h : k ≤ (r.rest src).length) :
    ((r.fill src k).drop k).rest src = (r.rest src).drop k := by
  rw [Reader.drop_rest src k _ ((r.fill_enough src k).2 h), (r.fill_spec src k).1]

/-- The loop of BR_SKIP skips as many bits as are wanted or as remain (40_bit_reader.md R139). -/
theorem skipLoop_spec (src : List Byte) (turns want done : Nat) (r : Reader)
    (hturns : (src.length - r.spos) + (if r.rbuf = [] then 0 else 1) < turns) :
    (skipLoop src turns want done r).1 = done + min want (r.rest src).length ∧
      (skipLoop src turns want done r).2.rest src = (r.rest src).drop want ∧
      (skipLoop src turns want done r).2.rbuf.length ≤ max r.rbuf.length 7 ∧
      r.spos ≤ (skipLoop src turns want done r).2.spos := by
  induction turns generalizing want done r with
  | zero => omega
  | succ turns ih =>
    by_cases hw : want = 0
    · simp [skipLoop, hw]
    · obtain ⟨h1, h2, h3, h4, h5⟩ := r.fill_spec src 1
      by_cases he : (r.fill src 1).rbuf.length = 0
      · have hr : r.rest src = [] := by
          rcases h2 with h2 | h2
          · omega
          · rw [← h2]; exact List.length_eq_zero_iff.1 he
        have e : skipLoop src (turns + 1) want done r = (done, r.fill src 1) := by
          simp only [skipLoop, hw, he, if_true, if_false]
        rw [e, h1, hr]
        refine ⟨by simp, by simp, ?_, h4⟩
        show (r.fill src 1).rbuf.length ≤ _
        omega
      · have e : skipLoop src (turns + 1) want done r =
            skipLoop src turns (want - min want (r.fill src 1).rbuf.length) (done + min want (r.fill src 1).rbuf.length)
              ((r.fill src 1).drop (min want (r.fill src 1).rbuf.length)) := by
          simp only [skipLoop, hw, he, if_false]
        rw [e]
        set f := r.fill src 1 with hf
        set t := min want f.rbuf.length with ht
        by_cases hall : want ≤ f.rbuf.length
        · -- the last turn: nothing is wanted after it
          have htw : t = want := by omega
          have e2 : skipLoop src turns (want - t) (done + t) (f.drop t) = (done + t, f.drop t) := by
            cases turns with
            | zero => rfl
            | succ n => simp [skipLoop, htw]
          have hlen : want ≤ (r.rest src).length := by
            rw [← h1, Reader.rest, List.length_append]; omega
          rw [e2]
          refine ⟨by simp only []; omega, ?_, ?_, h4⟩
          · rw [Reader.drop_rest src t f (by omega), h1, htw]
          · simp only [Reader.drop, List.length_drop]; omega
        · -- the buffer is emptied, and the next turn pulls a byte
          have htl : t = f.rbuf.length := by omega
          have hemp : (f.drop t).rbuf = [] := by simp [Reader.drop, htl]
          have hpos : (f.drop t).spos = f.spos := rfl
          have hstep : (src.length - (f.drop t).spos) + (if (f.drop t).rbuf = [] then 0 else 1) < turns := by
            rw [hemp, hpos, if_pos rfl]
            by_cases hb : r.rbuf = []
            · -- a byte was pulled
              have : r.spos < f.spos := by
                rcases Nat.lt_or_ge r.spos f.spos with h | h
                · exact h
                · exfalso
                  have hs : f.spos = r.spos := by omega
                  have : f.rbuf = [] := by
                    have := h1
                    rw [Reader.rest, Reader.rest, hs, hb] at this
                    simpa using this
                  simp [this] at he
              rw [if_pos hb] at hturns
              rcases Nat.lt_or_ge r.spos src.length with h | h
              · omega
              · exfalso
                have : r.rest src = [] := by rw [Reader.rest, hb, List.drop_eq_nil_of_le h]; rfl
                rw [this, Reader.rest] at h1
                have h1' := List.append_eq_nil_iff.1 h1
                simp [h1'.1] at he
            · rw [if_neg hb] at hturns
              omega
          obtain ⟨g1, g2, g3, g4⟩ := ih (want - t) (done + t) (f.drop t) hstep
          have hrl : (f.drop t).rest src = (r.rest src).drop t := by
            rw [Reader.drop_rest src t f (by omega), h1]
          have htle : t ≤ (r.rest src).length := by
            rw [← h1, Reader.rest, List.length_append]; omega
          refine ⟨?_, ?_, ?_, ?_⟩
          · rw [g1, hrl, List.length_drop]; omega
          · rw [g2, hrl, List.drop_drop]; congr 1; omega
          · rw [hemp] at g3; simp at g3; omega
          · rw [hpos] at g4; omega

/-- BR_SKIP's loop from its start (40_bit_reader.md R139). -/
theorem Reader.skip_spec (src : List Byte) (k : Nat) (r : Reader) :
    (r.skip src k).1 = min k (r.rest src).length ∧ (r.skip src k).2.rest src = (r.rest src).drop k ∧
      (r.skip src k).2.rbuf.length ≤ max r.rbuf.length 7 ∧ r.spos ≤ (r.skip src k).2.spos := by
  have h := skipLoop_spec src (src.length - r.spos + 2) k 0 r (by split <;> omega)
  simpa [Reader.skip] using h

/-- `Fill(k)` buffers the bytes it pulls, and pulls none it does not need (40_bit_reader.md R121, 20_memory.md R77). -/
theorem Reader.fill_position (src : List Byte) (k : Nat) (r : Reader) :
    8 * (r.fill src k).spos + r.rbuf.length = 8 * r.spos + (r.fill src k).rbuf.length ∧
      ((r.fill src k).spos = r.spos ∨ (r.fill src k).rbuf.length ≤ k + 7) := by
  obtain ⟨j, hj, h1, h2, -, h4, h5⟩ := fillFrom_spec k (src.drop r.spos) r
  have hl : (r.fill src k).rbuf.length = r.rbuf.length + 8 * j := by
    rw [Reader.fill, h2, List.length_append, length_flatMap_byteBits, List.length_take, Nat.min_eq_left hj]
  have hs : (r.fill src k).spos = r.spos + j := h1
  have h4' : (r.fill src k).rbuf.length ≤ max r.rbuf.length (k + 7) := h4
  refine ⟨by omega, ?_⟩
  by_cases hk : k ≤ r.rbuf.length
  · left; rw [hs, h5 hk, Nat.add_zero]
  · right; omega

/-- BR_SKIP's loop moves the position by what it skipped, and pulls no byte it does not need (40_bit_reader.md R139). -/
theorem skipLoop_position (src : List Byte) (turns want done : Nat) (r : Reader) :
    8 * (skipLoop src turns want done r).2.spos + r.rbuf.length + done =
        8 * r.spos + (skipLoop src turns want done r).2.rbuf.length + (skipLoop src turns want done r).1 ∧
      ((skipLoop src turns want done r).2.spos = r.spos ∨ (skipLoop src turns want done r).2.rbuf.length ≤ 7) ∧
      done ≤ (skipLoop src turns want done r).1 := by
  induction turns generalizing want done r with
  | zero => exact ⟨rfl, .inl rfl, le_rfl⟩
  | succ turns ih =>
    unfold skipLoop
    dsimp only
    obtain ⟨f1, f2⟩ := r.fill_position src 1
    split
    · exact ⟨rfl, .inl rfl, le_rfl⟩
    · split
      · dsimp only; exact ⟨by omega, by omega, le_rfl⟩
      · next hw he =>
        obtain ⟨g1, g2, g3⟩ := ih (want - min want (r.fill src 1).rbuf.length) (done + min want (r.fill src 1).rbuf.length)
          ((r.fill src 1).drop (min want (r.fill src 1).rbuf.length))
        have hl : ((r.fill src 1).drop (min want (r.fill src 1).rbuf.length)).rbuf.length =
            (r.fill src 1).rbuf.length - min want (r.fill src 1).rbuf.length := by simp [Reader.drop]
        have hs : ((r.fill src 1).drop (min want (r.fill src 1).rbuf.length)).spos = (r.fill src 1).spos := rfl
        rw [hl, hs] at g1
        rw [hs] at g2
        refine ⟨by omega, ?_, by omega⟩
        rcases g2 with g2 | g2
        · have he' : (r.fill src 1).rbuf.length ≠ 0 := he
          have hw' : want ≠ 0 := hw
          rcases f2 with f2 | f2
          · exact .inl (g2.trans f2)
          · right
            rw [g2] at g1
            omega
        · exact .inr g2

theorem Reader.skip_position (src : List Byte) (k : Nat) (r : Reader) :
    8 * (r.skip src k).2.spos + r.rbuf.length = 8 * r.spos + (r.skip src k).1 + (r.skip src k).2.rbuf.length ∧
      ((r.skip src k).2.spos = r.spos ∨ (r.skip src k).2.rbuf.length ≤ 7) := by
  obtain ⟨h1, h2, -⟩ := skipLoop_position src (src.length - r.spos + 2) k 0 r
  exact ⟨by simp only [Reader.skip]; omega, h2⟩

/-- `Fill(k)`, then `Take(k)`, where at least `k` bits remain (40_bit_reader.md R121, R122). -/
theorem State.read_consumes (s : State) (k : Nat) (h : k ≤ s.remaining.length) :
    Consumes s ((s.fill k).consume k) k := by
  have hk := (s.reader.fill_enough s.src k).2 h
  obtain ⟨f1, f2⟩ := s.reader.fill_position s.src k
  have e1 : ((s.fill k).consume k).rbuf.length = (s.reader.fill s.src k).rbuf.length - k := by
    show ((s.reader.fill s.src k).rbuf.drop k).length = _
    rw [List.length_drop]
  have e2 : ((s.fill k).consume k).spos = (s.reader.fill s.src k).spos := rfl
  refine ⟨Reader.fill_drop_rest s.src k s.reader h, ?_, ?_⟩
  · rw [e1, e2]; simp only [State.reader_rbuf, State.reader_spos] at f1; omega
  · rw [e1, e2]; simp only [State.reader_spos] at f2; omega

/-- Nothing read. -/
theorem Consumes.none (s : State) : Consumes s s 0 := ⟨rfl, rfl, .inl rfl⟩

/-- Two reads one after the other. -/
theorem Consumes.trans {s t u : State} {k l : Nat} (h : Consumes s t k) (h' : Consumes t u l) : Consumes s u (k + l) := by
  obtain ⟨h1, h2, h3⟩ := h
  obtain ⟨k1, k2, k3⟩ := h'
  refine ⟨by rw [k1, h1, List.drop_drop], by omega, ?_⟩
  omega

/-- The bits left after those read. -/
theorem Consumes.rest {s t : State} {bs rest : List Bool} (h : Consumes s t bs.length) (hs : s.remaining = bs ++ rest) :
    t.remaining = rest := by
  rw [h.remaining, hs, List.drop_left]

/-- `Fill(k)` where fewer than `k` bits remain (40_bit_reader.md R121, R123). -/
theorem State.fill_ranOut (s : State) (k : Nat) (h : s.remaining.length < k) : RanOut s (s.fill k) := by
  obtain ⟨f1, -⟩ := s.reader.fill_position s.src k
  exact ⟨(s.reader.fill_spec s.src k).1, Reader.fill_short s.src k s.reader h, f1⟩

/-- The bits a read of `k` returns (40_bit_reader.md R122). -/
theorem State.fill_takeVal (s : State) (k : Nat) (h : k ≤ s.remaining.length) :
    (s.fill k).reader.takeVal k = bitsVal (s.remaining.take k) := Reader.fill_takeVal s.src k s.reader h

/-- The bits that remain are untouched by `Fill` on the block. -/
@[simp] theorem State.fill_remaining (s : State) (k : Nat) : (s.fill k).remaining = s.remaining :=
  (s.reader.fill_spec s.src k).1

/-- `Take(k)` on the block removes the first `k` of the bits that remain. -/
theorem State.consume_remaining (s : State) (k : Nat) (h : k ≤ s.rbuf.length) :
    (s.consume k).remaining = s.remaining.drop k :=
  Reader.drop_rest s.src k s.reader h

/-- With no bit buffered after `Fill(1)` no bit remains; with one, it is the first that remains. -/
theorem State.fill_one (s : State) :
    (s.remaining = [] ∧ (s.fill 1).rbuf = []) ∨
      ∃ b rest tail, (s.fill 1).rbuf = b :: rest ∧ s.remaining = b :: tail ∧ ((s.fill 1).consume 1).remaining = tail := by
  have h1 : (s.fill 1).remaining = s.remaining := s.fill_remaining 1
  rcases hb : (s.fill 1).rbuf with _ | ⟨b, rest⟩
  · left
    refine ⟨?_, rfl⟩
    rcases (s.reader.fill_spec s.src 1).2.1 with h | h
    · have : (s.reader.fill s.src 1).rbuf = [] := hb
      rw [this] at h; simp at h
    · have : (s.reader.fill s.src 1).rbuf = [] := hb
      rw [State.remaining_eq, ← h, this]
  · right
    refine ⟨b, rest, rest ++ ((s.fill 1).src.drop (s.fill 1).spos).flatMap byteBits, rfl, ?_, ?_⟩
    · rw [← h1, State.remaining, hb]; rfl
    · rw [State.consume_remaining _ _ (by rw [hb]; simp), State.remaining, hb]; rfl

end Sys2Proof.Machine
end

