-- ==== Sys2Proof/Laws/Huffman.lean ====
section
/-! SUPPORT. The Huffman tree of a decision (46_huffman.md R290 to R298): what HuffBuild makes, the paths to its leaves, and
the walk that follows a path. -/

namespace Sys2Proof.Machine

/-- The leaves of a tree, left to right. -/
def HTree.leaves : HTree → List Nat
  | .leaf i => [i]
  | .node l r => l.leaves ++ r.leaves

theorem HTree.leaves_ne_nil : ∀ t : HTree, t.leaves ≠ []
  | .leaf _ => by simp [HTree.leaves]
  | .node l _ => by simp [HTree.leaves, l.leaves_ne_nil]

/-- The leaves of all the trees of the set `A`. -/
def itemLeaves (A : List HItem) : List Nat := A.flatMap fun x => x.tree.leaves

theorem insertItem_perm (x : HItem) (A : List HItem) : (insertItem x A).Perm (x :: A) := by
  induction A with
  | nil => exact .refl _
  | cons y A ih =>
    unfold insertItem
    split
    · exact .refl _
    · exact (ih.cons y).trans (.swap x y A)

theorem length_insertItem (x : HItem) (A : List HItem) : (insertItem x A).length = A.length + 1 :=
  (insertItem_perm x A).length_eq

theorem itemLeaves_perm {A B : List HItem} (h : A.Perm B) : (itemLeaves A).Perm (itemLeaves B) := h.flatMap_right _

/-- Merging keeps the leaves (46_huffman.md R291). -/
theorem mergeAll_leaves : ∀ (turns m : Nat) (A : List HItem), (itemLeaves (mergeAll turns m A)).Perm (itemLeaves A)
  | 0, _, A => by unfold mergeAll; exact .refl _
  | _ + 1, _, [] => .refl _
  | _ + 1, _, [_] => .refl _
  | turns + 1, m, a :: b :: rest => by
    refine (mergeAll_leaves turns (m + 1) _).trans ((itemLeaves_perm (insertItem_perm _ _)).trans ?_)
    simp [itemLeaves, HTree.leaves]

/-- As many merges as there are members less one leave one member. -/
theorem length_mergeAll : ∀ (turns m : Nat) (A : List HItem), A.length = turns + 1 → (mergeAll turns m A).length = 1
  | 0, _, A, h => by unfold mergeAll; exact h
  | _ + 1, _, [], h => by simp at h
  | _ + 1, _, [_], h => by simp at h
  | turns + 1, m, a :: b :: rest, h => by
    refine length_mergeAll turns (m + 1) _ ?_
    rw [length_insertItem]
    simpa using h

theorem length_leavesFrom (i : Nat) (ws : List Nat) : (leavesFrom i ws).length = ws.length := by
  induction ws generalizing i with
  | nil => rfl
  | cons w ws ih => rw [leavesFrom, length_insertItem, ih, List.length_cons]

theorem leavesFrom_leaves (i : Nat) (ws : List Nat) : (itemLeaves (leavesFrom i ws)).Perm (List.range' i ws.length) := by
  induction ws generalizing i with
  | nil => exact .refl _
  | cons w ws ih =>
    refine (itemLeaves_perm (insertItem_perm _ _)).trans ?_
    rw [List.length_cons, List.range'_succ]
    exact (ih (i + 1)).cons i

/-- HuffBuild makes a tree of every list but the empty one, with one leaf for each candidate (46_huffman.md R290, R291). -/
theorem huffBuild_spec {ws : List Nat} (h : ws ≠ []) :
    ∃ t, huffBuild ws = some t ∧ t.leaves.Perm (List.range ws.length) := by
  have hl : ws.length = ws.length - 1 + 1 := by
    have := List.length_pos_iff.2 h; omega
  have h1 := length_mergeAll (ws.length - 1) ws.length (leavesFrom 0 ws) (by rw [length_leavesFrom]; exact hl)
  obtain ⟨x, hx⟩ := List.length_eq_one_iff.1 h1
  refine ⟨x.tree, by rw [huffBuild, hx]; rfl, ?_⟩
  have h2 := mergeAll_leaves (ws.length - 1) ws.length (leavesFrom 0 ws)
  rw [hx] at h2
  have h3 := h2.trans (leavesFrom_leaves 0 ws)
  rw [← List.range_eq_range'] at h3
  simpa [itemLeaves] using h3

/-! ## The order of the merges -/

/-- The order of R291 is total on members with different indices. -/
theorem HItem.before_total {x y : HItem} (h : x.idx ≠ y.idx) (hb : x.before y = false) : y.before x = true := by
  simp only [HItem.before, Bool.or_eq_false_iff, Bool.and_eq_false_iff, decide_eq_false_iff_not, beq_eq_false_iff_ne,
    Bool.or_eq_true, Bool.and_eq_true, decide_eq_true_eq, beq_iff_eq] at hb ⊢
  omega

theorem HItem.before_trans {x y z : HItem} (h : x.before y = true) (k : y.before z = true) : x.before z = true := by
  simp only [HItem.before, Bool.or_eq_true, Bool.and_eq_true, decide_eq_true_eq, beq_iff_eq] at h k ⊢
  omega

/-- Putting a member into the set `A` keeps it in the order of R291, so that its two least members stand first. -/
theorem insertItem_sorted {x : HItem} {A : List HItem} (h : A.Pairwise fun a b => a.before b = true)
    (hx : ∀ y ∈ A, x.idx ≠ y.idx) : (insertItem x A).Pairwise fun a b => a.before b = true := by
  induction A with
  | nil => simp [insertItem]
  | cons y A ih =>
    obtain ⟨h1, h2⟩ := List.pairwise_cons.1 h
    unfold insertItem
    split
    · next hb =>
      refine List.pairwise_cons.2 ⟨fun z hz => ?_, h⟩
      rcases List.mem_cons.1 hz with rfl | hz
      · exact hb
      · exact HItem.before_trans hb (h1 z hz)
    · next hb =>
      refine List.pairwise_cons.2 ⟨fun z hz => ?_, ih h2 fun z hz => hx z (by simp [hz])⟩
      rcases List.mem_cons.1 ((insertItem_perm x A).mem_iff.1 hz) with rfl | hz
      · exact HItem.before_total (hx y (by simp)) (by simpa using hb)
      · exact h1 z hz

/-! ## Paths -/

theorem HTree.path_node (l r : HTree) (i : Nat) : (HTree.node l r).path i =
    match l.path i with
    | some bs => some (false :: bs)
    | none =>
      match r.path i with
      | some bs => some (true :: bs)
      | none => none := rfl

/-- A tree has a path to exactly its leaves (46_huffman.md R294). -/
theorem HTree.path_isSome (i : Nat) : ∀ t : HTree, (t.path i).isSome ↔ i ∈ t.leaves
  | .leaf j => by
    unfold HTree.path
    split
    · next h => simp [HTree.leaves, h]
    · next h => simp [HTree.leaves, Ne.symm h]
  | .node l r => by
    have hl := l.path_isSome i
    have hr := r.path_isSome i
    rw [HTree.leaves, List.mem_append, ← hl, ← hr, HTree.path_node]
    cases l.path i with
    | some bs => simp
    | none => cases r.path i <;> simp

/-- A path is shorter than the number of leaves (46_huffman.md R293). -/
theorem HTree.path_length {i : Nat} : ∀ {t : HTree} {bs : List Bool}, t.path i = some bs → bs.length < t.leaves.length
  | .leaf j, bs, h => by
    unfold HTree.path at h
    split at h
    · cases h; simp [HTree.leaves]
    · cases h
  | .node l r, bs, h => by
    have hl := List.length_pos_iff.2 l.leaves_ne_nil
    have hr := List.length_pos_iff.2 r.leaves_ne_nil
    rw [HTree.leaves, List.length_append]
    unfold HTree.path at h
    cases h1 : l.path i with
    | some cs =>
      rw [h1] at h; cases h
      have := HTree.path_length h1
      rw [List.length_cons]; omega
    | none =>
      rw [h1] at h
      cases h2 : r.path i with
      | some cs =>
        rw [h2] at h; cases h
        have := HTree.path_length h2
        rw [List.length_cons]; omega
      | none => rw [h2] at h; cases h

/-- A path of a tree of two leaves or more is not empty (46_huffman.md R293). -/
theorem HTree.path_pos {i : Nat} {t : HTree} {bs : List Bool} (h : t.path i = some bs) (h2 : 2 ≤ t.leaves.length) :
    0 < bs.length := by
  cases t with
  | leaf j => simp [HTree.leaves] at h2
  | node l r =>
    unfold HTree.path at h
    cases h1 : l.path i with
    | some cs => rw [h1] at h; cases h; simp
    | none =>
      rw [h1] at h
      cases h3 : r.path i with
      | some cs => rw [h3] at h; cases h; simp
      | none => rw [h3] at h; cases h

/-! ## The walk -/

/-- What a walk along the bits of a path does (46_huffman.md R298, R300): it ends at the path's leaf, has consumed exactly
the path's bits with no byte pulled that was not needed, and moved nothing but the reader. -/
theorem HTree.walk_path {i : Nat} : ∀ {t : HTree} {bs rest : List Bool} {s : State}, t.path i = some bs →
    s.remaining = bs ++ rest → ∃ r, t.walk s = .done i (s.setReader r) ∧ Consumes s (s.setReader r) bs.length
  | .leaf j, bs, rest, s, h, hs => by
    unfold HTree.path at h
    split at h
    · next hj => cases h; subst hj; exact ⟨s.reader, rfl, .none s⟩
    · cases h
  | .node l r, bs, rest, s, h, hs => by
    have go : ∀ b cs, s.remaining = b :: (cs ++ rest) →
        ∃ a tl, (s.fill 1).rbuf = a :: tl ∧ a = b ∧ ((s.fill 1).consume 1).remaining = cs ++ rest ∧
          Consumes s ((s.fill 1).consume 1) 1 := by
      intro b cs hb
      have hc := s.read_consumes 1 (by rw [hb]; simp)
      rcases s.fill_one with ⟨h0, -⟩ | ⟨a, tl, rem, h1, h2, h3⟩
      · rw [hb] at h0; cases h0
      · rw [hb] at h2
        obtain ⟨rfl, rfl⟩ := List.cons.inj h2
        exact ⟨b, tl, h1, rfl, h3, hc⟩
    unfold HTree.path at h
    unfold HTree.walk
    cases h1 : l.path i with
    | some cs =>
      rw [h1] at h; cases h
      obtain ⟨a, tl, e1, rfl, e3, e4⟩ := go false cs hs
      obtain ⟨r', w1, w2⟩ := HTree.walk_path h1 e3
      refine ⟨r', ?_, by rw [List.length_cons, Nat.add_comm]; exact e4.trans w2⟩
      simp only [e1]
      exact w1
    | none =>
      rw [h1] at h
      cases h2 : r.path i with
      | some cs =>
        rw [h2] at h; cases h
        obtain ⟨a, tl, e1, rfl, e3, e4⟩ := go true cs hs
        obtain ⟨r', w1, w2⟩ := HTree.walk_path h2 e3
        refine ⟨r', ?_, by rw [List.length_cons, Nat.add_comm]; exact e4.trans w2⟩
        simp only [e1]
        exact w1
      | none => rw [h2] at h; cases h

/-- No path of a tree is the beginning of another leaf's (46_huffman.md R293). -/
theorem HTree.path_unique {i j : Nat} : ∀ {t : HTree} {xs ys : List Bool}, t.path i = some xs → t.path j = some ys →
    xs <+: ys → i = j
  | .leaf k, xs, ys, hi, hj, _ => by
    unfold HTree.path at hi hj
    split at hi
    · split at hj
      · next h1 h2 => exact h1.symm.trans h2
      · cases hj
    · cases hi
  | .node l r, xs, ys, hi, hj, hp => by
    rw [HTree.path_node] at hi hj
    obtain ⟨b, cs, hb, hbs⟩ : ∃ b cs, xs = b :: cs ∧ (if b then r.path i else l.path i) = some cs := by
      cases h1 : l.path i with
      | some cs => rw [h1] at hi; cases hi; exact ⟨false, cs, rfl, by simp⟩
      | none =>
        rw [h1] at hi
        cases h2 : r.path i with
        | some cs => rw [h2] at hi; cases hi; exact ⟨true, cs, rfl, by simp⟩
        | none => rw [h2] at hi; cases hi
    obtain ⟨c, ds, hc, hcs⟩ : ∃ c ds, ys = c :: ds ∧ (if c then r.path j else l.path j) = some ds := by
      cases h1 : l.path j with
      | some cs => rw [h1] at hj; cases hj; exact ⟨false, cs, rfl, by simp⟩
      | none =>
        rw [h1] at hj
        cases h2 : r.path j with
        | some cs => rw [h2] at hj; cases hj; exact ⟨true, cs, rfl, by simp⟩
        | none => rw [h2] at hj; cases hj
    rw [hb, hc] at hp
    obtain ⟨rfl, hp'⟩ := List.cons_prefix_cons.1 hp
    cases b
    · exact HTree.path_unique (by simpa using hbs) (by simpa using hcs) hp'
    · exact HTree.path_unique (by simpa using hbs) (by simpa using hcs) hp'

/-- A walk that the bits run out on stops with F_TRUNCATED (46_huffman.md R298). -/
theorem HTree.walk_short {i : Nat} : ∀ {t : HTree} {b : Bool} {bs : List Bool} {s : State},
    t.path i = some (s.remaining ++ b :: bs) → ∃ r, t.walk s = .raise .truncated (s.setReader r)
  | .leaf j, b, bs, s, h => by
    unfold HTree.path at h
    split at h
    · have := congrArg List.length (Option.some.inj h)
      simp at this
    · cases h
  | .node l r, b, bs, s, h => by
    rw [HTree.path_node] at h
    unfold HTree.walk
    rcases s.fill_one with ⟨h0, h1⟩ | ⟨a, tl, rem, h1, h2, h3⟩
    · simp only [h1]; exact ⟨(s.fill 1).reader, rfl⟩
    · simp only [h1]
      cases h4 : l.path i with
      | some cs =>
        rw [h4, h2] at h
        obtain ⟨e1, e2⟩ := List.cons.inj (Option.some.inj h)
        obtain ⟨r', hr⟩ := HTree.walk_short (s := (s.fill 1).consume 1) (b := b) (bs := bs) (by rw [h3, h4, e2]; rfl)
        rw [← e1]; exact ⟨r', hr⟩
      | none =>
        rw [h4] at h
        cases h5 : r.path i with
        | some cs =>
          rw [h5, h2] at h
          obtain ⟨e1, e2⟩ := List.cons.inj (Option.some.inj h)
          obtain ⟨r', hr⟩ := HTree.walk_short (s := (s.fill 1).consume 1) (b := b) (bs := bs) (by rw [h3, h5, e2]; rfl)
          rw [← e1]; exact ⟨r', hr⟩
        | none => rw [h5] at h; cases h

/-- A walk with as many bits as the tree is deep ends at a leaf (46_huffman.md R293, R298). -/
theorem HTree.walk_enough : ∀ {t : HTree} {s : State}, t.leaves.length ≤ s.remaining.length + 1 →
    ∃ i r k, t.walk s = .done i (s.setReader r) ∧ i ∈ t.leaves ∧ k < t.leaves.length ∧
      (s.setReader r).remaining = s.remaining.drop k
  | .leaf i, s, _ => ⟨i, s.reader, 0, rfl, by simp [HTree.leaves], by simp [HTree.leaves], by simp⟩
  | .node l r, s, h => by
    have hl := List.length_pos_iff.2 l.leaves_ne_nil
    have hr := List.length_pos_iff.2 r.leaves_ne_nil
    rw [HTree.leaves, List.length_append] at h
    unfold HTree.walk
    rcases s.fill_one with ⟨h0, -⟩ | ⟨a, tl, rem, h1, h2, h3⟩
    · rw [h0] at h; simp only [List.length_nil] at h; omega
    · simp only [h1]
      have hlen : s.remaining.length = rem.length + 1 := by rw [h2]; rfl
      cases a
      · obtain ⟨i, r', k, w1, w2, w3, w4⟩ := HTree.walk_enough (t := l) (s := (s.fill 1).consume 1) (by rw [h3]; omega)
        refine ⟨i, r', k + 1, w1, by simp [HTree.leaves, w2], by simp [HTree.leaves]; omega, ?_⟩
        rw [h2, List.drop_succ_cons, ← h3]; exact w4
      · obtain ⟨i, r', k, w1, w2, w3, w4⟩ := HTree.walk_enough (t := r) (s := (s.fill 1).consume 1) (by rw [h3]; omega)
        refine ⟨i, r', k + 1, w1, by simp [HTree.leaves, w2], by simp [HTree.leaves]; omega, ?_⟩
        rw [h2, List.drop_succ_cons, ← h3]; exact w4

/-! ## On the block -/

/-- The tree of a list that is not empty (46_huffman.md R291). -/
theorem State.huffTree_spec {s : State} (h : s.cl ≠ []) :
    ∃ t, s.huffTree = some t ∧ t.leaves.Perm (List.range s.cl.length) := by
  have := huffBuild_spec (ws := s.cl.map s.weight) (by simpa using h)
  simpa [State.huffTree] using this

/-- The path to a candidate of the list (46_huffman.md R294). -/
theorem State.huffPath_spec {s : State} {i : Nat} (h : i < s.cl.length) :
    ∃ t, s.huffTree = some t ∧ t.path i = some (s.huffPath i) ∧ (s.huffPath i).length < s.cl.length ∧
      (2 ≤ s.cl.length → 0 < (s.huffPath i).length) := by
  have hne : s.cl ≠ [] := by rintro h0; rw [h0] at h; simp at h
  obtain ⟨t, ht, hp⟩ := s.huffTree_spec hne
  have hi : i ∈ t.leaves := hp.mem_iff.2 (List.mem_range.2 h)
  obtain ⟨bs, hbs⟩ := Option.isSome_iff_exists.1 ((t.path_isSome i).2 hi)
  have hl := hp.length_eq
  rw [List.length_range] at hl
  have e : s.huffPath i = bs := by simp [State.huffPath, ht, hbs]
  rw [e, ← hl]
  exact ⟨t, ht, hbs, HTree.path_length hbs, HTree.path_pos hbs⟩

/-- The mirror of one decision (46_huffman.md R300): where the bits that remain begin with a candidate's path, HuffDecode
returns that candidate and has consumed exactly its path. -/
theorem State.huffDecode_path {s : State} {i : Nat} {rest : List Bool} (h : i < s.cl.length)
    (hs : s.remaining = s.huffPath i ++ rest) :
    ∃ r, s.huffDecode = .done i (s.setReader r) ∧ Consumes s (s.setReader r) (s.huffPath i).length := by
  obtain ⟨t, ht, hp, -⟩ := State.huffPath_spec h
  rw [State.huffDecode, ht]
  exact HTree.walk_path hp hs

/-- HuffDecode where the bits end inside a candidate's path (46_huffman.md R298). -/
theorem State.huffDecode_short {s : State} {i : Nat} {b : Bool} {bs : List Bool} (h : i < s.cl.length)
    (hs : s.huffPath i = s.remaining ++ b :: bs) : ∃ r, s.huffDecode = .raise .truncated (s.setReader r) := by
  obtain ⟨t, ht, hp, -⟩ := State.huffPath_spec h
  rw [State.huffDecode, ht]
  exact HTree.walk_short (hs ▸ hp)

/-- HuffDecode with as many bits as any decision over the list can take. -/
theorem State.huffDecode_enough {s : State} (h : s.cl ≠ []) (hs : s.cl.length ≤ s.remaining.length + 1) :
    ∃ i r k, s.huffDecode = .done i (s.setReader r) ∧ i < s.cl.length ∧ k < s.cl.length ∧
      (s.setReader r).remaining = s.remaining.drop k := by
  obtain ⟨t, ht, hp⟩ := State.huffTree_spec h
  have hl := hp.length_eq
  rw [List.length_range] at hl
  obtain ⟨i, r, k, h1, h2, h3, h4⟩ := HTree.walk_enough (t := t) (s := s) (by omega)
  rw [State.huffDecode, ht]
  exact ⟨i, r, k, h1, List.mem_range.1 (hp.mem_iff.1 h2), by omega, h4⟩

end Sys2Proof.Machine
end

