-- ==== Sys2Proof/Laws/Decisions.lean ====
section
/-! SUPPORT. The decisions of a cascade as Safety lists them (`decisionsFrom`): the candidate chosen, the lists, the symbols
excluded, and the paths (45_cascade.md R260 to R268). -/

namespace Sys2Proof.Machine

/-! ## The candidate chosen -/

/-- Where a list offers the goal, the choice is the first candidate that is the goal. -/
theorem Goal.choice_met {g : Goal} {l : List Cand} (h : l.any g.isMet = true) :
    l.findIdx? g.isMet = some (g.choice l) ∧ ∃ c, l[g.choice l]? = some c ∧ g.isMet c = true := by
  rcases hf : l.findIdx? g.isMet with _ | i
  · obtain ⟨c, hc, hm⟩ := List.any_eq_true.1 h
    have := List.findIdx?_eq_none_iff.1 hf c hc
    rw [hm] at this; cases this
  · have e : g.choice l = i := by rw [Goal.choice, hf]; rfl
    obtain ⟨hi, hp, -⟩ := List.findIdx?_eq_some_iff_getElem.1 hf
    rw [e]
    exact ⟨rfl, l[i], by simp [hi], hp⟩

/-- Where a list does not offer the goal, the choice is `ESC`. -/
theorem Goal.choice_esc {g : Goal} {l : List Cand} (h : l.any g.isMet = false) (he : Cand.esc ∈ l) :
    l.findIdx? g.isMet = none ∧ g.choice l = l.idxOf .esc ∧ l[g.choice l]? = some .esc := by
  have hf : l.findIdx? g.isMet = none := by
    rw [List.findIdx?_eq_none_iff]
    intro c hc
    rw [Bool.eq_false_iff]
    intro hm
    rw [Bool.eq_false_iff] at h
    exact h (List.any_eq_true.2 ⟨c, hc, hm⟩)
  have e : g.choice l = l.idxOf .esc := by rw [Goal.choice, hf]; rfl
  refine ⟨hf, e, ?_⟩
  rw [e]
  have hlt := List.idxOf_lt_length_iff.2 he
  rw [List.getElem?_eq_getElem hlt, List.getElem_idxOf hlt]

/-- The choice is a candidate of the list. -/
theorem Goal.choice_lt (g : Goal) {l : List Cand} (he : Cand.esc ∈ l) : g.choice l < l.length := by
  cases h : l.any g.isMet with
  | true =>
    obtain ⟨-, c, hc, -⟩ := Goal.choice_met h
    exact (List.getElem?_eq_some_iff.1 hc).1
  | false => exact (List.getElem?_eq_some_iff.1 (Goal.choice_esc h he).2.2).1

theorem Goal.isMet_symbol {t : Sym} {c : Cand} : (Goal.symbol t).isMet c = true ↔ ∃ q, c = .sym t q := by
  cases c with
  | sym u q => simp only [Goal.isMet, beq_iff_eq, Goal.symbol.injEq, Cand.sym.injEq, exists_and_left, exists_eq', and_true]; exact eq_comm
  | esc => simp [Goal.isMet]
  | eos => simp [Goal.isMet]

theorem Goal.isMet_endOfStream {c : Cand} : Goal.endOfStream.isMet c = true ↔ c = .eos := by
  cases c <;> simp [Goal.isMet]

theorem Goal.isMet_escape (c : Cand) : Goal.escape.isMet c = false := by
  cases c <;> simp [Goal.isMet]

/-- No list offers the goal of escaping at every level. -/
theorem Goal.any_escape (l : List Cand) : l.any Goal.escape.isMet = false := by
  rw [Bool.eq_false_iff, Ne, List.any_eq_true]
  rintro ⟨c, -, hc⟩
  rw [Goal.isMet_escape] at hc
  cases hc

/-- The goal of an encoder's cascade: the symbol of ENC_PUT, or the end of the stream of ENC_CLOSE. -/
def goalOf : Option Sym → Goal
  | some t => .symbol t
  | none => .endOfStream

/-- `FindSym(t)` is the search for the goal `t` (44_model.md R228). -/
theorem State.findSym_eq (s : State) (t : Sym) : s.findSym t = s.cl.findIdx? (Goal.symbol t).isMet := by
  unfold State.findSym
  congr 1
  funext c
  cases c with
  | sym u q =>
    rw [Bool.eq_iff_iff]
    simp only [Goal.isMet, beq_iff_eq, Goal.symbol.injEq]
    exact eq_comm
  | esc => rfl
  | eos => rfl

theorem State.findEos_eq (s : State) : s.findEos = s.cl.findIdx? Goal.endOfStream.isMet := by
  unfold State.findEos
  congr 1
  funext c
  cases c <;> simp [Goal.isMet]

theorem State.findEsc_eq {s : State} (h : Cand.esc ∈ s.cl) : s.findEsc = some (s.cl.idxOf .esc) := by
  rcases hf : s.findEsc with _ | i
  · have := List.findIdx?_eq_none_iff.1 hf _ h
    simp at this
  · rw [List.idxOf, List.findIdx_eq_getD_findIdx?]
    have hf' : s.cl.findIdx? (· == .esc) = some i := hf
    rw [hf']; rfl

/-! ## The lists and the exclusions -/

/-- The exclusion set holds exactly the symbols of a list. -/
def XSet.Holds (x : XSet) (excl : List Sym) : Prop := ∀ t, x.has t = decide (t ∈ excl)

theorem XSet.holds_nil : (⟨0, 0⟩ : XSet).Holds [] := by intro t; simp [XSet.has]

theorem mem_offeredSyms {l : List Cand} {t : Sym} : t ∈ offeredSyms l ↔ ∃ q, Cand.sym t q ∈ l := by
  unfold offeredSyms
  rw [List.mem_filterMap]
  constructor
  · rintro ⟨c, hc, h⟩
    cases c with
    | sym u q => cases h; exact ⟨q, hc⟩
    | esc => cases h
    | eos => cases h
  · rintro ⟨q, h⟩
    exact ⟨_, h, rfl⟩

/-- `ExcludeAll()` adds the symbols of the list (44_model.md R232). -/
theorem XSet.Holds.excludeCands {x : XSet} {excl : List Sym} (h : x.Holds excl) (l : List Cand) :
    (x.excludeCands l).Holds (excl ++ offeredSyms l) := by
  intro t
  rw [Bool.eq_iff_iff, XSet.has_excludeCands, decide_eq_true_iff, List.mem_append, mem_offeredSyms, h t, decide_eq_true_iff]

theorem levelList_eq {ns : List Node} {x : XSet} {X excl : List Sym} {p : Nat} (hx : x.Holds excl)
    (hp : pathNode ns X = some p) : trieList ns x p = levelList ns X excl := by
  unfold trieList levelList
  rw [hp]
  have : (fun q => !x.has (nodeAt ns q).sym) = fun q => decide ((nodeAt ns q).sym ∉ excl) := by
    funext q; rw [hx]; simp
  rw [this]

theorem lastList_eq {x : XSet} {excl : List Sym} (hx : x.Holds excl) : uniformList x = lastList excl := by
  unfold uniformList lastList
  have : (fun t => !x.has t) = fun t => decide (t ∉ excl) := by
    funext t; rw [hx]; simp
  rw [this]

theorem esc_mem_levelList (ns : List Node) (X excl : List Sym) : Cand.esc ∈ levelList ns X excl := by simp [levelList]

theorem esc_mem_lastList (excl : List Sym) : Cand.esc ∈ lastList excl := by simp [lastList]

theorem eos_mem_lastList (excl : List Sym) : Cand.eos ∈ lastList excl := by simp [lastList]

theorem eos_not_mem_levelList (ns : List Node) (X excl : List Sym) : Cand.eos ∉ levelList ns X excl := by
  unfold levelList
  cases pathNode ns X <;> simp

/-- A trie level offers only symbols (44_model.md R224). -/
theorem Goal.met_at_level {g : Goal} {ns : List Node} {X excl : List Sym} {c : Cand} (hc : c ∈ levelList ns X excl)
    (h : g.isMet c = true) : ∃ t q, g = .symbol t ∧ c = .sym t q := by
  cases c with
  | sym t q => exact ⟨t, q, by simpa [Goal.isMet] using h, rfl⟩
  | esc => cases h
  | eos => exact absurd hc (eos_not_mem_levelList ns X excl)

theorem sym_mem_lastList {excl : List Sym} {t : Sym} (h : t ∉ excl) : Cand.sym t none ∈ lastList excl := by
  unfold lastList
  refine List.mem_append_left _ (List.mem_map.2 ⟨t, List.mem_filter.2 ⟨mem_allSyms t, by simpa using h⟩, rfl⟩)

/-! ## The bits -/

/-- A path in a list depends on the nodes alone, and on the list. -/
theorem State.pathIn_congr {s t : State} (h : s.nodes = t.nodes) (l : List Cand) (i : Nat) : s.pathIn l i = t.pathIn l i := by
  have hw : State.weight { s with cl := l } = State.weight { t with cl := l } := by
    funext c; simp only [State.weight, h]
  simp only [State.pathIn, State.huffPath, State.huffTree, hw]

theorem State.huffPath_eq {s : State} {l : List Cand} (h : s.cl = l) (i : Nat) : s.huffPath i = s.pathIn l i := by
  subst h; rfl

/-- The bits of a sequence of decisions (45_cascade.md R274). -/
def State.bitsFor (s : State) (ds : List (List Cand × Nat)) : List Bool := ds.flatMap fun d => s.pathIn d.1 d.2

theorem State.bitsFor_congr {s t : State} (h : s.nodes = t.nodes) (ds : List (List Cand × Nat)) :
    s.bitsFor ds = t.bitsFor ds := by
  simp only [State.bitsFor, State.pathIn_congr h]

@[simp] theorem State.bitsFor_nil (s : State) : s.bitsFor [] = [] := rfl

@[simp] theorem State.bitsFor_cons (s : State) (d : List Cand × Nat) (ds : List (List Cand × Nat)) :
    s.bitsFor (d :: ds) = s.pathIn d.1 d.2 ++ s.bitsFor ds := rfl

theorem State.codeBits_eq (s : State) (g : Goal) : s.codeBits g = s.bitsFor (s.decisions g) := rfl

/-- The decisions from the empty context: the level's, and after ESC the uniform level's. -/
theorem decisionsFrom_nil (ns : List Node) (g : Goal) (excl : List Sym) : decisionsFrom ns g [] excl =
    (levelList ns [] excl, g.choice (levelList ns [] excl)) ::
      if (levelList ns [] excl).any g.isMet then [] else
        [(lastList (excl ++ offeredSyms (levelList ns [] excl)),
          g.choice (lastList (excl ++ offeredSyms (levelList ns [] excl))))] := by
  rw [decisionsFrom]

/-- The decisions from another context: the level's, and after ESC those from the next lower order. -/
theorem decisionsFrom_cons (ns : List Node) (g : Goal) (x : Sym) (X excl : List Sym) : decisionsFrom ns g (x :: X) excl =
    (levelList ns (x :: X) excl, g.choice (levelList ns (x :: X) excl)) ::
      if (levelList ns (x :: X) excl).any g.isMet then [] else
        decisionsFrom ns g X (excl ++ offeredSyms (levelList ns (x :: X) excl)) := by
  rw [decisionsFrom]

theorem decisionsFrom_ne_nil (ns : List Node) (g : Goal) (X excl : List Sym) : decisionsFrom ns g X excl ≠ [] := by
  cases X <;> simp [decisionsFrom]

end Sys2Proof.Machine
end

