-- ==== Sys2Proof/Laws/Trie.lean ====
section
/-! SUPPORT. What the trie's operations do (44_model.md R220 to R224): what making a node changes in the lists of children, and
that every operation keeps the trie's invariants (10_state.md R38). -/

namespace Sys2Proof.Machine

/-! ## Sibling chains -/

theorem nodeAt_of_lt {ns : List Node} {x : Nat} (h : x < ns.length) : nodeAt ns x = ns[x] := by
  simp [nodeAt, h]

/-- A chain followed with enough fuel is the list it links. -/
theorem siblings_of_linked {ns : List Node} : ∀ {cs : List Nat} {o : Option Nat} {fuel : Nat},
    linked ns o cs → cs.length ≤ fuel → siblings ns fuel o = cs
  | [], none, fuel, _, _ => by cases fuel <;> rfl
  | [], some _, _, h, _ => h.elim
  | _ :: _, none, _, h, _ => h.elim
  | c :: cs, some q, 0, _, hl => by simp at hl
  | c :: cs, some q, fuel + 1, h, hl => by
    obtain ⟨rfl, h⟩ := h
    rw [siblings, siblings_of_linked h (by simpa using hl)]

/-- A chain is the same in a pool that links its nodes the same way. -/
theorem linked_congr {ns ms : List Node} : ∀ {cs : List Nat} {o : Option Nat},
    (∀ c ∈ cs, (nodeAt ms c).next = (nodeAt ns c).next) → linked ns o cs → linked ms o cs
  | [], none, _, _ => trivial
  | [], some _, _, h => h.elim
  | _ :: _, none, _, h => h.elim
  | c :: cs, some q, hn, h => by
    obtain ⟨rfl, h⟩ := h
    refine ⟨rfl, ?_⟩
    rw [hn q (by simp)]
    exact linked_congr (fun c hc => hn c (by simp [hc])) h

/-- A chain whose last node is linked to a new last one. -/
theorem linked_snoc {ns ms : List Node} {q : Nat} : ∀ {cs : List Nat} {o : Option Nat},
    cs ≠ [] → (∀ c ∈ cs.dropLast, (nodeAt ms c).next = (nodeAt ns c).next) →
    (∀ t ∈ cs.getLast?, (nodeAt ms t).next = some q) → (nodeAt ms q).next = none → linked ns o cs →
    linked ms o (cs ++ [q])
  | [], _, he, _, _, _, _ => absurd rfl he
  | _ :: _, none, _, _, _, _, h => h.elim
  | [c], some p, _, _, ht, hq, h => by
    obtain ⟨rfl, h⟩ := h
    refine ⟨rfl, ?_⟩
    rw [ht p (by simp)]
    exact ⟨rfl, by rw [hq]; trivial⟩
  | c :: d :: cs, some p, _, hn, ht, hq, h => by
    obtain ⟨rfl, h⟩ := h
    refine ⟨rfl, ?_⟩
    rw [hn p (by simp)]
    exact linked_snoc (by simp) (fun c hc => hn c (by simp [hc])) (fun t h => ht t (by simpa using h)) hq h

theorem length_le_of_pairwise_lt {cs : List Nat} {n : Nat} (hp : cs.Pairwise (· < ·)) (hn : ∀ c ∈ cs, c < n) :
    cs.length ≤ n := by
  have hd : cs.Nodup := hp.imp fun h => Nat.ne_of_lt h
  have := List.Subperm.length_le (List.subperm_of_subset hd (fun c hc => List.mem_range.2 (hn c hc)))
  simpa using this

/-- `children(p)` is what a chain from the head of `p`'s list links. -/
theorem children_of_linked {ns : List Node} {p : Nat} {cs : List Nat} (h : linked ns (nodeAt ns p).child cs)
    (hp : cs.Pairwise (· < ·)) (hn : ∀ c ∈ cs, c < ns.length) : children ns p = cs :=
  siblings_of_linked h (length_le_of_pairwise_lt hp hn)

/-! ## Making a node -/

/-- The pool after `NewNode(p, s)` (44_model.md R221). -/
def withChild (ns : List Node) (p : Nat) (sym : Sym) : List Node :=
  linkChild ns p ns.length ++ [⟨sym, 0, some p, none, none⟩]

@[simp] theorem length_linkChild (ns : List Node) (p q : Nat) : (linkChild ns p q).length = ns.length := by
  unfold linkChild; split <;> simp

@[simp] theorem length_withChild (ns : List Node) (p : Nat) (sym : Sym) :
    (withChild ns p sym).length = ns.length + 1 := by simp [withChild]

theorem nodeAt_withChild_new (ns : List Node) (p : Nat) (sym : Sym) :
    nodeAt (withChild ns p sym) ns.length = ⟨sym, 0, some p, none, none⟩ := by
  simp [withChild, nodeAt]

theorem nodeAt_withChild_old {ns : List Node} {p x : Nat} {sym : Sym} (hx : x < ns.length) :
    nodeAt (withChild ns p sym) x = nodeAt (linkChild ns p ns.length) x := by
  rw [withChild, nodeAt, nodeAt, List.getElem?_append_left (by simpa using hx)]

theorem nodeAt_modify {ns : List Node} {t x : Nat} {f : Node → Node} (hx : x < ns.length) :
    nodeAt (ns.modify t f) x = if t = x then f (nodeAt ns x) else nodeAt ns x := by
  simp only [nodeAt, List.getElem?_modify, List.getElem?_eq_getElem hx]
  split <;> simp

/-- What linking a child changes in the nodes in use: one link, of the parent or of the last child before it. -/
theorem nodeAt_linkChild {ns : List Node} {p q x : Nat} (hx : x < ns.length) :
    nodeAt (linkChild ns p q) x =
      if (children ns p).getLast? = none ∧ p = x then { nodeAt ns x with child := some q }
      else if (children ns p).getLast? = some x then { nodeAt ns x with next := some q }
      else nodeAt ns x := by
  unfold linkChild
  split
  · next h => rw [nodeAt_modify hx, h]; simp
  · next t h => rw [nodeAt_modify hx, h]; simp

/-- Making a node changes no symbol, count or parent of a node in use. -/
theorem nodeAt_withChild_kept {ns : List Node} {p x : Nat} {sym : Sym} (hx : x < ns.length) :
    (nodeAt (withChild ns p sym) x).sym = (nodeAt ns x).sym ∧
      (nodeAt (withChild ns p sym) x).count = (nodeAt ns x).count ∧
      (nodeAt (withChild ns p sym) x).parent = (nodeAt ns x).parent := by
  rw [nodeAt_withChild_old hx, nodeAt_linkChild hx]
  split
  · simp
  · split <;> simp

section
variable {w : Nat} {ns : List Node} (ok : PoolOk w ns)
include ok

theorem PoolOk.child_lt {p c : Nat} (hp : p < ns.length) (hc : c ∈ children ns p) : c < ns.length :=
  (ok.owned p hp c hc).1

theorem PoolOk.child_parent {p c : Nat} (hp : p < ns.length) (hc : c ∈ children ns p) :
    (nodeAt ns c).parent = some p := (ok.owned p hp c hc).2

/-- The children of every node after `NewNode(p, s)` (44_model.md R221): the new node is the last child of `p`, has none
itself, and no other list changes. -/
theorem PoolOk.children_withChild {p x : Nat} {sym : Sym} (hp : p < ns.length) (hx : x < ns.length) :
    linked (withChild ns p sym) (nodeAt (withChild ns p sym) x).child
      (children ns x ++ if x = p then [ns.length] else []) := by
  have hq : (nodeAt (withChild ns p sym) ns.length).next = none := by rw [nodeAt_withChild_new]
  have hnext : ∀ c < ns.length, (children ns p).getLast? ≠ some c →
      (nodeAt (withChild ns p sym) c).next = (nodeAt ns c).next := by
    intro c hc hl
    rw [nodeAt_withChild_old hc, nodeAt_linkChild hc, if_neg hl]
    split <;> rfl
  by_cases h : x = p
  · subst h
    rw [if_pos rfl]
    rcases hl : (children ns x).getLast? with _ | t
    · have hn := List.getLast?_eq_none_iff.1 hl
      have hch : (nodeAt (withChild ns x sym) x).child = some ns.length := by
        rw [nodeAt_withChild_old hx, nodeAt_linkChild hx, if_pos ⟨hl, rfl⟩]
      rw [hn, hch]
      exact ⟨rfl, by rw [hq]; trivial⟩
    · have hne : children ns x ≠ [] := by intro h0; rw [h0] at hl; cases hl
      have ht : t ∈ children ns x := List.mem_of_getLast? hl
      have htl := ok.child_lt hx ht
      have hch : (nodeAt (withChild ns x sym) x).child = (nodeAt ns x).child := by
        rw [nodeAt_withChild_old hx, nodeAt_linkChild hx, hl]
        simp only [reduceCtorEq, false_and, if_false]
        split <;> rfl
      rw [hch]
      refine linked_snoc hne ?_ ?_ hq (ok.chain x hx)
      · intro c hc
        refine hnext c (ok.child_lt hx (List.mem_of_mem_dropLast hc)) ?_
        rw [hl]; rintro ⟨⟩
        have hnd : (children ns x).Nodup := (ok.order x hx).imp fun h => Nat.ne_of_lt h
        have hs : (children ns x).dropLast ++ [t] = children ns x := List.dropLast_append_getLast? t (by rw [hl]; rfl)
        rw [← hs] at hnd
        exact (List.nodup_append.1 hnd).2.2 t hc t (by simp) rfl
      · intro t' ht'
        rw [hl] at ht'
        obtain rfl : t = t' := by simpa using ht'
        rw [nodeAt_withChild_old htl, nodeAt_linkChild htl, hl]
        simp
  · rw [if_neg h, List.append_nil]
    have hch : (nodeAt (withChild ns p sym) x).child = (nodeAt ns x).child := by
      rw [nodeAt_withChild_old hx, nodeAt_linkChild hx, if_neg (fun e => h e.2.symm)]
      split <;> rfl
    rw [hch]
    refine linked_congr ?_ (ok.chain x hx)
    intro c hc
    refine hnext c (ok.child_lt hx hc) fun hl => ?_
    have := ok.child_parent hp (List.mem_of_getLast? hl)
    rw [ok.child_parent hx hc] at this
    exact h (by simpa using this)

theorem PoolOk.children_withChild_old {p x : Nat} {sym : Sym} (hp : p < ns.length) (hx : x < ns.length) :
    children (withChild ns p sym) x = children ns x ++ if x = p then [ns.length] else [] := by
  refine children_of_linked (ok.children_withChild hp hx) ?_ ?_
  · rw [List.pairwise_append]
    refine ⟨ok.order x hx, by split <;> simp, ?_⟩
    intro a ha b hb
    have := ok.child_lt hx ha
    split at hb
    · simp at hb; omega
    · simp at hb
  · intro c hc
    rw [List.mem_append] at hc
    rw [length_withChild]
    rcases hc with hc | hc
    · have := ok.child_lt hx hc; omega
    · split at hc
      · simp at hc; omega
      · simp at hc

omit ok in
theorem children_withChild_new (p : Nat) (sym : Sym) : children (withChild ns p sym) ns.length = [] := by
  rw [children, nodeAt_withChild_new, length_withChild]; rfl

/-- `NewNode` keeps the trie's invariants where `p` has no child for the symbol (10_state.md R38, 44_model.md R221). -/
theorem PoolOk.pool_withChild {p : Nat} {sym : Sym} (hp : p < ns.length) (hs : childBySym ns p sym = none) :
    PoolOk w (withChild ns p sym) := by
  have hold : ∀ x < ns.length, _ := fun x hx => nodeAt_withChild_kept (p := p) (sym := sym) hx
  have hch := fun x hx => ok.children_withChild_old (p := p) (x := x) (sym := sym) hp hx
  have hnew := children_withChild_new (ns := ns) p sym
  have hcase : ∀ x < (withChild ns p sym).length, x < ns.length ∨ x = ns.length := by
    intro x hx; rw [length_withChild] at hx; omega
  refine ⟨?_, ?_, ?_, ?_, ?_, ?_, ?_⟩
  · obtain ⟨h0, h1, h2, h3⟩ := ok.root
    obtain ⟨k1, k2, k3⟩ := hold 0 h0
    refine ⟨by rw [length_withChild]; omega, by rw [k3, h1], ?_, by rw [k2, h3]⟩
    rw [nodeAt_withChild_old h0, nodeAt_linkChild h0]
    split
    · exact h2
    · rw [if_neg, h2]
      intro hl
      have := ok.child_parent hp (List.mem_of_getLast? hl)
      rw [h1] at this; cases this
  · intro x hx
    rcases hcase x hx with h | rfl
    · rw [hch x h]; exact ok.children_withChild hp h
    · rw [hnew, nodeAt_withChild_new]; trivial
  · intro x hx
    rcases hcase x hx with h | rfl
    · rw [hch x h, List.pairwise_append]
      refine ⟨ok.order x h, by split <;> simp, ?_⟩
      intro a ha b hb
      have := ok.child_lt h ha
      split at hb
      · simp at hb; omega
      · simp at hb
    · rw [hnew]; exact List.Pairwise.nil
  · intro x hx c hc
    rcases hcase x hx with h | rfl
    · rw [hch x h, List.mem_append] at hc
      rcases hc with hc | hc
      · have hl := ok.child_lt h hc
        exact ⟨by rw [length_withChild]; omega, by rw [(hold c hl).2.2, ok.child_parent h hc]⟩
      · split at hc
        · next he =>
          obtain rfl : c = ns.length := by simpa using hc
          exact ⟨by rw [length_withChild]; omega, by rw [nodeAt_withChild_new, he]⟩
        · simp at hc
    · rw [hnew] at hc; simp at hc
  · intro q hq h0
    rcases hcase q hq with h | rfl
    · obtain ⟨x, hx, hm⟩ := ok.reached q h h0
      exact ⟨x, by rw [length_withChild]; omega, by rw [hch x hx]; simp [hm]⟩
    · exact ⟨p, by rw [length_withChild]; omega, by rw [hch p hp]; simp⟩
  · intro x hx
    rcases hcase x hx with h | rfl
    · rw [hch x h, List.map_append]
      have hm : (children ns x).map (fun c => (nodeAt (withChild ns p sym) c).sym) =
          (children ns x).map fun c => (nodeAt ns c).sym :=
        List.map_congr_left fun c hc => (hold c (ok.child_lt h hc)).1
      rw [hm]
      split
      · next he =>
        subst he
        simp only [List.map_cons, List.map_nil, nodeAt_withChild_new]
        rw [List.nodup_append]
        refine ⟨ok.distinct x h, by simp, ?_⟩
        intro a ha b hb he
        subst he
        simp only [List.mem_singleton] at hb
        subst hb
        obtain ⟨c, hc, he⟩ := List.mem_map.1 ha
        have := List.find?_eq_none.1 hs c hc
        simp [he] at this
      · simpa using ok.distinct x h
    · rw [hnew]; exact List.nodup_nil
  · intro q hq
    rcases hcase q hq with h | rfl
    · rw [(hold q h).2.1]; exact ok.counts q h
    · rw [nodeAt_withChild_new]; exact Nat.two_pow_pos w

/-! ## Finding a child and following a path -/

omit ok in
theorem childBySym_mem {p c : Nat} {sym : Sym} (h : childBySym ns p sym = some c) :
    c ∈ children ns p ∧ (nodeAt ns c).sym = sym := by
  refine ⟨List.mem_of_find?_eq_some h, ?_⟩
  simpa using List.find?_some h

/-- The child of a node for a symbol is the one that has the symbol (10_state.md R38). -/
theorem PoolOk.childBySym_iff {p c : Nat} {sym : Sym} (hp : p < ns.length) :
    childBySym ns p sym = some c ↔ c ∈ children ns p ∧ (nodeAt ns c).sym = sym := by
  refine ⟨childBySym_mem, fun ⟨hc, hs⟩ => ?_⟩
  rcases h : childBySym ns p sym with _ | d
  · have := List.find?_eq_none.1 h c hc
    simp [hs] at this
  · obtain ⟨hd, hs'⟩ := childBySym_mem h
    congr 1
    exact List.inj_on_of_nodup_map (ok.distinct p hp) hd hc (by rw [hs, hs'])

/-- A node is a child of its parent. -/
theorem PoolOk.mem_children_iff {p c : Nat} (hp : p < ns.length) (hc : c < ns.length) (h0 : c ≠ 0) :
    c ∈ children ns p ↔ (nodeAt ns c).parent = some p := by
  refine ⟨ok.child_parent hp, fun h => ?_⟩
  obtain ⟨x, hx, hm⟩ := ok.reached c hc h0
  have := ok.child_parent hx hm
  rw [h] at this
  obtain rfl : p = x := by simpa using this
  exact hm

omit ok in
theorem resolveFrom_append (xs ys : List Sym) (p : Nat) :
    resolveFrom ns (xs ++ ys) p = (resolveFrom ns xs p).bind (resolveFrom ns ys) := by
  induction xs generalizing p with
  | nil => rfl
  | cons x xs ih =>
    simp only [List.cons_append, resolveFrom]
    cases childBySym ns p x with
    | none => rfl
    | some q => exact ih q

omit ok in
theorem resolveFrom_single (x : Sym) (p : Nat) : resolveFrom ns [x] p = childBySym ns p x := by
  simp only [resolveFrom]; cases childBySym ns p x <;> rfl

omit ok in
theorem pathNode_snoc (xs : List Sym) (x : Sym) :
    pathNode ns (xs ++ [x]) = (pathNode ns xs).bind fun p => childBySym ns p x := by
  simp only [pathNode, resolveFrom_append]
  congr 1
  funext p
  exact resolveFrom_single x p

theorem PoolOk.resolve_lt {xs : List Sym} {p q : Nat} (hp : p < ns.length) (h : resolveFrom ns xs p = some q) :
    q < ns.length := by
  induction xs generalizing p with
  | nil => cases h; exact hp
  | cons x xs ih =>
    simp only [resolveFrom] at h
    split at h
    · cases h
    · next c hc => exact ih (ok.child_lt hp (childBySym_mem hc).1) h

theorem PoolOk.pathNode_lt {xs : List Sym} {q : Nat} (h : pathNode ns xs = some q) : q < ns.length :=
  ok.resolve_lt ok.root.1 h

/-- A path ends in a node other than the root, unless it is empty. -/
theorem PoolOk.pathNode_snoc_iff {xs : List Sym} {x : Sym} {q : Nat} :
    pathNode ns (xs ++ [x]) = some q ↔
      ∃ p, pathNode ns xs = some p ∧ q ∈ children ns p ∧ (nodeAt ns q).sym = x := by
  rw [pathNode_snoc, Option.bind_eq_some_iff]
  constructor
  · rintro ⟨p, hp, h⟩
    exact ⟨p, hp, (ok.childBySym_iff (ok.pathNode_lt hp)).1 h⟩
  · rintro ⟨p, hp, h⟩
    exact ⟨p, hp, (ok.childBySym_iff (ok.pathNode_lt hp)).2 h⟩

/-- Two paths that lead to one node are one path (44_model.md R220). -/
theorem PoolOk.pathNode_inj {xs ys : List Sym} {q : Nat} (hx : pathNode ns xs = some q) (hy : pathNode ns ys = some q) :
    xs = ys := by
  induction xs using List.reverseRecOn generalizing ys q with
  | nil =>
    have h0 : (0 : Nat) = q := by simpa [pathNode, resolveFrom] using hx
    subst h0
    induction ys using List.reverseRecOn with
    | nil => rfl
    | append_singleton ys y _ =>
      obtain ⟨p, hp, hm, -⟩ := ok.pathNode_snoc_iff.1 hy
      have := ok.child_parent (ok.pathNode_lt hp) hm
      rw [ok.root.2.1] at this
      cases this
  | append_singleton xs x ih =>
    obtain ⟨p, hp, hm, hs⟩ := ok.pathNode_snoc_iff.1 hx
    have h1 := ok.child_parent (ok.pathNode_lt hp) hm
    induction ys using List.reverseRecOn with
    | nil =>
      have h0 : (0 : Nat) = q := by simpa [pathNode, resolveFrom] using hy
      rw [← h0, ok.root.2.1] at h1
      cases h1
    | append_singleton ys y _ =>
      obtain ⟨p', hp', hm', hs'⟩ := ok.pathNode_snoc_iff.1 hy
      have h2 := ok.child_parent (ok.pathNode_lt hp') hm'
      rw [h1] at h2
      obtain rfl : p = p' := by simpa using h2
      rw [ih hp hp', ← hs, ← hs']

/-- The paths of the trie after `NewNode(p, s)` for the node a path leads to (44_model.md R221): those before, and that path
followed by the symbol. -/
theorem PoolOk.pathNode_withChild {P : List Sym} {p : Nat} {sym : Sym} (hP : pathNode ns P = some p)
    (hs : childBySym ns p sym = none) (path : List Sym) :
    pathNode (withChild ns p sym) path = if path = P ++ [sym] then some ns.length else pathNode ns path := by
  have hp := ok.pathNode_lt hP
  have ok' := ok.pool_withChild hp hs
  have key : ∀ path q, pathNode ns path = some q → pathNode (withChild ns p sym) path = some q := by
    intro path
    induction path using List.reverseRecOn with
    | nil => intro q h; exact h
    | append_singleton xs x ih =>
      intro q h
      obtain ⟨r, hr, hm, hx⟩ := ok.pathNode_snoc_iff.1 h
      have hrl := ok.pathNode_lt hr
      refine ok'.pathNode_snoc_iff.2 ⟨r, ih r hr, ?_, ?_⟩
      · rw [ok.children_withChild_old hp hrl]; simp [hm]
      · rw [(nodeAt_withChild_kept (ok.child_lt hrl hm)).1, hx]
  have hnew : pathNode (withChild ns p sym) (P ++ [sym]) = some ns.length := by
    refine ok'.pathNode_snoc_iff.2 ⟨p, key P p hP, ?_, by rw [nodeAt_withChild_new]⟩
    rw [ok.children_withChild_old hp hp]; simp
  split
  · next h => rw [h, hnew]
  · next h =>
    rcases hn : pathNode ns path with _ | q
    · -- a path that leads nowhere before leads to an old node or to the new one
      rcases h' : pathNode (withChild ns p sym) path with _ | q
      · rfl
      · exfalso
        have hold : ∀ path q, pathNode (withChild ns p sym) path = some q → q < ns.length →
            pathNode ns path = some q := by
          intro path
          induction path using List.reverseRecOn with
          | nil => intro q h _; exact h
          | append_singleton xs x ih =>
            intro q h hq
            obtain ⟨r, hr, hm, hx⟩ := ok'.pathNode_snoc_iff.1 h
            have hrl : r < ns.length := by
              have h1 := ok'.pathNode_lt hr
              rw [length_withChild] at h1
              rcases Nat.lt_or_ge r ns.length with h2 | h2
              · exact h2
              · obtain rfl : r = ns.length := by omega
                rw [children_withChild_new] at hm; simp at hm
            refine ok.pathNode_snoc_iff.2 ⟨r, ih r hr hrl, ?_, ?_⟩
            · rw [ok.children_withChild_old hp hrl, List.mem_append] at hm
              rcases hm with hm | hm
              · exact hm
              · split at hm
                · simp at hm; omega
                · simp at hm
            · rw [(nodeAt_withChild_kept hq).1] at hx; exact hx
        have hq := ok'.pathNode_lt h'
        rw [length_withChild] at hq
        rcases Nat.lt_or_ge q ns.length with h2 | h2
        · rw [hold path q h' h2] at hn; cases hn
        · obtain rfl : q = ns.length := by omega
          exact h (ok'.pathNode_inj h' hnew)
    · exact key path q hn

/-- A path's count is what it was before a node is made: the new node's is 0 (44_model.md R221). -/
theorem PoolOk.pathCount_withChild {P : List Sym} {p : Nat} {sym : Sym} (hP : pathNode ns P = some p)
    (hs : childBySym ns p sym = none) (path : List Sym) :
    pathCount (withChild ns p sym) path = pathCount ns path := by
  rw [pathCount, pathCount, ok.pathNode_withChild hP hs]
  by_cases h : path = P ++ [sym]
  · rw [if_pos h, h, pathNode_snoc, hP]
    simp [hs, nodeAt_withChild_new]
  · rw [if_neg h]
    cases hq : pathNode ns path with
    | none => rfl
    | some q => exact (nodeAt_withChild_kept (ok.pathNode_lt hq)).2.1

end

/-! ## ModelAdd -/

/-- What adding to a trie never undoes: a path that leads to a node leads to it still, and a node keeps its symbol. -/
structure Grows (ns ms : List Node) : Prop where
  len : ns.length ≤ ms.length
  path : ∀ path q, pathNode ns path = some q → pathNode ms path = some q
  kept : ∀ x < ns.length, (nodeAt ms x).sym = (nodeAt ns x).sym

theorem Grows.refl (ns : List Node) : Grows ns ns := ⟨le_rfl, fun _ _ h => h, fun _ _ => rfl⟩

theorem Grows.trans {as bs cs : List Node} (h : Grows as bs) (k : Grows bs cs) : Grows as cs :=
  ⟨h.len.trans k.len, fun path q hq => k.path path q (h.path path q hq),
    fun x hx => (k.kept x (hx.trans_le h.len)).trans (h.kept x hx)⟩

/-- How many of a set of paths lead nowhere yet. -/
def unmade (ns : List Node) (F : Finset (List Sym)) : Nat := (F.filter fun P => pathNode ns P = none).card

theorem unmade_pos {ns : List Node} {F : Finset (List Sym)} {P : List Sym} (hP : P ∈ F) (h : pathNode ns P = none) :
    0 < unmade ns F := Finset.card_pos.2 ⟨P, Finset.mem_filter.2 ⟨hP, h⟩⟩

/-- What a part of ModelAdd that makes nodes comes to, for paths in `F` (44_model.md R221, R222): the invariants and all
counts are kept, one node is made for each path that led nowhere, and it stops only with the pool full. -/
structure Made (w cap : Nat) (F : Finset (List Sym)) (ns ms : List Node) : Prop where
  pool : PoolOk w ms
  grows : Grows ns ms
  counts : ∀ path, pathCount ms path = pathCount ns path
  paths : ∀ path, (pathNode ms path).isSome → (pathNode ns path).isSome ∨ path ∈ F
  made : unmade ms F + ms.length = unmade ns F + ns.length
  fits : ns.length ≤ cap → ms.length ≤ cap

theorem Made.refl {w cap : Nat} {F : Finset (List Sym)} {ns : List Node} (ok : PoolOk w ns) : Made w cap F ns ns :=
  ⟨ok, .refl ns, fun _ => rfl, fun _ h => .inl h, rfl, id⟩

theorem Made.trans {w cap : Nat} {F : Finset (List Sym)} {as bs cs : List Node} (h : Made w cap F as bs)
    (k : Made w cap F bs cs) : Made w cap F as cs :=
  ⟨k.pool, h.grows.trans k.grows, fun p => (k.counts p).trans (h.counts p),
    fun p hp => (k.paths p hp).elim (h.paths p) .inr, k.made.trans h.made, fun hf => k.fits (h.fits hf)⟩

/-- `NewNode` for the path `P ++ [s]` (44_model.md R221). -/
theorem PoolOk.made_withChild {w cap : Nat} {ns : List Node} (ok : PoolOk w ns) {F : Finset (List Sym)} {P : List Sym}
    {p : Nat} {sym : Sym} (hP : pathNode ns P = some p) (hs : childBySym ns p sym = none) (hF : P ++ [sym] ∈ F)
    (hcap : ns.length ≠ cap) : Made w cap F ns (withChild ns p sym) := by
  have hpath := ok.pathNode_withChild hP hs
  have hn : pathNode ns (P ++ [sym]) = none := by rw [pathNode_snoc, hP]; exact hs
  refine ⟨ok.pool_withChild (ok.pathNode_lt hP) hs, ⟨by simp, ?_, fun x hx => (nodeAt_withChild_kept hx).1⟩,
    ok.pathCount_withChild hP hs, ?_, ?_, fun h => by rw [length_withChild]; omega⟩
  · intro path q hq
    rw [hpath, if_neg, hq]
    rintro rfl
    rw [hn] at hq; cases hq
  · intro path h
    rw [hpath] at h
    split at h
    · next e => exact .inr (e ▸ hF)
    · exact .inl h
  · have he : (F.filter fun Q => pathNode (withChild ns p sym) Q = none) =
        (F.filter fun Q => pathNode ns Q = none).erase (P ++ [sym]) := by
      ext Q
      simp only [Finset.mem_filter, Finset.mem_erase, hpath]
      by_cases h : Q = P ++ [sym] <;> simp [h]
    have hpos := unmade_pos hF hn
    unfold unmade at hpos ⊢
    rw [he, Finset.card_erase_of_mem (Finset.mem_filter.2 ⟨hF, hn⟩), length_withChild]
    omega

/-- All that `childOrNew` can do at the node a path leads to. -/
theorem PoolOk.childOrNew_spec {w cap : Nat} {ns : List Node} (ok : PoolOk w ns) {F : Finset (List Sym)} {P : List Sym}
    {p : Nat} {sym : Sym} (hP : pathNode ns P = some p) (hF : P ++ [sym] ∈ F) :
    (∃ q ms, childOrNew cap p sym ns = .done q ms ∧ pathNode ms (P ++ [sym]) = some q ∧ Made w cap F ns ms) ∨
      (childOrNew cap p sym ns = .raise .nodePoolFull ns ∧ ns.length = cap ∧ 0 < unmade ns F) := by
  rcases hs : childBySym ns p sym with _ | q
  · by_cases hc : ns.length = cap
    · right
      refine ⟨by simp [childOrNew, hs, newNode, hc], hc, unmade_pos hF ?_⟩
      rw [pathNode_snoc, hP]; exact hs
    · left
      refine ⟨ns.length, withChild ns p sym, by simp [childOrNew, hs, newNode, hc, withChild], ?_,
        ok.made_withChild hP hs hF hc⟩
      rw [ok.pathNode_withChild hP hs, if_pos rfl]
  · left
    refine ⟨q, ns, by simp [childOrNew, hs], ?_, .refl ok⟩
    rw [pathNode_snoc, hP]; exact hs

/-- All that the walk along a sub-context can do (44_model.md R222). -/
theorem PoolOk.walkAdd_spec {w cap : Nat} {F : Finset (List Sym)} : ∀ {xs : List Sym} {ns : List Node} (_ : PoolOk w ns)
    {P : List Sym} {p : Nat}, pathNode ns P = some p → (∀ k, 0 < k → k ≤ xs.length → P ++ xs.take k ∈ F) →
    (∃ q ms, walkAdd cap xs p ns = .done q ms ∧ pathNode ms (P ++ xs) = some q ∧ Made w cap F ns ms) ∨
      (∃ ms, walkAdd cap xs p ns = .raise .nodePoolFull ms ∧ Made w cap F ns ms ∧ ms.length = cap ∧ 0 < unmade ms F)
  | [], ns, ok, P, p, hP, _ => .inl ⟨p, ns, rfl, by simpa using hP, .refl ok⟩
  | x :: xs, ns, ok, P, p, hP, hF => by
    have hF1 : P ++ [x] ∈ F := by simpa using hF 1 (by simp) (by simp)
    rcases ok.childOrNew_spec (cap := cap) hP hF1 with ⟨q, ms, h, hq, hm⟩ | ⟨h, hc, hu⟩
    · have hF2 : ∀ k, 0 < k → k ≤ xs.length → (P ++ [x]) ++ xs.take k ∈ F := by
        intro k hk hl
        simpa using hF (k + 1) (by omega) (by simpa using hl)
      have e : walkAdd cap (x :: xs) p ns = walkAdd cap xs q ms := by
        rw [walkAdd, h]; rfl
      rcases PoolOk.walkAdd_spec (cap := cap) hm.pool hq hF2 with ⟨r, ms', h', hr, hm'⟩ | ⟨ms', h', hm', hc, hu⟩
      · exact .inl ⟨r, ms', e.trans h', by simpa using hr, hm.trans hm'⟩
      · exact .inr ⟨ms', e.trans h', hm.trans hm', hc, hu⟩
    · exact .inr ⟨ns, by rw [walkAdd, h]; rfl, .refl ok, hc, hu⟩

/-- What counting one more occurrence at a node changes (44_model.md R222). -/
theorem PoolOk.bump {w : Nat} {ns : List Node} (ok : PoolOk w ns) {P : List Sym} {q : Nat} {sym : Sym}
    (hq : pathNode ns (P ++ [sym]) = some q) (hc : (nodeAt ns q).count ≠ 2 ^ w - 1) :
    PoolOk w (ns.modify q fun nd => { nd with count := nd.count + 1 }) ∧
      (∀ path, pathNode (ns.modify q fun nd => { nd with count := nd.count + 1 }) path = pathNode ns path) ∧
      Grows ns (ns.modify q fun nd => { nd with count := nd.count + 1 }) ∧
      ∀ path, pathCount (ns.modify q fun nd => { nd with count := nd.count + 1 }) path =
        pathCount ns path + if path = P ++ [sym] then 1 else 0 := by
  set ms := ns.modify q fun nd => { nd with count := nd.count + 1 } with hms
  have hlen : ms.length = ns.length := by simp [hms]
  have hat : ∀ x < ns.length, nodeAt ms x = if q = x then { nodeAt ns x with count := (nodeAt ns x).count + 1 } else nodeAt ns x :=
    fun x hx => nodeAt_modify hx
  have hout : ∀ x, ns.length ≤ x → nodeAt ms x = nodeAt ns x := by
    intro x hx
    simp [nodeAt, hlen, hx]
  have hk : ∀ x, (nodeAt ms x).sym = (nodeAt ns x).sym ∧ (nodeAt ms x).parent = (nodeAt ns x).parent ∧
      (nodeAt ms x).next = (nodeAt ns x).next ∧ (nodeAt ms x).child = (nodeAt ns x).child := by
    intro x
    rcases Nat.lt_or_ge x ns.length with h | h
    · rw [hat x h]; split <;> simp
    · rw [hout x h]; simp
  have hsib : ∀ fuel o, siblings ms fuel o = siblings ns fuel o := by
    intro fuel
    induction fuel with
    | zero => intro o; rfl
    | succ n ih => intro o; cases o with
      | none => rfl
      | some x => simp only [siblings, (hk x).2.2.1, ih]
  have hch : ∀ p, children ms p = children ns p := by
    intro p; simp only [children, (hk p).2.2.2, hlen, hsib]
  have hby : ∀ p s, childBySym ms p s = childBySym ns p s := by
    intro p s; simp only [childBySym, hch, fun x => (hk x).1]
  have hres : ∀ xs p, resolveFrom ms xs p = resolveFrom ns xs p := by
    intro xs
    induction xs with
    | nil => intro p; rfl
    | cons x xs ih => intro p; simp only [resolveFrom, hby, ih]
  have hql := ok.pathNode_lt hq
  have hq0 : q ≠ 0 := by
    rintro rfl
    obtain ⟨p, hp, hm, -⟩ := ok.pathNode_snoc_iff.1 hq
    have := ok.child_parent (ok.pathNode_lt hp) hm
    rw [ok.root.2.1] at this; cases this
  refine ⟨⟨?_, ?_, ?_, ?_, ?_, ?_, ?_⟩, fun path => hres path 0, ⟨hlen.ge, fun path q' h => (hres path 0).trans h,
    fun x _ => (hk x).1⟩, ?_⟩
  · obtain ⟨h0, h1, h2, h3⟩ := ok.root
    refine ⟨by omega, by rw [(hk 0).2.1, h1], by rw [(hk 0).2.2.1, h2], ?_⟩
    rw [hat 0 h0, if_neg hq0, h3]
  · intro p hp
    rw [hch, (hk p).2.2.2]
    exact linked_congr (fun c _ => (hk c).2.2.1) (ok.chain p (hlen ▸ hp))
  · intro p hp; rw [hch]; exact ok.order p (hlen ▸ hp)
  · intro p hp c hc
    rw [hch] at hc
    rw [hlen, (hk c).2.1]
    exact ok.owned p (hlen ▸ hp) c hc
  · intro x hx h0
    obtain ⟨p, hp, hm⟩ := ok.reached x (hlen ▸ hx) h0
    exact ⟨p, hlen ▸ hp, by rw [hch]; exact hm⟩
  · intro p hp
    rw [hch]
    simp only [fun x => (hk x).1]
    exact ok.distinct p (hlen ▸ hp)
  · intro x hx
    have := ok.counts x (hlen ▸ hx)
    rw [hat x (hlen ▸ hx)]
    split
    · next h => subst h; show _ + 1 < _; omega
    · exact this
  · intro path
    have hpn : pathNode ms path = pathNode ns path := hres path 0
    simp only [pathCount, hpn]
    cases h : pathNode ns path with
    | none =>
      rw [if_neg]
      rintro rfl
      rw [hq] at h; cases h
    | some r =>
      simp only []
      rw [hat r (ok.pathNode_lt h)]
      by_cases he : path = P ++ [sym]
      · subst he
        rw [hq] at h
        simp only [Option.some.injEq] at h
        simp [h]
      · have : q ≠ r := by
          rintro rfl
          exact he (ok.pathNode_inj h hq)
        simp [this, he]

/-! ## One turn, and all turns, of ModelAdd's loop -/

/-- The paths one turn of ModelAdd visits (44_model.md R222): the beginnings of the sub-context and its symbol. -/
def turnPaths (sub : List Sym) (sym : Sym) : Finset (List Sym) := (sub ++ [sym]).inits.toFinset

theorem unmade_zero {ns : List Node} {F : Finset (List Sym)} (h : ∀ P ∈ F, (pathNode ns P).isSome) : unmade ns F = 0 := by
  rw [unmade, Finset.card_eq_zero, Finset.filter_eq_empty_iff]
  intro P hP hn
  have := h P hP
  rw [hn] at this; cases this

/-- A beginning of a path that leads to a node leads to a node. -/
theorem pathNode_prefix {ns : List Node} {P Q : List Sym} (h : P <+: Q) (hQ : (pathNode ns Q).isSome) :
    (pathNode ns P).isSome := by
  obtain ⟨R, rfl⟩ := h
  rw [pathNode, resolveFrom_append] at hQ
  rw [pathNode]
  cases hr : resolveFrom ns P 0 with
  | none => rw [hr] at hQ; cases hQ
  | some p => rfl

/-- What one turn, or all turns, of ModelAdd's loop come to, with `F` holding the paths visited and `bumps path` how often
the count at a path is raised (44_model.md R222). -/
structure Added (w cap : Nat) (F : Finset (List Sym)) (bumps : List Sym → Nat) (ns ms : List Node) : Prop where
  pool : PoolOk w ms
  grows : Grows ns ms
  counts : ∀ path, pathCount ms path = pathCount ns path + bumps path
  paths : ∀ path, (pathNode ms path).isSome → (pathNode ns path).isSome ∨ path ∈ F
  made : unmade ms F + ms.length = unmade ns F + ns.length
  fits : ns.length ≤ cap → ms.length ≤ cap

/-- Where and why ModelAdd stops: the pool is full with a node still to be made, or a count is at its maximum
(44_model.md R221, R222). The invariants are kept all the same. -/
structure Stopped (w cap : Nat) (F : Finset (List Sym)) (bumps : List Sym → Nat) (ns ms : List Node) (f : FaultKind) :
    Prop where
  pool : PoolOk w ms
  grows : Grows ns ms
  fits : ns.length ≤ cap → ms.length ≤ cap
  why : (f = .nodePoolFull ∧ cap < ns.length + unmade ns F) ∨
    (f = .countOverflow ∧ ∃ path, 0 < bumps path ∧ 2 ^ w - 1 < pathCount ns path + bumps path)

/-- How often one turn raises the count at a path. -/
def turnBumps (sub : List Sym) (sym : Sym) (path : List Sym) : Nat := if path = sub ++ [sym] then 1 else 0

/-- All that one turn of ModelAdd's loop can do (44_model.md R222). -/
theorem PoolOk.addAlong_spec {w cap : Nat} {ns : List Node} (ok : PoolOk w ns) {F : Finset (List Sym)} (sub : List Sym)
    (sym : Sym) (hF : turnPaths sub sym ⊆ F) :
    (∃ ms, addAlong cap w sub sym ns = .done () ms ∧ Added w cap F (turnBumps sub sym) ns ms ∧
        (pathNode ms (sub ++ [sym])).isSome) ∨
      ∃ ms f, addAlong cap w sub sym ns = .raise f ms ∧ Stopped w cap F (turnBumps sub sym) ns ms f := by
  have hF1 : ∀ k, 0 < k → k ≤ sub.length → [] ++ sub.take k ∈ F := by
    intro k _ _
    refine hF (List.mem_toFinset.2 ((List.mem_inits _ _).2 ?_))
    exact (List.take_prefix k sub).trans (List.prefix_append _ _)
  have hF2 : sub ++ [sym] ∈ F := hF (List.mem_toFinset.2 ((List.mem_inits _ _).2 List.prefix_rfl))
  rcases ok.walkAdd_spec (cap := cap) (P := []) (p := 0) rfl hF1 with ⟨p, ms, h1, hp, m1⟩ | ⟨ms, h1, m1, hc, hu⟩
  · rcases m1.pool.childOrNew_spec (cap := cap) hp hF2 with ⟨q, ms', h2, hq, m2⟩ | ⟨h2, hc, hu⟩
    · have m := m1.trans m2
      have e : addAlong cap w sub sym ns = bumpCount w q ms' := by
        rw [addAlong, h1, Res.done_andThen, h2, Res.done_andThen]
      by_cases hcount : (nodeAt ms' q).count = 2 ^ w - 1
      · right
        refine ⟨ms', .countOverflow, by rw [e, bumpCount, if_pos hcount], m.pool, m.grows, m.fits, .inr ⟨rfl, sub ++ [sym], ?_, ?_⟩⟩
        · simp [turnBumps]
        · have hcc := m.counts (sub ++ [sym])
          have hpq : pathNode ms' (sub ++ [sym]) = some q := hq
          rw [pathCount, hpq] at hcc
          simp only [] at hcc
          rw [← hcc, hcount]
          simp [turnBumps]
      · left
        have hpq : pathNode ms' (sub ++ [sym]) = some q := hq
        obtain ⟨b1, b2, b3, b4⟩ := m.pool.bump hpq hcount
        refine ⟨_, by rw [e, bumpCount, if_neg hcount], ⟨b1, m.grows.trans b3, ?_, ?_, ?_, ?_⟩, ?_⟩
        · intro path; rw [b4, m.counts]; rfl
        · intro path h; rw [b2] at h; exact m.paths path h
        · have : unmade (ms'.modify q fun nd => { nd with count := nd.count + 1 }) F = unmade ms' F := by
            simp only [unmade, b2]
          rw [this, List.length_modify]; exact m.made
        · intro h; rw [List.length_modify]; exact m.fits h
        · rw [b2, hpq]; rfl
    · right
      refine ⟨ms, .nodePoolFull, by rw [addAlong, h1, Res.done_andThen, h2]; rfl, m1.pool, m1.grows, m1.fits, .inl ⟨rfl, ?_⟩⟩
      have := m1.made; omega
  · right
    refine ⟨ms, .nodePoolFull, by rw [addAlong, h1]; rfl, m1.pool, m1.grows, m1.fits, .inl ⟨rfl, ?_⟩⟩
    have := m1.made; omega

/-- How often the turns for the lengths `js` raise the count at a path. -/
def loopBumps (X : List Sym) (sym : Sym) (js : List Nat) (path : List Sym) : Nat :=
  js.countP fun j => decide (path = subContext X j ++ [sym])

/-- All that the turns still to come of ModelAdd's loop can do (44_model.md R222). -/
theorem PoolOk.addLengths_spec {w cap : Nat} {F : Finset (List Sym)} {X : List Sym} {sym : Sym} : ∀ {js : List Nat}
    {ns : List Node} (_ : PoolOk w ns), (∀ j ∈ js, turnPaths (subContext X j) sym ⊆ F) →
    (∃ ms, addLengths cap w X sym js ns = .done () ms ∧ Added w cap F (loopBumps X sym js) ns ms ∧
        ∀ j ∈ js, (pathNode ms (subContext X j ++ [sym])).isSome) ∨
      ∃ ms f, addLengths cap w X sym js ns = .raise f ms ∧ Stopped w cap F (loopBumps X sym js) ns ms f
  | [], ns, ok, _ => .inl ⟨ns, rfl, ⟨ok, .refl ns, fun _ => by simp [loopBumps], fun _ h => .inl h, rfl, id⟩, by simp⟩
  | j :: js, ns, ok, hF => by
    have hb : ∀ path, loopBumps X sym (j :: js) path = turnBumps (subContext X j) sym path + loopBumps X sym js path := by
      intro path
      simp only [loopBumps, List.countP_cons, turnBumps, decide_eq_true_eq]
      omega
    rcases ok.addAlong_spec (cap := cap) (subContext X j) sym (hF j (by simp)) with ⟨ms, h1, a1, s1⟩ | ⟨ms, f, h1, st⟩
    · have e : addLengths cap w X sym (j :: js) ns = addLengths cap w X sym js ms := by
        rw [addLengths, h1, Res.done_andThen]
      rcases PoolOk.addLengths_spec (cap := cap) (js := js) a1.pool (fun i hi => hF i (by simp [hi])) with
        ⟨ms', h2, a2, s2⟩ | ⟨ms', f, h2, st⟩
      · left
        refine ⟨ms', e.trans h2, ⟨a2.pool, a1.grows.trans a2.grows, ?_, fun p hp => (a2.paths p hp).elim (a1.paths p) .inr,
          a2.made.trans a1.made,
          fun h => a2.fits (a1.fits h)⟩, ?_⟩
        · intro path; rw [a2.counts, a1.counts, hb]; omega
        · intro i hi
          rcases List.mem_cons.1 hi with rfl | hi
          · obtain ⟨q, hq⟩ := Option.isSome_iff_exists.1 s1
            rw [a2.grows.path _ _ hq]; rfl
          · exact s2 i hi
      · right
        refine ⟨ms', f, e.trans h2, st.pool, a1.grows.trans st.grows, fun h => st.fits (a1.fits h), ?_⟩
        rcases st.why with ⟨rfl, h⟩ | ⟨rfl, path, h, h'⟩
        · left; refine ⟨rfl, ?_⟩; have := a1.made; omega
        · right; refine ⟨rfl, path, ?_, ?_⟩
          · rw [hb]; omega
          · rw [hb]; rw [a1.counts] at h'; omega
    · right
      refine ⟨ms, f, by rw [addLengths, h1]; rfl, st.pool, st.grows, st.fits, ?_⟩
      rcases st.why with h | ⟨rfl, path, h, h'⟩
      · exact .inl h
      · right; refine ⟨rfl, path, ?_, ?_⟩ <;> rw [hb] <;> omega

/-- The suffixes of a context are its sub-contexts (44_model.md R220). -/
theorem suffix_iff_subContext {X Y : List Sym} : Y <:+ X ↔ ∃ j ≤ X.length, Y = subContext X j := by
  constructor
  · intro h
    refine ⟨Y.length, h.length_le, ?_⟩
    rw [subContext]
    exact List.suffix_iff_eq_drop.1 h
  · rintro ⟨j, _, rfl⟩
    exact List.drop_suffix _ _

theorem length_subContext {X : List Sym} {j : Nat} (h : j ≤ X.length) : (subContext X j).length = j := by
  simp [subContext]; omega

/-- Over all lengths, the count at a suffix of the context and the symbol is raised once. -/
theorem loopBumps_suffix {X Y : List Sym} (sym : Sym) (hY : Y <:+ X) :
    loopBumps X sym (List.range (X.length + 1)) (Y ++ [sym]) = 1 := by
  obtain ⟨j, hj, rfl⟩ := suffix_iff_subContext.1 hY
  have h : loopBumps X sym (List.range (X.length + 1)) (subContext X j ++ [sym]) =
      (List.range (X.length + 1)).count j := by
    refine List.countP_congr fun i hi => ?_
    have hi := List.mem_range.1 hi
    simp only [decide_eq_true_eq, beq_iff_eq]
    constructor
    · intro h
      have := congrArg List.length (List.append_cancel_right h)
      rw [length_subContext hj, length_subContext (by omega)] at this
      exact this.symm
    · rintro rfl; rfl
  rw [h]
  exact List.count_eq_one_of_mem List.nodup_range (List.mem_range.2 (by omega))

/-- No other path's count is raised. -/
theorem loopBumps_other {X path : List Sym} {sym : Sym} (h : ∀ Y, Y <:+ X → path ≠ Y ++ [sym]) :
    loopBumps X sym (List.range (X.length + 1)) path = 0 := by
  rw [loopBumps, List.countP_eq_zero]
  intro j hj hp
  have hj := List.mem_range.1 hj
  exact h (subContext X j) (suffix_iff_subContext.2 ⟨j, by omega, rfl⟩) (by simpa using hp)

/-- The paths ModelAdd visits (44_model.md R222). -/
def addPaths (X : List Sym) (sym : Sym) : Finset (List Sym) :=
  (List.range (X.length + 1)).toFinset.biUnion fun j => turnPaths (subContext X j) sym

/-- All that ModelAdd can do (44_model.md R222). -/
theorem PoolOk.poolAdd_spec {w cap : Nat} {ns : List Node} (ok : PoolOk w ns) (X : List Sym) (sym : Sym) :
    (∃ ms, poolAdd cap w X sym ns = .done () ms ∧
        Added w cap (addPaths X sym) (loopBumps X sym (List.range (X.length + 1))) ns ms ∧
        ms.length = ns.length + unmade ns (addPaths X sym) ∧ ∀ Y, Y <:+ X → (pathNode ms (Y ++ [sym])).isSome) ∨
      ∃ ms f, poolAdd cap w X sym ns = .raise f ms ∧
        Stopped w cap (addPaths X sym) (loopBumps X sym (List.range (X.length + 1))) ns ms f := by
  have hF : ∀ j ∈ List.range (X.length + 1), turnPaths (subContext X j) sym ⊆ addPaths X sym := fun j hj =>
    Finset.subset_biUnion_of_mem (fun j => turnPaths (subContext X j) sym) (List.mem_toFinset.2 hj)
  rcases ok.addLengths_spec (cap := cap) hF with ⟨ms, h, a, s⟩ | h
  · left
    refine ⟨ms, h, a, ?_, ?_⟩
    · have hz : unmade ms (addPaths X sym) = 0 := by
        refine unmade_zero fun P hP => ?_
        obtain ⟨j, hj, hP⟩ := Finset.mem_biUnion.1 hP
        exact pathNode_prefix ((List.mem_inits _ _).1 (List.mem_toFinset.1 hP)) (s j (List.mem_toFinset.1 hj))
      have := a.made; omega
    · intro Y hY
      obtain ⟨j, hj, rfl⟩ := suffix_iff_subContext.1 hY
      exact s j (List.mem_range.2 (by omega))
  · exact .inr h

end Sys2Proof.Machine
end

