-- ==== Sys2Proof/Laws/Writer.lean ====
section
/-! SUPPORT. What the bit writer's internal functions do to the bits written (41_bit_writer.md R160 to R162). -/

namespace Sys2Proof.Machine

@[simp] theorem bytesOf_append (xs ys : List SinkEvent) : bytesOf (xs ++ ys) = bytesOf xs ++ bytesOf ys := by
  induction xs with
  | nil => rfl
  | cons e xs ih => cases e <;> simp [bytesOf, ih]

@[simp] theorem bytesOf_bytes (l : List Byte) : bytesOf (l.map .byte) = l := by
  induction l with
  | nil => rfl
  | cons b l ih => simp [bytesOf, ih]

@[simp] theorem bytesOf_nil : bytesOf [] = [] := rfl
@[simp] theorem bytesOf_flush : bytesOf [.flush] = [] := rfl
@[simp] theorem bytesOf_close : bytesOf [.close] = [] := rfl
@[simp] theorem bytesOf_byte (b : Byte) : bytesOf [.byte b] = [b] := rfl

/-- The bits written, for a writer and its sink (20_memory.md R77). -/
def Writer.bits (w : Writer) : List Bool := (bytesOf w.snk).flatMap byteBits ++ w.buf

theorem State.written_eq (s : State) : s.written = s.writer.bits := rfl

@[simp] theorem State.writer_buf (s : State) : s.writer.buf = s.wbuf := rfl
@[simp] theorem State.writer_snk (s : State) : s.writer.snk = s.snk := rfl
@[simp] theorem State.writer_setWriter (s : State) (w : Writer) : (s.setWriter w).writer = w := rfl
@[simp] theorem State.setWriter_writer (s : State) : s.setWriter s.writer = s := rfl
@[simp] theorem Writer.putAll_nil (w : Writer) : w.putAll [] = w := rfl

theorem Writer.putAll_cons (w : Writer) (b : Bool) (bs : List Bool) : w.putAll (b :: bs) = (w.putBit b).putAll bs := rfl

theorem Writer.putAll_append (w : Writer) (xs ys : List Bool) : w.putAll (xs ++ ys) = (w.putAll xs).putAll ys := by
  simp [Writer.putAll, List.foldl_append]

/-- All that writing a sequence of bits can do (41_bit_writer.md R160, R161): the bits are appended, at most 7 wait, and the
sink has gained bytes only. -/
theorem Writer.putAll_spec (w : Writer) (bs : List Bool) (h : w.buf.length ≤ 7) :
    (w.putAll bs).bits = w.bits ++ bs ∧ (w.putAll bs).buf.length = (w.buf.length + bs.length) % 8 ∧
      ∃ l : List Byte, (w.putAll bs).snk = w.snk ++ l.map .byte := by
  induction bs generalizing w with
  | nil => exact ⟨by simp, by simp; omega, [], by simp⟩
  | cons b bs ih =>
    rw [Writer.putAll_cons]
    by_cases h8 : (w.buf ++ [b]).length = 8
    · have e : w.putBit b = ⟨[], snkPush (bitsByte (w.buf ++ [b])) w.snk⟩ := by simp only [Writer.putBit, h8, if_true]
      obtain ⟨h1, h2, l, h3⟩ := ih (w.putBit b) (by rw [e]; simp)
      simp only [List.length_append, List.length_singleton] at h8
      refine ⟨?_, ?_, bitsByte (w.buf ++ [b]) :: l, ?_⟩
      · rw [h1, e, Writer.bits, Writer.bits, snkPush]
        simp [byteBits_bitsByte (w.buf ++ [b]) (by simpa using h8)]
      · rw [h2, e]; simp only [List.length_nil, List.length_cons]; omega
      · rw [h3, e, snkPush]; simp
    · have e : w.putBit b = ⟨w.buf ++ [b], w.snk⟩ := by simp only [Writer.putBit, h8, if_false]
      have hlt : (w.putBit b).buf.length ≤ 7 := by
        rw [e]; simp only [List.length_append, List.length_singleton] at h8 ⊢; omega
      obtain ⟨h1, h2, l, h3⟩ := ih (w.putBit b) hlt
      refine ⟨?_, ?_, l, ?_⟩
      · rw [h1, e, Writer.bits, Writer.bits]; simp
      · rw [h2, e]; simp only [List.length_append, List.length_nil, List.length_cons]; congr 1; omega
      · rw [h3, e]

/-- At most 7 bits wait after any write, whatever waited before it was a legal buffer (10_state.md R27). -/
theorem Writer.putAll_buf_le (w : Writer) (bs : List Bool) (h : w.buf.length ≤ 7) : (w.putAll bs).buf.length ≤ 7 := by
  rw [(w.putAll_spec bs h).2.1]; omega

/-- Writing bits adds bytes to the sink, and nothing else (10_state.md R43). -/
theorem Writer.putAll_snk (w : Writer) (bs : List Bool) : ∃ l : List Byte, (w.putAll bs).snk = w.snk ++ l.map .byte := by
  induction bs generalizing w with
  | nil => exact ⟨[], by simp [Writer.putAll]⟩
  | cons b bs ih =>
    obtain ⟨l, hl⟩ := ih (w.putBit b)
    rw [Writer.putAll_cons, hl]
    unfold Writer.putBit
    dsimp only
    split
    · exact ⟨bitsByte (w.buf ++ [b]) :: l, by simp [snkPush]⟩
    · exact ⟨l, rfl⟩

/-- `PadZero()` leaves the writer at a byte boundary, after fewer than 8 zero bits (41_bit_writer.md R162, R176). -/
theorem Writer.padZero_spec (w : Writer) (h : w.buf.length ≤ 7) :
    w.padZero.buf = [] ∧ w.padZero.bits = w.bits ++ List.replicate w.padLen false ∧ w.padLen ≤ 7 ∧
      ∃ l : List Byte, w.padZero.snk = w.snk ++ l.map .byte := by
  obtain ⟨h1, h2, h3⟩ := w.putAll_spec (List.replicate w.padLen false) h
  refine ⟨?_, h1, ?_, h3⟩
  · rw [← List.length_eq_zero_iff, Writer.padZero, h2, List.length_replicate, Writer.padLen]; omega
  · rw [Writer.padLen]; omega

/-- Writes on the block append to what is written. -/
theorem State.put_written (s : State) (bs : List Bool) (h : s.wbuf.length ≤ 7) : (s.put bs).written = s.written ++ bs :=
  (s.writer.putAll_spec bs h).1

theorem State.putBits_eq (s : State) (x k : Nat) : s.putBits x k = s.put (msbBits x k) := rfl

theorem State.put_nil (s : State) : s.put [] = s := rfl

theorem State.put_append (s : State) (xs ys : List Bool) : s.put (xs ++ ys) = (s.put xs).put ys := by
  simp [State.put, Writer.putAll_append]; rfl

end Sys2Proof.Machine
end

