-- ==== Sys2Proof/Laws/Cascade.lean ====
section
/-! SUPPORT. The escape cascade (45_cascade.md R260 to R268): where it completes, the decisions it codes, what it leaves, and
that a decoder which holds the same model follows what the encoder wrote (R273). -/

namespace Sys2Proof.Machine

/-! ## Frames -/

/-- From `s` to `t` an encoder's cascade has moved only what a cascade moves. -/
def EncFrame (s t : State) : Prop :=
  t = { s with wctx := t.wctx, xbits := t.xbits, xcount := t.xcount, cl := t.cl, clnull := t.clnull, wbuf := t.wbuf, snk := t.snk }

/-- From `s` to `t` a decoder's cascade has moved only what a cascade moves. -/
def DecFrame (s t : State) : Prop :=
  t = { s with wctx := t.wctx, xbits := t.xbits, xcount := t.xcount, cl := t.cl, clnull := t.clnull, rbuf := t.rbuf, spos := t.spos }

theorem EncFrame.refl (s : State) : EncFrame s s := rfl
theorem DecFrame.refl (s : State) : DecFrame s s := rfl

theorem EncFrame.trans {s t u : State} (h : EncFrame s t) (k : EncFrame t u) : EncFrame s u := by
  unfold EncFrame at *; rw [h] at k; rw [k]

theorem DecFrame.trans {s t u : State} (h : DecFrame s t) (k : DecFrame t u) : DecFrame s u := by
  unfold DecFrame at *; rw [h] at k; rw [k]

/-! ## An encoder and a decoder that agree -/

/-- An encoder and a decoder hold the same of all that a decision depends on (44_model.md R239, 45_cascade.md R273). -/
structure Agree (e d : State) : Prop where
  par : d.par = e.par
  maxOrder : d.maxOrder = e.maxOrder
  hist : d.hist = e.hist
  wctx : d.wctx = e.wctx
  xset : d.xset = e.xset
  nodes : d.nodes = e.nodes
  cl : d.cl = e.cl

theorem Agree.huffPath {e d : State} (h : Agree e d) (i : Nat) : d.huffPath i = e.huffPath i := by
  have hw : d.weight = e.weight := by funext c; simp only [State.weight, h.nodes]
  simp only [State.huffPath, State.huffTree, h.cl, hw]

theorem Agree.getList {e d : State} (h : Agree e d) (X : List Sym) :
    Agree (e.modelGetList X).2 (d.modelGetList X).2 ∧ (d.modelGetList X).1 = (e.modelGetList X).1 := by
  unfold State.modelGetList
  rw [h.nodes]
  cases resolveFrom e.nodes X 0 with
  | none => exact ⟨⟨h.par, h.maxOrder, h.hist, h.wctx, h.xset, h.nodes, rfl⟩, rfl⟩
  | some p =>
    refine ⟨⟨h.par, h.maxOrder, h.hist, h.wctx, h.xset, h.nodes, ?_⟩, rfl⟩
    show trieList e.nodes d.xset p = trieList e.nodes e.xset p
    rw [h.xset]

theorem Agree.uniform {e d : State} (h : Agree e d) : Agree e.modelGetUniform d.modelGetUniform := by
  refine ⟨h.par, h.maxOrder, h.hist, h.wctx, h.xset, h.nodes, ?_⟩
  show uniformList d.xset = uniformList e.xset
  rw [h.xset]

theorem Agree.excludeAll {e d : State} (h : Agree e d) : Agree e.excludeAll d.excludeAll := by
  refine ⟨h.par, h.maxOrder, h.hist, h.wctx, ?_, h.nodes, h.cl⟩
  show d.xset.excludeCands d.cl = e.xset.excludeCands e.cl
  rw [h.xset, h.cl]

theorem Agree.drop {e d : State} (h : Agree e d) : Agree (e.setWctx (ctxDrop e.wctx)) (d.setWctx (ctxDrop d.wctx)) :=
  ⟨h.par, h.maxOrder, h.hist, congrArg ctxDrop h.wctx, h.xset, h.nodes, h.cl⟩

theorem Agree.put {e d : State} (h : Agree e d) (bs : List Bool) (r : Reader) : Agree (e.put bs) (d.setReader r) :=
  ⟨h.par, h.maxOrder, h.hist, h.wctx, h.xset, h.nodes, h.cl⟩

theorem Agree.start {e d : State} (h : Agree e d) : Agree e.cascadeStart d.cascadeStart := by
  refine ⟨h.par, h.maxOrder, h.hist, h.hist, ?_, h.nodes, h.cl⟩
  show d.xset.clear = e.xset.clear
  rw [h.xset]

/-! ## One decision -/

/-- What one decision written does, and that a decoder which agrees reads it back (46_huffman.md R295, R300). -/
theorem decision_mirror {e : State} {i : Nat} (hi : i < e.cl.length) (hw : e.wbuf.length ≤ 7) :
    (e.huffEncode i).written = e.written ++ e.huffPath i ∧ (e.huffEncode i).wbuf.length ≤ 7 ∧
      (∃ l : List Byte, (e.huffEncode i).snk = e.snk ++ l.map .byte) ∧ EncFrame e (e.huffEncode i) ∧
      ∀ d rest, Agree e d → d.remaining = e.huffPath i ++ rest →
        ∃ d', d.huffDecode = .done i d' ∧ DecFrame d d' ∧ Agree (e.huffEncode i) d' ∧
          Consumes d d' (e.huffPath i).length ∧ d'.clnull = d.clnull := by
  refine ⟨e.put_written _ hw, e.writer.putAll_buf_le _ hw, (e.writer.putAll_spec _ hw).2.2, rfl, ?_⟩
  intro d rest ha hr
  rw [← ha.huffPath] at hr
  obtain ⟨r, h1, h2⟩ := State.huffDecode_path (by rw [ha.cl]; exact hi) hr
  rw [ha.huffPath] at h2
  exact ⟨d.setReader r, h1, rfl, ha.put _ r, h2, rfl⟩

/-- The encoder's decision at a trie level, towards a symbol or towards the end of the stream. -/
def levelOf : Option Sym → State → Res State (Option Unit)
  | some sym => encodeSym sym
  | none => encodeEnd

/-- The encoder's decision at the uniform level, towards a symbol or towards the end of the stream. -/
def uniformOf : Option Sym → State → Res State Unit
  | some sym => encodeSymUniform sym
  | none => encodeEndUniform

theorem encodeEsc_eq {e : State} (h : Cand.esc ∈ e.cl) : e.encodeEsc = .done () (e.huffEncode (e.cl.idxOf .esc)) := by
  rw [State.encodeEsc, State.findEsc_eq h]

/-- The encoder's decision at a trie level (45_cascade.md R265, R267): the goal where the list offers it, else `ESC`. -/
theorem levelOf_spec (target : Option Sym) {e : State} {ns : List Node} {X excl : List Sym} (hl : e.cl = levelList ns X excl) :
    levelOf target e = .done (if e.cl.any (goalOf target).isMet then some () else none)
      (e.huffEncode ((goalOf target).choice e.cl)) := by
  have hesc : Cand.esc ∈ e.cl := hl ▸ esc_mem_levelList ns X excl
  cases target with
  | none =>
    have h0 : e.cl.any (goalOf none).isMet = false := by
      rw [Bool.eq_false_iff]
      intro h
      obtain ⟨c, hc, hm⟩ := List.any_eq_true.1 h
      obtain ⟨t, q, hg, -⟩ := Goal.met_at_level (hl ▸ hc) hm
      cases hg
    simp only [levelOf, encodeEnd, encodeEsc_eq hesc, (Goal.choice_esc h0 hesc).2.1, h0]
    rfl
  | some sym =>
    have hf := e.findSym_eq sym
    cases h : e.cl.any (goalOf (some sym)).isMet with
    | true =>
      rw [(Goal.choice_met (g := .symbol sym) h).1] at hf
      simp only [levelOf, encodeSym, hf]
      rfl
    | false =>
      rw [(Goal.choice_esc (g := .symbol sym) h hesc).1] at hf
      simp only [levelOf, encodeSym, hf, encodeEsc_eq hesc, (Goal.choice_esc h hesc).2.1]
      rfl

/-- The uniform level offers the goal of an encoder: the end of the stream, or a symbol that is not excluded
(45_cascade.md R266, R267). -/
theorem lastList_offers {target : Option Sym} {excl : List Sym} (ht : ∀ sym, target = some sym → sym ∉ excl) :
    (lastList excl).any (goalOf target).isMet = true := by
  cases target with
  | none => exact List.any_eq_true.2 ⟨_, eos_mem_lastList excl, rfl⟩
  | some sym => exact List.any_eq_true.2 ⟨_, sym_mem_lastList (ht sym rfl), Goal.isMet_symbol.2 ⟨none, rfl⟩⟩

/-- The encoder's decision at the uniform level (45_cascade.md R265, R266, R267). -/
theorem uniformOf_spec {target : Option Sym} {e : State} {excl : List Sym} (hl : e.cl = lastList excl)
    (ht : ∀ sym, target = some sym → sym ∉ excl) :
    uniformOf target e = .done () (e.huffEncode ((goalOf target).choice e.cl)) := by
  have hm := lastList_offers ht
  rw [← hl] at hm
  have hf := (Goal.choice_met hm).1
  cases target with
  | none => simp only [uniformOf, encodeEndUniform, State.findEos_eq, goalOf] at hf ⊢; rw [hf]
  | some sym => simp only [uniformOf, encodeSymUniform, State.findSym_eq, goalOf] at hf ⊢; rw [hf]

/-! ## The cascade -/

/-- What an encoder's part of a cascade towards `target` comes to when it completes: it writes the bits of the decisions `ds`
from the working context `X` down, leaves what R265 says, and a decoder which agrees follows it with `dec` (45_cascade.md
R265, R273). -/
structure Mirrors (target : Option Sym) (dec : State → Res State (Option Sym)) (X excl : List Sym)
    (ds : List (List Cand × Nat)) (e e' : State) : Prop where
  frame : EncFrame e e'
  wbuf : e'.wbuf.length ≤ 7
  bytes : ∃ l : List Byte, e'.snk = e.snk ++ l.map .byte
  written : e'.written = e.written ++ e.bitsFor ds
  wctx : e'.wctx = X.drop (ds.length - 1)
  list : ds.getLast?.map Prod.fst = some e'.cl ∧ e'.clnull = false
  excluded : ∀ u, e'.xset.has u = true ↔ u ∈ excl ∨ ∃ d ∈ ds.dropLast, u ∈ offeredSyms d.1
  follows : ∀ d rest, Agree e d → d.remaining = e.bitsFor ds ++ rest →
    ∃ d', dec d = .done target d' ∧ DecFrame d d' ∧ Agree e' d' ∧ Consumes d d' (e.bitsFor ds).length ∧ d'.clnull = false

/-- The last decision of a cascade, at the uniform level. -/
theorem uniform_mirror {target : Option Sym} {e : State} {excl : List Sym} (hX : e.wctx = []) (hw : e.wbuf.length ≤ 7)
    (hx : e.xset.Holds excl) (ht : ∀ sym, target = some sym → sym ∉ excl) :
    ∃ e', uniformOf target e.modelGetUniform = .done () e' ∧
      Mirrors target (fun d => decodeUniform d.modelGetUniform) [] excl
        [(lastList excl, (goalOf target).choice (lastList excl))] e e' := by
  set u := e.modelGetUniform with hu
  have hl : u.cl = lastList excl := lastList_eq hx
  have h1 := uniformOf_spec hl ht
  rw [hl] at h1
  set i := (goalOf target).choice (lastList excl) with hi
  obtain ⟨m1, m2, m3, m4, m5⟩ :=
    decision_mirror (e := u) (i := i) (by rw [hl]; exact Goal.choice_lt _ (esc_mem_lastList excl)) hw
  have hp : u.huffPath i = e.bitsFor [(lastList excl, i)] := by
    rw [State.huffPath_eq hl, State.bitsFor_cons, State.bitsFor_nil, List.append_nil]
    exact State.pathIn_congr rfl _ _
  refine ⟨_, h1, EncFrame.trans (t := u) rfl m4, m2, m3, ?_, hX, ⟨congrArg some hl.symm, rfl⟩, ?_, ?_⟩
  · rw [← hp]; exact m1
  · intro t
    have : (u.huffEncode i).xset.has t = decide (t ∈ excl) := hx t
    rw [this, decide_eq_true_iff]; simp
  · intro d rest ha hr
    rw [← hp] at hr
    obtain ⟨d', k1, k2, k3, k4, k5⟩ := m5 d.modelGetUniform rest ha.uniform hr
    rw [hp] at k4
    refine ⟨d', ?_, DecFrame.trans (t := d.modelGetUniform) rfl k2, k3, ⟨k4.1, k4.2, k4.3⟩, k5⟩
    have hcand : d'.cand i = (lastList excl)[i]? := by
      rw [State.cand, k3.cl, ← hl]; rfl
    obtain ⟨-, c, hc, hm⟩ := Goal.choice_met (lastList_offers ht)
    rw [decodeUniform, k1, Res.done_andThen, hcand, hc]
    cases target with
    | none => rw [Goal.isMet_endOfStream.1 hm]
    | some sym => obtain ⟨q, rfl⟩ := Goal.isMet_symbol.1 hm; rfl

/-- The list of a trie level, fetched (45_cascade.md R262, 44_model.md R224). -/
theorem level_eq {s : State} {excl : List Sym} (hx : s.xset.Holds excl) (hr : (pathNode s.nodes s.wctx).isSome) :
    s.level = .done () (s.setList (levelList s.nodes s.wctx excl) false) := by
  obtain ⟨p, hp⟩ := Option.isSome_iff_exists.1 hr
  have h : resolveFrom s.nodes s.wctx 0 = some p := hp
  simp only [State.level, State.modelGetList, h, levelList_eq hx hp]

/-- One trie level of a cascade, given what its continuation after `ESC` does. -/
theorem level_mirror {target : Option Sym} {e : State} {X excl : List Sym} {ds' : List (List Cand × Nat)} (hX : e.wctx = X)
    (hw : e.wbuf.length ≤ 7) (hr : (pathNode e.nodes X).isSome) (hx : e.xset.Holds excl)
    (ht : ∀ sym, target = some sym → sym ∉ excl) {nextE : State → Res State Unit}
    {nextD : State → Res State (Option Sym)} (hne : ds' ≠ [])
    (hn : ∀ u, u.nodes = e.nodes → u.wctx = X → u.wbuf.length ≤ 7 →
      u.xset.Holds (excl ++ offeredSyms (levelList e.nodes X excl)) →
      (∀ sym, target = some sym → sym ∉ excl ++ offeredSyms (levelList e.nodes X excl)) →
      ∃ e', nextE u = .done () e' ∧
        Mirrors target nextD (X.drop 1) (excl ++ offeredSyms (levelList e.nodes X excl)) ds' u e') :
    ∃ e', trieLevel (levelOf target) nextE e = .done () e' ∧
      Mirrors target (trieLevel decodeLevel nextD) X excl
        ((levelList e.nodes X excl, (goalOf target).choice (levelList e.nodes X excl)) ::
          if (levelList e.nodes X excl).any (goalOf target).isMet then [] else ds') e e' := by
  subst hX
  set l := levelList e.nodes e.wctx excl with hldef
  set g := goalOf target with hg
  set i := g.choice l with hi
  -- the list fetched
  set u := e.setList l false with hu
  have hlevel : e.level = .done () u := level_eq hx hr
  have hl : u.cl = l := rfl
  have hesc : Cand.esc ∈ l := esc_mem_levelList e.nodes e.wctx excl
  have hdec : ∀ d, Agree e d → ∃ v, d.level = .done () v ∧ Agree u v ∧ DecFrame d v ∧ Consumes d v 0 ∧ v.clnull = false := by
    intro d ha
    refine ⟨d.setList l false, ?_, ⟨ha.par, ha.maxOrder, ha.hist, ha.wctx, ha.xset, ha.nodes, rfl⟩, rfl, ⟨rfl, rfl, .inl rfl⟩,
      rfl⟩
    rw [level_eq (excl := excl) (by rw [ha.xset]; exact hx) (by rw [ha.nodes, ha.wctx]; exact hr), ha.nodes, ha.wctx]
  have hstep := levelOf_spec target (e := u) hl
  rw [hl] at hstep
  obtain ⟨m1, m2, m3, m4, m5⟩ := decision_mirror (e := u) (i := i) (Goal.choice_lt g hesc) hw
  have hp : u.huffPath i = e.pathIn l i := by
    rw [State.huffPath_eq hl]; exact State.pathIn_congr rfl _ _
  have hEU : EncFrame e u := rfl
  have hxu : ∀ t, (u.huffEncode i).xset.has t = decide (t ∈ excl) := hx
  cases hany : l.any g.isMet with
  | true =>
    rw [hany, if_pos rfl] at hstep
    refine ⟨_, by rw [trieLevel, hlevel, Res.done_andThen, hstep, Res.done_andThen], hEU.trans m4, m2, m3, ?_, rfl, ⟨rfl, rfl⟩,
      ?_, ?_⟩
    · rw [if_pos rfl, State.bitsFor_cons, State.bitsFor_nil, List.append_nil, ← hp]; exact m1
    · intro t; rw [hxu, decide_eq_true_iff]; simp
    · intro d rest ha hrem
      rw [if_pos rfl, State.bitsFor_cons, State.bitsFor_nil, List.append_nil, ← hp] at hrem
      obtain ⟨v, v1, v2, v3, v4, v5⟩ := hdec d ha
      obtain ⟨d', k1, k2, k3, k4, k5⟩ := m5 v rest v2 (v4.remaining.trans hrem)
      refine ⟨d', ?_, v3.trans k2, k3, ?consumed, k5.trans v5⟩
      case consumed =>
        rw [if_pos rfl, State.bitsFor_cons, State.bitsFor_nil, List.append_nil, ← hp, ← Nat.zero_add (u.huffPath i).length]
        exact v4.trans k4
      obtain ⟨-, c, hc, hm⟩ := Goal.choice_met hany
      obtain ⟨t, q, hgt, rfl⟩ := Goal.met_at_level (List.mem_of_getElem? hc) hm
      have hcand : d'.cand i = some (.sym t q) := by rw [State.cand, k3.cl]; exact hc
      have htt : target = some t := by
        rw [hg] at hgt
        cases target with
        | none => cases hgt
        | some s => cases hgt; rfl
      rw [trieLevel, v1, Res.done_andThen, decodeLevel, k1, Res.done_andThen, hcand, htt]
      rfl
  | false =>
    rw [hany] at hstep
    obtain ⟨-, -, hc⟩ := Goal.choice_esc hany hesc
    -- the whole list is excluded, and on
    set x := (u.huffEncode i).excludeAll with hxs
    have hxx : x.xset.Holds (excl ++ offeredSyms l) := XSet.Holds.excludeCands (x := e.xset) hx l
    have htx : ∀ sym, target = some sym → sym ∉ excl ++ offeredSyms l := by
      intro sym hs hm
      rcases List.mem_append.1 hm with h | h
      · exact ht sym hs h
      · obtain ⟨q, hq⟩ := mem_offeredSyms.1 h
        rw [Bool.eq_false_iff] at hany
        exact hany (List.any_eq_true.2 ⟨_, hq, by rw [hg, hs]; exact Goal.isMet_symbol.2 ⟨q, rfl⟩⟩)
    obtain ⟨e', n0, M⟩ := hn x rfl rfl m2 hxx htx
    obtain ⟨l1, m3⟩ := m3
    obtain ⟨l2, n3⟩ := M.bytes
    have hXF : EncFrame (u.huffEncode i) x := rfl
    have hb : x.bitsFor ds' = e.bitsFor ds' := State.bitsFor_congr rfl ds'
    obtain ⟨y, ys, rfl⟩ := List.exists_cons_of_ne_nil hne
    refine ⟨e', by rw [trieLevel, hlevel, Res.done_andThen, hstep, Res.done_andThen]; exact n0,
      (hEU.trans m4).trans (hXF.trans M.frame), M.wbuf, ⟨l1 ++ l2, ?_⟩, ?_, ?_, M.list, ?_, ?_⟩
    · rw [n3]
      show (u.huffEncode i).snk ++ _ = _
      rw [m3, List.map_append, List.append_assoc]; rfl
    · rw [M.written, hb]
      show (u.huffEncode i).written ++ _ = _
      rw [m1, List.append_assoc, hp]; rfl
    · rw [M.wctx, List.drop_drop]
      simp only [Bool.false_eq_true, if_false, List.length_cons]
      congr 1
      omega
    · intro t
      rw [M.excluded t, List.mem_append]
      simp only [Bool.false_eq_true, if_false, List.dropLast_cons_cons, List.mem_cons, exists_eq_or_imp, or_assoc]
    · intro d rest ha hrem
      simp only [Bool.false_eq_true, if_false] at hrem
      rw [State.bitsFor_cons, List.append_assoc, ← hp, ← hb] at hrem
      obtain ⟨v, v1, v2, v3, v4, -⟩ := hdec d ha
      have hvrem := v4.remaining.trans hrem
      obtain ⟨d1, k1, k2, k3, k4, -⟩ := m5 v _ v2 hvrem
      obtain ⟨d', j1, j2, j3, j4, j5⟩ := M.follows d1.excludeAll rest k3.excludeAll (k4.rest hvrem)
      refine ⟨d', ?_, (v3.trans k2).trans (DecFrame.trans (t := d1.excludeAll) rfl j2), j3, ?consumed, j5⟩
      case consumed =>
        have h1 : Consumes d1 d1.excludeAll 0 := ⟨rfl, rfl, .inl rfl⟩
        have h2 := ((v4.trans k4).trans h1).trans j4
        simp only [Bool.false_eq_true, if_false]
        rw [State.bitsFor_cons, List.length_append, ← hp, ← hb]
        simpa using h2
      have hcand : d1.cand i = some .esc := by rw [State.cand, k3.cl]; exact hc
      have hdl : decodeLevel v = .done none d1 := by
        rw [decodeLevel, k1, Res.done_andThen, hcand]
      rw [trieLevel, v1, Res.done_andThen, hdl, Res.done_andThen]
      exact j1

theorem suffixesResolve_tail {ns : List Node} {x : Sym} {X : List Sym} (h : suffixesResolve ns (x :: X)) :
    suffixesResolve ns X := fun Y hY => h Y (hY.trans (List.suffix_cons x X))

theorem cascade_nil {α : Type} (D : State → Res State (Option α)) (U : State → Res State α) :
    cascade D U [] = trieLevel D fun s => U s.modelGetUniform := by
  funext s; rw [cascade]

theorem cascade_cons {α : Type} (D : State → Res State (Option α)) (U : State → Res State α) (x : Sym) (X : List Sym) :
    cascade D U (x :: X) = trieLevel D fun s => cascade D U X (s.setWctx (ctxDrop s.wctx)) := by
  funext s; rw [cascade]

/-- A cascade whose working context and all its suffixes the trie holds completes, codes the decisions of `decisionsFrom`, and
a decoder that agrees follows it to the same target (45_cascade.md R265 to R269, R272, R273). -/
theorem cascade_mirror (target : Option Sym) : ∀ (X : List Sym) {e : State} {excl : List Sym}, e.wctx = X →
    suffixesResolve e.nodes X → e.wbuf.length ≤ 7 → e.xset.Holds excl → (∀ sym, target = some sym → sym ∉ excl) →
    ∃ e', cascade (levelOf target) (uniformOf target) X e = .done () e' ∧
      Mirrors target (cascade decodeLevel decodeUniform X) X excl (decisionsFrom e.nodes (goalOf target) X excl) e e'
  | [], e, excl, hX, hs, hw, hx, ht => by
    rw [cascade_nil, cascade_nil, decisionsFrom_nil]
    refine level_mirror hX hw (hs [] (List.suffix_refl _)) hx ht (List.cons_ne_nil _ _) ?_
    intro u _ huc huw hux hut
    exact uniform_mirror huc huw hux hut
  | x :: X, e, excl, hX, hs, hw, hx, ht => by
    rw [cascade_cons, cascade_cons, decisionsFrom_cons]
    refine level_mirror hX hw (hs _ (List.suffix_refl _)) hx ht (decisionsFrom_ne_nil _ _ _ _) ?_
    intro u hun huc huw hux hut
    set v := u.setWctx (ctxDrop u.wctx) with hv
    have hc : v.wctx = X := by
      show u.wctx.drop 1 = X
      rw [huc]; rfl
    have hvn : v.nodes = e.nodes := hun
    obtain ⟨e', h1, M⟩ := cascade_mirror target X (e := v) hc (by rw [hvn]; exact suffixesResolve_tail hs) huw hux hut
    rw [hvn] at M
    refine ⟨e', h1, EncFrame.trans (t := v) rfl M.frame, M.wbuf, M.bytes, ?_, M.wctx, M.list, M.excluded, fun d rest ha hr => ?_⟩
    · rw [M.written]; exact congrArg _ (State.bitsFor_congr rfl _)
    · have hbits : v.bitsFor (decisionsFrom e.nodes (goalOf target) X (excl ++ offeredSyms (levelList e.nodes (x :: X) excl))) =
          u.bitsFor (decisionsFrom e.nodes (goalOf target) X (excl ++ offeredSyms (levelList e.nodes (x :: X) excl))) :=
        State.bitsFor_congr rfl _
      obtain ⟨d', k1, k2, k3, k4, k5⟩ := M.follows (d.setWctx (ctxDrop d.wctx)) rest ha.drop (by rw [hbits]; exact hr)
      rw [hbits] at k4
      exact ⟨d', k1, DecFrame.trans (t := d.setWctx (ctxDrop d.wctx)) rfl k2, k3, ⟨k4.1, k4.2, k4.3⟩, k5⟩

end Sys2Proof.Machine
end

