-- ==== Sys2Proof/Laws/NewPaths.lean ====
section
/-! SUPPORT. The order in which ModelAdd makes nodes (44_model.md R221, R222): the k-th of the paths that lead nowhere yet gets
the k-th new index. -/

namespace Sys2Proof.Machine

theorem nodup_eraseDups {α : Type} [BEq α] [LawfulBEq α] : ∀ l : List α, l.eraseDups.Nodup
  | [] => by simp
  | a :: l => by
    rw [List.eraseDups_cons]
    refine List.nodup_cons.2 ⟨fun h => ?_, nodup_eraseDups _⟩
    have := (List.mem_filter.1 (List.mem_eraseDups.1 h)).2
    simp at this
termination_by l => l.length
decreasing_by simp; have := List.length_filter_le (fun b => !b == a) l; omega

/-- A part of ModelAdd that visits the paths of a list has made a node for each that led nowhere, with the index of its place
among them. -/
structure Visited (paths : List (List Sym)) (ns ms : List Node) : Prop where
  isSome : ∀ P, (pathNode ms P).isSome ↔ (pathNode ns P).isSome ∨ P ∈ paths
  kept : ∀ P q, pathNode ns P = some q → pathNode ms P = some q
  index : ∀ k P, (firstNew ns paths)[k]? = some P → pathNode ms P = some (ns.length + k)
  length : ms.length = ns.length + (firstNew ns paths).length

theorem firstNew_nil (ns : List Node) : firstNew ns [] = [] := by simp [firstNew]

/-- A visit of paths that all lead to a node makes nothing. -/
theorem Visited.same {paths : List (List Sym)} {ns ms : List Node} (h : ∀ P ∈ paths, (pathNode ns P).isSome)
    (hm : ∀ P, pathNode ms P = pathNode ns P) (hl : ms.length = ns.length) : Visited paths ns ms := by
  have hf : firstNew ns paths = [] := by
    rw [firstNew, List.filter_eq_nil_iff.2]
    · simp
    · intro P hP hn
      have := h P hP
      rw [Option.isNone_iff_eq_none] at hn
      rw [hn] at this; cases this
  refine ⟨fun P => ?_, fun P q hq => (hm P).trans hq, fun k P hk => ?_, by rw [hf, hl]; rfl⟩
  · rw [hm]
    exact ⟨.inl, fun k => k.elim id (h P)⟩
  · rw [hf] at hk; cases hk

theorem Visited.trans {L K : List (List Sym)} {as bs cs : List Node} (h : Visited L as bs) (k : Visited K bs cs) :
    Visited (L ++ K) as cs := by
  have hnew : firstNew as (L ++ K) = firstNew as L ++ firstNew bs K := by
    unfold firstNew
    rw [List.filter_append, List.eraseDups_append]
    congr 2
    rw [List.removeAll, List.filter_filter]
    refine List.filter_congr fun P _ => ?_
    rw [Bool.eq_iff_iff]
    have := h.isSome P
    simp only [Bool.and_eq_true, Bool.not_eq_true', List.elem_eq_mem, decide_eq_false_iff_not, List.mem_filter,
      Option.isNone_iff_eq_none]
    rw [← Option.not_isSome_iff_eq_none, ← Option.not_isSome_iff_eq_none, this]
    tauto
  refine ⟨fun P => ?_, fun P q hq => k.kept P q (h.kept P q hq), fun n P hn => ?_, ?_⟩
  · rw [k.isSome, h.isSome, List.mem_append, or_assoc]
  · rw [hnew, List.getElem?_append] at hn
    split at hn
    · exact k.kept P _ (h.index n P hn)
    · next hge =>
      rw [k.index _ P hn, h.length]
      congr 1
      omega
  · rw [k.length, h.length, hnew, List.length_append]; omega

/-- `childOrNew` visits the child's path. -/
theorem PoolOk.childOrNew_visited {w cap : Nat} {ns ms : List Node} (ok : PoolOk w ns) {P : List Sym} {p q : Nat} {sym : Sym}
    (hP : pathNode ns P = some p) (h : childOrNew cap p sym ns = .done q ms) :
    Visited [P ++ [sym]] ns ms ∧ PoolOk w ms ∧ pathNode ms (P ++ [sym]) = some q := by
  have hsnoc : pathNode ns (P ++ [sym]) = childBySym ns p sym := by rw [pathNode_snoc, hP]; rfl
  unfold childOrNew at h
  rcases hs : childBySym ns p sym with _ | c
  · rw [hs] at h hsnoc
    dsimp only [newNode] at h
    split at h
    · cases h
    · have hq : q = ns.length := by cases h; rfl
      have hms : ms = withChild ns p sym := by cases h; rfl
      have hpath := ok.pathNode_withChild hP hs
      have hf : firstNew ns [P ++ [sym]] = [P ++ [sym]] := by
        simp [firstNew, hsnoc, List.eraseDups_cons]
      subst hms
      refine ⟨⟨fun Q => ?_, fun Q r hr => ?_, fun k Q hk => ?_, by rw [hf, length_withChild]; rfl⟩,
        ok.pool_withChild (ok.pathNode_lt hP) hs, by rw [hpath, if_pos rfl, hq]⟩
      · rw [hpath, List.mem_singleton]
        by_cases he : Q = P ++ [sym] <;> simp [he]
      · rw [hpath, if_neg, hr]
        rintro rfl
        rw [hsnoc] at hr; cases hr
      · rw [hf] at hk
        obtain ⟨hk0, rfl⟩ := List.getElem?_eq_some_iff.1 hk
        have : k = 0 := by simpa using hk0
        subst this
        exact (hpath _).trans (if_pos rfl)
  · rw [hs] at h hsnoc
    cases h
    exact ⟨.same (by simp [hsnoc]) (fun _ => rfl) rfl, ok, hsnoc⟩

/-- The walk along a sub-context visits the paths on the way. -/
theorem PoolOk.walkAdd_visited {w cap : Nat} : ∀ {xs : List Sym} {ns ms : List Node} (_ : PoolOk w ns) {P : List Sym} {p q : Nat},
    pathNode ns P = some p → walkAdd cap xs p ns = .done q ms →
    Visited (xs.inits.tail.map (P ++ ·)) ns ms ∧ PoolOk w ms ∧ pathNode ms (P ++ xs) = some q
  | [], ns, ms, ok, P, p, q, hP, h => by
    cases h
    exact ⟨.same (by simp) (fun _ => rfl) rfl, ok, by simpa using hP⟩
  | x :: xs, ns, ms, ok, P, p, q, hP, h => by
    unfold walkAdd at h
    cases hc : childOrNew cap p x ns with
    | raise f m => rw [hc] at h; cases h
    | done r m =>
      rw [hc, Res.done_andThen] at h
      obtain ⟨v1, ok1, hr⟩ := ok.childOrNew_visited hP hc
      obtain ⟨v2, ok2, hq⟩ := PoolOk.walkAdd_visited ok1 hr h
      refine ⟨?_, ok2, by simpa using hq⟩
      have hin : (x :: xs).inits.tail.map (P ++ ·) = [P ++ [x]] ++ xs.inits.tail.map (P ++ [x] ++ ·) := by
        cases xs <;> simp [Function.comp_def]
      rw [hin]
      exact v1.trans v2

/-- One turn of ModelAdd's loop visits the beginnings of the sub-context and the symbol. -/
theorem PoolOk.addAlong_visited {w cap : Nat} {ns ms : List Node} (ok : PoolOk w ns) {sub : List Sym} {sym : Sym}
    (h : addAlong cap w sub sym ns = .done () ms) : Visited (sub ++ [sym]).inits ns ms ∧ PoolOk w ms := by
  unfold addAlong at h
  cases h1 : walkAdd cap sub 0 ns with
  | raise f m => rw [h1] at h; cases h
  | done p m1 =>
    rw [h1, Res.done_andThen] at h
    obtain ⟨v1, ok1, hp⟩ := ok.walkAdd_visited (P := []) rfl h1
    cases h2 : childOrNew cap p sym m1 with
    | raise f m => rw [h2] at h; cases h
    | done q m2 =>
      rw [h2, Res.done_andThen, bumpCount] at h
      obtain ⟨v2, ok2, hq⟩ := ok1.childOrNew_visited hp h2
      split at h
      · cases h
      · next hc =>
        obtain ⟨b1, b2, b3, -⟩ := ok2.bump (P := sub) hq hc
        cases h
        refine ⟨?_, b1⟩
        have v0 : Visited [[]] ns ns := .same (by simp [pathNode, resolveFrom]) (fun _ => rfl) rfl
        have v3 : Visited [] m2 (m2.modify q fun nd => { nd with count := nd.count + 1 }) := .same (by simp) b2 (by simp)
        have hin : (sub ++ [sym]).inits = [[]] ++ sub.inits.tail.map ([] ++ ·) ++ [[] ++ sub ++ [sym]] ++ [] := by
          have h0 : sub.inits = [] :: sub.inits.tail := by cases sub <;> simp
          rw [List.inits_append, h0]
          simp
        rw [hin]
        exact ((v0.trans v1).trans v2).trans v3

/-- All turns. -/
theorem PoolOk.addLengths_visited {w cap : Nat} {X : List Sym} {sym : Sym} : ∀ {js : List Nat} {ns ms : List Node}
    (_ : PoolOk w ns), addLengths cap w X sym js ns = .done () ms →
    Visited (js.flatMap fun j => (X.drop (X.length - j) ++ [sym]).inits) ns ms
  | [], ns, ms, _, h => by cases h; exact .same (by simp) (fun _ => rfl) rfl
  | j :: js, ns, ms, ok, h => by
    unfold addLengths at h
    cases h1 : addAlong cap w (subContext X j) sym ns with
    | raise f m => rw [h1] at h; cases h
    | done u m =>
      rw [h1, Res.done_andThen] at h
      obtain ⟨v, ok'⟩ := ok.addAlong_visited h1
      rw [List.flatMap_cons]
      exact v.trans (PoolOk.addLengths_visited ok' h)

/-- ModelAdd makes the nodes of `newPaths` in order (44_model.md R221, R222). -/
theorem PoolOk.poolAdd_visited {w cap : Nat} {ns ms : List Node} (ok : PoolOk w ns) {X : List Sym} {sym : Sym}
    (h : poolAdd cap w X sym ns = .done () ms) : Visited (visitedPaths X sym) ns ms :=
  ok.addLengths_visited h

end Sys2Proof.Machine
end

