-- ==== Sys2Proof/Laws/ModelAdd.lean ====
section
/-! SUPPORT. Said once in the words claims use, all that ModelAdd does (44_model.md R220 to R222), and what it makes of the
contexts that lead to a node (R238). -/

namespace Sys2Proof.Machine

/-- The paths ModelAdd visits are the beginnings of a suffix of the context and the symbol (44_model.md R222). -/
theorem mem_addPaths {X P : List Sym} {sym : Sym} : P ∈ addPaths X sym ↔ ∃ Y, Y <:+ X ∧ P <+: Y ++ [sym] := by
  simp only [addPaths, Finset.mem_biUnion, List.mem_toFinset, List.mem_range, turnPaths, List.mem_inits]
  constructor
  · rintro ⟨j, hj, hP⟩
    exact ⟨_, suffix_iff_subContext.2 ⟨j, by omega, rfl⟩, hP⟩
  · rintro ⟨Y, hY, hP⟩
    obtain ⟨j, hj, rfl⟩ := suffix_iff_subContext.1 hY
    exact ⟨j, by omega, hP⟩

theorem mem_visitedPaths {X P : List Sym} {sym : Sym} : P ∈ visitedPaths X sym ↔ ∃ Y, Y <:+ X ∧ P <+: Y ++ [sym] := by
  rw [← mem_addPaths]
  simp only [visitedPaths, addPaths, turnPaths, subContext, List.mem_flatMap, Finset.mem_biUnion, List.mem_toFinset]

/-- The nodes ModelAdd has to make, counted either way. -/
theorem length_newPaths (ns : List Node) (X : List Sym) (sym : Sym) :
    (newPaths ns X sym).length = unmade ns (addPaths X sym) := by
  have hn : (newPaths ns X sym).Nodup := nodup_eraseDups _
  rw [unmade, ← List.toFinset_card_of_nodup hn]
  congr 1
  ext P
  simp only [newPaths, firstNew, List.mem_toFinset, List.mem_eraseDups, List.mem_filter, mem_visitedPaths, Finset.mem_filter,
    mem_addPaths, Option.isNone_iff_eq_none]

/-- What ModelAdd comes to, in the words claims use. -/
theorem Added.addedTo {w cap : Nat} {ns ms : List Node} {X : List Sym} {sym : Sym}
    (a : Added w cap (addPaths X sym) (loopBumps X sym (List.range (X.length + 1))) ns ms)
    (v : Visited (visitedPaths X sym) ns ms) : AddedTo ns X sym ms := by
  refine ⟨fun Y hY => ?_, fun P hP => ?_, v.length, fun P => ?_, v.index, v.kept⟩
  · rw [a.counts, loopBumps_suffix sym hY]
  · rw [a.counts, loopBumps_other hP]; rfl
  · rw [v.isSome, mem_visitedPaths]

/-- All that ModelAdd can do to a block (44_model.md R221, R222): it counts the symbol where the pool has room and no count is
at its maximum, and stops with the one fault or the other where not. -/
theorem State.modelAdd_spec {s : State} (h : s.TrieOk) (X : List Sym) (sym : Sym) :
    (s.canAdd X sym ∧ ∃ ms, s.modelAdd X sym = .done () (s.setNodes ms) ∧ AddedTo s.nodes X sym ms ∧
        PoolOk s.par.countW ms ∧ Grows s.nodes ms ∧ ms.length ≤ s.par.nodeCap) ∨
      (¬ s.canAdd X sym ∧ ∃ ms f, s.modelAdd X sym = .raise f (s.setNodes ms) ∧
        ((f = .nodePoolFull ∧ s.par.nodeCap < s.nodes.length + (newPaths s.nodes X sym).length) ∨
          (f = .countOverflow ∧ ∃ Y, Y <:+ X ∧ 2 ^ s.par.countW - 1 ≤ pathCount s.nodes (Y ++ [sym])))) := by
  rcases h.pool.poolAdd_spec (cap := s.par.nodeCap) X sym with ⟨ms, he, a, hl, hp⟩ | ⟨ms, f, he, a⟩
  · left
    have hfit := a.fits h.alloc
    refine ⟨⟨?_, fun Y hY => ?_⟩, ms, by rw [State.modelAdd, he]; rfl, a.addedTo (h.pool.poolAdd_visited he), a.pool, a.grows, hfit⟩
    · rw [length_newPaths]; omega
    · obtain ⟨q, hq⟩ := Option.isSome_iff_exists.1 (hp Y hY)
      have hc := a.pool.counts q (a.pool.pathNode_lt hq)
      have h1 := a.counts (Y ++ [sym])
      rw [loopBumps_suffix sym hY] at h1
      have h2 : pathCount ms (Y ++ [sym]) = (nodeAt ms q).count := by rw [pathCount, hq]
      omega
  · right
    have hwhy : (f = .nodePoolFull ∧ s.par.nodeCap < s.nodes.length + (newPaths s.nodes X sym).length) ∨
        (f = .countOverflow ∧ ∃ Y, Y <:+ X ∧ 2 ^ s.par.countW - 1 ≤ pathCount s.nodes (Y ++ [sym])) := by
      rw [length_newPaths]
      refine a.why.imp id ?_
      rintro ⟨hf, path, hb, hc⟩
      refine ⟨hf, ?_⟩
      by_cases hY : ∃ Y, Y <:+ X ∧ path = Y ++ [sym]
      · obtain ⟨Y, hY, rfl⟩ := hY
        rw [loopBumps_suffix sym hY] at hc
        exact ⟨Y, hY, by omega⟩
      · rw [loopBumps_other fun Y hY' e => hY ⟨Y, hY', e⟩] at hb
        exact absurd hb (by omega)
    refine ⟨?_, ms, f, by rw [State.modelAdd, he]; rfl, hwhy⟩
    rintro ⟨h1, h2⟩
    rcases hwhy with ⟨-, h⟩ | ⟨-, Y, hY, h⟩
    · omega
    · have := h2 Y hY; omega

theorem subContext_suffix {Y Z : List Sym} {x : Sym} (h : Z <:+ Y ++ [x]) : Z = [] ∨ ∃ V, Z = V ++ [x] ∧ V <:+ Y := by
  rcases List.eq_nil_or_concat Z with rfl | ⟨V, z, rfl⟩
  · exact .inl rfl
  · right
    obtain ⟨R, hR⟩ := h
    rw [List.concat_eq_append, ← List.append_assoc] at hR
    obtain ⟨h1, h2⟩ := List.append_inj' hR rfl
    cases h2
    exact ⟨V, by simp, R, h1⟩

/-- After ModelAdd every suffix of the context with the symbol appended leads to a node (44_model.md R238). -/
theorem AddedTo.suffixesResolve {ns ms : List Node} {X : List Sym} {sym : Sym} (h : AddedTo ns X sym ms) (cap : Nat)
    (hs : suffixesResolve ns X) : suffixesResolve ms (ctxAppend cap X sym) := by
  have hkeep : ∀ P, (pathNode ns P).isSome → (pathNode ms P).isSome := fun P hP => (h.paths P).2 (.inl hP)
  have hall : Sys2Proof.Machine.suffixesResolve ms (X ++ [sym]) := by
    intro Z hZ
    rcases subContext_suffix hZ with rfl | ⟨V, rfl, hV⟩
    · rfl
    · exact (h.paths _).2 (.inr ⟨V, hV, List.prefix_rfl⟩)
  unfold ctxAppend
  split
  · exact fun Y hY => hkeep Y (hs Y hY)
  · split
    · intro Y hY
      refine hall Y (hY.trans ?_)
      have : X.drop 1 <:+ X := List.drop_suffix 1 X
      obtain ⟨R, hR⟩ := this
      exact ⟨R, by rw [← List.append_assoc, hR]⟩
    · exact hall

end Sys2Proof.Machine
end

