-- ==== Sys2Proof/Laws/CascadeFrame.lean ====
section
/-! SUPPORT. What a cascade leaves alone, whether it completes or stops (45_cascade.md R260 to R264), what Resolve comes to
(R263), and the fault at a context the trie does not hold (R262). -/

namespace Sys2Proof.Machine

/-- What does not look at the candidate list, the exclusion set or the working context, and what the decisions leave alone, a
cascade leaves alone. -/
theorem cascade_keeps {α β : Type} (g : State → β) (hl : ∀ s l b, g (State.setList s l b) = g s)
    (hx : ∀ s x, g (State.setXset s x) = g s) (hw : ∀ s X, g (State.setWctx s X) = g s)
    {D : State → Res State (Option α)} {U : State → Res State α} (hD : ∀ s, g (D s).state = g s)
    (hU : ∀ s, g (U s).state = g s) : ∀ (X : List Sym) (s : State), g (cascade D U X s).state = g s := by
  have hlevel : ∀ s : State, g s.level.state = g s := by
    intro s
    unfold State.level State.modelGetList
    cases resolveFrom s.nodes s.wctx 0 with
    | none => exact hl s _ _
    | some p => exact hl s _ _
  have htrie : ∀ (N : State → Res State α), (∀ s, g (N s).state = g s) → ∀ s, g (trieLevel D N s).state = g s := by
    intro N hN s
    have h1 := hlevel s
    unfold trieLevel
    cases hs : s.level with
    | raise f t => rw [hs] at h1; exact h1
    | done a t =>
      rw [hs] at h1
      have h2 := hD t
      rw [Res.done_andThen]
      cases ht : D t with
      | raise f u => rw [ht] at h2; exact h2.trans h1
      | done a u =>
        rw [ht] at h2
        rw [Res.done_andThen]
        cases a with
        | some a => exact h2.trans h1
        | none => exact (hN u.excludeAll).trans ((hx u _).trans (h2.trans h1))
  intro X
  induction X with
  | nil => exact htrie _ fun s => (hU s.modelGetUniform).trans (hl s _ _)
  | cons x X ih => exact htrie _ fun s => (ih (s.setWctx (ctxDrop s.wctx))).trans (hw s _)

/-- What an encoder's decision leaves alone. -/
theorem levelOf_keeps {β : Type} (g : State → β) (hp : ∀ s bs, g (State.put s bs) = g s) (target : Option Sym) (s : State) :
    g (levelOf target s).state = g s := by
  have hesc : g s.encodeEsc.state = g s := by
    unfold State.encodeEsc
    split
    · exact hp s _
    · rfl
  have hthen : g (s.encodeEsc.andThen fun _ s => (.done none s : Res State (Option Unit))).state = g s := by
    cases he : s.encodeEsc with
    | done a t => rw [he] at hesc; exact hesc
    | raise f t => rw [he] at hesc; exact hesc
  cases target with
  | none => exact hthen
  | some sym =>
    unfold levelOf encodeSym
    dsimp only
    split
    · exact hp s _
    · exact hthen

theorem uniformOf_keeps {β : Type} (g : State → β) (hp : ∀ s bs, g (State.put s bs) = g s) (target : Option Sym) (s : State) :
    g (uniformOf target s).state = g s := by
  cases target with
  | none =>
    unfold uniformOf encodeEndUniform
    dsimp only
    split
    · exact hp s _
    · rfl
  | some sym =>
    unfold uniformOf encodeSymUniform
    dsimp only
    split
    · exact hp s _
    · rfl

/-- What a decoder's decision leaves alone. -/
theorem walk_keeps {β : Type} (g : State → β) (hr : ∀ s r, g (State.setReader s r) = g s) : ∀ (t : HTree) (s : State),
    g (t.walk s).state = g s
  | .leaf i, s => rfl
  | .node l r, s => by
    unfold HTree.walk
    dsimp only
    split
    · exact hr s _
    · split
      · exact (walk_keeps g hr r _).trans ((hr _ _).trans (hr s _))
      · exact (walk_keeps g hr l _).trans ((hr _ _).trans (hr s _))

theorem huffDecode_keeps {β : Type} (g : State → β) (hr : ∀ s r, g (State.setReader s r) = g s) (s : State) :
    g s.huffDecode.state = g s := by
  unfold State.huffDecode
  split
  · exact walk_keeps g hr _ s
  · rfl

theorem decodeLevel_keeps {β : Type} (g : State → β) (hr : ∀ s r, g (State.setReader s r) = g s) (s : State) :
    g (decodeLevel s).state = g s := by
  have h := huffDecode_keeps g hr s
  unfold decodeLevel
  cases hs : s.huffDecode with
  | raise f t => rw [hs] at h; exact h
  | done i t =>
    rw [hs] at h
    rw [Res.done_andThen]
    split <;> exact h

theorem decodeUniform_keeps {β : Type} (g : State → β) (hr : ∀ s r, g (State.setReader s r) = g s) (s : State) :
    g (decodeUniform s).state = g s := by
  have h := huffDecode_keeps g hr s
  unfold decodeUniform
  cases hs : s.huffDecode with
  | raise f t => rw [hs] at h; exact h
  | done i t =>
    rw [hs] at h
    rw [Res.done_andThen]
    split <;> exact h

/-- Resolve (45_cascade.md R263) counts the symbol and appends it to HIST, where ModelAdd completes, and
stops with ModelAdd's fault where it does not. -/
theorem State.resolve_spec {s : State} (h : s.TrieOk) (sym : Sym) :
    (s.canAdd s.hist sym ∧ ∃ ms, s.resolve sym = .done () ((s.setNodes ms).setHist (ctxAppend s.cap s.hist sym)) ∧
        AddedTo s.nodes s.hist sym ms ∧ PoolOk s.par.countW ms ∧ ms.length ≤ s.par.nodeCap) ∨
      (¬ s.canAdd s.hist sym ∧ ∃ ms f, s.resolve sym = .raise f (s.setNodes ms) ∧
        ((f = .nodePoolFull ∧ s.par.nodeCap < s.nodes.length + (newPaths s.nodes s.hist sym).length) ∨
          (f = .countOverflow ∧ ∃ Y, Y <:+ s.hist ∧ 2 ^ s.par.countW - 1 ≤ pathCount s.nodes (Y ++ [sym])))) := by
  rcases s.modelAdd_spec h s.hist sym with ⟨hc, ms, h1, h2, h3, -, h4⟩ | ⟨hc, ms, f, h1, h2⟩
  · exact .inl ⟨hc, ms, by rw [State.resolve, h1]; rfl, h2, h3, h4⟩
  · exact .inr ⟨hc, ms, f, by rw [State.resolve, h1]; rfl, h2⟩

/-- A cascade whose first context leads nowhere stops before any decision (45_cascade.md R262). -/
theorem cascade_unseen {α : Type} {D : State → Res State (Option α)} {U : State → Res State α} {X : List Sym} {s : State}
    (h : pathNode s.nodes s.wctx = none) : cascade D U X s = .raise .protocol (s.setList [] true) := by
  have hr : resolveFrom s.nodes s.wctx 0 = none := h
  have hlevel : s.level = .raise .protocol (s.setList [] true) := by
    simp only [State.level, State.modelGetList, hr]
  cases X <;> (unfold cascade trieLevel; rw [hlevel]; rfl)

end Sys2Proof.Machine
end

