-- ==== Sys2Proof/Laws/CascadeStops.lean ====
section
/-! SUPPORT. Where a decoder's cascade stops (45_cascade.md R269): at ESC at the uniform level, and where the bits end inside a
decision (46_huffman.md R298). -/

namespace Sys2Proof.Machine

/-- Where the decoder's cascade `dec` along the decisions `ds` towards a goal stops: with F_PROTOCOL after the bits of a
cascade towards ESC at the uniform level, and with F_TRUNCATED where the bits of the decisions do not all remain. -/
structure Stops (g : Goal) (dec : State → Res State (Option Sym)) (ds : List (List Cand × Nat)) (d : State) : Prop where
  protocol : ∀ rest, g = .escape → d.remaining = d.bitsFor ds ++ rest → ∃ d', dec d = .raise .protocol d' ∧ DecFrame d d'
  truncated : ∀ b bs, d.bitsFor ds = d.remaining ++ b :: bs → ∃ d', dec d = .raise .truncated d' ∧ DecFrame d d'

/-- Bits that end before `p` and more do end after `p` or inside it. -/
theorem ends_inside {p more rem : List Bool} {b : Bool} {bs : List Bool} (h : p ++ more = rem ++ b :: bs) :
    (∃ rest, rem = p ++ rest ∧ more = rest ++ b :: bs) ∨ ∃ c cs, p = rem ++ c :: cs := by
  rcases List.append_eq_append_iff.1 h with ⟨a, h1, h2⟩ | ⟨c, h1, h2⟩
  · exact .inl ⟨a, h1, h2⟩
  · cases c with
    | nil => exact .inl ⟨[], by rw [h1]; simp, h2.symm⟩
    | cons c cs => exact .inr ⟨c, cs, h1⟩

/-- The last decision of a cascade, at the uniform level. -/
theorem uniform_stops {g : Goal} {d : State} {excl : List Sym} (hx : d.xset.Holds excl) :
    Stops g (fun d => decodeUniform d.modelGetUniform) [(lastList excl, g.choice (lastList excl))] d := by
  set u := d.modelGetUniform with hu
  have hl : u.cl = lastList excl := lastList_eq hx
  have hlt : g.choice (lastList excl) < u.cl.length := by rw [hl]; exact g.choice_lt (esc_mem_lastList excl)
  have hp : d.bitsFor [(lastList excl, g.choice (lastList excl))] = u.huffPath (g.choice (lastList excl)) := by
    rw [State.huffPath_eq hl, State.bitsFor_cons, State.bitsFor_nil, List.append_nil]
    exact State.pathIn_congr rfl _ _
  have hrem : u.remaining = d.remaining := rfl
  constructor
  · rintro rest rfl h
    rw [hp, ← hrem] at h
    obtain ⟨r, h1, -⟩ := State.huffDecode_path hlt h
    have hc : (u.setReader r).cand (Goal.escape.choice (lastList excl)) = some .esc := by
      rw [State.cand, State.setReader_cl, hl]
      exact (Goal.choice_esc (Goal.any_escape _) (esc_mem_lastList excl)).2.2
    exact ⟨u.setReader r, by show decodeUniform u = _; rw [decodeUniform, h1, Res.done_andThen, hc], rfl⟩
  · intro b bs h
    rw [hp, ← hrem] at h
    obtain ⟨r, h1⟩ := State.huffDecode_short hlt h
    exact ⟨u.setReader r, by show decodeUniform u = _; rw [decodeUniform, h1, Res.raise_andThen], rfl⟩

/-- One trie level of a cascade, given where its continuation after `ESC` stops. -/
theorem level_stops {g : Goal} {d : State} {X excl : List Sym} {ds' : List (List Cand × Nat)} (hX : d.wctx = X)
    (hr : (pathNode d.nodes X).isSome) (hx : d.xset.Holds excl) {nextD : State → Res State (Option Sym)}
    (hn : ∀ u, u.nodes = d.nodes → u.wctx = X → u.xset.Holds (excl ++ offeredSyms (levelList d.nodes X excl)) →
      Stops g nextD ds' u) :
    Stops g (trieLevel decodeLevel nextD) ((levelList d.nodes X excl, g.choice (levelList d.nodes X excl)) ::
      if (levelList d.nodes X excl).any g.isMet then [] else ds') d := by
  subst hX
  set l := levelList d.nodes d.wctx excl with hldef
  set v := d.setList l false with hv
  have hlevel : d.level = .done () v := level_eq hx hr
  have hesc : Cand.esc ∈ l := esc_mem_levelList d.nodes d.wctx excl
  have hlt : g.choice l < v.cl.length := g.choice_lt hesc
  have hp : d.pathIn l (g.choice l) = v.huffPath (g.choice l) := by
    rw [State.huffPath_eq (s := v) rfl]; exact State.pathIn_congr rfl _ _
  have hrem : v.remaining = d.remaining := rfl
  -- after a decision that is ESC the cascade goes on where the rest of the bits begins
  have hgo : ∀ rest, l.any g.isMet = false → d.remaining = v.huffPath (g.choice l) ++ rest →
      ∃ u, trieLevel decodeLevel nextD d = nextD u ∧ DecFrame d u ∧ u.remaining = rest ∧ Stops g nextD ds' u ∧
        u.nodes = d.nodes := by
    intro rest hany h
    rw [← hrem] at h
    obtain ⟨r, h1, h2⟩ := State.huffDecode_path hlt h
    have hc : (v.setReader r).cand (g.choice l) = some .esc := (Goal.choice_esc hany hesc).2.2
    have hx' : ((v.setReader r).excludeAll).xset.Holds (excl ++ offeredSyms l) :=
      XSet.Holds.excludeCands (x := d.xset) hx l
    have hd : decodeLevel v = .done none (v.setReader r) := by rw [decodeLevel, h1, Res.done_andThen, hc]
    refine ⟨(v.setReader r).excludeAll, ?_, rfl, h2.rest h, hn _ rfl rfl hx', rfl⟩
    rw [trieLevel, hlevel, Res.done_andThen, hd, Res.done_andThen]
  constructor
  · rintro rest rfl h
    have hany := Goal.any_escape l
    rw [hany, if_neg (by decide), State.bitsFor_cons, hp, List.append_assoc] at h
    obtain ⟨u, u1, u2, u3, u4, u5⟩ := hgo _ hany h
    obtain ⟨d', k1, k2⟩ := u4.protocol rest rfl (by rw [u3, State.bitsFor_congr u5])
    exact ⟨d', u1.trans k1, u2.trans k2⟩
  · intro b bs h
    rw [State.bitsFor_cons, hp] at h
    rcases ends_inside h with ⟨rest, h1, h2⟩ | ⟨c, cs, h1⟩
    · cases hany : l.any g.isMet with
      | true =>
        rw [hany, if_pos rfl, State.bitsFor_nil] at h2
        exact absurd h2.symm (by simp)
      | false =>
        rw [hany, if_neg (by decide)] at h2
        obtain ⟨u, u1, u2, u3, u4, u5⟩ := hgo _ hany h1
        obtain ⟨d', k1, k2⟩ := u4.truncated b bs (by rw [u3, State.bitsFor_congr u5, h2])
        exact ⟨d', u1.trans k1, u2.trans k2⟩
    · rw [← hrem] at h1
      obtain ⟨r, k1⟩ := State.huffDecode_short hlt h1
      refine ⟨v.setReader r, ?_, rfl⟩
      rw [trieLevel, hlevel, Res.done_andThen, decodeLevel, k1, Res.raise_andThen, Res.raise_andThen]

/-- Where a decoder's cascade stops (45_cascade.md R269). -/
theorem cascade_stops (g : Goal) : ∀ (X : List Sym) {d : State} {excl : List Sym}, d.wctx = X → suffixesResolve d.nodes X →
    d.xset.Holds excl → Stops g (cascade decodeLevel decodeUniform X) (decisionsFrom d.nodes g X excl) d
  | [], d, excl, hX, hs, hx => by
    rw [cascade_nil, decisionsFrom_nil]
    exact level_stops hX (hs [] (List.suffix_refl _)) hx fun u _ _ hux => uniform_stops hux
  | x :: X, d, excl, hX, hs, hx => by
    rw [cascade_cons, decisionsFrom_cons]
    refine level_stops hX (hs _ (List.suffix_refl _)) hx fun u hun huc hux => ?_
    set v := u.setWctx (ctxDrop u.wctx) with hv
    have hc : v.wctx = X := by
      show u.wctx.drop 1 = X
      rw [huc]; rfl
    have hvn : v.nodes = d.nodes := hun
    have S := cascade_stops g X (d := v) hc (by rw [hvn]; exact suffixesResolve_tail hs) hux
    rw [hvn] at S
    have hb : v.bitsFor (decisionsFrom d.nodes g X (excl ++ offeredSyms (levelList d.nodes (x :: X) excl))) =
        u.bitsFor (decisionsFrom d.nodes g X (excl ++ offeredSyms (levelList d.nodes (x :: X) excl))) :=
      State.bitsFor_congr rfl _
    refine ⟨fun rest hg h => ?_, fun b bs h => ?_⟩
    · obtain ⟨d', k1, k2⟩ := S.protocol rest hg (by rw [hb]; exact h)
      exact ⟨d', k1, DecFrame.trans (t := v) rfl k2⟩
    · obtain ⟨d', k1, k2⟩ := S.truncated b bs (by rw [hb]; exact h)
      exact ⟨d', k1, DecFrame.trans (t := v) rfl k2⟩

end Sys2Proof.Machine
end

