-- ==== Sys2Proof/Laws/Micro.lean ====
section
/-! SUPPORT. Said once, what a command can do to the block (`exec_runs`, `Ends`): a sequence of small updates (`Micro`), then
its response, a read that found too few bits, or a fault. Every invariant is proved over the small updates and holds of
every command. -/

namespace Sys2Proof.Machine

/-- One small update of the block by a command in phase READY. -/
inductive Micro : State → State → Prop where
  | take (s : State) (k : Nat) (hd : s.dir = .dec) (hk : k ≤ maxBits) (h : k ≤ (s.fill k).rbuf.length) :
      Micro s ((s.fill k).consume k)
  | look (s : State) (k : Nat) (hd : s.dir = .dec) (hk : k ≤ 8) (h : (s.fill k).rbuf.length < k) : Micro s (s.fill k)
  | consume (s : State) (k : Nat) (hd : s.dir = .dec) : Micro s (s.consume k)
  | skip (s : State) (k : Nat) (hd : s.dir = .dec) : Micro s (s.setReader (s.reader.skip s.src k).2)
  | setMark (s : State) (limit : Wide) (hd : s.dir = .dec) : Micro s (s.setMark limit)
  | rewind (s : State) (mk : Mark) (hd : s.dir = .dec) (hm : s.mark = some mk) :
      Micro s (s.setReader ⟨mk.rbuf, mk.spos⟩)
  | eos (s : State) (hd : s.dir = .dec) : Micro s s.setEosSeen
  | put (s : State) (bs : List Bool) (hd : s.dir = .enc) : Micro s (s.put bs)
  | discard (s : State) (hd : s.dir = .enc) : Micro s s.discard
  | append (s : State) (c : Sel) (sym : Sym) : Micro s (s.setCtx c (ctxAppend s.cap (s.ctx c) sym))
  | drop (s : State) (c : Sel) : Micro s (s.setCtx c (ctxDrop (s.ctx c)))
  | clone (s : State) : Micro s (s.setWctx s.hist)
  | exclude (s : State) (sym : Sym) : Micro s (s.setXset (s.xset.exclude sym))
  | clear (s : State) : Micro s (s.setXset s.xset.clear)
  | add (s : State) (X : List Sym) (sym : Sym) :
      Micro s (s.setNodes (poolAdd s.par.nodeCap s.par.countW X sym s.nodes).state)
  | nullList (s : State) : Micro s (s.setList [] true)
  | trieList (s : State) (X : List Sym) (p : Nat) (hp : resolveFrom s.nodes X 0 = some p) :
      Micro s (s.setList (trieList s.nodes s.xset p) false)
  | uniformList (s : State) : Micro s s.modelGetUniform

/-- A sequence of small updates. -/
abbrev Micros := Relation.ReflTransGen Micro

theorem Micros.one {s t : State} (h : Micro s t) : Micros s t := .single h

/-- What no small update changes. -/
theorem Micro.kept {s t : State} (h : Micro s t) :
    t.par = s.par ∧ t.phase = s.phase ∧ t.dir = s.dir ∧ t.maxOrder = s.maxOrder ∧ t.fcode = s.fcode ∧ t.fcmd = s.fcmd ∧
      t.src = s.src ∧ t.rsps = s.rsps ∧ t.host = s.host ∧ t.free = s.free ∧ t.nextSrc = s.nextSrc := by
  cases h <;> (try (rename_i c; cases c)) <;> (try (rename_i c _; cases c)) <;>
    exact ⟨rfl, rfl, rfl, rfl, rfl, rfl, rfl, rfl, rfl, rfl, rfl⟩

theorem Micros.kept {s t : State} (h : Micros s t) :
    t.par = s.par ∧ t.phase = s.phase ∧ t.dir = s.dir ∧ t.maxOrder = s.maxOrder ∧ t.fcode = s.fcode ∧ t.fcmd = s.fcmd ∧
      t.src = s.src ∧ t.rsps = s.rsps ∧ t.host = s.host ∧ t.free = s.free ∧ t.nextSrc = s.nextSrc := by
  induction h with
  | refl => exact ⟨rfl, rfl, rfl, rfl, rfl, rfl, rfl, rfl, rfl, rfl, rfl⟩
  | tail _ h ih => obtain ⟨h1, h2, h3, h4, h5, h6, h7, h8, h9, h10, h11⟩ := h.kept; simp_all

theorem Micros.phase_eq {s t : State} (h : Micros s t) : t.phase = s.phase := h.kept.2.1
theorem Micros.dir_eq {s t : State} (h : Micros s t) : t.dir = s.dir := h.kept.2.2.1

/-- A property every small update keeps holds after any sequence of them. -/
theorem Micros.keeps {P : State → Prop} (hP : ∀ s t, P s → Micro s t → P t) {s t : State} (h : Micros s t) (hs : P s) :
    P t := by
  induction h with
  | refl => exact hs
  | tail _ h ih => exact hP _ _ ih h

/-- An internal function that got to where it ended by small updates from `s`, and raises faults of `F` only. -/
def Res.Via {α : Type} (F : List FaultKind) (s : State) (x : Res State α) : Prop :=
  Micros s x.state ∧ ∀ f u, x = .raise f u → f ∈ F

theorem Res.Via.andThen {α β : Type} {F : List FaultKind} {s : State} {x : Res State α} {k : α → State → Res State β}
    (hx : x.Via F s) (hk : ∀ a t, x = .done a t → Micros s t → (k a t).Via F t) : (x.andThen k).Via F s := by
  cases x with
  | done a t =>
    obtain ⟨h1, h2⟩ := hk a t rfl hx.1
    exact ⟨Relation.ReflTransGen.trans hx.1 h1, h2⟩
  | raise f t => exact ⟨hx.1, fun g u h => by cases h; exact hx.2 f t rfl⟩

theorem Res.Via.done {α : Type} {F : List FaultKind} (a : α) {s t : State} (h : Micros s t) : (Res.done a t).Via F s :=
  ⟨h, fun _ _ h => by cases h⟩

theorem Res.Via.raise {α : Type} {F : List FaultKind} {f : FaultKind} (hf : f ∈ F) {s t : State} (h : Micros s t) :
    (Res.raise f t : Res State α).Via F s :=
  ⟨h, fun _ _ h => by cases h; exact hf⟩

theorem Res.Via.mono {α : Type} {F G : List FaultKind} {s : State} {x : Res State α} (h : x.Via F s)
    (hFG : ∀ f ∈ F, f ∈ G) : x.Via G s := ⟨h.1, fun f u hx => hFG f (h.2 f u hx)⟩

theorem Res.Via.after {α : Type} {F : List FaultKind} {s t : State} {x : Res State α} (h : x.Via F t) (ht : Micros s t) :
    x.Via F s := ⟨Relation.ReflTransGen.trans ht h.1, h.2⟩

/-! ## The internal functions -/

theorem putBits_via (s : State) (x k : Nat) (hd : s.dir = .enc) : Micros s (s.putBits x k) := Micros.one (.put s _ hd)

theorem padZero_via (s : State) (hd : s.dir = .enc) : Micros s s.padZero := Micros.one (.put s _ hd)

theorem excludeCands_via (s : State) (l : List Cand) : Micros s (s.setXset (s.xset.excludeCands l)) := by
  induction l generalizing s with
  | nil => exact .refl
  | cons e l ih =>
    cases e with
    | sym t q => exact Relation.ReflTransGen.trans (Micros.one (.exclude s t)) (ih (s.setXset (s.xset.exclude t)))
    | esc => exact ih s
    | eos => exact ih s

theorem excludeAll_via (s : State) : Micros s s.excludeAll := excludeCands_via s s.cl

theorem modelGetList_via (s : State) (X : List Sym) : Micros s (s.modelGetList X).2 := by
  unfold State.modelGetList
  split
  · exact Micros.one (.nullList s)
  · next p hp => exact Micros.one (.trieList s X p hp)

/-- A list fetched by a cascade's level is not empty (44_model.md R224). -/
theorem level_via (s : State) : s.level.Via [.protocol] s ∧ ∀ a t, s.level = .done a t → t.cl ≠ [] := by
  have h := modelGetList_via s s.wctx
  unfold State.level
  split
  · next u he =>
    rw [he] at h
    refine ⟨.done _ h, fun a t ht => ?_⟩
    cases ht
    unfold State.modelGetList at he
    split at he <;> cases he
    simp [State.setList, Machine.trieList]
  · next u he => rw [he] at h; exact ⟨.raise (by simp) h, fun a t ht => by cases ht⟩

/-- The faults of an internal function. -/
def Res.Raises {σ α : Type} (F : List FaultKind) (x : Res σ α) : Prop := ∀ f u, x = .raise f u → f ∈ F

theorem Res.Raises.andThen {σ α β : Type} {F : List FaultKind} {x : Res σ α} {k : α → σ → Res σ β} (hx : x.Raises F)
    (hk : ∀ a t, (k a t).Raises F) : (x.andThen k).Raises F := by
  cases x with
  | done a t => exact hk a t
  | raise f t => exact fun g u h => by cases h; exact hx f t rfl

/-- The faults of ModelAdd (44_model.md R221, R222). -/
theorem poolAdd_raises (cap w : Nat) (X : List Sym) (sym : Sym) (ns : List Node) :
    (poolAdd cap w X sym ns).Raises [.nodePoolFull, .countOverflow] := by
  have hnew : ∀ p sym ns, (childOrNew cap p sym ns).Raises [.nodePoolFull, .countOverflow] := by
    intro p sym ns f u h
    unfold childOrNew newNode at h
    split at h
    · cases h
    · split at h <;> cases h; simp
  have hwalk : ∀ xs p ns, (walkAdd cap xs p ns).Raises [.nodePoolFull, .countOverflow] := by
    intro xs
    induction xs with
    | nil => intro p ns f u h; cases h
    | cons x xs ih => intro p ns; exact (hnew p x ns).andThen fun q ms => ih q ms
  have hbump : ∀ q ns, (bumpCount w q ns).Raises [.nodePoolFull, .countOverflow] := by
    intro q ns f u h
    unfold bumpCount at h
    split at h <;> cases h
    simp
  have hloop : ∀ js ns, (addLengths cap w X sym js ns).Raises [.nodePoolFull, .countOverflow] := by
    intro js
    induction js with
    | nil => intro ns f u h; cases h
    | cons j js ih =>
      intro ns
      exact ((hwalk _ _ _).andThen fun p ms => (hnew p sym ms).andThen fun q ls => hbump q ls).andThen fun _ ms => ih ms
  exact hloop _ ns

theorem modelAdd_via (s : State) (X : List Sym) (sym : Sym) : (s.modelAdd X sym).Via [.nodePoolFull, .countOverflow] s := by
  refine ⟨?_, ?_⟩
  · unfold State.modelAdd
    rw [Res.lift_state]
    exact Micros.one (.add s X sym)
  · intro f u h
    have hr := poolAdd_raises s.par.nodeCap s.par.countW X sym s.nodes
    unfold State.modelAdd at h
    cases hx : poolAdd s.par.nodeCap s.par.countW X sym s.nodes with
    | done a ms => rw [hx] at h; cases h
    | raise g ms => rw [hx] at h; cases h; exact hr f ms hx

theorem resolve_via (s : State) (sym : Sym) : (s.resolve sym).Via [.nodePoolFull, .countOverflow] s :=
  (modelAdd_via s s.hist sym).andThen fun _ t _ _ => .done _ (Micros.one (.append t .hist sym))

theorem huffEncode_via (s : State) (i : Nat) (hd : s.dir = .enc) : Micros s (s.huffEncode i) := Micros.one (.put s _ hd)

theorem walk_via (tr : HTree) (s : State) (hd : s.dir = .dec) : (tr.walk s).Via [.truncated] s := by
  induction tr generalizing s with
  | leaf i => exact .done _ .refl
  | node l r ihl ihr =>
    unfold HTree.walk
    dsimp only
    split
    · next h => exact .raise (by simp) (Micros.one (.look s 1 hd (by decide) (by rw [h]; decide)))
    · next b bs h =>
      have hc : Micros s ((s.fill 1).consume 1) := Micros.one (.take s 1 hd (by decide) (by rw [h]; simp))
      cases b
      · exact (ihl ((s.fill 1).consume 1) hd).after hc
      · exact (ihr ((s.fill 1).consume 1) hd).after hc

theorem huffDecode_via (s : State) (hd : s.dir = .dec) (hc : s.cl ≠ []) : s.huffDecode.Via [.truncated] s := by
  obtain ⟨t, ht, -⟩ := State.huffTree_spec hc
  rw [State.huffDecode, ht]
  exact walk_via t s hd

theorem cascadeStart_via (s : State) : Micros s s.cascadeStart := (Micros.one (.clear s)).tail (.clone _)

theorem trieLevel_via {α : Type} {F : List FaultKind} {D : State → Res State (Option α)} {N : State → Res State α} (d : Dir)
    (hF : .protocol ∈ F) (hD : ∀ s, s.dir = d → s.cl ≠ [] → (D s).Via F s) (hN : ∀ s, s.dir = d → (N s).Via F s) (s : State)
    (hd : s.dir = d) : (trieLevel D N s).Via F s := by
  obtain ⟨hl, hc⟩ := level_via s
  refine (hl.mono (by simpa using hF)).andThen fun a t hx ht => ?_
  have htd : t.dir = d := ht.dir_eq.trans hd
  refine (hD t htd (hc a t hx)).andThen fun a u _ hu => ?_
  cases a with
  | some a => exact .done _ .refl
  | none => exact (hN _ (((excludeAll_via u).dir_eq.trans hu.dir_eq).trans htd)).after (excludeAll_via u)

theorem cascade_via {α : Type} {F : List FaultKind} {D : State → Res State (Option α)} {U : State → Res State α} (d : Dir)
    (hF : .protocol ∈ F) (hD : ∀ s, s.dir = d → s.cl ≠ [] → (D s).Via F s)
    (hU : ∀ s, s.dir = d → s.cl ≠ [] → (U s).Via F s) (X : List Sym) (s : State) (hd : s.dir = d) :
    (cascade D U X s).Via F s := by
  induction X generalizing s with
  | nil =>
    refine trieLevel_via d hF hD (fun s hs => ?_) s hd
    refine (hU s.modelGetUniform hs ?_).after (Micros.one (.uniformList s))
    simp [State.modelGetUniform, State.setList, Machine.uniformList]
  | cons x X ih =>
    exact trieLevel_via d hF hD (fun s hs => (ih (s.setWctx (ctxDrop s.wctx)) hs).after (Micros.one (.drop s .work))) s hd

theorem encodeEsc_via (s : State) (hd : s.dir = .enc) : s.encodeEsc.Via [.protocol] s := by
  unfold State.encodeEsc
  split
  · exact .done _ (huffEncode_via s _ hd)
  · exact .raise (by simp) .refl

theorem encodeSym_via (sym : Sym) (s : State) (hd : s.dir = .enc) : (encodeSym sym s).Via [.protocol] s := by
  unfold encodeSym
  split
  · exact .done _ (huffEncode_via s _ hd)
  · exact (encodeEsc_via s hd).andThen fun _ _ _ _ => .done _ .refl

theorem encodeSymUniform_via (sym : Sym) (s : State) (hd : s.dir = .enc) : (encodeSymUniform sym s).Via [.protocol] s := by
  unfold encodeSymUniform
  split
  · exact .done _ (huffEncode_via s _ hd)
  · exact .raise (by simp) .refl

theorem encodeEnd_via (s : State) (hd : s.dir = .enc) : (encodeEnd s).Via [.protocol] s :=
  (encodeEsc_via s hd).andThen fun _ _ _ _ => .done _ .refl

theorem encodeEndUniform_via (s : State) (hd : s.dir = .enc) : (encodeEndUniform s).Via [.protocol] s := by
  unfold encodeEndUniform
  split
  · exact .done _ (huffEncode_via s _ hd)
  · exact .raise (by simp) .refl

theorem decodeLevel_via (s : State) (hd : s.dir = .dec) (hc : s.cl ≠ []) :
    (decodeLevel s).Via [.protocol, .truncated] s := by
  refine ((huffDecode_via s hd hc).mono (by simp)).andThen fun i t _ _ => ?_
  split <;> exact .done _ .refl

theorem decodeUniform_via (s : State) (hd : s.dir = .dec) (hc : s.cl ≠ []) :
    (decodeUniform s).Via [.protocol, .truncated] s := by
  refine ((huffDecode_via s hd hc).mono (by simp)).andThen fun i t _ _ => ?_
  split
  · exact .done _ .refl
  · exact .done _ .refl
  · exact .raise (by simp) .refl
  · exact .raise (by simp) .refl

/-! ## The commands -/

/-- What a command that completes does last: the sink's events and the phase of a command that flushes or closes. -/
def atEnd (i : Instr) (u : State) : State :=
  match i with
  | .bwFlush | .bwPadFlush => u.sinkFlush
  | .bwClose | .encClose => u.sinkFlush.sinkClose.setPhase .closed
  | .decClose => u.setPhase .closed
  | _ => u

/-- All that a command in phase READY and in its direction can come to. -/
inductive Ends (i : Instr) (s : State) : State → Prop where
  /-- It completed with a response, OK or a status. -/
  | done (rsp : Response) (u : State) (hu : Micros s u) (h : rsp.st = .ok ∨
      (rsp.st ∈ [Status.endOfStream, .notFound] ∧ i ≠ .bwClose ∧ i ≠ .encClose ∧ i ≠ .decClose)) :
      Ends i s ((atEnd i u).respond rsp)
  /-- A read found too few bits (40_bit_reader.md R123). -/
  | short (k : Nat) (hd : s.dir = .dec) (hk : k ≤ maxBits) (h : (s.fill k).rbuf.length < k)
      (hi : i ≠ .bwClose ∧ i ≠ .encClose ∧ i ≠ .decClose) :
      Ends i s ((s.fill k).respond ⟨.endOfData, BitVec.ofNat 8 (s.fill k).rbuf.length, 0⟩)
  /-- It raised a fault. -/
  | fault (f : FaultKind) (u : State) (hu : Micros s u) (hf : f ∈ causesOf i)
      (h : f ∈ [FaultKind.outOfRange, .illegalState, .illegalCmd] → u = s) : Ends i s (u.takeFault f i.opcode)

/-- The command has a next state, and it is one of those. -/
def Runs (i : Instr) (s : State) : Prop := ∃ t, exec i s = .next t ∧ Ends i s t

theorem Runs.of {i : Instr} {s : State} {body : State → Res State Response} (hp : s.phase = .ready)
    (hd : i.dirNeed.allows s.dir = true) (h : Ends i s ((body s).finish i.opcode)) :
    ∃ t, command i s body = .next t ∧ Ends i s t := ⟨_, command_run body hp hd, h⟩

theorem Ends.ok {i : Instr} {s u : State} (hi : atEnd i u = u) (cnt : BitVec 8) (r : Wide) (hu : Micros s u) :
    Ends i s (u.respond ⟨.ok, cnt, r⟩) := by
  have := Ends.done (i := i) ⟨.ok, cnt, r⟩ u hu (.inl rfl)
  rwa [hi] at this

theorem Ends.answer {i : Instr} {s u : State} (hi : atEnd i u = u) (rsp : Response) (hu : Micros s u)
    (h : rsp.st = .ok ∨ (rsp.st ∈ [Status.endOfStream, .notFound] ∧ i ≠ .bwClose ∧ i ≠ .encClose ∧ i ≠ .decClose)) :
    Ends i s (u.respond rsp) := by
  have := Ends.done (i := i) rsp u hu h
  rwa [hi] at this

/-- A check at the top of a command. -/
theorem Ends.check {i : Instr} {s : State} {f : FaultKind} (hf : f ∈ causesOf i) : Ends i s (s.takeFault f i.opcode) :=
  .fault f s .refl hf fun _ => rfl

/-- A command made of internal functions. -/
theorem Ends.via {i : Instr} {s : State} {x : Res State Response} {F : List FaultKind} (hx : x.Via F s)
    (hF : ∀ f ∈ F, f ∈ causesOf i ∧ f ∉ [FaultKind.outOfRange, .illegalState, .illegalCmd]) (hi : ∀ u, atEnd i u = u)
    (hr : ∀ rsp u, x = .done rsp u → rsp.st = .ok ∨
      (rsp.st ∈ [Status.endOfStream, .notFound] ∧ i ≠ .bwClose ∧ i ≠ .encClose ∧ i ≠ .decClose)) :
    Ends i s (x.finish i.opcode) := by
  cases x with
  | done rsp u => exact .answer (hi u) rsp hx.1 (hr rsp u rfl)
  | raise f u => exact .fault f u hx.1 (hF f (hx.2 f u rfl)).1 fun h => absurd h (hF f (hx.2 f u rfl)).2

theorem readBits_ends {i : Instr} {s : State} (hi : atEnd i = fun u => u) (hn : i ≠ .bwClose ∧ i ≠ .encClose ∧ i ≠ .decClose)
    (k : Nat) (f : Nat → Wide) (hd : s.dir = .dec) (hk : k ≤ maxBits) : Ends i s ((readBits k f s).finish i.opcode) := by
  unfold readBits
  dsimp only
  split
  · next h => exact .short k hd hk h hn
  · next h => exact .ok (by rw [hi]) _ _ (Micros.one (.take s k hd hk (Nat.le_of_not_lt h)))

theorem allows_dec {s : State} (hd : s.dir = .dec) : (DirNeed.only .dec).allows s.dir = true := by rw [hd]; rfl
theorem allows_enc {s : State} (hd : s.dir = .enc) : (DirNeed.only .enc).allows s.dir = true := by rw [hd]; rfl

theorem foundAt_st {P : Prop} (i : Option Nat) (h : P) :
    (foundAt i).st = .ok ∨ ((foundAt i).st ∈ [Status.endOfStream, .notFound] ∧ P) := by
  cases i with
  | none => exact .inr ⟨by simp [foundAt], h⟩
  | some i => exact .inl rfl

variable {s : State} (hp : s.phase = .ready)
include hp

theorem brReadU_runs (n : BitVec 8) (hd : s.dir = .dec) : Runs (.brReadU n) s := by
  dsimp only [Runs, exec, execBrReadU]
  refine Runs.of hp (allows_dec hd) ?_
  split
  · exact .check (by simp [causesOf])
  · exact readBits_ends rfl (by simp) _ _ hd (by omega)

theorem brReadS_runs (n : BitVec 8) (hd : s.dir = .dec) : Runs (.brReadS n) s := by
  dsimp only [Runs, exec, execBrReadS]
  refine Runs.of hp (allows_dec hd) ?_
  split
  · exact .check (by simp [causesOf])
  · exact readBits_ends rfl (by simp) _ _ hd (by omega)

theorem brReadBit_runs (hd : s.dir = .dec) : Runs (.brReadBit) s := by
  dsimp only [Runs, exec, execBrReadBit]
  refine Runs.of hp (allows_dec hd) ?_
  exact readBits_ends rfl (by simp) _ _ hd (by decide)

theorem brReadU8_runs (hd : s.dir = .dec) : Runs (.brReadU8) s := by
  dsimp only [Runs, exec, execBrReadU8]
  refine Runs.of hp (allows_dec hd) ?_
  exact readBits_ends rfl (by simp) _ _ hd (by decide)

theorem brReadS8_runs (hd : s.dir = .dec) : Runs (.brReadS8) s := by
  dsimp only [Runs, exec, execBrReadS8]
  refine Runs.of hp (allows_dec hd) ?_
  exact readBits_ends rfl (by simp) _ _ hd (by decide)

theorem brReadU16BE_runs (hd : s.dir = .dec) : Runs (.brReadU16BE) s := by
  dsimp only [Runs, exec, execBrReadU16BE]
  refine Runs.of hp (allows_dec hd) ?_
  exact readBits_ends rfl (by simp) _ _ hd (by decide)

theorem brReadU16LE_runs (hd : s.dir = .dec) : Runs (.brReadU16LE) s := by
  dsimp only [Runs, exec, execBrReadU16LE]
  refine Runs.of hp (allows_dec hd) ?_
  exact readBits_ends rfl (by simp) _ _ hd (by decide)

theorem brReadS16BE_runs (hd : s.dir = .dec) : Runs (.brReadS16BE) s := by
  dsimp only [Runs, exec, execBrReadS16BE]
  refine Runs.of hp (allows_dec hd) ?_
  exact readBits_ends rfl (by simp) _ _ hd (by decide)

theorem brReadS16LE_runs (hd : s.dir = .dec) : Runs (.brReadS16LE) s := by
  dsimp only [Runs, exec, execBrReadS16LE]
  refine Runs.of hp (allows_dec hd) ?_
  exact readBits_ends rfl (by simp) _ _ hd (by decide)

theorem brReadU32BE_runs (hd : s.dir = .dec) : Runs (.brReadU32BE) s := by
  dsimp only [Runs, exec, execBrReadU32BE]
  refine Runs.of hp (allows_dec hd) ?_
  exact readBits_ends rfl (by simp) _ _ hd (by decide)

theorem brReadU32LE_runs (hd : s.dir = .dec) : Runs (.brReadU32LE) s := by
  dsimp only [Runs, exec, execBrReadU32LE]
  refine Runs.of hp (allows_dec hd) ?_
  exact readBits_ends rfl (by simp) _ _ hd (by decide)

theorem brReadS32BE_runs (hd : s.dir = .dec) : Runs (.brReadS32BE) s := by
  dsimp only [Runs, exec, execBrReadS32BE]
  refine Runs.of hp (allows_dec hd) ?_
  exact readBits_ends rfl (by simp) _ _ hd (by decide)

theorem brReadS32LE_runs (hd : s.dir = .dec) : Runs (.brReadS32LE) s := by
  dsimp only [Runs, exec, execBrReadS32LE]
  refine Runs.of hp (allows_dec hd) ?_
  exact readBits_ends rfl (by simp) _ _ hd (by decide)

theorem brAlign_runs (hd : s.dir = .dec) : Runs (.brAlign) s := by
  dsimp only [Runs, exec, execBrAlign]
  refine Runs.of hp (allows_dec hd) ?_
  exact .ok rfl _ _ (Micros.one (.consume s _ hd))

theorem brCount_runs (hd : s.dir = .dec) : Runs (.brCount) s := by
  dsimp only [Runs, exec, execBrCount]
  refine Runs.of hp (allows_dec hd) ?_
  exact .ok rfl _ _ .refl

theorem brSkip_runs (k : Wide) (hd : s.dir = .dec) : Runs (.brSkip k) s := by
  dsimp only [Runs, exec, execBrSkip]
  refine Runs.of hp (allows_dec hd) ?_
  exact .ok rfl _ _ (Micros.one (.skip s _ hd))

theorem brReadByte_runs (hd : s.dir = .dec) : Runs (.brReadByte) s := by
  dsimp only [Runs, exec, execBrReadByte]
  refine Runs.of hp (allows_dec hd) ?_
  have hl : (s.fill 8).rcnt = (s.fill 8).rbuf.length := rfl
  split
  · next h =>
    have := Ends.short (i := .brReadByte) 8 hd (by decide) (show (s.fill 8).rbuf.length < 8 by omega) (by simp)
    rw [show (s.fill 8).rbuf.length = 0 from h] at this
    exact this
  · next h =>
    by_cases h8 : 8 ≤ (s.fill 8).rbuf.length
    · rw [show min 8 (s.fill 8).rcnt = 8 by omega]
      exact .ok rfl _ _ (Micros.one (.take s 8 hd (by decide) h8))
    · exact .ok rfl _ _ ((Micros.one (.look s 8 hd (by decide) (by omega))).tail (.consume _ _ hd))

theorem brMark_runs (l : Wide) (hd : s.dir = .dec) : Runs (.brMark l) s := by
  dsimp only [Runs, exec, execBrMark]
  refine Runs.of hp (allows_dec hd) ?_
  exact .ok rfl _ _ (Micros.one (.setMark s l hd))

theorem brReset_runs (hd : s.dir = .dec) : Runs (.brReset) s := by
  dsimp only [Runs, exec, execBrReset]
  refine Runs.of hp (allows_dec hd) ?_
  split
  · exact .check (by simp [causesOf])
  · next mk hm =>
    split
    · exact .check (by simp [causesOf])
    · exact .ok rfl _ _ (Micros.one (.rewind s mk hd hm))

theorem brIsAligned_runs (hd : s.dir = .dec) : Runs (.brIsAligned) s := by
  dsimp only [Runs, exec, execBrIsAligned]
  refine Runs.of hp (allows_dec hd) ?_
  exact .ok rfl _ _ .refl

theorem bwWriteBits_runs (n : BitVec 8) (v : Wide) (hd : s.dir = .enc) : Runs (.bwWriteBits n v) s := by
  dsimp only [Runs, exec, execBwWriteBits]
  refine Runs.of hp (allows_enc hd) ?_
  split
  · exact .check (by simp [causesOf])
  · exact .ok rfl _ _ (Micros.one (.put s _ hd))

theorem bwWriteBit_runs (v : Wide) (hd : s.dir = .enc) : Runs (.bwWriteBit v) s := by
  dsimp only [Runs, exec, execBwWriteBit]
  refine Runs.of hp (allows_enc hd) ?_
  exact .ok rfl _ _ (Micros.one (.put s _ hd))

theorem bwWrite8_runs (v : Wide) (hd : s.dir = .enc) : Runs (.bwWrite8 v) s := by
  dsimp only [Runs, exec, execBwWrite8]
  refine Runs.of hp (allows_enc hd) ?_
  exact .ok rfl _ _ (putBits_via s _ _ hd)

theorem bwWrite16BE_runs (v : Wide) (hd : s.dir = .enc) : Runs (.bwWrite16BE v) s := by
  dsimp only [Runs, exec, execBwWrite16BE]
  refine Runs.of hp (allows_enc hd) ?_
  exact .ok rfl _ _ (putBits_via s _ _ hd)

theorem bwWrite32BE_runs (v : Wide) (hd : s.dir = .enc) : Runs (.bwWrite32BE v) s := by
  dsimp only [Runs, exec, execBwWrite32BE]
  refine Runs.of hp (allows_enc hd) ?_
  exact .ok rfl _ _ (putBits_via s _ _ hd)

theorem bwWrite16LE_runs (v : Wide) (hd : s.dir = .enc) : Runs (.bwWrite16LE v) s := by
  dsimp only [Runs, exec, execBwWrite16LE]
  refine Runs.of hp (allows_enc hd) ?_
  exact .ok rfl _ _ ((putBits_via s _ _ hd).trans (putBits_via _ _ _ (by simpa using hd)))

theorem bwWrite32LE_runs (v : Wide) (hd : s.dir = .enc) : Runs (.bwWrite32LE v) s := by
  dsimp only [Runs, exec, execBwWrite32LE]
  refine Runs.of hp (allows_enc hd) ?_
  exact .ok rfl _ _ ((((putBits_via s _ _ hd).trans (putBits_via _ _ _ (by simpa using hd))).trans
    (putBits_via _ _ _ (by simpa using hd))).trans (putBits_via _ _ _ (by simpa using hd)))

theorem bwPad_runs (hd : s.dir = .enc) : Runs (.bwPad) s := by
  dsimp only [Runs, exec, execBwPad]
  refine Runs.of hp (allows_enc hd) ?_
  exact .ok rfl _ _ (padZero_via s hd)

theorem bwDiscard_runs (hd : s.dir = .enc) : Runs (.bwDiscard) s := by
  dsimp only [Runs, exec, execBwDiscard]
  refine Runs.of hp (allows_enc hd) ?_
  exact .ok rfl _ _ (Micros.one (.discard s hd))

theorem bwFlush_runs (hd : s.dir = .enc) : Runs (.bwFlush) s := by
  dsimp only [Runs, exec, execBwFlush]
  refine Runs.of hp (allows_enc hd) ?_
  split
  · exact .check (by simp [causesOf])
  · exact .done _ s .refl (.inl rfl)

theorem bwPadFlush_runs (hd : s.dir = .enc) : Runs (.bwPadFlush) s := by
  dsimp only [Runs, exec, execBwPadFlush]
  refine Runs.of hp (allows_enc hd) ?_
  exact .done _ s.padZero (padZero_via s hd) (.inl rfl)

theorem bwClose_runs (hd : s.dir = .enc) : Runs (.bwClose) s := by
  dsimp only [Runs, exec, execBwClose]
  refine Runs.of hp (allows_enc hd) ?_
  exact .done _ s.padZero (padZero_via s hd) (.inl rfl)

theorem bwIsAligned_runs (hd : s.dir = .enc) : Runs (.bwIsAligned) s := by
  dsimp only [Runs, exec, execBwIsAligned]
  refine Runs.of hp (allows_enc hd) ?_
  exact .ok rfl _ _ .refl

theorem cxOrder_runs (c : Sel) : Runs (.cxOrder c) s := by
  dsimp only [Runs, exec, execCxOrder]
  refine Runs.of hp rfl ?_
  exact .ok rfl _ _ .refl

theorem cxDrop_runs (c : Sel) : Runs (.cxDrop c) s := by
  dsimp only [Runs, exec, execCxDrop]
  refine Runs.of hp rfl ?_
  split
  · exact .check (by simp [causesOf])
  · exact .ok rfl _ _ (Micros.one (.drop s c))

theorem cxAppend_runs (c : Sel) (sym : Sym) : Runs (.cxAppend c sym) s := by
  dsimp only [Runs, exec, execCxAppend]
  refine Runs.of hp rfl ?_
  exact .ok rfl _ _ (Micros.one (.append s c sym))

theorem cxGetAt_runs (c : Sel) (k : Wide) : Runs (.cxGetAt c k) s := by
  dsimp only [Runs, exec, execCxGetAt]
  refine Runs.of hp rfl ?_
  split
  · exact .check (by simp [causesOf])
  · exact .ok rfl _ _ .refl

theorem cxClone_runs : Runs (.cxClone) s := by
  dsimp only [Runs, exec, execCxClone]
  refine Runs.of hp rfl ?_
  exact .ok rfl _ _ (Micros.one (.clone s))

theorem xsExclude_runs (sym : Sym) : Runs (.xsExclude sym) s := by
  dsimp only [Runs, exec, execXsExclude]
  refine Runs.of hp rfl ?_
  exact .ok rfl _ _ (Micros.one (.exclude s sym))

theorem xsIsExcluded_runs (sym : Sym) : Runs (.xsIsExcluded sym) s := by
  dsimp only [Runs, exec, execXsIsExcluded]
  refine Runs.of hp rfl ?_
  exact .ok rfl _ _ .refl

theorem xsClear_runs : Runs (.xsClear) s := by
  dsimp only [Runs, exec, execXsClear]
  refine Runs.of hp rfl ?_
  exact .ok rfl _ _ (Micros.one (.clear s))

theorem xsCount_runs : Runs (.xsCount) s := by
  dsimp only [Runs, exec, execXsCount]
  refine Runs.of hp rfl ?_
  exact .ok rfl _ _ .refl

theorem mdAdd_runs (c : Sel) (sym : Sym) : Runs (.mdAdd c sym) s := by
  dsimp only [Runs, exec, execMdAdd]
  refine Runs.of hp rfl ?_
  refine .via ((modelAdd_via s (s.ctx c) sym).andThen fun _ _ _ _ => .done _ .refl) (by simp [causesOf]) (fun _ => rfl) ?_
  intro rsp u h
  obtain ⟨a, t, -, h⟩ := Res.andThen_done h
  cases h; exact .inl rfl

theorem mdGetList_runs (c : Sel) : Runs (.mdGetList c) s := by
  dsimp only [Runs, exec, execMdGetList]
  refine Runs.of hp rfl ?_
  have h := modelGetList_via s (s.ctx c)
  split
  · next he => rw [he] at h; exact .answer rfl _ h (.inr (by simp))
  · next he => rw [he] at h; exact .ok rfl _ _ h

theorem mdGetUniform_runs : Runs (.mdGetUniform) s := by
  dsimp only [Runs, exec, execMdGetUniform]
  refine Runs.of hp rfl ?_
  exact .ok rfl _ _ (Micros.one (.uniformList s))

theorem mdFindSym_runs (sym : Sym) : Runs (.mdFindSym sym) s := by
  dsimp only [Runs, exec, execMdFindSym]
  refine Runs.of hp rfl ?_
  exact .answer rfl _ .refl (foundAt_st _ (by simp))

theorem mdFindEsc_runs : Runs (.mdFindEsc) s := by
  dsimp only [Runs, exec, execMdFindEsc]
  refine Runs.of hp rfl ?_
  exact .answer rfl _ .refl (foundAt_st _ (by simp))

theorem mdFindEos_runs : Runs (.mdFindEos) s := by
  dsimp only [Runs, exec, execMdFindEos]
  refine Runs.of hp rfl ?_
  exact .answer rfl _ .refl (foundAt_st _ (by simp))

theorem mdExcludeAll_runs : Runs (.mdExcludeAll) s := by
  dsimp only [Runs, exec, execMdExcludeAll]
  refine Runs.of hp rfl ?_
  exact .ok rfl _ _ (excludeAll_via s)

theorem mdIsEsc_runs (idx : BitVec 9) : Runs (.mdIsEsc idx) s := by
  dsimp only [Runs, exec, execMdIsEsc]
  refine Runs.of hp rfl ?_
  split
  · exact .check (by simp [causesOf])
  · exact .ok rfl _ _ .refl

theorem mdIsEos_runs (idx : BitVec 9) : Runs (.mdIsEos idx) s := by
  dsimp only [Runs, exec, execMdIsEos]
  refine Runs.of hp rfl ?_
  split
  · exact .check (by simp [causesOf])
  · exact .ok rfl _ _ .refl

theorem clGet_runs (idx : BitVec 9) : Runs (.clGet idx) s := by
  dsimp only [Runs, exec, execClGet]
  refine Runs.of hp rfl ?_
  split
  · exact .check (by simp [causesOf])
  · exact .ok rfl _ _ .refl

theorem clLen_runs : Runs (.clLen) s := by
  dsimp only [Runs, exec, execClLen]
  refine Runs.of hp rfl ?_
  split
  · exact .answer rfl _ .refl (.inr (by simp))
  · exact .ok rfl _ _ .refl

theorem hfEncode_runs (idx : BitVec 9) (hd : s.dir = .enc) : Runs (.hfEncode idx) s := by
  dsimp only [Runs, exec, execHfEncode]
  refine Runs.of hp (allows_enc hd) ?_
  split
  · exact .check (by simp [causesOf])
  · exact .ok rfl _ _ (huffEncode_via s _ hd)

theorem hfDecode_runs (hd : s.dir = .dec) : Runs (.hfDecode) s := by
  dsimp only [Runs, exec, execHfDecode]
  refine Runs.of hp (allows_dec hd) ?_
  split
  · exact .check (by simp [causesOf])
  · next h =>
    refine .via ((huffDecode_via s hd ?_).andThen fun _ _ _ _ => .done _ .refl) (by simp [causesOf]) (fun _ => rfl) ?_
    · rintro h0; exact h (by simp [State.cllen, h0])
    · intro rsp u h
      obtain ⟨a, t, -, h⟩ := Res.andThen_done h
      cases h; exact .inl rfl

theorem encPut_runs (sym : Sym) (hd : s.dir = .enc) : Runs (.encPut sym) s := by
  dsimp only [Runs, exec, execEncPut]
  refine Runs.of hp (allows_enc hd) ?_
  refine .via (F := [.protocol, .nodePoolFull, .countOverflow]) (Res.Via.after ?_ (cascadeStart_via s)) (by simp [causesOf])
    (fun _ => rfl) ?_
  · refine ((cascade_via .enc (by simp) (fun s h _ => encodeSym_via sym s h) (fun s h _ => encodeSymUniform_via sym s h) _
      s.cascadeStart hd).mono (by simp)).andThen fun _ t _ _ =>
        ((resolve_via t sym).mono (by simp)).andThen fun _ _ _ _ => .done _ .refl
  · intro rsp u h
    obtain ⟨a, t, -, h⟩ := Res.andThen_done h
    obtain ⟨a, t, -, h⟩ := Res.andThen_done h
    cases h; exact .inl rfl

theorem encClose_runs (hd : s.dir = .enc) : Runs (.encClose) s := by
  dsimp only [Runs, exec, execEncClose]
  refine Runs.of hp (allows_enc hd) ?_
  have hv := cascade_via .enc (List.mem_singleton.2 rfl) (fun s h _ => encodeEnd_via s h) (fun s h _ => encodeEndUniform_via s h)
    s.cascadeStart.wctx s.cascadeStart hd
  have hs := cascadeStart_via s
  revert hv
  cases cascade encodeEnd encodeEndUniform s.cascadeStart.wctx s.cascadeStart with
  | done a t =>
    intro hv
    have ht : Micros s t := hs.trans hv.1
    exact .done _ t.padZero (ht.trans (padZero_via t ((Micros.dir_eq ht).trans hd))) (.inl rfl)
  | raise f t =>
    intro hv
    have hf := List.mem_singleton.1 (hv.2 f t rfl)
    subst hf
    exact .fault _ t (hs.trans hv.1) (by simp [causesOf]) (by simp)

theorem decGet_runs (hd : s.dir = .dec) : Runs (.decGet) s := by
  dsimp only [Runs, exec, execDecGet]
  refine Runs.of hp (allows_dec hd) ?_
  split
  · exact .answer rfl _ .refl (.inr (by simp))
  · refine .via (F := [.protocol, .truncated, .nodePoolFull, .countOverflow]) (Res.Via.after ?_ (cascadeStart_via s))
      (by simp [causesOf]) (fun _ => rfl) ?_
    · refine ((cascade_via .dec (by simp) decodeLevel_via decodeUniform_via _ s.cascadeStart hd).mono (by simp)).andThen
        fun a t _ ht => ?_
      cases a with
      | none => exact .done _ (Micros.one (.eos t (ht.dir_eq.trans hd)))
      | some sym => exact ((resolve_via t sym).mono (by simp)).andThen fun _ _ _ _ => .done _ .refl
    · intro rsp u h
      obtain ⟨a, t, -, h⟩ := Res.andThen_done h
      cases a with
      | none => cases h; exact .inr (by simp)
      | some sym =>
        obtain ⟨b, v, -, h⟩ := Res.andThen_done h
        cases h; exact .inl rfl

theorem decClose_runs (hd : s.dir = .dec) : Runs (.decClose) s := by
  dsimp only [Runs, exec, execDecClose]
  refine Runs.of hp (allows_dec hd) ?_
  exact .done _ s .refl (.inl rfl)

omit hp

theorem dec_of_allows {s : State} (h : (DirNeed.only .dec).allows s.dir = true) : s.dir = .dec := by
  cases hs : s.dir with
  | enc => rw [hs] at h; cases h
  | dec => rfl

theorem enc_of_allows {s : State} (h : (DirNeed.only .enc).allows s.dir = true) : s.dir = .enc := by
  cases hs : s.dir with
  | enc => rfl
  | dec => rw [hs] at h; cases h

/-- All that a command other than INIT and GET_STATUS can do in phase READY and in its direction (60_exceptions.md R345
step 5). -/
theorem exec_runs (i : Instr) (s : State) (hp : s.phase = .ready) (hd : i.dirNeed.allows s.dir = true)
  (hi : ∀ d m, i ≠ .init d m) (hg : ∀ p, i ≠ .getStatus p) : Runs i s := by
  cases i with
  | init d m => exact absurd rfl (hi d m)
  | getStatus p => exact absurd rfl (hg p)
  | brReadU n => exact brReadU_runs hp n (dec_of_allows hd)
  | brReadS n => exact brReadS_runs hp n (dec_of_allows hd)
  | brReadBit => exact brReadBit_runs hp (dec_of_allows hd)
  | brReadU8 => exact brReadU8_runs hp (dec_of_allows hd)
  | brReadS8 => exact brReadS8_runs hp (dec_of_allows hd)
  | brReadU16BE => exact brReadU16BE_runs hp (dec_of_allows hd)
  | brReadU16LE => exact brReadU16LE_runs hp (dec_of_allows hd)
  | brReadS16BE => exact brReadS16BE_runs hp (dec_of_allows hd)
  | brReadS16LE => exact brReadS16LE_runs hp (dec_of_allows hd)
  | brReadU32BE => exact brReadU32BE_runs hp (dec_of_allows hd)
  | brReadU32LE => exact brReadU32LE_runs hp (dec_of_allows hd)
  | brReadS32BE => exact brReadS32BE_runs hp (dec_of_allows hd)
  | brReadS32LE => exact brReadS32LE_runs hp (dec_of_allows hd)
  | brAlign => exact brAlign_runs hp (dec_of_allows hd)
  | brCount => exact brCount_runs hp (dec_of_allows hd)
  | brSkip k => exact brSkip_runs hp k (dec_of_allows hd)
  | brReadByte => exact brReadByte_runs hp (dec_of_allows hd)
  | brMark l => exact brMark_runs hp l (dec_of_allows hd)
  | brReset => exact brReset_runs hp (dec_of_allows hd)
  | brIsAligned => exact brIsAligned_runs hp (dec_of_allows hd)
  | bwWriteBits n v => exact bwWriteBits_runs hp n v (enc_of_allows hd)
  | bwWriteBit v => exact bwWriteBit_runs hp v (enc_of_allows hd)
  | bwWrite8 v => exact bwWrite8_runs hp v (enc_of_allows hd)
  | bwWrite16BE v => exact bwWrite16BE_runs hp v (enc_of_allows hd)
  | bwWrite32BE v => exact bwWrite32BE_runs hp v (enc_of_allows hd)
  | bwWrite16LE v => exact bwWrite16LE_runs hp v (enc_of_allows hd)
  | bwWrite32LE v => exact bwWrite32LE_runs hp v (enc_of_allows hd)
  | bwPad => exact bwPad_runs hp (enc_of_allows hd)
  | bwDiscard => exact bwDiscard_runs hp (enc_of_allows hd)
  | bwFlush => exact bwFlush_runs hp (enc_of_allows hd)
  | bwPadFlush => exact bwPadFlush_runs hp (enc_of_allows hd)
  | bwClose => exact bwClose_runs hp (enc_of_allows hd)
  | bwIsAligned => exact bwIsAligned_runs hp (enc_of_allows hd)
  | cxOrder c => exact cxOrder_runs hp c
  | cxDrop c => exact cxDrop_runs hp c
  | cxAppend c sym => exact cxAppend_runs hp c sym
  | cxGetAt c k => exact cxGetAt_runs hp c k
  | cxClone => exact cxClone_runs hp
  | xsExclude sym => exact xsExclude_runs hp sym
  | xsIsExcluded sym => exact xsIsExcluded_runs hp sym
  | xsClear => exact xsClear_runs hp
  | xsCount => exact xsCount_runs hp
  | mdAdd c sym => exact mdAdd_runs hp c sym
  | mdGetList c => exact mdGetList_runs hp c
  | mdGetUniform => exact mdGetUniform_runs hp
  | mdFindSym sym => exact mdFindSym_runs hp sym
  | mdFindEsc => exact mdFindEsc_runs hp
  | mdFindEos => exact mdFindEos_runs hp
  | mdExcludeAll => exact mdExcludeAll_runs hp
  | mdIsEsc idx => exact mdIsEsc_runs hp idx
  | mdIsEos idx => exact mdIsEos_runs hp idx
  | clGet idx => exact clGet_runs hp idx
  | clLen => exact clLen_runs hp
  | hfEncode idx => exact hfEncode_runs hp idx (enc_of_allows hd)
  | hfDecode => exact hfDecode_runs hp (dec_of_allows hd)
  | encPut sym => exact encPut_runs hp sym (enc_of_allows hd)
  | encClose => exact encClose_runs hp (enc_of_allows hd)
  | decGet => exact decGet_runs hp (dec_of_allows hd)
  | decClose => exact decClose_runs hp (dec_of_allows hd)

end Sys2Proof.Machine
end

