-- ==== Sys2Proof/Laws/Exec.lean ====
section
/-! SUPPORT. Said once, what a command, and what a step, can come to (60_exceptions.md R345): every claim about all commands
is a case analysis of these. -/

namespace Sys2Proof.Machine

/-- All that a command can come to, in any phase. -/
inductive Comes : Instr → State → State → Prop where
  | init {d : Dir} {m : Wide} {s : State} (h : m.toNat ≤ s.par.orderCap) :
      Comes (.init d m) s ((s.initialise d m).respond ⟨.ok, 0, 0⟩)
  | badConfig {d : Dir} {m : Wide} {s : State} (h : s.par.orderCap < m.toNat) :
      Comes (.init d m) s (s.respond ⟨.badConfig, 0, 0⟩)
  | status {p : Page} {s : State} (n : Nat) (r : Wide) :
      Comes (.getStatus p) s (State.respond { s with free := n } ⟨.ok, 0, r⟩)
  | refused {i : Instr} {s : State} {st : Status} (hi : ∀ d m, i ≠ .init d m) (hg : ∀ p, i ≠ .getStatus p)
      (h : s.phase.refusal = some st) : Comes i s (s.respond ⟨st, 0, 0⟩)
  | wrongDir {i : Instr} {s : State} (hi : ∀ d m, i ≠ .init d m) (hg : ∀ p, i ≠ .getStatus p) (hp : s.phase = .ready)
      (hd : i.dirNeed.allows s.dir = false) : Comes i s (s.takeFault .illegalCmd i.opcode)
  | ran {i : Instr} {s t : State} (hi : ∀ d m, i ≠ .init d m) (hg : ∀ p, i ≠ .getStatus p) (hp : s.phase = .ready)
      (hd : i.dirNeed.allows s.dir = true) (h : Ends i s t) : Comes i s t

theorem execInit_comes (d : Dir) (m : Wide) (s : State) : ∃ t, exec (.init d m) s = .next t ∧ Comes (.init d m) s t := by
  by_cases h : m.toNat ≤ s.par.orderCap
  · exact ⟨_, by simp only [exec, execInit, gt_iff_lt, Nat.not_lt.2 h, if_false]; rfl, .init h⟩
  · exact ⟨_, by simp only [exec, execInit, gt_iff_lt, Nat.lt_of_not_le h, if_true], .badConfig (Nat.lt_of_not_le h)⟩

theorem execGetStatus_comes (p : Page) (s : State) : ∃ t, exec (.getStatus p) s = .next t ∧ Comes (.getStatus p) s t := by
  cases p with
  | status =>
    refine ⟨_, rfl, ?_⟩
    by_cases h : s.phase = .unconf ∨ s.phase = .faulted
    · rw [if_pos h]; exact .status (s.free + 1) s.statusWord
    · rw [if_neg h]; exact .status s.free s.statusWord
  | maxOrder =>
    refine ⟨_, rfl, ?_⟩
    by_cases h : s.phase = .unconf
    · rw [if_pos h]; exact .status (s.free + 1) s.maxOrderPage
    · rw [if_neg h]; exact .status s.free s.maxOrderPage

/-- A command other than INIT and GET_STATUS makes the checks of 60_exceptions.md R345 first. -/
theorem exec_command (i : Instr) (s : State) (hi : ∀ d m, i ≠ .init d m) (hg : ∀ p, i ≠ .getStatus p) :
    ∃ body, exec i s = command i s body := by
  cases i with
  | init d m => exact absurd rfl (hi d m)
  | getStatus p => exact absurd rfl (hg p)
  | brReadU _ => dsimp only [exec, execBrReadU]; exact ⟨_, rfl⟩
  | brReadS _ => dsimp only [exec, execBrReadS]; exact ⟨_, rfl⟩
  | brReadBit => dsimp only [exec, execBrReadBit]; exact ⟨_, rfl⟩
  | brReadU8 => dsimp only [exec, execBrReadU8]; exact ⟨_, rfl⟩
  | brReadS8 => dsimp only [exec, execBrReadS8]; exact ⟨_, rfl⟩
  | brReadU16BE => dsimp only [exec, execBrReadU16BE]; exact ⟨_, rfl⟩
  | brReadU16LE => dsimp only [exec, execBrReadU16LE]; exact ⟨_, rfl⟩
  | brReadS16BE => dsimp only [exec, execBrReadS16BE]; exact ⟨_, rfl⟩
  | brReadS16LE => dsimp only [exec, execBrReadS16LE]; exact ⟨_, rfl⟩
  | brReadU32BE => dsimp only [exec, execBrReadU32BE]; exact ⟨_, rfl⟩
  | brReadU32LE => dsimp only [exec, execBrReadU32LE]; exact ⟨_, rfl⟩
  | brReadS32BE => dsimp only [exec, execBrReadS32BE]; exact ⟨_, rfl⟩
  | brReadS32LE => dsimp only [exec, execBrReadS32LE]; exact ⟨_, rfl⟩
  | brAlign => dsimp only [exec, execBrAlign]; exact ⟨_, rfl⟩
  | brCount => dsimp only [exec, execBrCount]; exact ⟨_, rfl⟩
  | brSkip _ => dsimp only [exec, execBrSkip]; exact ⟨_, rfl⟩
  | brReadByte => dsimp only [exec, execBrReadByte]; exact ⟨_, rfl⟩
  | brMark _ => dsimp only [exec, execBrMark]; exact ⟨_, rfl⟩
  | brReset => dsimp only [exec, execBrReset]; exact ⟨_, rfl⟩
  | brIsAligned => dsimp only [exec, execBrIsAligned]; exact ⟨_, rfl⟩
  | bwWriteBits _ _ => dsimp only [exec, execBwWriteBits]; exact ⟨_, rfl⟩
  | bwWriteBit _ => dsimp only [exec, execBwWriteBit]; exact ⟨_, rfl⟩
  | bwWrite8 _ => dsimp only [exec, execBwWrite8]; exact ⟨_, rfl⟩
  | bwWrite16BE _ => dsimp only [exec, execBwWrite16BE]; exact ⟨_, rfl⟩
  | bwWrite32BE _ => dsimp only [exec, execBwWrite32BE]; exact ⟨_, rfl⟩
  | bwWrite16LE _ => dsimp only [exec, execBwWrite16LE]; exact ⟨_, rfl⟩
  | bwWrite32LE _ => dsimp only [exec, execBwWrite32LE]; exact ⟨_, rfl⟩
  | bwPad => dsimp only [exec, execBwPad]; exact ⟨_, rfl⟩
  | bwDiscard => dsimp only [exec, execBwDiscard]; exact ⟨_, rfl⟩
  | bwFlush => dsimp only [exec, execBwFlush]; exact ⟨_, rfl⟩
  | bwPadFlush => dsimp only [exec, execBwPadFlush]; exact ⟨_, rfl⟩
  | bwClose => dsimp only [exec, execBwClose]; exact ⟨_, rfl⟩
  | bwIsAligned => dsimp only [exec, execBwIsAligned]; exact ⟨_, rfl⟩
  | cxOrder _ => dsimp only [exec, execCxOrder]; exact ⟨_, rfl⟩
  | cxDrop _ => dsimp only [exec, execCxDrop]; exact ⟨_, rfl⟩
  | cxAppend _ _ => dsimp only [exec, execCxAppend]; exact ⟨_, rfl⟩
  | cxGetAt _ _ => dsimp only [exec, execCxGetAt]; exact ⟨_, rfl⟩
  | cxClone => dsimp only [exec, execCxClone]; exact ⟨_, rfl⟩
  | xsExclude _ => dsimp only [exec, execXsExclude]; exact ⟨_, rfl⟩
  | xsIsExcluded _ => dsimp only [exec, execXsIsExcluded]; exact ⟨_, rfl⟩
  | xsClear => dsimp only [exec, execXsClear]; exact ⟨_, rfl⟩
  | xsCount => dsimp only [exec, execXsCount]; exact ⟨_, rfl⟩
  | mdAdd _ _ => dsimp only [exec, execMdAdd]; exact ⟨_, rfl⟩
  | mdGetList _ => dsimp only [exec, execMdGetList]; exact ⟨_, rfl⟩
  | mdGetUniform => dsimp only [exec, execMdGetUniform]; exact ⟨_, rfl⟩
  | mdFindSym _ => dsimp only [exec, execMdFindSym]; exact ⟨_, rfl⟩
  | mdFindEsc => dsimp only [exec, execMdFindEsc]; exact ⟨_, rfl⟩
  | mdFindEos => dsimp only [exec, execMdFindEos]; exact ⟨_, rfl⟩
  | mdExcludeAll => dsimp only [exec, execMdExcludeAll]; exact ⟨_, rfl⟩
  | mdIsEsc _ => dsimp only [exec, execMdIsEsc]; exact ⟨_, rfl⟩
  | mdIsEos _ => dsimp only [exec, execMdIsEos]; exact ⟨_, rfl⟩
  | clGet _ => dsimp only [exec, execClGet]; exact ⟨_, rfl⟩
  | clLen => dsimp only [exec, execClLen]; exact ⟨_, rfl⟩
  | hfEncode _ => dsimp only [exec, execHfEncode]; exact ⟨_, rfl⟩
  | hfDecode => dsimp only [exec, execHfDecode]; exact ⟨_, rfl⟩
  | encPut _ => dsimp only [exec, execEncPut]; exact ⟨_, rfl⟩
  | encClose => dsimp only [exec, execEncClose]; exact ⟨_, rfl⟩
  | decGet => dsimp only [exec, execDecGet]; exact ⟨_, rfl⟩
  | decClose => dsimp only [exec, execDecClose]; exact ⟨_, rfl⟩

/-- Every command has a next state, and it is one of those. -/
theorem exec_comes (i : Instr) (s : State) : ∃ t, exec i s = .next t ∧ Comes i s t := by
  by_cases hi : ∀ d m, i ≠ .init d m
  · by_cases hg : ∀ p, i ≠ .getStatus p
    · obtain ⟨body, hb⟩ := exec_command i s hi hg
      cases hp : s.phase.refusal with
      | some st => exact ⟨_, hb.trans (command_refused body hp), .refused hi hg hp⟩
      | none =>
        have hr := Phase.refusal_none.1 hp
        cases hd : i.dirNeed.allows s.dir with
        | false => exact ⟨_, hb.trans (command_wrongDir body hr hd), .wrongDir hi hg hr hd⟩
        | true =>
          obtain ⟨t, h1, h2⟩ := exec_runs i s hr hd hi hg
          exact ⟨t, h1, .ran hi hg hr hd h2⟩
    · obtain ⟨p, h⟩ := not_forall.1 hg
      rw [not_not.1 h]; exact execGetStatus_comes p s
  · obtain ⟨d, h⟩ := not_forall.1 hi
    obtain ⟨m, h⟩ := not_forall.1 h
    rw [not_not.1 h]; exact execInit_comes d m s

theorem Comes.of {i : Instr} {s t : State} (h : exec i s = .next t) : Comes i s t := by
  obtain ⟨u, h1, h2⟩ := exec_comes i s
  rw [h] at h1
  cases h1; exact h2

/-- What a step does with the host's next input (00_scope.md R3). -/
theorem step_command {s : State} {w : Word72} {rest : List HostInput} (hs : s.host = .command w :: rest) :
    step s = stepWord w { s with host := rest } := by
  simp only [step, State.takeInput, hs]

theorem step_hwReset {s : State} {rest : List HostInput} (hs : s.host = .hwReset :: rest) :
    step s = .next (State.hardwareReset { s with host := rest }) := by
  simp only [step, State.takeInput, hs]

theorem step_source {s : State} {bytes : List Byte} {rest : List HostInput} (hs : s.host = .source bytes :: rest) :
    step s = .next (State.presentSource { s with host := rest } bytes) := by
  simp only [step, State.takeInput, hs]

theorem step_idle {s : State} (hs : s.host = []) : step s = .next s := by
  simp only [step, State.takeInput, hs]

/-- All that a step with a next state can have been. -/
inductive Steps (s t : State) : Prop where
  | idle (hs : s.host = []) (h : t = s)
  | command (w : Word72) (rest : List HostInput) (i : Instr) (hs : s.host = .command w :: rest) (hd : decode w = some i)
      (h : Comes i { s with host := rest } t)
  | illegal (w : Word72) (rest : List HostInput) (hs : s.host = .command w :: rest) (hd : decode w = none)
      (hp : s.phase = .ready) (h : t = State.takeFault { s with host := rest } .illegalCmd (opcOf w))
  | refused (w : Word72) (rest : List HostInput) (st : Status) (hs : s.host = .command w :: rest) (hd : decode w = none)
      (hp : s.phase.refusal = some st) (h : t = State.respond { s with host := rest } ⟨st, 0, 0⟩)
  | hwReset (rest : List HostInput) (hs : s.host = .hwReset :: rest) (h : t = State.hardwareReset { s with host := rest })
  | source (bytes : List Byte) (rest : List HostInput) (hs : s.host = .source bytes :: rest)
      (h : t = { s with host := rest, nextSrc := bytes })

theorem Steps.of {s t : State} (h : step s = .next t) : Steps s t := by
  rcases hs : s.host with _ | ⟨_ | _ | bytes, rest⟩
  · rw [step_idle hs] at h; exact .idle hs (by cases h; rfl)
  · next w =>
    rw [step_command hs, stepWord] at h
    cases hd : decode w with
    | some i => rw [hd] at h; exact .command w rest i hs hd (.of h)
    | none =>
      rw [hd] at h
      unfold illegalWord at h
      cases hp : s.phase.refusal with
      | some st =>
        rw [show ({ s with host := rest } : State).phase.refusal = some st from hp] at h
        exact .refused w rest st hs hd hp (by cases h; rfl)
      | none =>
        rw [show ({ s with host := rest } : State).phase.refusal = none from hp] at h
        exact .illegal w rest hs hd (Phase.refusal_none.1 hp) (by cases h; rfl)
  · rw [step_hwReset hs] at h; exact .hwReset rest hs (by cases h; rfl)
  · rw [step_source hs] at h; exact .source bytes rest hs (by cases h; rfl)

/-- A word always has a next state. -/
theorem step_command_next {s : State} {w : Word72} {rest : List HostInput} (hs : s.host = .command w :: rest) :
    ∃ t, step s = .next t := by
  rw [step_command hs, stepWord]
  cases decode w with
  | some i => obtain ⟨t, h, -⟩ := exec_comes i { s with host := rest }; exact ⟨t, h⟩
  | none => dsimp only [illegalWord]; split <;> exact ⟨_, rfl⟩

/-- Every step has a next state: the model never stops. -/
theorem step_next (s : State) : ∃ t, step s = .next t := by
  rcases hs : s.host with _ | ⟨_ | _ | bytes, rest⟩
  · exact ⟨_, step_idle hs⟩
  · exact step_command_next hs
  · exact ⟨_, step_hwReset hs⟩
  · exact ⟨_, step_source hs⟩

end Sys2Proof.Machine
end

