-- ==== Sys2Proof/Laws/Reset.lean ====
section
/-! SUPPORT. The state after INIT and the state after hardware reset (10_state.md R44, R45) have every part of the
invariant. -/

namespace Sys2Proof.Machine

/-- The trie that holds the root alone (10_state.md R36) has R38's invariants. -/
theorem poolOk_root (w : Nat) : PoolOk w [rootNode] := by
  have h0 : ∀ p < [rootNode].length, p = 0 := by intro p hp; simpa using hp
  have hc : children [rootNode] 0 = [] := rfl
  constructor
  · exact ⟨by simp, rfl, rfl, rfl⟩
  · intro p hp; rw [h0 p hp]; exact trivial
  · intro p hp; rw [h0 p hp, hc]; exact .nil
  · intro p hp c hm; rw [h0 p hp, hc] at hm; cases hm
  · intro q hq hne; exact absurd (h0 q hq) hne
  · intro p hp; rw [h0 p hp, hc]; exact .nil
  · intro q hq; rw [h0 q hq]; exact Nat.two_pow_pos w

/-- The empty context leads to the root, and is its own only suffix. -/
theorem suffixesResolve_root : suffixesResolve [rootNode] [] := by
  intro Y hY
  rw [List.suffix_nil.1 hY]; rfl

section
variable (s : State) (d : Dir) (m : Wide)

theorem initialise_buffers : (s.initialise d m).BuffersOk := ⟨Nat.zero_le _, Nat.zero_le _, fun _ h => by cases h⟩

theorem initialise_contexts (h : m.toNat ≤ s.par.orderCap) : (s.initialise d m).ContextsOk :=
  ⟨h, Nat.zero_le _, Nat.zero_le _⟩

theorem initialise_xset : (s.initialise d m).XsetOk := XSet.ones_zero.symm

theorem initialise_trie (h : s.par.Legal) : (s.initialise d m).TrieOk := ⟨h, h.2.1, poolOk_root _⟩

theorem initialise_list : (s.initialise d m).ListOk :=
  ⟨Nat.zero_le _, fun _ => rfl, fun _ h => by cases h⟩

theorem initialise_latch : (s.initialise d m).LatchOk := ⟨fun h => (by cases h), fun _ => ⟨rfl, rfl⟩⟩

theorem initialise_inv (hp : s.par.Legal) (h : m.toNat ≤ s.par.orderCap) : (s.initialise d m).Inv :=
  ⟨initialise_buffers s d m, initialise_contexts s d m h, initialise_xset s d m, initialise_trie s d m hp,
    initialise_list s d m, initialise_latch s d m⟩

theorem hardwareReset_inv (hp : s.par.Legal) : s.hardwareReset.Inv :=
  ⟨⟨Nat.zero_le _, Nat.zero_le _, fun _ h => by cases h⟩, ⟨Nat.zero_le _, Nat.zero_le _, Nat.zero_le _⟩,
    XSet.ones_zero.symm, ⟨hp, hp.2.1, poolOk_root _⟩, ⟨Nat.zero_le _, fun _ => rfl, fun _ h => by cases h⟩,
    ⟨fun h => (by cases h), fun _ => ⟨rfl, rfl⟩⟩⟩

end

end Sys2Proof.Machine
end

