-- ==== Sys2Proof/Laws/Inv.lean ====
section
/-! SUPPORT. Every small update of a command keeps each part of the invariant (10_state.md R27 to R40). -/

namespace Sys2Proof.Machine

/-- `Fill(k)` for at most 56 bits keeps the bounds of the buffers (10_state.md R28). -/
theorem fill_buffers {s : State} (h : s.BuffersOk) {k : Nat} (hk : k ≤ maxBits) : (s.fill k).BuffersOk := by
  obtain ⟨hw, hr, hm⟩ := h
  obtain ⟨-, -, h3, h4, -⟩ := s.reader.fill_spec s.src k
  refine ⟨hw, ?_, fun mk hmk => ⟨(hm mk hmk).1, (hm mk hmk).2.trans h4⟩⟩
  have h3' : (s.fill k).rbuf.length ≤ max s.rbuf.length (k + 7) := h3
  have : maxBits = 56 := rfl
  omega

/-- The buffers' bounds (10_state.md R27, R28, R30). -/
theorem Micro.buffers {s t : State} (h : s.BuffersOk) (m : Micro s t) : t.BuffersOk := by
  obtain ⟨hw, hr, hm⟩ := h
  cases m with
  | take k hd hk h =>
    obtain ⟨h1, h2, h3⟩ := fill_buffers ⟨hw, hr, hm⟩ hk
    refine ⟨h1, ?_, h3⟩
    show ((s.fill k).rbuf.drop k).length ≤ 63
    rw [List.length_drop]; omega
  | look k hd hk h => exact fill_buffers ⟨hw, hr, hm⟩ (hk.trans (by decide))
  | consume k hd => exact ⟨hw, by simp [State.consume, Reader.drop]; omega, hm⟩
  | skip k hd =>
    obtain ⟨-, -, h3, h4⟩ := s.reader.skip_spec s.src k
    refine ⟨hw, ?_, fun mk hmk => ⟨(hm mk hmk).1, (hm mk hmk).2.trans h4⟩⟩
    show (s.reader.skip s.src k).2.rbuf.length ≤ 63
    have : s.reader.rbuf.length = s.rbuf.length := rfl
    omega
  | setMark limit hd => exact ⟨hw, hr, fun mk hmk => by cases hmk; exact ⟨hr, le_rfl⟩⟩
  | rewind mk hd hmk =>
    refine ⟨hw, (hm mk hmk).1, fun mk' hmk' => ?_⟩
    have : s.mark = some mk' := hmk'
    rw [hmk] at this; cases this
    exact ⟨(hm mk hmk).1, le_rfl⟩
  | put bs hd => exact ⟨s.writer.putAll_buf_le bs hw, hr, hm⟩
  | discard hd => exact ⟨by simp [State.discard], hr, hm⟩
  | append c sym => cases c <;> exact ⟨hw, hr, hm⟩
  | drop c => cases c <;> exact ⟨hw, hr, hm⟩
  | eos | clone | exclude | clear | add | nullList | trieList | uniformList =>
    exact ⟨hw, hr, hm⟩

theorem length_ctxAppend (cap : Nat) (X : List Sym) (sym : Sym) (h : X.length ≤ cap) :
    (ctxAppend cap X sym).length ≤ cap := by
  unfold ctxAppend
  split
  · exact h
  · split <;> simp <;> omega

/-- The contexts' bounds (10_state.md R25, R32, R33). -/
theorem Micro.contexts {s t : State} (h : s.ContextsOk) (m : Micro s t) : t.ContextsOk := by
  obtain ⟨ho, hh, hc⟩ := h
  cases m with
  | append c sym =>
    cases c
    · exact ⟨ho, length_ctxAppend _ _ _ hh, hc⟩
    · exact ⟨ho, hh, length_ctxAppend _ _ _ hc⟩
  | drop c =>
    cases c
    · refine ⟨ho, ?_, hc⟩
      show (s.hist.drop 1).length ≤ s.cap
      rw [List.length_drop]; omega
    · refine ⟨ho, hh, ?_⟩
      show (s.wctx.drop 1).length ≤ s.cap
      rw [List.length_drop]; omega
  | clone => exact ⟨ho, hh, hh⟩
  | take | look | consume | skip | setMark | rewind | eos | put | discard | exclude | clear | add |
    nullList | trieList | uniformList => exact ⟨ho, hh, hc⟩

/-- `XCOUNT` goes with `XBITS` (10_state.md R34). -/
theorem Micro.xset {s t : State} (h : s.XsetOk) (m : Micro s t) : t.XsetOk := by
  cases m with
  | exclude sym =>
    show (s.xset.exclude sym).count = (s.xset.exclude sym).ones
    rw [XSet.count_exclude, XSet.ones_exclude]
    exact congrArg (· + _) h
  | clear =>
    show s.xset.clear.count = s.xset.clear.ones
    rw [XSet.clear_ones s.xset h, XSet.ones_zero]
  | append c sym => cases c <;> exact h
  | drop c => cases c <;> exact h
  | take | look | consume | skip | setMark | rewind | eos | put | discard | clone | add |
    nullList | trieList | uniformList => exact h

/-- ModelAdd keeps the trie's invariants even where it stops with a fault (10_state.md R38, 60_exceptions.md R331). -/
theorem PoolOk.poolAdd_keeps {w cap : Nat} {ns : List Node} (ok : PoolOk w ns) (X : List Sym) (sym : Sym) :
    PoolOk w (poolAdd cap w X sym ns).state ∧ Grows ns (poolAdd cap w X sym ns).state ∧
      (ns.length ≤ cap → (poolAdd cap w X sym ns).state.length ≤ cap) := by
  rcases ok.poolAdd_spec (cap := cap) X sym with ⟨ms, h, a, -⟩ | ⟨ms, f, h, a⟩
  · rw [h]; exact ⟨a.pool, a.grows, a.fits⟩
  · rw [h]; exact ⟨a.pool, a.grows, a.fits⟩

/-- The trie's invariants (10_state.md R35, R36, R38). -/
theorem Micro.trie {s t : State} (h : s.TrieOk) (m : Micro s t) : t.TrieOk := by
  obtain ⟨hp, ha, hk⟩ := h
  cases m with
  | add X sym =>
    obtain ⟨h1, -, h3⟩ := hk.poolAdd_keeps (cap := s.par.nodeCap) X sym
    exact ⟨hp, h3 ha, h1⟩
  | append c sym => cases c <;> exact ⟨hp, ha, hk⟩
  | drop c => cases c <;> exact ⟨hp, ha, hk⟩
  | take | look | consume | skip | setMark | rewind | eos | put | discard | clone | exclude | clear |
    nullList | trieList | uniformList => exact ⟨hp, ha, hk⟩

theorem Grows.candOk {ns ms : List Node} (h : Grows ns ms) {e : Cand} (he : candOk ns e) : candOk ms e := by
  match e with
  | .sym t (some q) => exact ⟨he.1.trans_le h.len, (h.kept q he.1).trans he.2⟩
  | .sym t none => trivial
  | .esc => trivial
  | .eos => trivial

/-- The candidate list's bounds (10_state.md R39, R40). -/
theorem Micro.list {s t : State} (ht : s.TrieOk) (h : s.ListOk) (m : Micro s t) : t.ListOk := by
  obtain ⟨hl, hn, hc⟩ := h
  cases m with
  | add X sym =>
    obtain ⟨-, h2, -⟩ := ht.pool.poolAdd_keeps (cap := s.par.nodeCap) X sym
    exact ⟨hl, hn, fun e he => h2.candOk (hc e he)⟩
  | nullList => exact ⟨Nat.zero_le _, fun _ => rfl, fun e he => by cases he⟩
  | trieList X p hp =>
    have hpl := ht.pool.resolve_lt ht.pool.root.1 hp
    refine ⟨?_, fun h => (by cases h), ?_⟩
    · have h1 := length_le_of_nodup_syms (ht.pool.distinct p hpl)
      have h2 := List.length_filter_le (fun q => !s.xset.has (nodeAt s.nodes q).sym) (children s.nodes p)
      rw [List.length_map] at h1
      show (Machine.trieList s.nodes s.xset p).length ≤ clCap
      simp only [Machine.trieList, List.length_append, List.length_map, List.length_singleton, clCap]
      omega
    · intro e he
      match e with
      | .sym t (some q) =>
        obtain ⟨c, hc, hq, hs, -⟩ := sym_mem_trieList.1 he
        cases hq
        exact ⟨ht.pool.child_lt hpl hc, hs⟩
      | .sym t none => trivial
      | .esc => trivial
      | .eos => trivial
  | uniformList =>
    refine ⟨?_, fun h => (by cases h), ?_⟩
    · have := length_uniformList s.xset
      show (Machine.uniformList s.xset).length ≤ clCap
      have : clCap = 258 := rfl
      omega
    · intro e he
      match e with
      | .sym t (some q) => cases (sym_mem_uniformList.1 he).1
      | .sym t none => trivial
      | .esc => trivial
      | .eos => trivial
  | append c sym => cases c <;> exact ⟨hl, hn, hc⟩
  | drop c => cases c <;> exact ⟨hl, hn, hc⟩
  | take | look | consume | skip | setMark | rewind | eos | put | discard | clone | exclude | clear =>
    exact ⟨hl, hn, hc⟩

/-- A small update adds bytes to the sink, and nothing else (10_state.md R43). -/
theorem Micro.snk {s t : State} (m : Micro s t) : ∃ l : List Byte, t.snk = s.snk ++ l.map .byte := by
  cases m with
  | put bs hd => exact s.writer.putAll_snk bs
  | append c sym => cases c <;> exact ⟨[], by simp; rfl⟩
  | drop c => cases c <;> exact ⟨[], by simp; rfl⟩
  | take | look | consume | skip | setMark | rewind | eos | discard | clone | exclude | clear | add | nullList | trieList |
    uniformList => exact ⟨[], (List.append_nil _).symm⟩

theorem Micros.snk {s t : State} (h : Micros s t) : ∃ l : List Byte, t.snk = s.snk ++ l.map .byte := by
  induction h with
  | refl => exact ⟨[], (List.append_nil _).symm⟩
  | tail _ m ih =>
    obtain ⟨l, hl⟩ := ih
    obtain ⟨k, hk⟩ := m.snk
    exact ⟨l ++ k, by rw [hk, hl]; simp⟩

/-- A decoder's small updates leave the sink alone (10_state.md R43). -/
theorem Micros.snk_dec {s t : State} (h : Micros s t) (hd : s.dir = .dec) : t.snk = s.snk := by
  induction h with
  | refl => rfl
  | tail h m ih =>
    rw [← ih]
    have hd' := (Micros.dir_eq h).trans hd
    cases m with
    | put bs he => rw [hd'] at he; cases he
    | discard he => rw [hd'] at he; cases he
    | append c sym => cases c <;> rfl
    | drop c => cases c <;> rfl
    | take | look | consume | skip | setMark | rewind | eos | clone | exclude | clear | add | nullList | trieList |
      uniformList => rfl

/-- The invariant does not look at what was answered, at the host's side of the boundary, or at the end-of-stream flag. -/
theorem State.Inv.same {s t : State} (h : s.Inv) (e : t = { s with
    rsps := t.rsps, host := t.host, free := t.free, src := t.src, nextSrc := t.nextSrc, snk := t.snk, eosSeen := t.eosSeen }) : t.Inv := by
  obtain ⟨⟨a1, a2, a3⟩, ⟨b1, b2, b3⟩, c, ⟨d1, d2, d3⟩, ⟨e1, e2, e3⟩, ⟨f1, f2⟩⟩ := h
  rw [e]
  exact ⟨⟨a1, a2, a3⟩, ⟨b1, b2, b3⟩, c, ⟨d1, d2, d3⟩, ⟨e1, e2, e3⟩, ⟨f1, f2⟩⟩

theorem Micro.inv {s t : State} (h : s.Inv) (m : Micro s t) : t.Inv := by
  refine ⟨m.buffers h.buffers, m.contexts h.contexts, m.xset h.xset, m.trie h.trie, m.list h.trie h.list, ?_⟩
  obtain ⟨-, h1, -, -, h2, h3, -⟩ := m.kept
  unfold State.LatchOk
  rw [h1, h2, h3]
  exact h.latch

theorem State.Inv.fill {s : State} (h : s.Inv) {k : Nat} (hk : k ≤ maxBits) : (s.fill k).Inv := by
  have hb := fill_buffers h.buffers hk
  obtain ⟨-, ⟨b1, b2, b3⟩, c, ⟨d1, d2, d3⟩, ⟨e1, e2, e3⟩, ⟨f1, f2⟩⟩ := h
  exact ⟨hb, ⟨b1, b2, b3⟩, c, ⟨d1, d2, d3⟩, ⟨e1, e2, e3⟩, ⟨f1, f2⟩⟩

/-- Closing the stream (60_exceptions.md R340) and taking a fault (R330) keep the invariant. -/
theorem State.Inv.close {s : State} (h : s.Inv) (hp : s.phase = .ready) : (s.setPhase .closed).Inv := by
  have hl := h.latch.2 (by rw [hp]; simp)
  obtain ⟨⟨a1, a2, a3⟩, ⟨b1, b2, b3⟩, c, ⟨d1, d2, d3⟩, ⟨e1, e2, e3⟩, -⟩ := h
  exact ⟨⟨a1, a2, a3⟩, ⟨b1, b2, b3⟩, c, ⟨d1, d2, d3⟩, ⟨e1, e2, e3⟩, fun h => (by cases h), fun _ => hl⟩

theorem State.Inv.takeFault {s : State} (h : s.Inv) (f : FaultKind) (opc : BitVec 8) : (s.takeFault f opc).Inv := by
  obtain ⟨⟨a1, a2, a3⟩, ⟨b1, b2, b3⟩, c, ⟨d1, d2, d3⟩, ⟨e1, e2, e3⟩, -⟩ := h
  exact ⟨⟨a1, a2, a3⟩, ⟨b1, b2, b3⟩, c, ⟨d1, d2, d3⟩, ⟨e1, e2, e3⟩, fun _ => ⟨f, rfl⟩, fun h => absurd rfl h⟩

/-- A property that every small update, every read, every sink event, every answer, INIT, hardware reset and what the host
does keep is kept by every step. -/
theorem step_keeps {P : State → Prop}
    (hrest : ∀ s l, P s → P { s with host := l })
    (hmicro : ∀ u v, P u → Micro u v → P v) (hfill : ∀ s k, s.dir = .dec → k ≤ maxBits → P s → P (s.fill k))
    (hend : ∀ u, P u → P u.sinkFlush ∧ P u.sinkClose ∧ (u.phase = .ready → P (u.setPhase .closed)))
    (hrsp : ∀ u rsp, P u → P (u.respond rsp)) (hflt : ∀ u f opc, P u → P (u.takeFault f opc))
    (hinit : ∀ s d m, P s → m.toNat ≤ s.par.orderCap → P (s.initialise d m)) (hfree : ∀ s n, P s → P { s with free := n })
    (hrst : ∀ s, P s → P s.hardwareReset) (hsrc : ∀ s b, P s → P { s with nextSrc := b })
    {s t : State} (hs : P s) (h : step s = .next t) : P t := by
  have hr := hrest s
  cases Steps.of h with
    | idle hs' h => subst h; exact hs
    | command w rest i hs' hd h =>
      have hs2 := hr rest hs
      cases h with
      | init hm => exact hrsp _ _ (hinit _ _ _ hs2 hm)
      | badConfig h => exact hrsp _ _ hs2
      | status n r => exact hrsp _ _ (hfree _ _ hs2)
      | @refused _ _ st hi hg h => exact hrsp _ _ hs2
      | wrongDir hi hg hp' hd => exact hflt _ _ _ hs2
      | ran hi hg hp' hd h =>
        cases h with
        | done rsp u hu h =>
          refine hrsp _ _ ?_
          have hpu : u.phase = .ready := hu.phase_eq.trans hp'
          have hu := Micros.keeps hmicro hu hs2
          unfold atEnd
          split
          · exact (hend u hu).1
          · exact (hend u hu).1
          · exact (hend _ (hend _ (hend u hu).1).2.1).2.2 hpu
          · exact (hend _ (hend _ (hend u hu).1).2.1).2.2 hpu
          · exact (hend u hu).2.2 hpu
          · exact hu
        | short k hd hk h hi => exact hrsp _ _ (hfill _ k hd hk hs2)
        | fault f u hu hf' h => exact hflt _ _ _ (Micros.keeps hmicro hu hs2)
    | illegal w' rest' hs' hd hp' h => subst h; exact hflt _ _ _ (hr _ hs)
    | refused w' rest' st' hs' hd hp' h => subst h; exact hrsp _ _ (hr _ hs)
    | hwReset rest' hs' h => subst h; exact hrst _ (hr _ hs)
    | source b rest' hs' h => subst h; exact hsrc { s with host := rest' } b (hr _ hs)

/-- A command keeps the invariant. -/
theorem State.Inv.exec {s t : State} {i : Instr} (h : s.Inv) (hx : Sys2Proof.Machine.exec i s = .next t) : t.Inv := by
  cases Comes.of hx with
  | init hm => exact (initialise_inv _ _ _ h.trie.par hm).same rfl
  | badConfig hm => exact h.same rfl
  | status n r => exact h.same rfl
  | refused hi hg hp => exact h.same rfl
  | wrongDir hi hg hp hd => exact h.takeFault _ _
  | ran hi hg hp hd he =>
    cases he with
    | done rsp u hu hst =>
      have hui := Micros.keeps (P := State.Inv) (fun _ _ h m => m.inv h) hu h
      have hup : u.phase = .ready := hu.phase_eq.trans hp
      have : (atEnd i u).Inv := by
        unfold atEnd
        split
        · exact hui.same rfl
        · exact hui.same rfl
        · exact State.Inv.close (s := u.sinkFlush.sinkClose) ((hui.same (t := u.sinkFlush) rfl).same rfl) hup
        · exact State.Inv.close (s := u.sinkFlush.sinkClose) ((hui.same (t := u.sinkFlush) rfl).same rfl) hup
        · exact hui.close hup
        · exact hui
      exact this.same rfl
    | short k hd hk => exact (h.fill hk).same rfl
    | fault f u hu => exact (Micros.keeps (P := State.Inv) (fun _ _ h m => m.inv h) hu h).takeFault _ _

end Sys2Proof.Machine
end

