-- ==== Sys2Proof/Laws/ReadBits.lean ====
section
/-! SUPPORT. A command of one direction on a configured block runs its pseudocode; said once, all that a read of `k` bits can
do (40_bit_reader.md R121 to R123). -/

namespace Sys2Proof.Machine

theorem State.decReady.run {i : Instr} {s : State} {body : State → Res State Response} (hs : s.decReady)
    (hd : i.dirNeed = .only .dec) : command i s body = .next ((body s).finish i.opcode) :=
  command_run _ hs.1 (by rw [hd]; exact allows_dec hs.2)

theorem State.encReady.run {i : Instr} {s : State} {body : State → Res State Response} (hs : s.encReady)
    (hd : i.dirNeed = .only .enc) : command i s body = .next ((body s).finish i.opcode) :=
  command_run _ hs.1 (by rw [hd]; exact allows_enc hs.2)

theorem command_any {i : Instr} {s : State} {body : State → Res State Response} (hs : s.phase = .ready)
    (hd : i.dirNeed = .any) : command i s body = .next ((body s).finish i.opcode) :=
  command_run _ hs (by rw [hd]; rfl)

/-- A run of two parts (20_memory.md R70). -/
theorem State.after_append (s : State) (is js : List Instr) : s.after (is ++ js) = (s.after is).after js := by
  induction is generalizing s with
  | nil => rfl
  | cons i is ih =>
    obtain ⟨t, ht, -⟩ := exec_comes i s
    simp only [List.cons_append, State.after, ht]
    exact ih t

/-- All that a read of `k` bits can do. -/
theorem readBits_spec (s : State) (k : Nat) (f : Nat → Wide) (opc : BitVec 8) :
    (k ≤ s.remaining.length → ∃ t, (readBits k f s).finish opc = t ∧
      OnlyReader s t ⟨.ok, BitVec.ofNat 8 k, f (bitsVal (s.remaining.take k))⟩ ∧ Consumes s t k) ∧
    (s.remaining.length < k → ∃ t, (readBits k f s).finish opc = t ∧
      OnlyReader s t ⟨.endOfData, BitVec.ofNat 8 s.remaining.length, 0⟩ ∧ RanOut s t) := by
  have he : (s.fill k).rcnt = (s.fill k).rbuf.length := rfl
  have hq : k ≤ (s.fill k).rbuf.length ↔ k ≤ s.remaining.length := s.reader.fill_enough s.src k
  unfold readBits
  dsimp only
  constructor
  · intro h
    rw [if_neg (by omega)]
    refine ⟨_, rfl, ?_, ?_⟩
    · rw [State.fill_takeVal s k h]; rfl
    · obtain ⟨a, b, c⟩ := State.read_consumes s k h
      exact ⟨a, b, c⟩
  · intro h
    rw [if_pos (by omega)]
    obtain ⟨a, b, c⟩ := s.fill_ranOut k h
    refine ⟨_, rfl, ?_, ⟨a, b, c⟩⟩
    rw [he, b]; rfl

end Sys2Proof.Machine
end

