-- ==== Sys2Proof/Laws/Codec.lean ====
section
/-! SUPPORT. The three codec commands as a cascade and what follows it (45_cascade.md R265, R267, R269), and the cascade of a
block that has the invariant. -/

namespace Sys2Proof.Machine

theorem cascadeStart_inv {s : State} (h : s.Inv) : s.cascadeStart.Inv :=
  Micros.keeps (P := State.Inv) (fun _ _ h m => m.inv h) (cascadeStart_via s) h

theorem State.Inv.asEncoder {s : State} (h : s.Inv) : s.asEncoder.Inv := by
  obtain ⟨⟨a1, a2, a3⟩, ⟨b1, b2, b3⟩, c, ⟨d1, d2, d3⟩, ⟨e1, e2, e3⟩, f⟩ := h
  exact ⟨⟨Nat.zero_le _, a2, a3⟩, ⟨b1, b2, b3⟩, c, ⟨d1, d2, d3⟩, ⟨e1, e2, e3⟩, f⟩

/-- A cascade starts with nothing excluded (45_cascade.md R261). -/
theorem cascadeStart_holds {s : State} (h : s.XsetOk) : s.cascadeStart.xset.Holds [] := by
  have hx : s.cascadeStart.xset = s.xset.clear := rfl
  rw [hx, XSet.clear_ones s.xset h]
  exact XSet.holds_nil

/-- The cascade of an encoder with the invariant, whose contexts the trie holds, completes and is followed
(45_cascade.md R272, R273). -/
theorem start_mirror (target : Option Sym) {s : State} (hi : s.Inv) (hs : suffixesResolve s.nodes s.hist) :
    ∃ e, cascade (levelOf target) (uniformOf target) s.cascadeStart.wctx s.cascadeStart = .done () e ∧
      Mirrors target (cascade decodeLevel decodeUniform s.cascadeStart.wctx) s.hist [] (s.decisions (goalOf target))
        s.cascadeStart e :=
  cascade_mirror target s.hist rfl hs hi.buffers.wbuf_le (cascadeStart_holds hi.xset) fun _ _ => List.not_mem_nil

/-- Where the cascade of a decoder with the invariant, whose contexts the trie holds, stops (45_cascade.md R269). -/
theorem start_stops (g : Goal) {s : State} (hi : s.Inv) (hs : suffixesResolve s.nodes s.hist) :
    Stops g (cascade decodeLevel decodeUniform s.cascadeStart.wctx) (s.decisions g) s.cascadeStart :=
  cascade_stops g s.hist (d := s.cascadeStart) rfl hs (cascadeStart_holds hi.xset)

/-- What a completed cascade leaves for the host to see, of an encoder (45_cascade.md R265). -/
theorem Mirrors.leftBy {target : Option Sym} {dec : State → Res State (Option Sym)} {s e : State}
    {ds : List (List Cand × Nat)} (M : Mirrors target dec s.hist [] ds s.cascadeStart e) : LeftBy s e ds := by
  refine ⟨M.wctx, M.list, fun u => ?_⟩
  have h : e.xbits.getLsbD u.toNat = e.xset.has u := rfl
  rw [h, M.excluded u]
  simp

/-- What a decoder's cascade comes to where the bits that remain begin with those of a cascade towards a symbol or the end of
the stream (45_cascade.md R269): it comes to that, has consumed exactly those bits, and moved only what a cascade moves. -/
theorem start_follows (target : Option Sym) {d : State} {rest : List Bool} (hi : d.Inv)
    (hs : suffixesResolve d.nodes d.hist) (hr : d.remaining = d.codeBits (goalOf target) ++ rest) :
    ∃ d', cascade decodeLevel decodeUniform d.cascadeStart.wctx d.cascadeStart = .done target d' ∧
      DecFrame d.cascadeStart d' ∧ Consumes d d' (d.codeBits (goalOf target)).length ∧
      LeftBy d d' (d.decisions (goalOf target)) := by
  obtain ⟨e, -, M⟩ := start_mirror target (s := d.asEncoder) hi.asEncoder hs
  have ha : Agree d.asEncoder.cascadeStart d.cascadeStart := Agree.start ⟨rfl, rfl, rfl, rfl, rfl, rfl, rfl⟩
  obtain ⟨d', h1, h2, h3, h4, h5⟩ := M.follows d.cascadeStart rest ha hr
  have hL := M.leftBy
  refine ⟨d', h1, h2, ⟨h4.1, h4.2, h4.3⟩, ?_, ⟨?_, h5⟩, ?_⟩
  · rw [h3.wctx]; exact hL.wctx
  · rw [h3.cl]; exact hL.list.1
  · rw [show d'.xbits = e.xbits from congrArg XSet.bits h3.xset]; exact hL.excluded

theorem encPut_run (sym : Sym) {s : State} (hs : s.encReady) : exec (.encPut sym) s = .next (Res.finish (
    (cascade (levelOf (some sym)) (uniformOf (some sym)) s.cascadeStart.wctx s.cascadeStart).andThen fun _ s =>
      (s.resolve sym).andThen fun _ s => .done (okRsp 0 0) s) (Instr.encPut sym).opcode) := by
  dsimp only [exec, execEncPut]
  rw [hs.run rfl]
  rfl

theorem encClose_run {s : State} (hs : s.encReady) : exec .encClose s = .next (Res.finish (
    (cascade (levelOf none) (uniformOf none) s.cascadeStart.wctx s.cascadeStart).andThen fun _ s =>
      .done (okRsp s.writer.padLen 0) (s.padZero.sinkFlush.sinkClose.setPhase .closed)) Instr.encClose.opcode) := by
  dsimp only [exec, execEncClose]
  rw [hs.run rfl]
  rfl

theorem decGet_run {s : State} (hs : s.decReady) (h0 : s.eosSeen = false) : exec .decGet s = .next (Res.finish (
    (cascade decodeLevel decodeUniform s.cascadeStart.wctx s.cascadeStart).andThen fun a s =>
      match a with
      | none => .done ⟨.endOfStream, 0, 0⟩ s.setEosSeen
      | some sym => (s.resolve sym).andThen fun _ s => .done (okRsp 8 (zext56 sym.toNat)) s) Instr.decGet.opcode) := by
  have h : ¬ s.eosSeen = true := by rw [h0]; decide
  dsimp only [exec, execDecGet]
  exact (hs.run rfl).trans (congrArg (fun x => Host.Outcome.next (Res.finish x _)) (if_neg h))

end Sys2Proof.Machine
end

