-- ==== Sys2Proof/Laws/Decode.lean ====
section
/-! SUPPORT. The fields of a command word (30_encoding.md R91, R94) and the masks of its formats (R92). -/

namespace Sys2Proof

theorem opcOf_mkWord (opc n : BitVec 8) (v : Wide) : opcOf (mkWord opc n v) = opc := by
  apply BitVec.eq_of_getLsbD_eq
  intro i hi
  simp only [opcOf, mkWord, BitVec.getLsbD_extractLsb', BitVec.getLsbD_append]
  have h1 : ¬ 64 + i < 56 := by omega
  have h2 : ¬ 64 + i - 56 < 8 := by omega
  simp [hi, h1, h2, show 64 + i - 56 - 8 = i by omega]

theorem nOf_mkWord (opc n : BitVec 8) (v : Wide) : nOf (mkWord opc n v) = n := by
  apply BitVec.eq_of_getLsbD_eq
  intro i hi
  simp only [nOf, mkWord, BitVec.getLsbD_extractLsb', BitVec.getLsbD_append]
  have h1 : ¬ 56 + i < 56 := by omega
  simp [hi, h1, show 56 + i - 56 = i by omega]

theorem vOf_mkWord (opc n : BitVec 8) (v : Wide) : vOf (mkWord opc n v) = v := by
  apply BitVec.eq_of_getLsbD_eq
  intro i hi
  simp only [vOf, mkWord, BitVec.getLsbD_extractLsb', BitVec.getLsbD_append]
  simp [hi]

/-- A word is made of its three fields (R91). -/
theorem mkWord_fields (w : Word72) : mkWord (opcOf w) (nOf w) (vOf w) = w := by
  apply BitVec.eq_of_getLsbD_eq
  intro i hi
  simp only [opcOf, nOf, vOf, mkWord, BitVec.getLsbD_extractLsb', BitVec.getLsbD_append]
  by_cases h1 : i < 56
  · simp [h1]
  · by_cases h2 : i < 64
    · simp [h1, show i - 56 < 8 by omega, show 56 + (i - 56) = i by omega]
    · simp [h1, show ¬ i - 56 < 8 by omega, show i - 56 - 8 < 8 by omega, show 64 + (i - 56 - 8) = i by omega]

theorem mkWord_and (a b c d : BitVec 8) (v x : Wide) :
    mkWord a b v &&& mkWord c d x = mkWord (a &&& c) (b &&& d) (v &&& x) := by
  unfold mkWord
  exact BitVec.and_append.trans (congrArg (· ++ (v &&& x)) BitVec.and_append)

theorem mkWord_inj {a b c d : BitVec 8} {v x : Wide} (h : mkWord a b v = mkWord c d x) : a = c ∧ b = d ∧ v = x := by
  refine ⟨?_, ?_, ?_⟩
  · rw [← opcOf_mkWord a b v, h, opcOf_mkWord]
  · rw [← nOf_mkWord a b v, h, nOf_mkWord]
  · rw [← vOf_mkWord a b v, h, vOf_mkWord]

/-- A word under a format's mask (R92). -/
theorem and_mask (f : Format) (w : Word72) : w &&& f.mask = mkWord (opcOf w) (nOf w &&& f.nMask) (vOf w &&& f.vMask) := by
  have h : opcOf w &&& 0xFF = opcOf w := by
    have : (0xFF : BitVec 8) = BitVec.allOnes 8 := rfl
    rw [this, BitVec.and_allOnes]
  conv_lhs => lhs; rw [← mkWord_fields w]
  rw [Format.mask, mkWord_and, h]

/-- A word has a format's form when the bits the format reserves are 0 (R92). -/
theorem matches_iff (f : Format) (w : Word72) : f.matches w = true ↔ nOf w &&& f.nMask = 0 ∧ vOf w &&& f.vMask = 0 := by
  rw [Format.matches, beq_iff_eq, and_mask]
  constructor
  · intro h; exact (mkWord_inj h).2
  · rintro ⟨h1, h2⟩; rw [h1, h2]

theorem decodeAs_iff (w : Word72) (i j : Instr) : decodeAs w i = some j ↔ i.format.matches w = true ∧ i = j := by
  unfold decodeAs
  split <;> simp_all

/-! ## The fields of symbols and indices -/

theorem symField_and (s : Sym) : symField s &&& (0xFFFFFFFFFFFF00 : Wide) = 0 := by
  have h : (0xFFFFFFFFFFFF00 : Wide) = (0xFFFFFFFFFFFF : BitVec 48) ++ (0 : BitVec 8) := by decide
  rw [h, symField, BitVec.and_append]; simp

theorem idxField_and (k : BitVec 9) : idxField k &&& (0xFFFFFFFFFFFE00 : Wide) = 0 := by
  have h : (0xFFFFFFFFFFFE00 : Wide) = (0x7FFFFFFFFFFF : BitVec 47) ++ (0 : BitVec 9) := by decide
  rw [h, idxField, BitVec.and_append]; simp

theorem symField_low (s : Sym) : (symField s).extractLsb' 0 8 = s := by
  apply BitVec.eq_of_getLsbD_eq
  intro i hi
  simp only [symField, BitVec.getLsbD_extractLsb', BitVec.getLsbD_append]
  simp [hi]

theorem idxField_low (k : BitVec 9) : (idxField k).extractLsb' 0 9 = k := by
  apply BitVec.eq_of_getLsbD_eq
  intro i hi
  simp only [idxField, BitVec.getLsbD_extractLsb', BitVec.getLsbD_append]
  simp [hi]

/-- A `v` field whose bits above the symbol are 0 is the field of its symbol. -/
theorem symField_of_and {v : Wide} (h : v &&& (0xFFFFFFFFFFFF00 : Wide) = 0) : symField (v.extractLsb' 0 8) = v := by
  apply BitVec.eq_of_getLsbD_eq
  intro i hi
  simp only [symField, BitVec.getLsbD_append, BitVec.getLsbD_extractLsb']
  by_cases h8 : i < 8
  · simp [h8]
  · have hb := congrArg (fun x => x.getLsbD i) h
    have hm : (0xFFFFFFFFFFFF00 : Wide) = (BitVec.allOnes 48) ++ (0 : BitVec 8) := by decide
    rw [hm] at hb
    simp only [BitVec.getLsbD_and, BitVec.getLsbD_append, h8, if_false, BitVec.getLsbD_allOnes] at hb
    have h48 : i - 8 < 48 := by omega
    simpa [h8, h48] using hb.symm

theorem idxField_of_and {v : Wide} (h : v &&& (0xFFFFFFFFFFFE00 : Wide) = 0) : idxField (v.extractLsb' 0 9) = v := by
  apply BitVec.eq_of_getLsbD_eq
  intro i hi
  simp only [idxField, BitVec.getLsbD_append, BitVec.getLsbD_extractLsb']
  by_cases h8 : i < 9
  · simp [h8]
  · have hb := congrArg (fun x => x.getLsbD i) h
    have hm : (0xFFFFFFFFFFFE00 : Wide) = (BitVec.allOnes 47) ++ (0 : BitVec 9) := by decide
    rw [hm] at hb
    simp only [BitVec.getLsbD_and, BitVec.getLsbD_append, h8, if_false, BitVec.getLsbD_allOnes] at hb
    have h48 : i - 9 < 47 := by omega
    simpa [h8, h48] using hb.symm

/-- An `n` field whose upper seven bits are 0 is the field of its selector, of its direction, of its page. -/
theorem oneBit_of_and {n : BitVec 8} (h : n &&& 0xFE = 0) : n = if n.getLsbD 0 then 1 else 0 := by
  revert n; decide

/-- The word of a command has its format's form (R92). -/
theorem matches_encode (i : Instr) : i.format.matches (encode i) = true := by
  rw [matches_iff, encode, nOf_mkWord, vOf_mkWord]
  have hb : ∀ b : BitVec 8, b &&& 0 = 0 := fun b => BitVec.and_zero
  have hv : ∀ b : Wide, b &&& 0 = 0 := fun b => BitVec.and_zero
  cases i <;> simp only [Instr.format, Instr.nField, Instr.vField, Format.nMask, Format.vMask] <;>
    refine ⟨?_, ?_⟩ <;> first
    | exact hb _
    | exact hv _
    | exact symField_and _
    | exact idxField_and _
    | rfl
    | (rename_i c _; cases c <;> rfl)
    | (rename_i c; cases c <;> rfl)

/-! ## What a decoded word is -/

theorem opcOf_eq {w : Word72} {k : Nat} (h : (opcOf w).toNat = k) : opcOf w = BitVec.ofNat 8 k := by
  rw [← h]; simp

/-- The word of a command has the command's opcode, and its format's reserved bits are 0 (R92). -/
theorem decode_spec {w : Word72} {i : Instr} (h : decode w = some i) : opcOf w = i.opcode ∧ i.format.matches w = true := by
  unfold decode at h
  split at h
  all_goals first
    | (rename_i ho
       obtain ⟨h1, rfl⟩ := (decodeAs_iff _ _ _).1 h
       exact ⟨opcOf_eq ho, h1⟩)
    | cases h

/-- A word with the opcode of a command is decoded by that command's row of the opcode map (R96). -/
theorem decode_row (i : Instr) {w : Word72} (h : opcOf w = i.opcode) :
    ∃ j, decode w = decodeAs w j ∧ j.opcode = i.opcode ∧ j.format = i.format := by
  cases i <;> (unfold decode; rw [h]; exact ⟨_, rfl, rfl, rfl⟩)

/-- The one bit of a selector, a direction or a page (R94). -/
theorem selField_of_and {n : BitVec 8} (h : n &&& 0xFE = 0) : selField (if n.getLsbD 0 = true then Sel.work else .hist) = n := by
  conv_rhs => rw [oneBit_of_and h]
  split <;> rfl

theorem dirField_of_and {n : BitVec 8} (h : n &&& 0xFE = 0) : dirField (if n.getLsbD 0 = true then Dir.dec else .enc) = n := by
  conv_rhs => rw [oneBit_of_and h]
  split <;> rfl

theorem pageField_of_and {n : BitVec 8} (h : n &&& 0xFE = 0) :
    pageField (if n.getLsbD 0 = true then Page.maxOrder else .status) = n := by
  conv_rhs => rw [oneBit_of_and h]
  split <;> rfl

end Sys2Proof
end

