-- ==== Sys2Proof/Laws/Merges.lean ====
section
/-! SUPPORT. HuffBuild makes, of every sequence of weights, the one tree that the merges of 46_huffman.md R291 make, and a path
leads to its leaf (R294). -/

namespace Sys2Proof.Machine

/-! ## The merges -/

theorem HItem.before_iff {a x : HItem} : a.before x = true ↔ a.goesBefore x := by
  simp only [HItem.before, HItem.goesBefore, Bool.or_eq_true, Bool.and_eq_true, decide_eq_true_eq, beq_iff_eq]

/-- Which set `A` it is, not the order its members are listed in, decides what is merged (46_huffman.md R291). -/
theorem Merges.perm {m : Nat} {A B : List HItem} {t : HTree} (h : Merges m A t) (hp : A.Perm B) : Merges m B t := by
  cases h with
  | root => rw [List.perm_singleton.1 hp.symm]; exact .root m _
  | merge _ members first second go => exact .merge m (hp.symm.trans members) first second go

/-- `mergeAll` on a set kept in the order of R291 is HuffBuild's loop. -/
theorem merges_mergeAll : ∀ (turns m : Nat) {A : List HItem}, A.length = turns + 1 → (∀ x ∈ A, x.idx < m) →
    A.Pairwise (fun a b => a.before b = true) → ∃ x, mergeAll turns m A = [x] ∧ Merges m A x.tree
  | 0, m, A, hl, _, _ => by
    obtain ⟨x, rfl⟩ := List.length_eq_one_iff.1 hl
    exact ⟨x, by unfold mergeAll; rfl, .root m x⟩
  | turns + 1, m, [], hl, _, _ => by simp at hl
  | turns + 1, m, [_], hl, _, _ => by simp at hl
  | turns + 1, m, a :: b :: rest, hl, hf, hs => by
    obtain ⟨s1, s2⟩ := List.pairwise_cons.1 hs
    obtain ⟨s3, s4⟩ := List.pairwise_cons.1 s2
    set n : HItem := ⟨a.w + b.w, m, .node a.tree b.tree⟩ with hn
    have hp := insertItem_perm n rest
    have hf' : ∀ y ∈ insertItem n rest, y.idx < m + 1 := by
      intro y hy
      rcases List.mem_cons.1 (hp.mem_iff.1 hy) with rfl | hy
      · exact Nat.lt_succ_self m
      · have := hf y (by simp [hy]); omega
    obtain ⟨x, h1, h2⟩ := merges_mergeAll turns (m + 1) (A := insertItem n rest)
      (by rw [length_insertItem]; simpa using hl) hf'
      (insertItem_sorted s4 fun y hy => by have := hf y (by simp [hy]); show m ≠ y.idx; omega)
    exact ⟨x, h1, .merge m (.refl _) (fun y hy => HItem.before_iff.1 (s1 y hy)) (fun y hy => HItem.before_iff.1 (s3 y hy))
      (h2.perm hp)⟩

theorem goesBefore_asymm {a b : HItem} (h : a.goesBefore b) : ¬ b.goesBefore a := by
  unfold HItem.goesBefore at *; omega

/-- HuffBuild's loop makes one tree (46_huffman.md R291): the least two nodes are determined. -/
theorem Merges.unique {m : Nat} {A : List HItem} {t : HTree} (h : Merges m A t) : ∀ {B : List HItem} {u : HTree}, A.Perm B →
    Merges m B u → u = t := by
  induction h with
  | root m x =>
    intro B u hp k
    rw [List.perm_singleton.1 hp.symm] at k
    cases k with
    | root => rfl
    | merge _ members => exact absurd members.length_eq (by simp)
  | @merge m A rest a b t members first second go ih =>
    intro B u hp k
    cases k with
    | root => exact absurd (hp.symm.trans members).length_eq (by simp)
    | @merge _ _ rest' a' b' _ members' first' second' go' =>
      have hq : (a :: b :: rest).Perm (a' :: b' :: rest') := members.symm.trans (hp.trans members')
      have ha : a = a' := by
        rcases List.mem_cons.1 (hq.mem_iff.1 List.mem_cons_self) with h | h
        · exact h
        · rcases List.mem_cons.1 (hq.mem_iff.2 List.mem_cons_self) with h' | h'
          · exact h'.symm
          · exact absurd (first _ h') (goesBefore_asymm (first' _ h))
      subst ha
      have hq := List.perm_cons a |>.1 hq
      have hb : b = b' := by
        rcases List.mem_cons.1 (hq.mem_iff.1 List.mem_cons_self) with h | h
        · exact h
        · rcases List.mem_cons.1 (hq.mem_iff.2 List.mem_cons_self) with h' | h'
          · exact h'.symm
          · exact absurd (second _ h') (goesBefore_asymm (second' _ h))
      subst hb
      exact ih ((List.perm_cons b |>.1 hq).cons _) go'

/-! ## The leaves -/

theorem leavesFrom_perm (i : Nat) (ws : List Nat) :
    (leavesFrom i ws).Perm (ws.mapIdx fun j w => ⟨w, i + j, .leaf (i + j)⟩) := by
  induction ws generalizing i with
  | nil => exact .refl _
  | cons w ws ih =>
    rw [leavesFrom, List.mapIdx_cons]
    refine (insertItem_perm _ _).trans (List.Perm.cons _ ((ih (i + 1)).trans ?_))
    simp only [Nat.add_assoc, Nat.add_comm 1]
    exact .refl _

theorem leavesFrom_sorted (i : Nat) (ws : List Nat) :
    (leavesFrom i ws).Pairwise (fun a b => a.before b = true) ∧ ∀ x ∈ leavesFrom i ws, i ≤ x.idx := by
  induction ws generalizing i with
  | nil => exact ⟨.nil, fun _ h => absurd h List.not_mem_nil⟩
  | cons w ws ih =>
    obtain ⟨h1, h2⟩ := ih (i + 1)
    refine ⟨insertItem_sorted h1 fun y hy => ?_, fun x hx => ?_⟩
    · have := h2 y hy; show i ≠ y.idx; omega
    · rcases List.mem_cons.1 ((insertItem_perm _ _).mem_iff.1 hx) with rfl | h
      · exact Nat.le_refl _
      · have := h2 x h; omega

/-- HuffBuild makes the one tree of the merges of R291, for every sequence of weights. -/
theorem huffBuild_isTreeOf {ws : List Nat} (h : ws ≠ []) : ∃ t, huffBuild ws = some t ∧ IsTreeOf ws t := by
  have hl : ws.length = ws.length - 1 + 1 := by
    have := List.length_pos_iff.2 h; omega
  have hp : (leavesFrom 0 ws).Perm (leavesOf ws) := by
    have := leavesFrom_perm 0 ws
    simpa [leavesOf] using this
  have hf : ∀ x ∈ leavesFrom 0 ws, x.idx < ws.length := by
    intro x hx
    obtain ⟨i, hi, rfl⟩ := List.mem_mapIdx.1 (hp.mem_iff.1 hx)
    exact hi
  obtain ⟨x, h1, h2⟩ := merges_mergeAll (ws.length - 1) ws.length (A := leavesFrom 0 ws)
    (by rw [length_leavesFrom]; exact hl) hf (leavesFrom_sorted 0 ws).1
  refine ⟨x.tree, by rw [huffBuild, h1]; rfl, fun u => ⟨fun hu => h2.unique hp hu, ?_⟩⟩
  rintro rfl
  exact h2.perm hp

/-- A path leads to its leaf (46_huffman.md R294). -/
theorem HTree.follow_path {i : Nat} : ∀ {t : HTree} {bs : List Bool}, t.path i = some bs → t.follow bs = some (.leaf i)
  | .leaf j, bs, h => by
    unfold HTree.path at h
    split at h
    · next hj => cases h; subst hj; rfl
    · cases h
  | .node l r, bs, h => by
    rw [HTree.path_node] at h
    cases h1 : l.path i with
    | some cs => rw [h1] at h; cases h; exact HTree.follow_path (t := l) h1
    | none =>
      rw [h1] at h
      cases h2 : r.path i with
      | some cs => rw [h2] at h; cases h; exact HTree.follow_path (t := r) h2
      | none => rw [h2] at h; cases h

end Sys2Proof.Machine
end

