-- ==== Sys2Proof/Laws/PerInstr.lean ====
section
/-! SUPPORT. The family `Encodes`, one lemma per constructor of Instr: the decoder takes a command's own word to the
command's own row of the opcode map, and reads its operands back (30_encoding.md R94, R96). What the row's format asks of
the reserved bits is `matches_encode`. -/

namespace Sys2Proof.Laws.Encodes

/-- The decoder reads the word of `i` as `i`, subject to the reserved bits of its format. -/
def Statement (i : Instr) : Prop := decode (encode i) = decodeAs (encode i) i

theorem of_row {i j : Instr} {opc : BitVec 8} (ho : i.opcode = opc) (h : opcOf (encode i) = opc → decode (encode i) = decodeAs (encode i) j)
    (hj : j = i) : Statement i := by
  subst hj
  exact h (ho ▸ opcOf_mkWord _ _ _)

theorem nOf_encode (i : Instr) : nOf (encode i) = i.nField := nOf_mkWord _ _ _
theorem vOf_encode (i : Instr) : vOf (encode i) = i.vField := vOf_mkWord _ _ _

theorem sel_field (c : Sel) : (if (selField c).getLsbD 0 = true then Sel.work else .hist) = c := by cases c <;> rfl
theorem dir_field (d : Dir) : (if (dirField d).getLsbD 0 = true then Dir.dec else .enc) = d := by cases d <;> rfl
theorem page_field (p : Page) : (if (pageField p).getLsbD 0 = true then Page.maxOrder else .status) = p := by cases p <;> rfl

theorem init (d : Dir) (v : Wide) : Statement (.init d v) :=
  of_row (j := .init (dirOf (encode (.init d v))) (vOf (encode (.init d v)))) rfl
    (fun h => by unfold decode; rw [h]; rfl) (by simp only [dirOf, dir_field, nOf_encode, Instr.nField, vOf_encode, Instr.vField])

theorem getStatus (p : Page) : Statement (.getStatus p) :=
  of_row (j := .getStatus (pageOf (encode (.getStatus p)))) rfl
    (fun h => by unfold decode; rw [h]; rfl) (by simp only [pageOf, page_field, nOf_encode, Instr.nField])

theorem brReadU (n : BitVec 8) : Statement (.brReadU n) :=
  of_row (j := .brReadU (nOf (encode (.brReadU n)))) rfl
    (fun h => by unfold decode; rw [h]; rfl) (by simp only [nOf_encode, Instr.nField])

theorem brReadS (n : BitVec 8) : Statement (.brReadS n) :=
  of_row (j := .brReadS (nOf (encode (.brReadS n)))) rfl
    (fun h => by unfold decode; rw [h]; rfl) (by simp only [nOf_encode, Instr.nField])

theorem brReadBit : Statement .brReadBit := of_row (j := .brReadBit) rfl (fun h => by unfold decode; rw [h]; rfl) rfl

theorem brReadU8 : Statement .brReadU8 := of_row (j := .brReadU8) rfl (fun h => by unfold decode; rw [h]; rfl) rfl

theorem brReadS8 : Statement .brReadS8 := of_row (j := .brReadS8) rfl (fun h => by unfold decode; rw [h]; rfl) rfl

theorem brReadU16BE : Statement .brReadU16BE := of_row (j := .brReadU16BE) rfl (fun h => by unfold decode; rw [h]; rfl) rfl

theorem brReadU16LE : Statement .brReadU16LE := of_row (j := .brReadU16LE) rfl (fun h => by unfold decode; rw [h]; rfl) rfl

theorem brReadS16BE : Statement .brReadS16BE := of_row (j := .brReadS16BE) rfl (fun h => by unfold decode; rw [h]; rfl) rfl

theorem brReadS16LE : Statement .brReadS16LE := of_row (j := .brReadS16LE) rfl (fun h => by unfold decode; rw [h]; rfl) rfl

theorem brReadU32BE : Statement .brReadU32BE := of_row (j := .brReadU32BE) rfl (fun h => by unfold decode; rw [h]; rfl) rfl

theorem brReadU32LE : Statement .brReadU32LE := of_row (j := .brReadU32LE) rfl (fun h => by unfold decode; rw [h]; rfl) rfl

theorem brReadS32BE : Statement .brReadS32BE := of_row (j := .brReadS32BE) rfl (fun h => by unfold decode; rw [h]; rfl) rfl

theorem brReadS32LE : Statement .brReadS32LE := of_row (j := .brReadS32LE) rfl (fun h => by unfold decode; rw [h]; rfl) rfl

theorem brAlign : Statement .brAlign := of_row (j := .brAlign) rfl (fun h => by unfold decode; rw [h]; rfl) rfl

theorem brCount : Statement .brCount := of_row (j := .brCount) rfl (fun h => by unfold decode; rw [h]; rfl) rfl

theorem brSkip (v : Wide) : Statement (.brSkip v) :=
  of_row (j := .brSkip (vOf (encode (.brSkip v)))) rfl
    (fun h => by unfold decode; rw [h]; rfl) (by simp only [vOf_encode, Instr.vField])

theorem brReadByte : Statement .brReadByte := of_row (j := .brReadByte) rfl (fun h => by unfold decode; rw [h]; rfl) rfl

theorem brMark (v : Wide) : Statement (.brMark v) :=
  of_row (j := .brMark (vOf (encode (.brMark v)))) rfl
    (fun h => by unfold decode; rw [h]; rfl) (by simp only [vOf_encode, Instr.vField])

theorem brReset : Statement .brReset := of_row (j := .brReset) rfl (fun h => by unfold decode; rw [h]; rfl) rfl

theorem brIsAligned : Statement .brIsAligned := of_row (j := .brIsAligned) rfl (fun h => by unfold decode; rw [h]; rfl) rfl

theorem bwWriteBits (n : BitVec 8) (v : Wide) : Statement (.bwWriteBits n v) :=
  of_row (j := .bwWriteBits (nOf (encode (.bwWriteBits n v))) (vOf (encode (.bwWriteBits n v)))) rfl
    (fun h => by unfold decode; rw [h]; rfl) (by simp only [nOf_encode, Instr.nField, vOf_encode, Instr.vField])

theorem bwWriteBit (v : Wide) : Statement (.bwWriteBit v) :=
  of_row (j := .bwWriteBit (vOf (encode (.bwWriteBit v)))) rfl
    (fun h => by unfold decode; rw [h]; rfl) (by simp only [vOf_encode, Instr.vField])

theorem bwWrite8 (v : Wide) : Statement (.bwWrite8 v) :=
  of_row (j := .bwWrite8 (vOf (encode (.bwWrite8 v)))) rfl
    (fun h => by unfold decode; rw [h]; rfl) (by simp only [vOf_encode, Instr.vField])

theorem bwWrite16BE (v : Wide) : Statement (.bwWrite16BE v) :=
  of_row (j := .bwWrite16BE (vOf (encode (.bwWrite16BE v)))) rfl
    (fun h => by unfold decode; rw [h]; rfl) (by simp only [vOf_encode, Instr.vField])

theorem bwWrite16LE (v : Wide) : Statement (.bwWrite16LE v) :=
  of_row (j := .bwWrite16LE (vOf (encode (.bwWrite16LE v)))) rfl
    (fun h => by unfold decode; rw [h]; rfl) (by simp only [vOf_encode, Instr.vField])

theorem bwWrite32BE (v : Wide) : Statement (.bwWrite32BE v) :=
  of_row (j := .bwWrite32BE (vOf (encode (.bwWrite32BE v)))) rfl
    (fun h => by unfold decode; rw [h]; rfl) (by simp only [vOf_encode, Instr.vField])

theorem bwWrite32LE (v : Wide) : Statement (.bwWrite32LE v) :=
  of_row (j := .bwWrite32LE (vOf (encode (.bwWrite32LE v)))) rfl
    (fun h => by unfold decode; rw [h]; rfl) (by simp only [vOf_encode, Instr.vField])

theorem bwPad : Statement .bwPad := of_row (j := .bwPad) rfl (fun h => by unfold decode; rw [h]; rfl) rfl

theorem bwDiscard : Statement .bwDiscard := of_row (j := .bwDiscard) rfl (fun h => by unfold decode; rw [h]; rfl) rfl

theorem bwFlush : Statement .bwFlush := of_row (j := .bwFlush) rfl (fun h => by unfold decode; rw [h]; rfl) rfl

theorem bwPadFlush : Statement .bwPadFlush := of_row (j := .bwPadFlush) rfl (fun h => by unfold decode; rw [h]; rfl) rfl

theorem bwClose : Statement .bwClose := of_row (j := .bwClose) rfl (fun h => by unfold decode; rw [h]; rfl) rfl

theorem bwIsAligned : Statement .bwIsAligned := of_row (j := .bwIsAligned) rfl (fun h => by unfold decode; rw [h]; rfl) rfl

theorem cxOrder (c : Sel) : Statement (.cxOrder c) :=
  of_row (j := .cxOrder (selOf (encode (.cxOrder c)))) rfl
    (fun h => by unfold decode; rw [h]; rfl) (by simp only [selOf, sel_field, nOf_encode, Instr.nField])

theorem cxDrop (c : Sel) : Statement (.cxDrop c) :=
  of_row (j := .cxDrop (selOf (encode (.cxDrop c)))) rfl
    (fun h => by unfold decode; rw [h]; rfl) (by simp only [selOf, sel_field, nOf_encode, Instr.nField])

theorem cxAppend (c : Sel) (sym : Sym) : Statement (.cxAppend c sym) :=
  of_row (j := .cxAppend (selOf (encode (.cxAppend c sym))) (symOf (encode (.cxAppend c sym)))) rfl
    (fun h => by unfold decode; rw [h]; rfl) (by simp only [selOf, sel_field, symOf, symField_low, nOf_encode, Instr.nField, vOf_encode, Instr.vField])

theorem cxGetAt (c : Sel) (v : Wide) : Statement (.cxGetAt c v) :=
  of_row (j := .cxGetAt (selOf (encode (.cxGetAt c v))) (vOf (encode (.cxGetAt c v)))) rfl
    (fun h => by unfold decode; rw [h]; rfl) (by simp only [selOf, sel_field, nOf_encode, Instr.nField, vOf_encode, Instr.vField])

theorem cxClone : Statement .cxClone := of_row (j := .cxClone) rfl (fun h => by unfold decode; rw [h]; rfl) rfl

theorem xsExclude (sym : Sym) : Statement (.xsExclude sym) :=
  of_row (j := .xsExclude (symOf (encode (.xsExclude sym)))) rfl
    (fun h => by unfold decode; rw [h]; rfl) (by simp only [symOf, symField_low, vOf_encode, Instr.vField])

theorem xsIsExcluded (sym : Sym) : Statement (.xsIsExcluded sym) :=
  of_row (j := .xsIsExcluded (symOf (encode (.xsIsExcluded sym)))) rfl
    (fun h => by unfold decode; rw [h]; rfl) (by simp only [symOf, symField_low, vOf_encode, Instr.vField])

theorem xsClear : Statement .xsClear := of_row (j := .xsClear) rfl (fun h => by unfold decode; rw [h]; rfl) rfl

theorem xsCount : Statement .xsCount := of_row (j := .xsCount) rfl (fun h => by unfold decode; rw [h]; rfl) rfl

theorem mdAdd (c : Sel) (sym : Sym) : Statement (.mdAdd c sym) :=
  of_row (j := .mdAdd (selOf (encode (.mdAdd c sym))) (symOf (encode (.mdAdd c sym)))) rfl
    (fun h => by unfold decode; rw [h]; rfl) (by simp only [selOf, sel_field, symOf, symField_low, nOf_encode, Instr.nField, vOf_encode, Instr.vField])

theorem mdGetList (c : Sel) : Statement (.mdGetList c) :=
  of_row (j := .mdGetList (selOf (encode (.mdGetList c)))) rfl
    (fun h => by unfold decode; rw [h]; rfl) (by simp only [selOf, sel_field, nOf_encode, Instr.nField])

theorem mdGetUniform : Statement .mdGetUniform := of_row (j := .mdGetUniform) rfl (fun h => by unfold decode; rw [h]; rfl) rfl

theorem mdFindSym (sym : Sym) : Statement (.mdFindSym sym) :=
  of_row (j := .mdFindSym (symOf (encode (.mdFindSym sym)))) rfl
    (fun h => by unfold decode; rw [h]; rfl) (by simp only [symOf, symField_low, vOf_encode, Instr.vField])

theorem mdFindEsc : Statement .mdFindEsc := of_row (j := .mdFindEsc) rfl (fun h => by unfold decode; rw [h]; rfl) rfl

theorem mdFindEos : Statement .mdFindEos := of_row (j := .mdFindEos) rfl (fun h => by unfold decode; rw [h]; rfl) rfl

theorem mdExcludeAll : Statement .mdExcludeAll := of_row (j := .mdExcludeAll) rfl (fun h => by unfold decode; rw [h]; rfl) rfl

theorem mdIsEsc (idx : BitVec 9) : Statement (.mdIsEsc idx) :=
  of_row (j := .mdIsEsc (idxOf (encode (.mdIsEsc idx)))) rfl
    (fun h => by unfold decode; rw [h]; rfl) (by simp only [idxOf, idxField_low, vOf_encode, Instr.vField])

theorem mdIsEos (idx : BitVec 9) : Statement (.mdIsEos idx) :=
  of_row (j := .mdIsEos (idxOf (encode (.mdIsEos idx)))) rfl
    (fun h => by unfold decode; rw [h]; rfl) (by simp only [idxOf, idxField_low, vOf_encode, Instr.vField])

theorem clLen : Statement .clLen := of_row (j := .clLen) rfl (fun h => by unfold decode; rw [h]; rfl) rfl

theorem clGet (idx : BitVec 9) : Statement (.clGet idx) :=
  of_row (j := .clGet (idxOf (encode (.clGet idx)))) rfl
    (fun h => by unfold decode; rw [h]; rfl) (by simp only [idxOf, idxField_low, vOf_encode, Instr.vField])

theorem hfEncode (idx : BitVec 9) : Statement (.hfEncode idx) :=
  of_row (j := .hfEncode (idxOf (encode (.hfEncode idx)))) rfl
    (fun h => by unfold decode; rw [h]; rfl) (by simp only [idxOf, idxField_low, vOf_encode, Instr.vField])

theorem hfDecode : Statement .hfDecode := of_row (j := .hfDecode) rfl (fun h => by unfold decode; rw [h]; rfl) rfl

theorem encPut (sym : Sym) : Statement (.encPut sym) :=
  of_row (j := .encPut (symOf (encode (.encPut sym)))) rfl
    (fun h => by unfold decode; rw [h]; rfl) (by simp only [symOf, symField_low, vOf_encode, Instr.vField])

theorem encClose : Statement .encClose := of_row (j := .encClose) rfl (fun h => by unfold decode; rw [h]; rfl) rfl

theorem decGet : Statement .decGet := of_row (j := .decGet) rfl (fun h => by unfold decode; rw [h]; rfl) rfl

theorem decClose : Statement .decClose := of_row (j := .decClose) rfl (fun h => by unfold decode; rw [h]; rfl) rfl

end Sys2Proof.Laws.Encodes
end

