-- ==== Sys2Proof/Laws/Values.lean ====
section
/-! SUPPORT. The numbers that reads return and writes take (20_memory.md R64, R65, 40_bit_reader.md section 3), computed as
the pseudocode computes them, are those the claims name. -/

namespace Sys2Proof.Machine

theorem msbBits_eq_map (x k : Nat) : msbBits x k = (List.range k).map fun j => x.testBit (k - 1 - j) := by
  induction k with
  | zero => rfl
  | succ k ih =>
    rw [msbBits, ih, List.range_succ_eq_map, List.map_cons, List.map_map]
    congr 1
    refine List.map_congr_left fun j hj => ?_
    have := List.mem_range.1 hj
    simp only [Function.comp]
    congr 1
    omega

/-- The low bits of an operand, most significant first (20_memory.md R64). -/
theorem fieldBits_low (v : Wide) (k : Nat) : fieldBits v 0 k = msbBits v.toNat k := by
  rw [msbBits_eq_map, fieldBits]
  refine List.map_congr_left fun j _ => ?_
  simp [BitVec.testBit_toNat]

/-- A field of an operand, most significant bit first (20_memory.md R64). -/
theorem fieldBits_field (v : Wide) (lo k : Nat) : fieldBits v lo k = msbBits (v.extractLsb' lo k).toNat k := by
  rw [msbBits_eq_map, fieldBits]
  refine List.map_congr_left fun j hj => ?_
  have := List.mem_range.1 hj
  rw [BitVec.testBit_toNat, BitVec.getLsbD_extractLsb']
  simp [show k - 1 - j < k by omega]

@[simp] theorem length_fieldBits (v : Wide) (lo k : Nat) : (fieldBits v lo k).length = k := by simp [fieldBits]

/-- The number of the low bits of an operand. -/
theorem bitsVal_fieldBits (v : Wide) (k : Nat) : bitsVal (fieldBits v 0 k) = v.toNat % 2 ^ k := by
  rw [fieldBits_low, bitsVal_msbBits]

/-- `sext_56` of a number of width `n` (40_bit_reader.md R125). -/
theorem sext56_eq {n x : Nat} (hn : n ≤ 56) (hx : x < 2 ^ n) : sext56 n x = signed56 n x := by
  rw [sext56, signed56]
  by_cases h0 : n = 0
  · subst h0
    have : x = 0 := by omega
    subst this; decide
  · rw [BitVec.signExtend]
    congr 1
    have hp : 2 ^ n = 2 * 2 ^ (n - 1) := by rw [← pow_succ']; congr 1; omega
    rw [BitVec.toInt_eq_toNat_cond, BitVec.toNat_ofNat, Nat.mod_eq_of_lt hx]
    by_cases h : x < 2 ^ (n - 1)
    · rw [if_pos (by omega), if_pos h]
    · rw [if_neg (by omega), if_neg h]; push_cast; rfl

theorem toNat_append_add {m n : Nat} (x : BitVec m) (y : BitVec n) : (x ++ y).toNat = x.toNat * 2 ^ n + y.toNat := by
  rw [BitVec.toNat_append, ← Nat.shiftLeft_add_eq_or_of_lt y.isLt, Nat.shiftLeft_eq]

/-- The first byte of a sequence of bits, and the rest of it. -/
theorem bitsVal_byte {bs : List Bool} {k : Nat} (h : bs.length = 8 + k) :
    bitsVal bs = bitsVal (bs.take 8) * 2 ^ k + bitsVal (bs.drop 8) ∧ bitsVal (bs.take 8) < 256 ∧
      bitsVal (bs.drop 8) < 2 ^ k := by
  have h1 := bitsVal_lt (bs.take 8)
  have h2 := bitsVal_lt (bs.drop 8)
  rw [List.length_take, h, show min 8 (8 + k) = 8 by omega] at h1
  rw [List.length_drop, h, show 8 + k - 8 = k by omega] at h2
  refine ⟨?_, h1, h2⟩
  conv_lhs => rw [← List.take_append_drop 8 bs]
  rw [bitsVal_append, List.length_drop, h, show 8 + k - 8 = k by omega]

/-- `swap16` of the bits read (40_bit_reader.md, section 3). -/
theorem swap16_eq {bs : List Bool} (h : bs.length = 16) : swap16 (bitsVal bs) = leVal 2 bs := by
  obtain ⟨e, h1, h2⟩ := bitsVal_byte (k := 8) h
  have e2 : (bs.drop 8).take 8 = bs.drop 8 := List.take_of_length_le (by simp [h])
  simp only [swap16, leVal, e2, toNat_append_add, BitVec.extractLsb'_toNat, BitVec.toNat_ofNat, Nat.shiftRight_eq_div_pow]
  rw [e]
  omega

/-- `swap32` of the bits read (40_bit_reader.md, section 3). -/
theorem swap32_eq {bs : List Bool} (h : bs.length = 32) : swap32 (bitsVal bs) = leVal 4 bs := by
  obtain ⟨e1, h1, -⟩ := bitsVal_byte (k := 24) h
  have hd : (bs.drop 8).length = 24 := by simp [h]
  obtain ⟨e2, h2, -⟩ := bitsVal_byte (k := 16) hd
  have hdd : ((bs.drop 8).drop 8).length = 16 := by rw [List.length_drop, hd]
  obtain ⟨e3, h3, h4⟩ := bitsVal_byte (k := 8) hdd
  have e4 : (((bs.drop 8).drop 8).drop 8).take 8 = ((bs.drop 8).drop 8).drop 8 :=
    List.take_of_length_le (by rw [List.length_drop, hdd])
  simp only [swap32, leVal, e4, toNat_append_add, BitVec.extractLsb'_toNat, BitVec.toNat_ofNat, Nat.shiftRight_eq_div_pow]
  rw [e1, e2, e3]
  generalize bitsVal (bs.take 8) = a at *
  generalize bitsVal ((bs.drop 8).take 8) = b at *
  generalize bitsVal (((bs.drop 8).drop 8).take 8) = c at *
  generalize bitsVal (((bs.drop 8).drop 8).drop 8) = d at *
  clear e1 e2 e3 e4 hd hdd h
  have q : (a * 2 ^ 24 + (b * 2 ^ 16 + (c * 2 ^ 8 + d))) % 2 ^ 32 = a * 2 ^ 24 + (b * 2 ^ 16 + (c * 2 ^ 8 + d)) :=
    Nat.mod_eq_of_lt (by omega)
  rw [q]
  have q0 : (a * 2 ^ 24 + (b * 2 ^ 16 + (c * 2 ^ 8 + d))) / 2 ^ 0 % 2 ^ 8 = d := by omega
  have q1 : (a * 2 ^ 24 + (b * 2 ^ 16 + (c * 2 ^ 8 + d))) / 2 ^ 8 % 2 ^ 8 = c := by omega
  have q2 : (a * 2 ^ 24 + (b * 2 ^ 16 + (c * 2 ^ 8 + d))) / 2 ^ 16 % 2 ^ 8 = b := by omega
  have q3 : (a * 2 ^ 24 + (b * 2 ^ 16 + (c * 2 ^ 8 + d))) / 2 ^ 24 % 2 ^ 8 = a := by omega
  rw [q0, q1, q2, q3]
  omega

end Sys2Proof.Machine
end

