-- ==== Sys2Proof/WellFormed.lean ====
section
/-! DEFINITION. Which commands have operands inside the legal ranges of 30_encoding.md R94 that the word alone decides.
Every command decodes, runs and is modelled; an ill-formed one is a command the block answers with `F_OUT_OF_RANGE`
(R95; assumption log 20). -/

namespace Sys2Proof

/-- A legal width: 0 to `MAXBITS` (R94). -/
def legalWidth (n : BitVec 8) : Bool := decide (n.toNat ≤ maxBits)

/-- A candidate index that some list can hold: below `CL_CAP` (10_state.md R39). -/
def legalIndex (idx : BitVec 9) : Bool := decide (idx.toNat < clCap)

/-- The command's static operands are in their legal ranges (R94). -/
def Instr.wellFormed : Instr → Bool
  | .brReadU n | .brReadS n => legalWidth n
  | .bwWriteBits n _ => legalWidth n
  | .mdIsEsc idx | .mdIsEos idx | .clGet idx | .hfEncode idx => legalIndex idx
  | .init _ _ | .getStatus _ => true
  | .brReadBit | .brReadU8 | .brReadS8 | .brReadU16BE | .brReadU16LE | .brReadS16BE | .brReadS16LE => true
  | .brReadU32BE | .brReadU32LE | .brReadS32BE | .brReadS32LE => true
  | .brAlign | .brCount | .brSkip _ | .brReadByte | .brMark _ | .brReset | .brIsAligned => true
  | .bwWriteBit _ | .bwWrite8 _ | .bwWrite16BE _ | .bwWrite16LE _ | .bwWrite32BE _ | .bwWrite32LE _ => true
  | .bwPad | .bwDiscard | .bwFlush | .bwPadFlush | .bwClose | .bwIsAligned => true
  | .cxOrder _ | .cxDrop _ | .cxAppend _ _ | .cxGetAt _ _ | .cxClone => true
  | .xsExclude _ | .xsIsExcluded _ | .xsClear | .xsCount => true
  | .mdAdd _ _ | .mdGetList _ | .mdGetUniform | .mdFindSym _ | .mdFindEsc | .mdFindEos | .mdExcludeAll => true
  | .clLen | .hfDecode | .encPut _ | .encClose | .decGet | .decClose => true

end Sys2Proof
end

