-- ==== Sys2Proof/Tests/Slice0.lean ====
section
/-! SUPPORT. Tests: words written out from the spec's encoding, ill-formed commands, one step of each command with the answers
that spec/95_test_vectors.md and the rules' examples give, and for each statement with hypotheses a state and operands
that meet them. -/

namespace Sys2Proof.Tests

open Sys2Proof.Machine

/-! ## Ill-formed commands (30_encoding.md R94, R95) -/

theorem test_illFormed_widths :
    [Instr.brReadU 57, .brReadS 200, .bwWriteBits 57 0].map Instr.wellFormed = [false, false, false] := by decide

theorem test_illFormed_indices :
    [Instr.mdIsEsc 258, .mdIsEos 258, .clGet 511, .hfEncode 300].map Instr.wellFormed = [false, false, false, false] := by
  decide

theorem test_wellFormed_bounds :
    [Instr.brReadU 56, .brReadS 0, .bwWriteBits 56 0, .mdIsEsc 257, .mdIsEos 257, .clGet 257, .hfEncode 0].map
      Instr.wellFormed = [true, true, true, true, true, true, true] := by decide

/-! ## Words, each written out as `opc n v` from 30_encoding.md R91, R92, R94, R96 -/

theorem test_decode_system :
    [0x010000000000000008, 0x0101FFFFFFFFFFFFFF, 0x020000000000000000, 0x020100000000000000].map decode =
      [some (.init .enc 8), some (.init .dec 0xFFFFFFFFFFFFFF), some (.getStatus .status), some (.getStatus .maxOrder)] := by
  decide

theorem test_decode_reads :
    [0x100C00000000000000, 0x11C800000000000000, 0x120000000000000000, 0x130000000000000000, 0x140000000000000000,
      0x150000000000000000, 0x160000000000000000, 0x170000000000000000, 0x180000000000000000, 0x190000000000000000,
      0x1A0000000000000000, 0x1B0000000000000000, 0x1C0000000000000000].map decode =
      [some (.brReadU 12), some (.brReadS 200), some .brReadBit, some .brReadU8, some .brReadS8,
        some .brReadU16BE, some .brReadU16LE, some .brReadS16BE, some .brReadS16LE, some .brReadU32BE,
        some .brReadU32LE, some .brReadS32BE, some .brReadS32LE] := by decide

theorem test_decode_reader :
    [0x1D0000000000000000, 0x1E0000000000000000, 0x1F0000000000000064, 0x200000000000000000, 0x210000000000000008,
      0x220000000000000000, 0x230000000000000000].map decode =
      [some .brAlign, some .brCount, some (.brSkip 100), some .brReadByte, some (.brMark 8), some .brReset,
        some .brIsAligned] := by decide

theorem test_decode_writes :
    [0x300500000000000015, 0x310000000000000001, 0x3200000000000001A5, 0x330000000000001234, 0x340000000000001234,
      0x3500000000FFFFFFFE, 0x360000000012345678].map decode =
      [some (.bwWriteBits 5 0x15), some (.bwWriteBit 1), some (.bwWrite8 0x1A5), some (.bwWrite16BE 0x1234),
        some (.bwWrite16LE 0x1234), some (.bwWrite32BE 0xFFFFFFFE), some (.bwWrite32LE 0x12345678)] := by decide

theorem test_decode_writer :
    [0x370000000000000000, 0x380000000000000000, 0x390000000000000000, 0x3A0000000000000000, 0x3B0000000000000000,
      0x3C0000000000000000].map decode =
      [some .bwPad, some .bwDiscard, some .bwFlush, some .bwPadFlush, some .bwClose, some .bwIsAligned] := by decide

theorem test_decode_context :
    [0x400100000000000000, 0x410000000000000000, 0x420000000000000041, 0x430100000000000002, 0x440000000000000000].map
      decode =
      [some (.cxOrder .work), some (.cxDrop .hist), some (.cxAppend .hist 0x41), some (.cxGetAt .work 2), some .cxClone] := by
  decide

theorem test_decode_exclusion :
    [0x5000000000000000FF, 0x510000000000000041, 0x520000000000000000, 0x530000000000000000].map decode =
      [some (.xsExclude 0xFF), some (.xsIsExcluded 0x41), some .xsClear, some .xsCount] := by decide

theorem test_decode_model :
    [0x600000000000000042, 0x610100000000000000, 0x620000000000000000, 0x630000000000000042, 0x640000000000000000,
      0x650000000000000000, 0x660000000000000000].map decode =
      [some (.mdAdd .hist 0x42), some (.mdGetList .work), some .mdGetUniform, some (.mdFindSym 0x42), some .mdFindEsc,
        some .mdFindEos, some .mdExcludeAll] := by decide

theorem test_decode_list :
    [0x670000000000000100, 0x680000000000000101, 0x690000000000000000, 0x6A00000000000001FF, 0x700000000000000041,
      0x710000000000000000].map decode =
      [some (.mdIsEsc 256), some (.mdIsEos 257), some .clLen, some (.clGet 511), some (.hfEncode 65), some .hfDecode] := by
  decide

theorem test_decode_codec :
    [0x800000000000000041, 0x810000000000000000, 0x820000000000000000, 0x830000000000000000].map decode =
      [some (.encPut 0x41), some .encClose, some .decGet, some .decClose] := by decide

/-- The illegal words of V60-1 and V43-3: an undefined opcode, and reserved bits that are not 0 (30_encoding.md R97). -/
theorem test_decode_illegal :
    [0x000000000000000000, 0x120100000000000000, 0x020200000000000000, 0x010200000000000000, 0x700000000000000400,
      0x500000000000000141].map decode = [none, none, none, none, none, none] := by decide

/-- The host's numbering of a table word. -/
theorem test_decodeTableWord : decodeTableWord 72 0x420000000000000041 = some (.cxAppend .hist 0x41) := by decide

/-! ## One step of each command

The expected answers are those of the vectors V40 to V60 of spec/95_test_vectors.md and of the rules' examples. -/

/-- A decoder after INIT with MAXORDER 2, over a source. -/
def decOf (bytes : List Byte) : State := { State.reset.initialise .dec 2 with src := bytes }

/-- A decoder that has read `k` bits. -/
def decAt (bytes : List Byte) (k : Nat) : State := ((decOf bytes).fill k).consume k

/-- An encoder after INIT with MAXORDER 2, with bits waiting. -/
def encOf (bits : List Bool) : State := { State.reset.initialise .enc 2 with wbuf := bits }

/-- The encoder with HIST = [41, 42]. -/
def encHist : State := { encOf [] with hist := [0x41, 0x42] }

/-- The trie of the symbol 41 counted twice and the symbol 42 counted once, both under the root. -/
def smallTrie : List Node :=
  [{ rootNode with child := some 1 }, ⟨0x41, 2, some 0, some 2, none⟩, ⟨0x42, 1, some 0, none, none⟩]

/-- `[41:2, 42:1, ESC]`, the root's list of that trie. Its paths are 0, 10, 11 (46_huffman.md R301). -/
def smallList : List Cand := [.sym 0x41 (some 1), .sym 0x42 (some 2), .esc]

/-- A block with that trie and that list. -/
def withList (s : State) : State := { s with nodes := smallTrie, cl := smallList }

/-- What a state after `exec` holds, or `none` where `exec` has no next state. -/
def seen {α : Type} (f : State → α) (i : Instr) (s : State) : Option α :=
  match exec i s with
  | .next t => some (f t)
  | .fault _ => none
  | .refused _ => none

/-- The response to a command. -/
def rsp (i : Instr) (s : State) : Option Response := (seen (fun t => t.rsps.getLast?) i s).join

/-! ### System -/

theorem test_init : seen (fun t => (t.phase, t.dir, t.maxOrder, t.wbuf)) (.init .dec 8) (encOf [true]) =
    some (.ready, .dec, 8, []) := by decide

theorem test_init_badConfig : rsp (.init .enc 9) (State.resetWith ⟨8, 10, 32⟩ []) = some ⟨.badConfig, 0, 0⟩ := by decide

theorem test_getStatus_ready : rsp (.getStatus .status) (decOf []) = some ⟨.ok, 0, 0x15⟩ := by decide

theorem test_getStatus_maxOrder : rsp (.getStatus .maxOrder) (decOf []) = some ⟨.ok, 0, 2⟩ := by decide

/-! ### Bit reader -/

theorem test_brReadU : seen (fun t => (t.rsps.getLast?, t.spos, t.rbuf)) (.brReadU 3) (decOf [0xA5, 0x3C]) =
    some (some ⟨.ok, 3, 5⟩, 1, [false, false, true, false, true]) := by decide

theorem test_brReadU_endOfData :
    seen (fun t => (t.rsps.getLast?, t.spos, t.rcnt)) (.brReadU 12) (decAt [0xA5, 0x3C] 7) =
      some (some ⟨.endOfData, 9, 0⟩, 2, 9) := by decide

theorem test_brReadS : rsp (.brReadS 1) (decOf [0xFF]) = some ⟨.ok, 1, 0xFFFFFFFFFFFFFF⟩ := by decide

theorem test_brReadS_outOfRange : seen (fun t => (t.fcode, t.fcmd)) (.brReadS 200) (decOf [0xFF]) = some (0x81, 0x11) := by
  decide

theorem test_brReadBit : rsp .brReadBit (decOf [0x80]) = some ⟨.ok, 1, 1⟩ := by decide

theorem test_brReadU8 : rsp .brReadU8 (decOf [0xA5, 0x3C]) = some ⟨.ok, 8, 0xA5⟩ := by decide

theorem test_brReadS8 : rsp .brReadS8 (decOf [0xA5, 0x3C]) = some ⟨.ok, 8, 0xFFFFFFFFFFFFA5⟩ := by decide

theorem test_brReadU16BE : rsp .brReadU16BE (decOf [0xA5, 0x3C]) = some ⟨.ok, 16, 0xA53C⟩ := by decide

/-- V40-4, row 2: a read that starts at bit 1. -/
theorem test_brReadU16BE_unaligned : rsp .brReadU16BE (decAt [0x80, 0x01, 0x7F] 1) = some ⟨.ok, 16, 2⟩ := by decide

theorem test_brReadU16LE : rsp .brReadU16LE (decOf [0xA5, 0x3C]) = some ⟨.ok, 16, 0x3CA5⟩ := by decide

theorem test_brReadS16BE : rsp .brReadS16BE (decOf [0xA5, 0x3C]) = some ⟨.ok, 16, 0xFFFFFFFFFFA53C⟩ := by decide

theorem test_brReadS16LE : rsp .brReadS16LE (decOf [0x7F, 0xFF]) = some ⟨.ok, 16, 0xFFFFFFFFFFFF7F⟩ := by decide

theorem test_brReadU32BE : rsp .brReadU32BE (decOf [0xA5, 0x3C]) = some ⟨.endOfData, 16, 0⟩ := by decide

theorem test_brReadU32LE : rsp .brReadU32LE (decOf [0x12, 0x34, 0x56, 0x78]) = some ⟨.ok, 32, 0x78563412⟩ := by decide

/-- V40-4, row 3. -/
theorem test_brReadS32BE : rsp .brReadS32BE (decAt [0x80, 0x01, 0x7F, 0xFF, 0x12, 0x34, 0x56] 17) =
    some ⟨.ok, 32, 0xFFFFFFFFFE2468⟩ := by decide

theorem test_brReadS32LE : rsp .brReadS32LE (decOf [0xFE, 0xFF, 0xFF, 0xFF]) = some ⟨.ok, 32, 0xFFFFFFFFFFFFFE⟩ := by decide

theorem test_brAlign : rsp .brAlign (decAt [0xA5, 0x3C] 3) = some ⟨.ok, 5, 5⟩ := by decide

theorem test_brCount : rsp .brCount (decAt [0xA5, 0x3C] 3) = some ⟨.ok, 0, 5⟩ := by decide

theorem test_brSkip : seen (fun t => (t.rsps.getLast?, t.spos, t.rcnt)) (.brSkip 11) (decOf [0xA5, 0x3C]) =
    some (some ⟨.ok, 0, 11⟩, 2, 5) := by decide

theorem test_brSkip_short : rsp (.brSkip 9) (decAt [0xA5, 0x3C] 11) = some ⟨.ok, 0, 5⟩ := by decide

theorem test_brReadByte : rsp .brReadByte (decAt [0xA5, 0x3C] 3) = some ⟨.ok, 8, 0x29⟩ := by decide

theorem test_brReadByte_last : rsp .brReadByte (decAt [0xA5, 0x3C] 11) = some ⟨.ok, 5, 0x1C⟩ := by decide

theorem test_brMark : seen (fun t => t.mark) (.brMark 9) (decAt [0xA5, 0x3C, 0xFF] 20) =
    some (some ⟨3, [true, true, true, true], 9⟩) := by decide

/-- V40-8: one byte pulled since the mark is one too many for limit 0, and none too many for limit 1. -/
theorem test_brReset :
    [0, 1].map (fun limit => seen (fun t => (t.rsps.getLast?, t.spos, t.rcnt)) .brReset
      { decAt [0xA5, 0x3C] 9 with mark := some ⟨1, [false, true, false, true], limit⟩ }) =
      [some (some ⟨.fault .illegalState, 0, 0⟩, 2, 7), some (some ⟨.ok, 0, 0⟩, 1, 4)] := by decide

theorem test_brReset_noMark : seen (fun t => (t.fcode, t.fcmd)) .brReset (decOf []) = some (0x82, 0x22) := by decide

theorem test_brIsAligned : [0, 3, 8].map (fun k => rsp .brIsAligned (decAt [0xA5, 0x3C] k)) =
    [some ⟨.ok, 0, 1⟩, some ⟨.ok, 0, 0⟩, some ⟨.ok, 0, 1⟩] := by decide

/-! ### Bit writer -/

/-- V41-1, row 2. -/
theorem test_bwWriteBits : seen (fun t => (t.snk, t.wbuf)) (.bwWriteBits 7 20) (encOf [true, false, true]) =
    some ([.byte 0xA5], [false, false]) := by decide

theorem test_bwWriteBits_outOfRange : seen (fun t => (t.phase, t.fcode, t.fcmd, t.snk)) (.bwWriteBits 57 0) (encOf []) =
    some (.faulted, 0x81, 0x30, []) := by decide

theorem test_bwWriteBit : seen (fun t => t.wbuf) (.bwWriteBit 0xFE) (encOf [true]) = some [true, false] := by decide

theorem test_bwWrite8 : seen (fun t => (t.snk, t.wbuf)) (.bwWrite8 0x1A5) (encOf []) = some ([.byte 0xA5], []) := by decide

theorem test_bwWrite16BE : seen (fun t => t.snk) (.bwWrite16BE 0x1234) (encOf []) = some [.byte 0x12, .byte 0x34] := by decide

/-- V41-1, row 3. -/
theorem test_bwWrite16LE : seen (fun t => (t.snk, t.wbuf)) (.bwWrite16LE 0x1234) (encOf [false, false]) =
    some ([.byte 0x0D, .byte 0x04], [true, false]) := by decide

theorem test_bwWrite32BE : seen (fun t => t.snk) (.bwWrite32BE 0x12345678) (encOf []) =
    some [.byte 0x12, .byte 0x34, .byte 0x56, .byte 0x78] := by decide +kernel

theorem test_bwWrite32LE : seen (fun t => t.snk) (.bwWrite32LE 0x12345678) (encOf []) =
    some [.byte 0x78, .byte 0x56, .byte 0x34, .byte 0x12] := by decide +kernel

theorem test_bwPad : seen (fun t => (t.rsps.getLast?, t.snk, t.wbuf)) .bwPad (encOf [true, true, true, true, true, false]) =
    some (some ⟨.ok, 2, 0⟩, [.byte 0xF8], []) := by decide

theorem test_bwPad_aligned : seen (fun t => (t.rsps.getLast?, t.snk)) .bwPad (encOf []) = some (some ⟨.ok, 0, 0⟩, []) := by
  decide

theorem test_bwDiscard : seen (fun t => (t.rsps.getLast?, t.snk, t.wbuf)) .bwDiscard (encOf [true, false, true]) =
    some (some ⟨.ok, 3, 0⟩, [], []) := by decide

theorem test_bwFlush : seen (fun t => t.snk) .bwFlush (encOf []) = some [.flush] := by decide

theorem test_bwFlush_pending : seen (fun t => (t.fcode, t.fcmd, t.snk)) .bwFlush (encOf [true]) = some (0x82, 0x39, []) := by
  decide

theorem test_bwPadFlush : seen (fun t => (t.rsps.getLast?, t.snk)) .bwPadFlush (encOf [true]) =
    some (some ⟨.ok, 7, 0⟩, [.byte 0x80, .flush]) := by decide

theorem test_bwClose : seen (fun t => (t.rsps.getLast?, t.snk, t.phase)) .bwClose (encOf [true, true]) =
    some (some ⟨.ok, 6, 0⟩, [.byte 0xC0, .flush, .close], .closed) := by decide

theorem test_bwIsAligned : [[], [true]].map (fun bits => rsp .bwIsAligned (encOf bits)) =
    [some ⟨.ok, 0, 1⟩, some ⟨.ok, 0, 0⟩] := by decide

/-! ### Contexts -/

theorem test_cxOrder : rsp (.cxOrder .hist) encHist = some ⟨.ok, 0, 2⟩ := by decide

theorem test_cxDrop : seen (fun t => (t.hist, t.wctx)) (.cxDrop .work) { encHist with wctx := [0x42, 0x43] } =
    some ([0x41, 0x42], [0x43]) := by decide

theorem test_cxDrop_empty : seen (fun t => (t.fcode, t.fcmd)) (.cxDrop .hist) (encOf []) = some (0x81, 0x41) := by decide

/-- V42-1, row 4: a full context loses its oldest symbol. -/
theorem test_cxAppend_full : seen (fun t => t.hist) (.cxAppend .hist 0x43) encHist = some [0x42, 0x43] := by decide

theorem test_cxAppend_none : seen (fun t => t.hist) (.cxAppend .hist 0x41) { encOf [] with maxOrder := 0 } = some [] := by
  decide

theorem test_cxGetAt : rsp (.cxGetAt .hist 1) encHist = some ⟨.ok, 0, 0x42⟩ := by decide

theorem test_cxGetAt_outOfRange : seen (fun t => (t.fcode, t.fcmd)) (.cxGetAt .hist 2) encHist = some (0x81, 0x43) := by
  decide

theorem test_cxClone : seen (fun t => t.wctx) .cxClone encHist = some [0x41, 0x42] := by decide

/-! ### Exclusion set -/

theorem test_xsExclude : seen (fun t => (t.xbits, t.xcount)) (.xsExclude 0x05) (encOf []) = some (0x20, 1) := by decide

theorem test_xsExclude_member : seen (fun t => (t.xbits, t.xcount)) (.xsExclude 0x05)
    { encOf [] with xbits := 0x21, xcount := 2 } = some (0x21, 2) := by decide

theorem test_xsIsExcluded : [0x05, 0x04].map (fun sym => rsp (.xsIsExcluded sym) { encOf [] with xbits := 0x21, xcount := 2 }) =
    [some ⟨.ok, 0, 1⟩, some ⟨.ok, 0, 0⟩] := by decide

theorem test_xsClear : seen (fun t => (t.xbits, t.xcount)) .xsClear { encOf [] with xbits := 0x21, xcount := 2 } =
    some (0, 0) := by decide

theorem test_xsCount : rsp .xsCount { encOf [] with xbits := 0x21, xcount := 2 } = some ⟨.ok, 0, 2⟩ := by decide

/-! ### Model and candidate list -/

/-- V44-2, row 3: six nodes are made, three of them on the way. -/
theorem test_mdAdd : seen (fun t => (t.rsps.getLast?, t.nodes.tail)) (.mdAdd .hist 0x43) encHist =
    some (some ⟨.ok, 0, 7⟩, [⟨0x43, 1, some 0, some 2, none⟩, ⟨0x42, 0, some 0, some 4, some 3⟩, ⟨0x43, 1, some 2, none, none⟩,
      ⟨0x41, 0, some 0, none, some 5⟩, ⟨0x42, 0, some 4, none, some 6⟩, ⟨0x43, 1, some 5, none, none⟩]) := by decide

/-- V44-4: a pool of one node has no room. -/
theorem test_mdAdd_full : seen (fun t => (t.fcode, t.fcmd)) (.mdAdd .hist 0x41) { encOf [] with par := ⟨8, 1, 32⟩ } =
    some (0x86, 0x60) := by decide

theorem test_mdGetList : seen (fun t => (t.rsps.getLast?, t.cl)) (.mdGetList .hist) { encOf [] with nodes := smallTrie } =
    some (some ⟨.ok, 0, 3⟩, smallList) := by decide

theorem test_mdGetList_null : seen (fun t => (t.rsps.getLast?, t.cl, t.clnull)) (.mdGetList .work)
    { withList (encOf []) with wctx := [0x44] } = some (some ⟨.notFound, 0, 0⟩, [], true) := by decide

theorem test_mdGetUniform : seen (fun t => (t.rsps.getLast?, t.cl)) .mdGetUniform
    { encOf [] with xbits := BitVec.allOnes 256, xcount := 256 } = some (some ⟨.ok, 0, 2⟩, [.esc, .eos]) := by decide

theorem test_mdFindSym : [0x42, 0x43].map (fun sym => rsp (.mdFindSym sym) (withList (encOf []))) =
    [some ⟨.ok, 0, 1⟩, some ⟨.notFound, 0, 0⟩] := by decide

theorem test_mdFindEsc : rsp .mdFindEsc (withList (encOf [])) = some ⟨.ok, 0, 2⟩ := by decide

theorem test_mdFindEos : rsp .mdFindEos { encOf [] with cl := [.esc, .eos] } = some ⟨.ok, 0, 1⟩ := by decide

theorem test_mdExcludeAll : seen (fun t => (t.rsps.getLast?, t.xbits)) .mdExcludeAll
    { encOf [] with cl := [.sym 0x00 none, .sym 0x03 none, .esc], xbits := 0x8, xcount := 1 } =
    some (some ⟨.ok, 0, 2⟩, 0x9) := by decide

theorem test_mdIsEsc : [1, 2].map (fun idx => rsp (.mdIsEsc idx) (withList (encOf []))) =
    [some ⟨.ok, 0, 0⟩, some ⟨.ok, 0, 1⟩] := by decide

theorem test_mdIsEos : [0, 1, 2].map (fun idx => rsp (.mdIsEos idx) { encOf [] with cl := [.esc, .eos] }) =
    [some ⟨.ok, 0, 0⟩, some ⟨.ok, 0, 1⟩, some ⟨.fault .outOfRange, 0, 0⟩] := by decide

theorem test_clLen : rsp .clLen (withList (encOf [])) = some ⟨.ok, 0, 3⟩ := by decide

theorem test_clLen_null : rsp .clLen { encOf [] with clnull := true } = some ⟨.notFound, 0, 0⟩ := by decide

theorem test_clGet : [0, 1, 2].map (fun idx => rsp (.clGet idx) (withList (encOf []))) =
    [some ⟨.ok, 0, 0x241⟩, some ⟨.ok, 0, 0x142⟩, some ⟨.ok, 1, 0x100⟩] := by decide

theorem test_clGet_outOfRange : seen (fun t => (t.fcode, t.fcmd)) (.clGet 3) (withList (encOf [])) = some (0x81, 0x6A) := by
  decide

/-- V44-2: adding 43 in the context 41 42 to an empty trie makes nodes 1 to 6, of which 1, 2 and 4 are the root's children
43, 42 and 41. -/
theorem test_newPaths : newPaths [rootNode] [0x41, 0x42] 0x43 =
    [[0x43], [0x42], [0x42, 0x43], [0x41], [0x41, 0x42], [0x41, 0x42, 0x43]] := by decide

/-! ### Huffman decision coder -/

/-- The row `[2,1,1]` of 46_huffman.md R301: 0, 10, 11. -/
theorem test_hfEncode : [0, 1, 2].map (fun idx => seen (fun t => (t.rsps.getLast?, t.wbuf)) (.hfEncode idx)
    (withList (encOf []))) = [some (some ⟨.ok, 0, 1⟩, [false]), some (some ⟨.ok, 0, 2⟩, [true, false]),
      some (some ⟨.ok, 0, 2⟩, [true, true])] := by decide

theorem test_hfEncode_outOfRange : seen (fun t => (t.fcode, t.fcmd)) (.hfEncode 300) (withList (encOf [])) =
    some (0x81, 0x70) := by decide

theorem test_hfDecode : seen (fun t => (t.rsps.getLast?, t.rbuf)) .hfDecode (withList (decAt [0x06] 5)) =
    some (some ⟨.ok, 1, 2⟩, [false]) := by decide

theorem test_hfDecode_truncated : seen (fun t => (t.fcode, t.fcmd)) .hfDecode (withList (decAt [0x01] 7)) =
    some (0x84, 0x71) := by decide

/-! ### Codec -/

/-- 46_huffman.md R301: `[41:2, 42:1, ESC]` codes 42 as 10; then 42 is counted and appended. -/
theorem test_encPut : seen (fun t => (t.wbuf, t.nodes[2]?.map Node.count, t.hist)) (.encPut 0x42)
    { withList (encOf [true]) with maxOrder := 1 } = some ([true, true, false], some 2, [0x42]) := by decide

/-- 45_cascade.md R264: the symbols 41 and 42 of the escaped list are excluded at the uniform level, where 43 then has the index
41 and the list 256 entries. -/
theorem test_decisions : ((withList (encOf [])).decisions (.symbol 0x43)).map (fun d => (d.1.length, d.2)) =
    [(3, 2), (256, 0x41)] := by decide +kernel

theorem test_encPut_unseen : seen (fun t => (t.fcode, t.fcmd, t.snk)) (.encPut 0x42) encHist = some (0x83, 0x80, []) := by
  decide

theorem test_encClose_unseen : seen (fun t => (t.fcode, t.fcmd, t.phase)) .encClose encHist = some (0x83, 0x81, .faulted) := by
  decide

theorem test_decGet : seen (fun t => (t.rsps.getLast?, t.rcnt, t.nodes[2]?.map Node.count, t.hist)) .decGet
    (withList (decOf [0x80])) = some (some ⟨.ok, 8, 0x42⟩, 6, some 2, [0x42]) := by decide

theorem test_decGet_end : rsp .decGet { decOf [0xAA] with eosSeen := true } = some ⟨.endOfStream, 0, 0⟩ := by decide

theorem test_decClose : seen (fun t => (t.rsps.getLast?, t.phase)) .decClose (decOf []) = some (some ⟨.ok, 0, 0⟩, .closed) := by
  decide

/-! ### Refusals, illegal words, the host -/

/-- V60-1: a word is refused before any INIT, and its response word is `40 00 00000000000000`. -/
theorem test_refused : (rsp (.encPut 0x41) State.reset).map Response.word = some 0x400000000000000000 := by decide

/-- V60-1: the direction is checked before the width. -/
theorem test_wrongDirection : seen (fun t => (t.fcode, t.fcmd)) (.bwWriteBits 60 0) (decOf []) = some (0x85, 0x30) := by decide

/-- What a state after a step holds. -/
def stepped {α : Type} (f : State → α) (s : State) : Option α :=
  match step s with
  | .next t => some (f t)
  | .fault _ => none
  | .refused _ => none

/-- V60-1: the reserved bit is looked at before the direction. -/
theorem test_step_illegal : stepped (fun t => (t.fcode, t.fcmd)) { encOf [] with host := [.command 0x120100000000000000] } =
    some (0x85, 0x12) := by decide

/-- A table word is the command the next step runs. -/
theorem test_withFetchWord : stepped (fun t => (t.phase, t.maxOrder)) (State.reset.withFetchWord 72 0x010000000000000002) =
    some (.ready, 2) := by decide

/-- Hardware reset leaves the sink and the source (70_reset_and_hazards.md R360). -/
theorem test_step_hwReset : stepped (fun t => (t.phase, t.fcode, t.snk, t.src, t.nextSrc))
    { decOf [0x11] with host := [.hwReset], snk := [.byte 0x22], fcode := 0x81, nextSrc := [0x33] } =
    some (.unconf, 0, [.byte 0x22], [0x11], [0x33]) := by decide

/-- 70_reset_and_hazards.md R379: the source of a second stream may be presented to a decoder in phase READY; the run under way
keeps its own (20_memory.md R62). -/
theorem test_step_source : stepped (fun t => (t.phase, t.src, t.nextSrc))
    { decOf [0x22] with eosSeen := true, host := [.source [0x11]] } = some (.ready, [0x22], [0x11]) := by decide

/-- 47_system.md R310: INIT abandons the stream in progress, and the reader is at the start of the source presented. -/
theorem test_init_second_stream : seen (fun t => (t.phase, t.eosSeen, t.src, t.spos, t.rbuf)) (.init .dec 2)
    { decAt [0x22] 3 with eosSeen := true, nextSrc := [0x11] } = some (.ready, false, [0x11], 0, []) := by decide

/-! ## The hypotheses of the statements can be met

For each statement of Certificates/Slice0/Obligations.lean with hypotheses, a state and operands that meet them together, for
each of its clauses and at the bounds of their ranges. -/

/-! ### Concrete states with the invariant -/

/-- A configured block with the default parameters has the invariant. -/
theorem inv_ready (d : Dir) : (State.reset.initialise d 2).Inv := initialise_inv _ _ _ (by decide) (by decide)

theorem inv_encOf (bits : List Bool) (h : bits.length ≤ 7) : (encOf bits).Inv := by
  obtain ⟨⟨-, a2, a3⟩, ⟨b1, b2, b3⟩, c, ⟨d1, d2, d3⟩, ⟨e1, e2, e3⟩, f⟩ := inv_ready .enc
  exact ⟨⟨h, a2, a3⟩, ⟨b1, b2, b3⟩, c, ⟨d1, d2, d3⟩, ⟨e1, e2, e3⟩, f⟩

theorem inv_decOf (bytes : List Byte) : (decOf bytes).Inv := (inv_ready .dec).same rfl

theorem inv_decAt (bytes : List Byte) (k : Nat) (hk : k ≤ maxBits) : (decAt bytes k).Inv :=
  Micro.inv ((inv_decOf bytes).fill hk) (.consume _ k rfl)

theorem smallTrie_children : children smallTrie 0 = [1, 2] ∧ children smallTrie 1 = [] ∧ children smallTrie 2 = [] := by decide

theorem smallTrie_pool : PoolOk 32 smallTrie := by
  obtain ⟨h0, h1, h2⟩ := smallTrie_children
  have cases3 : ∀ p < smallTrie.length, p = 0 ∨ p = 1 ∨ p = 2 := by
    intro p hp
    have : smallTrie.length = 3 := rfl
    omega
  constructor
  · exact ⟨by decide, rfl, rfl, rfl⟩
  · intro p hp
    rcases cases3 p hp with rfl | rfl | rfl
    · rw [h0]; exact ⟨rfl, rfl, trivial⟩
    · rw [h1]; exact trivial
    · rw [h2]; exact trivial
  · intro p hp
    rcases cases3 p hp with rfl | rfl | rfl <;> simp only [h0, h1, h2] <;> decide
  · intro p hp
    rcases cases3 p hp with rfl | rfl | rfl <;> simp only [h0, h1, h2] <;> decide
  · intro q hq hne
    rcases cases3 q hq with rfl | rfl | rfl
    · exact absurd rfl hne
    · exact ⟨0, by decide, by decide⟩
    · exact ⟨0, by decide, by decide⟩
  · intro p hp
    rcases cases3 p hp with rfl | rfl | rfl <;> simp only [h0, h1, h2] <;> decide
  · decide

theorem smallTrie_resolves : suffixesResolve smallTrie [] := by
  intro Y hY
  rw [List.suffix_nil.1 hY]; rfl

/-- A block with the small trie and its list has the invariant, where its pool has room for the three nodes. -/
theorem inv_withList {s : State} (h : s.Inv) (hn : 3 ≤ s.par.nodeCap) (hc : s.par.countW = 32) (hl : s.clnull = false) :
    (withList s).Inv := by
  obtain ⟨⟨a1, a2, a3⟩, ⟨b1, b2, b3⟩, c, ⟨d1, -, -⟩, -, f⟩ := h
  refine ⟨⟨a1, a2, a3⟩, ⟨b1, b2, b3⟩, c, ⟨d1, hn, ?_⟩, ⟨?_, ?_, ?_⟩, f⟩
  · show PoolOk s.par.countW smallTrie
    rw [hc]; exact smallTrie_pool
  · show smallList.length ≤ clCap
    decide
  · intro h
    exact absurd (hl.symm.trans h) (by decide)
  · show ∀ e ∈ smallList, candOk smallTrie e
    intro e he
    simp only [smallList, List.mem_cons, List.not_mem_nil, or_false] at he
    rcases he with rfl | rfl | rfl
    · exact ⟨by decide, rfl⟩
    · exact ⟨by decide, rfl⟩
    · exact trivial

/-- An encoder with the small trie and its list. -/
def encTrie : State := withList (encOf [true])

theorem inv_encTrie : encTrie.Inv := inv_withList (inv_encOf _ (by decide)) (by decide) rfl rfl

/-- A decoder with the small trie and its list. -/
def decTrie (bytes : List Byte) : State := withList (decOf bytes)

theorem inv_decTrie (bytes : List Byte) : (decTrie bytes).Inv := inv_withList (inv_decOf _) (by show 3 ≤ 2 ^ 56 - 1; decide) rfl rfl

/-- A block with a command to take. -/
def queued (s : State) (i : Instr) : State := { s with host := [.command (encode i)] }

theorem inv_queued {s : State} (h : s.Inv) (i : Instr) : (queued s i).Inv := h.same rfl

/-- Adding a symbol to the empty context of the small trie: the new paths, and the counts to raise. -/
theorem canAdd_small {s : State} (hs : s.nodes = smallTrie) (hp : s.par = Params.default) : s.canAdd [] 0x42 := by
  unfold State.canAdd
  rw [hs, hp]
  refine ⟨by decide, fun Y hY => ?_⟩
  rw [List.suffix_nil.1 hY]; decide

/-- A block with the small trie, the parameters `p`, MAXORDER `m` and the context 41. -/
def ctxOf (s : State) (p : Params) (m : Wide) : State := { s with hist := [0x41], par := p, maxOrder := m }

theorem smallTrie_resolves_41 : suffixesResolve smallTrie [0x41] := by
  intro Y hY
  rcases List.suffix_cons_iff.1 hY with rfl | h
  · decide
  · exact smallTrie_resolves Y h

theorem inv_ctxOf {s : State} {p : Params} {m : Wide} (h : s.Inv) (hs : s.nodes = smallTrie) (hx : s.wctx = []) (hp : p.Legal)
    (hw : p.countW = 32) (hn : 3 ≤ p.nodeCap) (hm : m.toNat ≤ p.orderCap) (h1 : 1 ≤ m.toNat) : (ctxOf s p m).Inv := by
  obtain ⟨⟨a1, a2, a3⟩, -, c, -, ⟨e1, e2, e3⟩, f⟩ := h
  refine ⟨⟨a1, a2, a3⟩, ⟨hm, h1, ?_⟩, c, ⟨hp, ?_, ?_⟩, ⟨e1, e2, e3⟩, f⟩
  · show s.wctx.length ≤ _
    rw [hx]; exact Nat.zero_le _
  · show s.nodes.length ≤ _
    rw [hs]; exact hn
  · show PoolOk p.countW s.nodes
    rw [hs, hw]; exact smallTrie_pool

/-- Adding 42 to the context 41 takes one node, and raises the counts of 41 42 and of 42. -/
theorem canAdd_ctxOf {s : State} {p : Params} {m : Wide} (hs : s.nodes = smallTrie) (hw : p.countW = 32) (hn : 4 ≤ p.nodeCap) :
    (ctxOf s p m).canAdd [0x41] 0x42 := by
  show s.nodes.length + (newPaths s.nodes [0x41] 0x42).length ≤ p.nodeCap ∧ _
  refine ⟨?_, fun Y hY => ?_⟩
  · have h : smallTrie.length + (newPaths smallTrie [0x41] 0x42).length = 4 := by decide
    rw [hs, h]; exact hn
  · show pathCount s.nodes (Y ++ [0x42]) < 2 ^ p.countW - 1
    rw [hs, hw]
    rcases List.suffix_cons_iff.1 hY with rfl | h
    · decide
    · rw [List.suffix_nil.1 h]; decide

/-- A block with the small trie and the context 41, whose pool is full. -/
def fullPool (s : State) : State := ctxOf s ⟨2, 3, 32⟩ 2

theorem inv_fullPool {s : State} (h : s.Inv) (hs : s.nodes = smallTrie) (hx : s.wctx = []) : (fullPool s).Inv :=
  inv_ctxOf h hs hx (by decide) rfl (by decide) (by decide) (by decide)

theorem not_canAdd_fullPool {s : State} (hs : s.nodes = smallTrie) : ¬ (fullPool s).canAdd [0x41] 0x42 := by
  rintro ⟨h, -⟩
  have h1 : s.nodes.length + (newPaths s.nodes [0x41] 0x42).length ≤ 3 := h
  rw [hs] at h1
  exact absurd h1 (by decide)

/-! ### Encoding -/

theorem witness_EncodeDecode : decode 0x800000000000000041 = some (.encPut 0x41) := by decide

theorem witness_WordsMatchTheirRow :
    (0x6A00000000000001FF : Word72) &&& (Instr.clGet 0).format.mask = mkWord (Instr.clGet 0).opcode 0 0 ∧
    (∃ j, decode 0x6A00000000000001FF = some j ∧ j.opcode = (Instr.clGet 0).opcode) ∧
    (0x6A0000000000000200 : Word72) &&& (Instr.clGet 0).format.mask ≠ mkWord (Instr.clGet 0).opcode 0 0 :=
  ⟨by decide, ⟨.clGet 511, by decide, by decide⟩, by decide⟩

/-- Words with the opcodes at the ends of the ranges of R97, and with a reserved bit set. -/
theorem witness_IllegalWords :
    [0x00, 0x03, 0x0F, 0x24, 0x2F, 0x3D, 0x3F, 0x45, 0x4F, 0x54, 0x5F, 0x6B, 0x6F, 0x72, 0x7F, 0x84, 0xFF].map
        (fun opc => decode (mkWord opc 0 0)) = List.replicate 17 none ∧
    (opcOf (mkWord 0x84 0 0)).toNat = 0x84 ∧ (opcOf (mkWord 0xFF 0 0)).toNat = 0xFF ∧
    opcOf 0x120100000000000000 = Instr.brReadBit.opcode ∧
    (0x120100000000000000 : Word72) &&& Instr.brReadBit.format.mask ≠ mkWord Instr.brReadBit.opcode 0 0 := by decide

/-! ### The step -/

theorem witness_StepRunsDecoded :
    (queued encTrie (.encPut 0x42)).host = .command (encode (.encPut 0x42)) :: [] ∧
    decode (encode (.encPut 0x42)) = some (.encPut 0x42) := ⟨rfl, by decide⟩

/-- The host's inputs: none, a reset, and a source presented in a decoder's run and after a fault. -/
theorem witness_StepHostInputs :
    encTrie.host = [] ∧ ({ encTrie with host := [.hwReset] } : State).host = [.hwReset] ∧
    ((decOf []).decReady ∧ ({ decOf [] with host := [.source [0x11]] } : State).host = [.source [0x11]]) ∧
    ({ decOf [] with phase := .faulted, host := [.source []] } : State).host = [.source []] :=
  ⟨rfl, rfl, ⟨⟨rfl, rfl⟩, rfl⟩, rfl⟩

/-! ### Phases, refusals and faults -/

/-- A block in each phase with a word to take. -/
def inPhase (p : Phase) (w : Word72) : State := { encOf [] with phase := p, host := [.command w] }

/-- In each phase but READY, ENC_PUT is a word that is neither INIT nor GET_STATUS; so is an illegal word. -/
theorem witness_RefusedOutsideReady :
    [Phase.unconf, .closed, .faulted].map (fun p => stepped (fun t => t.rsps.getLast?) (inPhase p 0x800000000000000041)) =
      [some (some ⟨.refusedUnconf, 0, 0⟩), some (some ⟨.refusedClosed, 0, 0⟩), some (some ⟨.refusedFaulted, 0, 0⟩)] ∧
    decode 0x800000000000000041 = some (.encPut 0x41) ∧ decode 0x000000000000000000 = none := by decide

theorem witness_WrongDirection :
    ((decOf []).phase = .ready ∧ (Instr.bwWriteBits 60 0).dirNeed.allows (decOf []).dir = false) ∧
    ((encOf [true]).phase = .ready ∧ Instr.bwFlush.dirNeed.allows (encOf [true]).dir = true ∧
      seen (fun t => t.phase) .bwFlush (encOf [true]) = some .faulted) := by decide

/-- A fault at the top of a command, and one in the middle of one. -/
theorem witness_FaultCauses :
    (Instr.bwFlush.dirNeed.allows (encOf [true]).dir = true ∧
      seen (fun t => (t.phase, t.fcode)) .bwFlush (encOf [true]) = some (.faulted, 0x82)) ∧
    (Instr.hfDecode.dirNeed.allows (withList (decAt [0x01] 7)).dir = true ∧
      seen (fun t => (t.phase, t.fcode)) .hfDecode (withList (decAt [0x01] 7)) = some (.faulted, 0x84)) := by decide

/-- Words that move the block along the rows of R340: from UNCONF by INIT, from READY by a close and by a fault, and none that
move it from CLOSED. -/
theorem witness_PhaseTransitions :
    stepped (fun t => t.phase) (inPhase .unconf 0x010000000000000002) = some .ready ∧
    stepped (fun t => t.phase) (inPhase .ready 0x3B0000000000000000) = some .closed ∧
    stepped (fun t => t.phase) (inPhase .ready 0x000000000000000000) = some .faulted ∧
    stepped (fun t => t.phase) (inPhase .closed 0x800000000000000041) = some .closed := by decide

/-- Words answered with each class of status. -/
theorem witness_OneResponse :
    stepped (fun t => t.rsps.getLast?.map Response.st) (inPhase .unconf 0x800000000000000041) = some (some .refusedUnconf) ∧
    stepped (fun t => t.rsps.getLast?.map Response.st) { State.resetWith ⟨8, 10, 32⟩ [] with
      host := [.command 0x010000000000000009] } = some (some .badConfig) ∧
    stepped (fun t => t.rsps.getLast?.map Response.st) (inPhase .ready 0x000000000000000000) = some (some (.fault .illegalCmd)) ∧
    stepped (fun t => t.rsps.getLast?.map Response.st) (queued (decOf []) .brReadBit) = some (some .endOfData) ∧
    stepped (fun t => t.rsps.getLast?.map Response.st) (queued { decOf [] with eosSeen := true } .decGet) =
      some (some .endOfStream) ∧
    stepped (fun t => t.rsps.getLast?.map Response.st) (queued encTrie (.mdFindSym 0x43)) = some (some .notFound) := by decide

theorem witness_FaultEntry :
    ((queued (encOf [true]) .bwFlush).phase = .ready ∧
      stepped (fun t => (t.phase, t.fcode)) (queued (encOf [true]) .bwFlush) = some (.faulted, 0x82)) ∧
    ((queued (withList (decAt [0x01] 7)) .hfDecode).phase = .ready ∧
      stepped (fun t => (t.phase, t.fcode)) (queued (withList (decAt [0x01] 7)) .hfDecode) = some (.faulted, 0x84)) := by decide

/-- A faulted block that stays, one that INIT frees and one that hardware reset frees. -/
theorem witness_LeavingFaulted :
    stepped (fun t => t.phase) (inPhase .faulted 0x800000000000000041) = some .faulted ∧
    stepped (fun t => t.phase) (inPhase .faulted 0x010000000000000002) = some .ready ∧
    stepped (fun t => t.phase) { inPhase .faulted 0 with host := [.hwReset] } = some .unconf := by decide

/-- A command that appends to the sink. -/
theorem witness_CommandFrame :
    (∃ t, exec .bwFlush (encOf []) = .next t ∧ t.snk = (encOf []).snk ++ [.flush]) ∧ (∀ d m, Instr.bwFlush ≠ .init d m) ∧
    ∃ t, exec (.init .dec 2) { decOf [0x22] with nextSrc := [0x11] } = .next t :=
  ⟨⟨_, rfl, rfl⟩, (by intro d m h; cases h), _, rfl⟩

/-! ### Invariants -/

/-- A decoder with 7 bits to write, 63 bits read ahead and 63 at the mark, and a command to take. -/
def fullBuffers : State :=
  { queued (decOf []) .brReadBit with
    wbuf := List.replicate 7 true, rbuf := List.replicate 63 true, spos := 8, mark := some ⟨8, List.replicate 63 true, 0⟩ }

theorem witness_BuffersKept : fullBuffers.BuffersOk ∧ ∃ t, step fullBuffers = .next t := by
  refine ⟨⟨by decide, by decide, ?_⟩, step_command_next rfl⟩
  intro mk hmk
  cases hmk
  decide

theorem witness_TrieKept :
    (queued encTrie (.mdAdd .hist 0x42)).TrieOk ∧ ∃ t, step (queued encTrie (.mdAdd .hist 0x42)) = .next t :=
  ⟨(inv_queued inv_encTrie _).trie, step_command_next rfl⟩

theorem witness_InvKept :
    (queued encTrie (.encPut 0x42)).Inv ∧ ∃ t, step (queued encTrie (.encPut 0x42)) = .next t :=
  ⟨inv_queued inv_encTrie _, step_command_next rfl⟩

/-- INIT at the largest order, and a read after which 7 bits stay buffered. -/
theorem witness_ReaderStaysShort :
    ((0xFFFFFFFFFFFFFF : Wide).toNat ≤ State.reset.par.orderCap ∧
      ∃ t, exec (.init .dec 0xFFFFFFFFFFFFFF) State.reset = .next t) ∧
    ((decAt [0xA5, 0x3C] 1).readerShort ∧ (decAt [0xA5, 0x3C] 1).rbuf.length = 7 ∧
      ∃ t, exec .brReadU8 (decAt [0xA5, 0x3C] 1) = .next t ∧ t.rsps = (decAt [0xA5, 0x3C] 1).rsps ++ [⟨.ok, 8, 0x4A⟩]) :=
  ⟨⟨by decide, _, rfl⟩, ⟨by decide, by intro mk h; cases h⟩, rfl, _, rfl, rfl⟩

/-! ### Bit reader -/

theorem ready_decOf (bytes : List Byte) : (decOf bytes).decReady := ⟨rfl, rfl⟩

/-- A width above 56; the widest read with 56 bits left, and with 55; and width 0 with none. -/
theorem witness_ReadUnsigned :
    (decOf [1, 2, 3, 4, 5, 6, 7]).decReady ∧ (decAt [1, 2, 3, 4, 5, 6, 7] 1).decReady ∧ (decOf []).decReady ∧
    56 < (57 : BitVec 8).toNat ∧ (56 : BitVec 8).toNat ≤ 56 ∧ (decOf [1, 2, 3, 4, 5, 6, 7]).remaining.length = 56 ∧
    (decAt [1, 2, 3, 4, 5, 6, 7] 1).remaining.length = 55 ∧ (0 : BitVec 8).toNat ≤ (decOf []).remaining.length :=
  ⟨⟨rfl, rfl⟩, ⟨rfl, rfl⟩, ⟨rfl, rfl⟩, by decide, by decide, by decide, by decide, by decide⟩

/-- The same for a signed read. -/
theorem witness_ReadSigned :
    (decOf [1, 2, 3, 4, 5, 6, 7]).decReady ∧ (decAt [1, 2, 3, 4, 5, 6, 7] 1).decReady ∧ (decOf []).decReady ∧
    56 < (200 : BitVec 8).toNat ∧ (56 : BitVec 8).toNat ≤ (decOf [1, 2, 3, 4, 5, 6, 7]).remaining.length ∧
    (decAt [1, 2, 3, 4, 5, 6, 7] 1).remaining.length < (56 : BitVec 8).toNat ∧
    (0 : BitVec 8).toNat ≤ (decOf []).remaining.length :=
  ⟨⟨rfl, rfl⟩, ⟨rfl, rfl⟩, ⟨rfl, rfl⟩, by decide, by decide, by decide, by decide⟩

/-- Each width with exactly its bits left, and with one bit fewer. -/
theorem witness_FixedReads :
    (fixedRead .brReadBit).isSome ∧ (fixedRead .brReadS8).isSome ∧ (fixedRead .brReadU16LE).isSome ∧
    (fixedRead .brReadS32LE).isSome ∧
    [[0], [1, 2], [1, 2, 3, 4]].map (fun bytes => (decOf bytes).remaining.length) = [8, 16, 32] ∧
    [[0], [1, 2], [1, 2, 3, 4]].map (fun bytes => (decAt bytes 1).remaining.length) = [7, 15, 31] ∧
    (decAt [0] 7).remaining.length = 1 ∧ (decOf []).remaining.length = 0 ∧ (decOf []).decReady :=
  ⟨rfl, rfl, rfl, rfl, by decide, by decide, by decide, by decide, rfl, rfl⟩

theorem witness_AlignAndCount : (decAt [0xA5, 0x3C] 3).decReady ∧ (decOf []).decReady := ⟨⟨rfl, rfl⟩, rfl, rfl⟩

theorem witness_Skip : (decAt [0xA5, 0x3C] 3).decReady ∧ (decOf []).decReady := ⟨⟨rfl, rfl⟩, rfl, rfl⟩

/-- One bit left, and none. -/
theorem witness_ReadByte :
    (decAt [0xA5] 7).decReady ∧ 0 < (decAt [0xA5] 7).remaining.length ∧ (decOf []).decReady ∧
    (decOf []).remaining.length = 0 := ⟨⟨rfl, rfl⟩, by decide, ⟨rfl, rfl⟩, by decide⟩

/-- No mark; a mark one byte too far back, and one as far back as its limit; a mark and a reset after one more byte. -/
theorem witness_MarkAndReset :
    ((decOf []).decReady ∧ (decOf []).mark = none) ∧
    (0 : Wide).toNat < (2 : Nat) - 1 ∧ (2 : Nat) - 1 ≤ (1 : Wide).toNat ∧
    ∃ t u v, exec (.brMark 1) (decAt [0xA5, 0x3C] 4) = .next t ∧ u.decReady ∧ u.mark = t.mark ∧
      u.src = (decAt [0xA5, 0x3C] 4).src ∧ u.spos = t.spos + 1 ∧ exec .brReset u = .next v ∧ v.phase = .ready :=
  ⟨⟨⟨rfl, rfl⟩, rfl⟩, by decide, by decide, _, (State.fill { decAt [0xA5, 0x3C] 4 with
    mark := some ⟨1, [false, true, false, true], 1⟩ } 5).consume 5, _, rfl, ⟨rfl, rfl⟩, rfl, rfl, rfl, rfl, rfl⟩

/-! ### Bit writer -/

/-- Seven bits waiting and none, and the widths at the bound. -/
theorem witness_WriteBits :
    (encOf (List.replicate 7 true)).encReady ∧ (encOf (List.replicate 7 true)).wbuf.length ≤ 7 ∧ (encOf []).encReady ∧
    56 < (57 : BitVec 8).toNat ∧ (56 : BitVec 8).toNat ≤ 56 := ⟨⟨rfl, rfl⟩, by decide, ⟨rfl, rfl⟩, by decide, by decide⟩

theorem witness_FixedWrites :
    fixedWrite (.bwWriteBit 1) = some [true] ∧ (fixedWrite (.bwWrite8 0)).isSome ∧ (fixedWrite (.bwWrite16BE 0)).isSome ∧
    (fixedWrite (.bwWrite16LE 0)).isSome ∧ (fixedWrite (.bwWrite32BE 0)).isSome ∧ (fixedWrite (.bwWrite32LE 0)).isSome ∧
    (encOf (List.replicate 7 true)).encReady ∧ (encOf (List.replicate 7 true)).wbuf.length ≤ 7 :=
  ⟨by decide, rfl, rfl, rfl, rfl, rfl, ⟨rfl, rfl⟩, by decide⟩

/-- Nothing waiting, one bit, seven bits. -/
theorem witness_PadAndClose :
    ((encOf []).encReady ∧ (encOf []).wbuf = []) ∧ ((encOf [true]).encReady ∧ (encOf [true]).wbuf ≠ []) ∧
    (encOf (List.replicate 7 true)).encReady ∧ (encOf (List.replicate 7 true)).wbuf.length = 7 :=
  ⟨⟨⟨rfl, rfl⟩, rfl⟩, ⟨⟨rfl, rfl⟩, by decide⟩, ⟨rfl, rfl⟩, rfl⟩

theorem witness_FlushWhenAligned :
    ((encOf []).encReady ∧ (encOf []).wbuf = []) ∧ (encOf [true]).encReady ∧ (encOf [true]).wbuf ≠ [] :=
  ⟨⟨⟨rfl, rfl⟩, rfl⟩, ⟨rfl, rfl⟩, by decide⟩

/-- The bytes a run of commands adds to the sink of a block. -/
def sinkOf (s : State) (is : List Instr) : List Byte := bytesOf ((s.after is).snk.drop s.snk.length)

/-- An encoder that writes widths 0, 3 and 56, and the decoder over what it wrote. -/
theorem witness_WriteThenRead : ∃ (s d : State) (ws : List (BitVec 8 × Wide)),
    (2 : Wide).toNat ≤ s.par.orderCap ∧ (0 : Wide).toNat ≤ d.par.orderCap ∧ (∀ x ∈ ws, x.1.toNat ≤ 56) ∧ ws.length = 3 ∧
    d.nextSrc = sinkOf s (.init .enc 2 :: (ws.map fun x => .bwWriteBits x.1 x.2) ++ [.bwPad]) := by
  let ws : List (BitVec 8 × Wide) := [(0, 0x7F), (3, 0xFD), (56, 0xAABBCCDDEEFF11)]
  refine ⟨State.reset, { State.reset with
    nextSrc := sinkOf State.reset (.init .enc 2 :: (ws.map fun x => .bwWriteBits x.1 x.2) ++ [.bwPad]) }, ws,
    by decide, by decide, ?_, rfl, by dsimp only⟩
  intro x hx
  simp only [ws, List.mem_cons, List.not_mem_nil, or_false] at hx
  rcases hx with rfl | rfl | rfl <;> decide

/-! ### Contexts -/

/-- The last index a context has, and the first it has not. -/
theorem witness_ContextReads :
    encHist.phase = .ready ∧ (encHist.ctx .hist)[(1 : Wide).toNat]? = some 0x42 ∧
    (encHist.ctx .hist).length ≤ (2 : Wide).toNat := by decide

/-- An empty context, one with room, a full one, and MAXORDER 0. -/
theorem witness_ContextWrites :
    (encHist.phase = .ready ∧ encHist.ctx .work = []) ∧ encHist.ctx .hist = 0x41 :: [0x42] ∧
    (encHist.ctx .hist).length = encHist.maxOrder.toNat ∧ encHist.maxOrder.toNat ≠ 0 ∧
    (encHist.ctx .work).length ≠ encHist.maxOrder.toNat ∧
    ({ encOf [] with maxOrder := 0 } : State).maxOrder.toNat = 0 := by decide

theorem witness_WindowBound :
    (encHist.phase = .ready ∧ encHist.ctx .work = []) ∧ encHist.ContextsOk ∧ encHist.hist.length = encHist.cap ∧
    ∃ t, exec (.cxAppend .hist 0x43) encHist = .next t :=
  ⟨⟨rfl, rfl⟩, ⟨by decide, by decide, by decide⟩, rfl, _, rfl⟩

/-! ### Exclusion set -/

/-- An exclusion set with two members, the least symbol among them. -/
def twoExcluded : State := { encOf [] with xbits := 0x21, xcount := 2 }

theorem xsetOk_twoExcluded : twoExcluded.XsetOk := by
  show 2 = XSet.ones ⟨0x21, 2⟩
  decide +kernel

theorem witness_ExclusionCommands :
    twoExcluded.phase = .ready ∧ twoExcluded.XsetOk ∧ twoExcluded.xbits.getLsbD (0x00 : Sym).toNat = true ∧
    twoExcluded.xbits.getLsbD (0xFF : Sym).toNat = false := ⟨rfl, xsetOk_twoExcluded, by decide, by decide⟩

theorem witness_ExclusionMonotone :
    (∃ t, exec (.xsExclude 0xFF) twoExcluded = .next t) ∧ (∀ d m, Instr.xsExclude 0xFF ≠ .init d m) ∧
    Instr.xsExclude 0xFF ≠ .xsClear ∧ (∀ sym, Instr.xsExclude 0xFF ≠ .encPut sym) ∧ Instr.xsExclude 0xFF ≠ .encClose ∧
    Instr.xsExclude 0xFF ≠ .decGet :=
  ⟨⟨_, rfl⟩, (by intro d m h; cases h), by decide, (by intro sym h; cases h), by decide, by decide⟩

/-! ### The model and the candidate list -/

/-- A pool that the new node fills, and the context 41, of which the suffixes 41 and the empty one each have a count to raise. -/
theorem witness_AddCounts : (ctxOf encTrie ⟨2, 4, 32⟩ 2).phase = .ready ∧ (ctxOf encTrie ⟨2, 4, 32⟩ 2).TrieOk ∧
    (ctxOf encTrie ⟨2, 4, 32⟩ 2).canAdd ((ctxOf encTrie ⟨2, 4, 32⟩ 2).ctx .hist) 0x42 ∧
    newPaths smallTrie [0x41] 0x42 = [[0x41, 0x42]] ∧ pathCount smallTrie [0x42] = 1 :=
  ⟨rfl, (inv_ctxOf inv_encTrie rfl rfl (by decide) rfl (by decide) (by decide) (by decide)).trie, canAdd_ctxOf rfl rfl (by decide),
    by decide, by decide⟩

/-- A pool that is full, and a count of 41 at the maximum of one bit. -/
theorem witness_AddStops :
    (∃ s : State, s.phase = .ready ∧ s.TrieOk ∧ ¬ s.canAdd (s.ctx .hist) 0x43) ∧
    (∃ s : State, s.phase = .ready ∧ s.TrieOk ∧ s.par.countW = 1 ∧ ¬ s.canAdd (s.ctx .hist) 0x41) ∧
    (fullPool encTrie).encReady ∧ (fullPool encTrie).Inv ∧
    suffixesResolve (fullPool encTrie).nodes (fullPool encTrie).hist ∧
    ¬ (fullPool encTrie).canAdd (fullPool encTrie).hist 0x42 ∧
    (fullPool (decTrie [0x80])).decReady ∧ (fullPool (decTrie [0x80])).Inv ∧ (fullPool (decTrie [0x80])).eosSeen = false ∧
    suffixesResolve (fullPool (decTrie [0x80])).nodes (fullPool (decTrie [0x80])).hist ∧
    ¬ (fullPool (decTrie [0x80])).canAdd (fullPool (decTrie [0x80])).hist 0x42 ∧
    (fullPool (decTrie [0x80])).codeBits (.symbol 0x42) = [true, false] ∧
    (fullPool (decTrie [0x80])).codeBits (.symbol 0x42) <+: (fullPool (decTrie [0x80])).remaining := by
  obtain ⟨d1, d2, d3⟩ := inv_encTrie.trie
  refine ⟨⟨{ encTrie with par := ⟨2, 3, 32⟩ }, rfl, ⟨by decide, by show 3 ≤ 3; decide, d3⟩, fun h => ?_⟩, ?_, ⟨rfl, rfl⟩,
    inv_fullPool inv_encTrie rfl rfl, smallTrie_resolves_41, not_canAdd_fullPool rfl, ⟨rfl, rfl⟩,
    inv_fullPool (inv_decTrie _) rfl rfl, rfl, smallTrie_resolves_41, not_canAdd_fullPool rfl, by decide, by decide⟩
  · have h1 : smallTrie.length + (newPaths smallTrie [] 0x43).length ≤ 3 := h.1
    exact absurd h1 (by decide)
  · rcases (poolOk_root 1).poolAdd_spec (cap := 4) [] 0x41 with ⟨ms, h, a, -⟩ | ⟨ms, f, h, -⟩
    · have hms : ms = [{ rootNode with child := some 1 }, ⟨0x41, 1, some 0, none, none⟩] := by
        rw [show poolAdd 4 1 [] 0x41 [rootNode] =
          .done () [{ rootNode with child := some 1 }, ⟨0x41, 1, some 0, none, none⟩] from rfl] at h
        cases h; rfl
      refine ⟨{ encOf [] with par := ⟨2, 4, 1⟩, nodes := ms }, rfl, ⟨show Params.Legal ⟨2, 4, 1⟩ by decide, ?_, a.pool⟩, rfl, fun hc => ?_⟩
      · show ms.length ≤ 4
        rw [hms]; decide
      · have h1 : pathCount ms ([] ++ [0x41]) < 2 ^ 1 - 1 := hc.2 [] (List.suffix_refl [])
        rw [hms] at h1
        exact absurd h1 (by decide)
    · cases h

theorem trie_encHist : encHist.TrieOk := by
  obtain ⟨d1, d2, d3⟩ := (inv_encOf [] (by decide)).trie
  exact ⟨d1, d2, d3⟩

/-- A context the trie does not hold, and the root. -/
theorem witness_GetList :
    (encHist.phase = .ready ∧ encHist.TrieOk ∧ pathNode encHist.nodes (encHist.ctx .hist) = none) ∧
    encTrie.phase = .ready ∧ encTrie.TrieOk ∧ pathNode encTrie.nodes (encTrie.ctx .hist) = some 0 :=
  ⟨⟨rfl, trie_encHist, by decide⟩, rfl, inv_encTrie.trie, rfl⟩

theorem witness_GetUniform : twoExcluded.phase = .ready ∧ twoExcluded.XsetOk := ⟨rfl, xsetOk_twoExcluded⟩

/-- A candidate at the least and one at the last index, and one the list does not hold. -/
theorem witness_FindCommands :
    encTrie.phase = .ready ∧
    (encTrie.cl[0]? = some (.sym 0x41 (some 1)) ∧ (∃ q, Cand.sym 0x41 (some 1) = .sym 0x41 q) ∧
      ∀ j f, j < 0 → encTrie.cl[j]? = some f → ¬ ∃ q, f = .sym 0x41 q) ∧
    (encTrie.cl[2]? = some .esc ∧ ∀ j f, j < 2 → encTrie.cl[j]? = some f → ¬ f = .esc) ∧
    ∀ e ∈ encTrie.cl, ¬ e = .eos := by
  refine ⟨rfl, ⟨rfl, ⟨_, rfl⟩, fun j f h => absurd h (Nat.not_lt_zero j)⟩, ⟨rfl, ?_⟩, by decide⟩
  intro j f hj hf he
  subst he
  have : j = 0 ∨ j = 1 := by omega
  rcases this with rfl | rfl <;> cases hf

theorem witness_ExcludeAll : (withList twoExcluded).phase = .ready ∧ (withList twoExcluded).XsetOk :=
  ⟨rfl, xsetOk_twoExcluded⟩

/-- The first index outside the list, the last inside it, a symbol; and a missing list. -/
theorem witness_CandidateReads :
    (encTrie.phase = .ready ∧ encTrie.TrieOk ∧ encTrie.ListOk) ∧ encTrie.cl.length ≤ (3 : BitVec 9).toNat ∧
    encTrie.cl[(2 : BitVec 9).toNat]? = some .esc ∧ encTrie.cl[(0 : BitVec 9).toNat]? = some (.sym 0x41 (some 1)) ∧
    encTrie.clnull = false ∧
    ({ encOf [] with clnull := true } : State).ListOk ∧ ({ encOf [] with cl := [.sym 0 none, .esc, .eos] } : State).ListOk := by
  refine ⟨⟨rfl, inv_encTrie.trie, inv_encTrie.list⟩, by decide, rfl, rfl, rfl,
    ⟨by decide, fun _ => rfl, fun e he => by cases he⟩, ⟨by decide, fun h => (by cases h), ?_⟩⟩
  intro e he
  simp only [List.mem_cons, List.not_mem_nil, or_false] at he
  rcases he with rfl | rfl | rfl <;> exact trivial

/-- ENC_PUT completes, and its state can take the next codec command. -/
theorem encPut_completes {s : State} (sym : Sym) (hs : s.encReady) (hi : s.Inv) (hr : suffixesResolve s.nodes s.hist)
    (hc : s.canAdd s.hist sym) :
    ∃ t, exec (.encPut sym) s = .next t ∧ t.encReady ∧ t.Inv ∧ suffixesResolve t.nodes t.hist := by
  obtain ⟨e, h1, hF, -⟩ := start_mirror (some sym) hi hr
  unfold EncFrame at hF
  have en : e.nodes = s.nodes := by rw [hF]; rfl
  have eh : e.hist = s.hist := by rw [hF]; rfl
  have ep : e.par = s.par := by rw [hF]; rfl
  have ee : e.encReady := ⟨by rw [hF]; exact hs.1, by rw [hF]; exact hs.2⟩
  have et : e.TrieOk := by
    refine ⟨?_, ?_, ?_⟩
    · rw [ep]; exact hi.trie.par
    · rw [en, ep]; exact hi.trie.alloc
    · rw [en, ep]; exact hi.trie.pool
  have hx := encPut_run sym hs
  rw [h1, Res.done_andThen] at hx
  rcases State.resolve_spec et sym with ⟨-, ms, h2, h3, -, -⟩ | ⟨h, -⟩
  · rw [h2, Res.done_andThen] at hx
    refine ⟨_, hx, ee, hi.exec hx, ?_⟩
    refine h3.suffixesResolve _ ?_
    rw [en, eh]; exact hr
  · exact absurd (by unfold State.canAdd; rw [en, eh, ep]; exact hc) h

/-- INIT at the largest order, and a codec command that completes. -/
theorem witness_NoUnseenContext :
    ((0xFFFFFFFFFFFFFF : Wide).toNat ≤ State.reset.par.orderCap ∧
      ∃ t, exec (.init .enc 0xFFFFFFFFFFFFFF) State.reset = .next t) ∧
    (encTrie.Inv ∧ suffixesResolve encTrie.nodes encTrie.hist ∧
      ∃ t, exec (.encPut 0x42) encTrie = .next t ∧ t.phase = .ready) := by
  obtain ⟨t, h1, h2, -⟩ := encPut_completes (s := encTrie) 0x42 ⟨rfl, rfl⟩ inv_encTrie smallTrie_resolves (canAdd_small rfl rfl)
  exact ⟨⟨by decide, _, rfl⟩, inv_encTrie, smallTrie_resolves, t, h1, h2.1⟩

/-! ### Huffman decision coder -/

/-- A list of one candidate, and a list of three with its first and its last index. -/
theorem witness_PathShape :
    ({ encOf [] with cl := [.esc] } : State).cl.length = 1 ∧ 2 ≤ encTrie.cl.length ∧ 0 < encTrie.cl.length ∧
    2 < encTrie.cl.length ∧ encTrie.huffPath 0 = [false] ∧ encTrie.huffPath 2 = [true, true] ∧ encTrie.cl ≠ [] := by decide

theorem witness_HuffEncodes :
    (encTrie.encReady ∧ encTrie.wbuf.length ≤ 7) ∧ encTrie.cl.length ≤ (3 : BitVec 9).toNat ∧
    (2 : BitVec 9).toNat < encTrie.cl.length := ⟨⟨⟨rfl, rfl⟩, by decide⟩, by decide, by decide⟩

/-- No list; a path that the bits left begin with; a path of which one bit of two is left. -/
theorem witness_HuffDecodes :
    ((decOf []).decReady ∧ (decOf []).cl = []) ∧
    ((withList (decAt [0x03] 6)).decReady ∧ (withList (decAt [0x03] 6)).cl[2]? = some .esc ∧
      (withList (decAt [0x03] 6)).remaining = (withList (decAt [0x03] 6)).huffPath 2 ++ []) ∧
    (withList (decAt [0x03] 7)).decReady ∧ 2 < (withList (decAt [0x03] 7)).cl.length ∧
    (withList (decAt [0x03] 7)).huffPath 2 = (withList (decAt [0x03] 7)).remaining ++ true :: [] :=
  ⟨⟨⟨rfl, rfl⟩, rfl⟩, ⟨⟨rfl, rfl⟩, rfl, by decide⟩, ⟨rfl, rfl⟩, by decide, by decide⟩

/-- An encoder and a decoder with the same list, and the bits 11 with six more. -/
theorem witness_Mirror :
    encTrie.encReady ∧ encTrie.wbuf.length ≤ 7 ∧ (2 : BitVec 9).toNat < encTrie.cl.length ∧ (decTrie [0xC0]).decReady ∧
    (decTrie [0xC0]).cl = encTrie.cl ∧ (decTrie [0xC0]).nodes = encTrie.nodes ∧
    encTrie.huffPath (2 : BitVec 9).toNat = [true, true] ∧ (decTrie [0xC0]).remaining = [true, true] ++ List.replicate 6 false :=
  ⟨⟨rfl, rfl⟩, by decide, by decide, ⟨rfl, rfl⟩, rfl, rfl, by decide, by decide⟩

/-! ### Codec -/

/-- The small trie, with room in HIST, with MAXORDER 0, and with HIST full. -/
theorem witness_EncodePut :
    (encTrie.encReady ∧ encTrie.Inv ∧ suffixesResolve encTrie.nodes encTrie.hist ∧ encTrie.canAdd encTrie.hist 0x42) ∧
    (encTrie.maxOrder.toNat ≠ 0 ∧ encTrie.hist.length ≠ encTrie.maxOrder.toNat) ∧
    (∃ s : State, s.encReady ∧ s.Inv ∧ suffixesResolve s.nodes s.hist ∧ s.canAdd s.hist 0x42 ∧ s.maxOrder.toNat = 0) ∧
    ∃ s : State, s.encReady ∧ s.Inv ∧ suffixesResolve s.nodes s.hist ∧ s.canAdd s.hist 0x42 ∧ s.hist = [0x41] ∧
      s.hist.length = s.maxOrder.toNat := by
  refine ⟨⟨⟨rfl, rfl⟩, inv_encTrie, smallTrie_resolves, canAdd_small rfl rfl⟩, by decide, ⟨{ encTrie with maxOrder := 0 },
    ⟨rfl, rfl⟩, ?_, smallTrie_resolves, canAdd_small rfl rfl, rfl⟩, ctxOf encTrie ⟨2, 4, 32⟩ 1, ⟨rfl, rfl⟩,
    inv_ctxOf inv_encTrie rfl rfl (by decide) rfl (by decide) (by decide) (by decide), smallTrie_resolves_41,
    canAdd_ctxOf rfl rfl (by decide), rfl, rfl⟩
  obtain ⟨⟨a1, a2, a3⟩, -, c, ⟨d1, d2, d3⟩, ⟨e1, e2, e3⟩, f⟩ := inv_encTrie
  exact ⟨⟨a1, a2, a3⟩, ⟨by decide, by decide, by decide⟩, c, ⟨d1, d2, d3⟩, ⟨e1, e2, e3⟩, f⟩

theorem witness_EncodeClose : encTrie.encReady ∧ encTrie.Inv ∧ suffixesResolve encTrie.nodes encTrie.hist :=
  ⟨⟨rfl, rfl⟩, inv_encTrie, smallTrie_resolves⟩

/-- The bits 10 of the symbol 42 in the small trie, and six more. -/
theorem witness_DecodeGet :
    (decTrie [0x80]).decReady ∧ (decTrie [0x80]).Inv ∧ (decTrie [0x80]).eosSeen = false ∧
    suffixesResolve (decTrie [0x80]).nodes (decTrie [0x80]).hist ∧ (decTrie [0x80]).canAdd (decTrie [0x80]).hist 0x42 ∧
    (decTrie [0x80]).remaining = (decTrie [0x80]).codeBits (.symbol 0x42) ++ List.replicate 6 false :=
  ⟨⟨rfl, rfl⟩, inv_decTrie _, rfl, smallTrie_resolves, canAdd_small rfl rfl, by decide⟩

/-- V45-1: the closing cascade of an empty model is the bits 11111101. A decoder that is inside a byte, with those bits and five
more, and one that has seen the end. -/
theorem witness_DecodeEnd :
    ((decAt [0x1F, 0xA0] 3).decReady ∧ (decAt [0x1F, 0xA0] 3).Inv ∧ (decAt [0x1F, 0xA0] 3).eosSeen = false ∧
      suffixesResolve (decAt [0x1F, 0xA0] 3).nodes (decAt [0x1F, 0xA0] 3).hist ∧
      (decAt [0x1F, 0xA0] 3).remaining = (decAt [0x1F, 0xA0] 3).codeBits .endOfStream ++ List.replicate 5 false) ∧
    ({ decOf [] with eosSeen := true } : State).decReady :=
  ⟨⟨⟨rfl, rfl⟩, inv_decAt _ _ (by decide), rfl, suffixesResolve_root, by decide +kernel⟩, rfl, rfl⟩

/-- The context 41 42 in an empty trie, for the three commands. The byte FC, which is ESC in the uniform list of an empty model
(46_huffman.md R301). Of the bits 10 of the symbol 42 in the small trie none, and one. -/
theorem witness_UnseenContextFaults :
    ((encHist.phase = .ready ∧ pathNode encHist.nodes encHist.hist = none) ∧
      (Instr.encPut 0x42).dirNeed.allows encHist.dir = true ∧ Instr.encClose.dirNeed.allows encHist.dir = true ∧
      Instr.decGet.dirNeed.allows ({ encHist with dir := .dec } : State).dir = true ∧ encHist.eosSeen = false) ∧
    ((decOf [0xFC]).decReady ∧ (decOf [0xFC]).Inv ∧ (decOf [0xFC]).eosSeen = false ∧
      suffixesResolve (decOf [0xFC]).nodes (decOf [0xFC]).hist ∧
      (decOf [0xFC]).codeBits .escape <+: (decOf [0xFC]).remaining) ∧
    ((decTrie []).decReady ∧ (decTrie []).Inv ∧ (decTrie []).eosSeen = false ∧
      suffixesResolve (decTrie []).nodes (decTrie []).hist ∧
      (decTrie []).codeBits (.symbol 0x42) = (decTrie []).remaining ++ true :: [false]) ∧
    ((withList (decAt [0x01] 7)).decReady ∧ (withList (decAt [0x01] 7)).Inv ∧
      suffixesResolve (withList (decAt [0x01] 7)).nodes (withList (decAt [0x01] 7)).hist ∧
      (withList (decAt [0x01] 7)).codeBits (.symbol 0x42) = (withList (decAt [0x01] 7)).remaining ++ false :: []) := by
  refine ⟨by decide, ⟨⟨rfl, rfl⟩, inv_decOf _, rfl, suffixesResolve_root, by decide +kernel⟩,
    ⟨⟨rfl, rfl⟩, inv_decTrie _, rfl, smallTrie_resolves, by decide⟩, ⟨rfl, rfl⟩, ?_, smallTrie_resolves, by decide⟩
  refine inv_withList (inv_decAt _ _ (by decide)) ?_ rfl rfl
  show 3 ≤ 2 ^ 56 - 1
  decide

theorem witness_DecodeClose : (decOf []).decReady := ⟨rfl, rfl⟩

/-- A stream of one symbol that is coded and closed, and the decoder over its bytes. -/
theorem witness_RoundTrip : ∃ s d : State, s.par.Legal ∧ d.par = s.par ∧ (2 : Wide).toNat ≤ s.par.orderCap ∧
    (s.after (.init .enc 2 :: [0x41].map .encPut ++ [.encClose])).phase = .closed ∧
    d.nextSrc = sinkOf s (.init .enc 2 :: [0x41].map .encPut ++ [.encClose]) := by
  refine ⟨State.reset, { State.reset with nextSrc := sinkOf State.reset (.init .enc 2 :: [0x41].map .encPut ++ [.encClose]) },
    by decide, rfl, by decide, ?_, by dsimp only⟩
  let s : State := (State.reset.initialise .enc 2).respond ⟨.ok, 0, 0⟩
  have hi : s.Inv := (inv_ready .enc).same rfl
  have hc : s.canAdd s.hist 0x41 := by
    refine ⟨?_, fun Y hY => ?_⟩
    · show [rootNode].length + (newPaths [rootNode] [] 0x41).length ≤ 2 ^ 56 - 1
      decide
    · show pathCount [rootNode] (Y ++ [0x41]) < 2 ^ 32 - 1
      rw [List.suffix_nil.1 hY]; decide
  obtain ⟨t, h1, h2, h3, h4⟩ := encPut_completes 0x41 ⟨rfl, rfl⟩ hi suffixesResolve_root hc
  obtain ⟨e, h5, -⟩ := start_mirror none h3 h4
  have h6 := encClose_run h2
  rw [h5, Res.done_andThen] at h6
  have h0 : exec (.init .enc 2) State.reset = .next s := rfl
  simp only [List.map_cons, List.map_nil, List.cons_append, List.nil_append, State.after, h0, h1, h6]
  rfl

/-! ### System -/

/-- The largest order a block accepts, and the first it does not. -/
theorem witness_Init :
    (8 : Wide).toNat ≤ (State.resetWith ⟨8, 10, 32⟩ []).par.orderCap ∧
    (State.resetWith ⟨8, 10, 32⟩ []).par.orderCap < (9 : Wide).toNat := by decide

/-- A block in each phase. -/
theorem witness_GetStatus :
    State.reset.phase = .unconf ∧ (inPhase .ready 0).phase = .ready ∧ (inPhase .closed 0).phase = .closed ∧
    (inPhase .faulted 0).phase = .faulted := ⟨rfl, rfl, rfl, rfl⟩

end Sys2Proof.Tests
end

section
/-! The scope statement: a step runs the command that the presented word decodes to. -/

namespace Sys2Proof.Machine

/-- A word of the encoding is executed as its command, in any state (60_exceptions.md R345). -/
theorem stepWord_of_decode {w : Word72} {i : Instr} (hw : decode w = some i) (s : State) : stepWord w s = exec i s := by
  simp only [stepWord, hw]

/-- Settles O6: the step takes the word, and the word taken is executed as its command. -/
theorem stepRunsDecoded : Obligations.StepRunsDecoded := by
  intro s w rest i hs hw
  calc
    step s = stepWord w { s with host := rest } := step_command hs
    _ = exec i { s with host := rest } := stepWord_of_decode hw _

end Sys2Proof.Machine
end

section
/-! The state statements (10_state.md): the reset state, what each input of the host does, what no command changes, and the
invariants every step keeps. -/

namespace Sys2Proof.Machine

/-! ### Reset and the host's inputs -/

theorem Params.default_legal : Params.default.Legal := by decide

/-- Hardware reset leaves the reset state as it is: both give every element the same value (assumption log 1). -/
theorem reset_hardwareReset : State.reset.hardwareReset = State.reset := rfl

/-- Settles O17: the reset state is one that hardware reset leaves. -/
theorem resetInv : Obligations.ResetInv := by
  have h : State.reset.hardwareReset.Inv := hardwareReset_inv State.reset Params.default_legal
  rwa [reset_hardwareReset] at h

/-- Settles O7, from the step equation of each input. -/
theorem stepHostInputs : Obligations.StepHostInputs := by
  refine ⟨fun s hs => step_idle hs, fun s rest hs => ?_, fun s bytes rest hs => step_source hs, step_next⟩
  exact ⟨_, step_hwReset hs, rfl, rfl, rfl, rfl, rfl, rfl, rfl, rfl⟩

/-! ### What no command changes -/

/-- From `s` to `t` nothing has changed that only the host and INIT may change: the parameters, the source presented for the
next stream, the host's inputs, CFG and the source of the run (10_state.md R25, R42). -/
structure KeepsConfig (s t : State) : Prop where
  par : t.par = s.par
  nextSrc : t.nextSrc = s.nextSrc
  host : t.host = s.host
  dir : t.dir = s.dir
  maxOrder : t.maxOrder = s.maxOrder
  src : t.src = s.src

theorem KeepsConfig.trans {s t u : State} (h : KeepsConfig s t) (k : KeepsConfig t u) : KeepsConfig s u :=
  ⟨k.par.trans h.par, k.nextSrc.trans h.nextSrc, k.host.trans h.host, k.dir.trans h.dir, k.maxOrder.trans h.maxOrder,
    k.src.trans h.src⟩

theorem Micros.keepsConfig {s t : State} (h : Micros s t) : KeepsConfig s t := by
  obtain ⟨hpar, -, hdir, horder, -, -, hsrc, -, hhost, -, hnext⟩ := h.kept
  exact ⟨hpar, hnext, hhost, hdir, horder, hsrc⟩

theorem keepsConfig_atEnd (i : Instr) (u : State) : KeepsConfig u (atEnd i u) := by
  unfold atEnd
  split <;> exact ⟨rfl, rfl, rfl, rfl, rfl, rfl⟩

/-- The last events of a command: a flush and a close at most. -/
theorem snk_atEnd (i : Instr) (u : State) : ∃ l : List SinkEvent, (atEnd i u).snk = u.snk ++ l := by
  unfold atEnd
  split
  · exact ⟨[.flush], rfl⟩
  · exact ⟨[.flush], rfl⟩
  · exact ⟨[.flush, .close], List.append_assoc u.snk [.flush] [.close]⟩
  · exact ⟨[.flush, .close], List.append_assoc u.snk [.flush] [.close]⟩
  · exact ⟨[], (List.append_nil _).symm⟩
  · exact ⟨[], (List.append_nil _).symm⟩

/-- A command that a decoder may run neither flushes nor closes the sink (30_encoding.md R96). -/
theorem snk_atEnd_dec {i : Instr} (h : i.dirNeed.allows .dec = true) (u : State) : (atEnd i u).snk = u.snk := by
  unfold atEnd
  split
  · cases h
  · cases h
  · cases h
  · cases h
  · rfl
  · rfl

/-- A command that runs leaves the configuration as it was. -/
theorem Ends.keepsConfig {i : Instr} {s t : State} (h : Ends i s t) : KeepsConfig s t := by
  cases h with
  | done rsp u hu h =>
    obtain ⟨hpar, hnext, hhost, hdir, horder, hsrc⟩ := hu.keepsConfig.trans (keepsConfig_atEnd i u)
    exact ⟨hpar, hnext, hhost, hdir, horder, hsrc⟩
  | short k hd hk h hi => exact ⟨rfl, rfl, rfl, rfl, rfl, rfl⟩
  | fault f u hu hf h =>
    obtain ⟨hpar, hnext, hhost, hdir, horder, hsrc⟩ := hu.keepsConfig
    exact ⟨hpar, hnext, hhost, hdir, horder, hsrc⟩

/-- A command that runs only appends to the sink (10_state.md R43). -/
theorem Ends.snk {i : Instr} {s t : State} (h : Ends i s t) : ∃ l : List SinkEvent, t.snk = s.snk ++ l := by
  cases h with
  | done rsp u hu h =>
    obtain ⟨l, hl⟩ := hu.snk
    obtain ⟨k, hk⟩ := snk_atEnd i u
    refine ⟨l.map .byte ++ k, ?_⟩
    rw [State.respond_snk, hk, hl, List.append_assoc]
  | short k hd hk h hi => exact ⟨[], (List.append_nil _).symm⟩
  | fault f u hu hf h =>
    obtain ⟨l, hl⟩ := hu.snk
    exact ⟨l.map .byte, hl⟩

/-- A decoder's command leaves the sink alone (10_state.md R43, 20_memory.md R63). -/
theorem Ends.snk_dec {i : Instr} {s t : State} (h : Ends i s t) (hd : s.dir = .dec) (ha : i.dirNeed.allows s.dir = true) :
    t.snk = s.snk := by
  cases h with
  | done rsp u hu h => exact (snk_atEnd_dec (hd ▸ ha) u).trans (hu.snk_dec hd)
  | short k hd hk h hi => rfl
  | fault f u hu hf h => exact hu.snk_dec hd

/-- INIT alone sets CFG and the source of the run; every other command, refused, faulting or run, leaves them. -/
theorem Comes.keepsConfig {i : Instr} {s t : State} (h : Comes i s t) (hi : ∀ d m, i ≠ .init d m) : KeepsConfig s t := by
  cases h with
  | init hm => exact absurd rfl (hi _ _)
  | badConfig hm => exact absurd rfl (hi _ _)
  | status n r | refused hi' hg hr | wrongDir hi' hg hp hd => exact ⟨rfl, rfl, rfl, rfl, rfl, rfl⟩
  | ran hi' hg hp hd he => exact he.keepsConfig

/-- INIT too leaves the parameters and the host's side of the boundary as they were (47_system.md R310). -/
theorem Comes.host_kept {i : Instr} {s t : State} (h : Comes i s t) :
    t.par = s.par ∧ t.nextSrc = s.nextSrc ∧ t.host = s.host := by
  cases h with
  | init hm | badConfig hm | status n r | refused hi hg hr | wrongDir hi hg hp hd => exact ⟨rfl, rfl, rfl⟩
  | ran hi hg hp hd he =>
    obtain ⟨hpar, hnext, hhost, -, -, -⟩ := he.keepsConfig
    exact ⟨hpar, hnext, hhost⟩

/-- Only a READY encoder adds events to the sink; no command takes any away (10_state.md R43, 20_memory.md R63). -/
theorem Comes.snk {i : Instr} {s t : State} (h : Comes i s t) :
    ∃ l : List SinkEvent, t.snk = s.snk ++ l ∧ (l ≠ [] → s.phase = .ready ∧ s.dir = .enc) := by
  cases h with
  | init hm | badConfig hm | status n r | refused hi hg hr | wrongDir hi hg hp hd =>
    exact ⟨[], (List.append_nil _).symm, fun h => absurd rfl h⟩
  | ran hi hg hp hd he =>
    cases hdir : s.dir with
    | enc =>
      obtain ⟨l, hl⟩ := he.snk
      exact ⟨l, hl, fun _ => ⟨hp, rfl⟩⟩
    | dec => exact ⟨[], by rw [he.snk_dec hdir hd, List.append_nil], fun h => absurd rfl h⟩

/-- Settles O16, by cases on what the command comes to. -/
theorem commandFrame : Obligations.CommandFrame := by
  intro i s t h
  have hc : Comes i s t := .of h
  obtain ⟨hpar, hnext, hhost⟩ := hc.host_kept
  refine ⟨hpar, hnext, hhost, fun hi => ?_, hc.snk⟩
  obtain ⟨-, -, -, hdir, horder, hsrc⟩ := hc.keepsConfig hi
  exact ⟨hdir, horder, hsrc⟩

/-! ### Invariants -/

/-- The buffers' bounds look at the two buffers, SPOS and the mark only. -/
theorem State.BuffersOk.of_eq {s t : State} (h : s.BuffersOk) (hw : t.wbuf = s.wbuf) (hr : t.rbuf = s.rbuf)
    (hp : t.spos = s.spos) (hm : t.mark = s.mark) : t.BuffersOk := by
  obtain ⟨hwbuf, hrbuf, hmark⟩ := h
  exact ⟨hw ▸ hwbuf, hr ▸ hrbuf, by rw [hm, hp]; exact hmark⟩

/-- The trie's invariants look at the parameters and the pool only. -/
theorem State.TrieOk.of_eq {s t : State} (h : s.TrieOk) (hp : t.par = s.par) (hn : t.nodes = s.nodes) : t.TrieOk := by
  obtain ⟨hlegal, halloc, hpool⟩ := h
  exact ⟨hp ▸ hlegal, by rw [hn, hp]; exact halloc, by rw [hn, hp]; exact hpool⟩

theorem hardwareReset_buffers (s : State) : s.hardwareReset.BuffersOk :=
  ⟨Nat.zero_le _, Nat.zero_le _, fun _ h => by cases h⟩

/-- Settles O18, by what every step is made of: only the small updates, a read's `Fill`, INIT and hardware reset move the
buffers or the mark. -/
theorem buffersKept : Obligations.BuffersKept := by
  intro s t hs h
  refine step_keeps (P := State.BuffersOk) ?rest ?micro ?fill ?ends ?respond ?fault ?init ?free ?reset ?source hs h
  case micro => exact fun u v hu m => m.buffers hu
  case fill => exact fun u k _ hk hu => fill_buffers hu hk
  case init => exact fun u d m _ _ => initialise_buffers u d m
  case reset => exact fun u _ => hardwareReset_buffers u
  case rest => exact fun u l hu => hu.of_eq rfl rfl rfl rfl
  case ends => exact fun u hu => ⟨hu.of_eq rfl rfl rfl rfl, hu.of_eq rfl rfl rfl rfl, fun _ => hu.of_eq rfl rfl rfl rfl⟩
  case respond => exact fun u rsp hu => hu.of_eq rfl rfl rfl rfl
  case fault => exact fun u f opc hu => hu.of_eq rfl rfl rfl rfl
  case free => exact fun u n hu => hu.of_eq rfl rfl rfl rfl
  case source => exact fun u b hu => hu.of_eq rfl rfl rfl rfl

/-- Settles O19, in the same way: only ModelAdd, INIT and hardware reset change the pool. -/
theorem trieKept : Obligations.TrieKept := by
  intro s t hs h
  refine step_keeps (P := State.TrieOk) ?rest ?micro ?fill ?ends ?respond ?fault ?init ?free ?reset ?source hs h
  case micro => exact fun u v hu m => m.trie hu
  case init => exact fun u d m hu _ => initialise_trie u d m hu.par
  case reset => exact fun u hu => (hardwareReset_inv u hu.par).trie
  case fill => exact fun u k _ _ hu => hu.of_eq rfl rfl
  case rest => exact fun u l hu => hu.of_eq rfl rfl
  case ends => exact fun u hu => ⟨hu.of_eq rfl rfl, hu.of_eq rfl rfl, fun _ => hu.of_eq rfl rfl⟩
  case respond => exact fun u rsp hu => hu.of_eq rfl rfl
  case fault => exact fun u f opc hu => hu.of_eq rfl rfl
  case free => exact fun u n hu => hu.of_eq rfl rfl
  case source => exact fun u b hu => hu.of_eq rfl rfl

/-- Settles O20, in the same way: the small updates keep each part, a fault and a close set phase and latches together, and
INIT and hardware reset set every element. -/
theorem invKept : Obligations.InvKept := by
  intro s t hs h
  refine step_keeps (P := State.Inv) ?rest ?micro ?fill ?ends ?respond ?fault ?init ?free ?reset ?source hs h
  case micro => exact fun u v hu m => m.inv hu
  case fill => exact fun u k _ hk hu => hu.fill hk
  case ends => exact fun u hu => ⟨hu.same rfl, hu.same rfl, hu.close⟩
  case fault => exact fun u f opc hu => hu.takeFault f opc
  case init => exact fun u d m hu hm => initialise_inv u d m hu.trie.par hm
  case reset => exact fun u hu => hardwareReset_inv u hu.trie.par
  case rest => exact fun u l hu => hu.same rfl
  case respond => exact fun u rsp hu => hu.same rfl
  case free => exact fun u n hu => hu.same rfl
  case source => exact fun u b hu => hu.same rfl

end Sys2Proof.Machine
end

section
/-! The encoding statements (30_encoding.md): the decoder and the encoder agree both ways, a word matches the row of its
command alone, and what a word that is no command, and a command of the other direction, come to. -/

namespace Sys2Proof

/-! ### A command is read back from its word -/

/-- The family `Encodes`, of every command: the decoder takes a command's own word to the command's own row. -/
theorem decode_encode_row (i : Instr) : Laws.Encodes.Statement i := by
  cases i with
  | init d m => exact Laws.Encodes.init d m
  | getStatus p => exact Laws.Encodes.getStatus p
  | brReadU n => exact Laws.Encodes.brReadU n
  | brReadS n => exact Laws.Encodes.brReadS n
  | brReadBit => exact Laws.Encodes.brReadBit
  | brReadU8 => exact Laws.Encodes.brReadU8
  | brReadS8 => exact Laws.Encodes.brReadS8
  | brReadU16BE => exact Laws.Encodes.brReadU16BE
  | brReadU16LE => exact Laws.Encodes.brReadU16LE
  | brReadS16BE => exact Laws.Encodes.brReadS16BE
  | brReadS16LE => exact Laws.Encodes.brReadS16LE
  | brReadU32BE => exact Laws.Encodes.brReadU32BE
  | brReadU32LE => exact Laws.Encodes.brReadU32LE
  | brReadS32BE => exact Laws.Encodes.brReadS32BE
  | brReadS32LE => exact Laws.Encodes.brReadS32LE
  | brAlign => exact Laws.Encodes.brAlign
  | brCount => exact Laws.Encodes.brCount
  | brSkip k => exact Laws.Encodes.brSkip k
  | brReadByte => exact Laws.Encodes.brReadByte
  | brMark limit => exact Laws.Encodes.brMark limit
  | brReset => exact Laws.Encodes.brReset
  | brIsAligned => exact Laws.Encodes.brIsAligned
  | bwWriteBits n v => exact Laws.Encodes.bwWriteBits n v
  | bwWriteBit v => exact Laws.Encodes.bwWriteBit v
  | bwWrite8 v => exact Laws.Encodes.bwWrite8 v
  | bwWrite16BE v => exact Laws.Encodes.bwWrite16BE v
  | bwWrite16LE v => exact Laws.Encodes.bwWrite16LE v
  | bwWrite32BE v => exact Laws.Encodes.bwWrite32BE v
  | bwWrite32LE v => exact Laws.Encodes.bwWrite32LE v
  | bwPad => exact Laws.Encodes.bwPad
  | bwDiscard => exact Laws.Encodes.bwDiscard
  | bwFlush => exact Laws.Encodes.bwFlush
  | bwPadFlush => exact Laws.Encodes.bwPadFlush
  | bwClose => exact Laws.Encodes.bwClose
  | bwIsAligned => exact Laws.Encodes.bwIsAligned
  | cxOrder c => exact Laws.Encodes.cxOrder c
  | cxDrop c => exact Laws.Encodes.cxDrop c
  | cxAppend c sym => exact Laws.Encodes.cxAppend c sym
  | cxGetAt c k => exact Laws.Encodes.cxGetAt c k
  | cxClone => exact Laws.Encodes.cxClone
  | xsExclude sym => exact Laws.Encodes.xsExclude sym
  | xsIsExcluded sym => exact Laws.Encodes.xsIsExcluded sym
  | xsClear => exact Laws.Encodes.xsClear
  | xsCount => exact Laws.Encodes.xsCount
  | mdAdd c sym => exact Laws.Encodes.mdAdd c sym
  | mdGetList c => exact Laws.Encodes.mdGetList c
  | mdGetUniform => exact Laws.Encodes.mdGetUniform
  | mdFindSym sym => exact Laws.Encodes.mdFindSym sym
  | mdFindEsc => exact Laws.Encodes.mdFindEsc
  | mdFindEos => exact Laws.Encodes.mdFindEos
  | mdExcludeAll => exact Laws.Encodes.mdExcludeAll
  | mdIsEsc idx => exact Laws.Encodes.mdIsEsc idx
  | mdIsEos idx => exact Laws.Encodes.mdIsEos idx
  | clLen => exact Laws.Encodes.clLen
  | clGet idx => exact Laws.Encodes.clGet idx
  | hfEncode idx => exact Laws.Encodes.hfEncode idx
  | hfDecode => exact Laws.Encodes.hfDecode
  | encPut sym => exact Laws.Encodes.encPut sym
  | encClose => exact Laws.Encodes.encClose
  | decGet => exact Laws.Encodes.decGet
  | decClose => exact Laws.Encodes.decClose

/-- A row of the opcode map gives its command to the words of its format. -/
theorem decodeAs_of_matches {w : Word72} {i : Instr} (h : i.format.matches w = true) : decodeAs w i = some i :=
  (decodeAs_iff w i i).2 ⟨h, rfl⟩

/-- Settles O1: the command's row reads the operands back, and the command's word has the row's format. -/
theorem decodeEncode : Obligations.DecodeEncode := by
  intro i
  calc
    decode (encode i) = decodeAs (encode i) i := decode_encode_row i
    _ = some i := decodeAs_of_matches (matches_encode i)

/-- The way to a word's command through the command's own word. -/
theorem decode_of_encode {w : Word72} {i : Instr} (h : encode i = w) : decode w = some i := h ▸ decodeEncode i

/-- Settles O4: each word is the one its command is encoded as. -/
theorem decodedWords : Obligations.DecodedWords := by
  refine ⟨?_, ?_, ?_, ?_, ?_, ?_, ?_, ?_, ?_, ?_⟩ <;> exact decode_of_encode (by decide)

/-! ### A command has one word -/

/-- A field whose every bit the format reserves is 0 (R92). -/
theorem eq_zero_of_and_allOnes {k : Nat} {x : BitVec k} (h : x &&& BitVec.allOnes k = 0) : x = 0 := by
  rwa [BitVec.and_allOnes] at h

/-- The fields of a command's word are those of every word it is decoded from: the format's reserved bits are 0, and the
row reads each operand from its field (R92, R94). -/
theorem fields_of_decode {w : Word72} {i : Instr} (h : decode w = some i) : i.nField = nOf w ∧ i.vField = vOf w := by
  obtain ⟨ho, hm⟩ := decode_spec h
  obtain ⟨hn, hv⟩ := (matches_iff _ _).1 hm
  unfold decode at h
  rw [ho] at h
  cases i with
  | brReadBit | brReadU8 | brReadS8 | brReadU16BE | brReadU16LE | brReadS16BE | brReadS16LE | brReadU32BE | brReadU32LE
  | brReadS32BE | brReadS32LE | brAlign | brCount | brReadByte | brReset | brIsAligned | bwPad | bwDiscard | bwFlush
  | bwPadFlush | bwClose | bwIsAligned | cxClone | xsClear | xsCount | mdGetUniform | mdFindEsc | mdFindEos | mdExcludeAll
  | clLen | hfDecode | encClose | decGet | decClose =>
    exact ⟨(eq_zero_of_and_allOnes hn).symm, (eq_zero_of_and_allOnes hv).symm⟩
  | brReadU n | brReadS n =>
    obtain ⟨-, ⟨⟩⟩ := (decodeAs_iff _ _ _).1 h
    exact ⟨rfl, (eq_zero_of_and_allOnes hv).symm⟩
  | brSkip v | brMark v | bwWriteBit v | bwWrite8 v | bwWrite16BE v | bwWrite16LE v | bwWrite32BE v | bwWrite32LE v =>
    obtain ⟨-, ⟨⟩⟩ := (decodeAs_iff _ _ _).1 h
    exact ⟨(eq_zero_of_and_allOnes hn).symm, rfl⟩
  | bwWriteBits n v =>
    obtain ⟨-, ⟨⟩⟩ := (decodeAs_iff _ _ _).1 h
    exact ⟨rfl, rfl⟩
  | xsExclude sym | xsIsExcluded sym | mdFindSym sym | encPut sym =>
    obtain ⟨-, ⟨⟩⟩ := (decodeAs_iff _ _ _).1 h
    exact ⟨(eq_zero_of_and_allOnes hn).symm, symField_of_and hv⟩
  | getStatus p =>
    obtain ⟨-, ⟨⟩⟩ := (decodeAs_iff _ _ _).1 h
    exact ⟨pageField_of_and hn, (eq_zero_of_and_allOnes hv).symm⟩
  | cxOrder c | cxDrop c | mdGetList c =>
    obtain ⟨-, ⟨⟩⟩ := (decodeAs_iff _ _ _).1 h
    exact ⟨selField_of_and hn, (eq_zero_of_and_allOnes hv).symm⟩
  | cxAppend c sym | mdAdd c sym =>
    obtain ⟨-, ⟨⟩⟩ := (decodeAs_iff _ _ _).1 h
    exact ⟨selField_of_and hn, symField_of_and hv⟩
  | init d m =>
    obtain ⟨-, ⟨⟩⟩ := (decodeAs_iff _ _ _).1 h
    exact ⟨dirField_of_and hn, rfl⟩
  | cxGetAt c k =>
    obtain ⟨-, ⟨⟩⟩ := (decodeAs_iff _ _ _).1 h
    exact ⟨selField_of_and hn, rfl⟩
  | mdIsEsc idx | mdIsEos idx | clGet idx | hfEncode idx =>
    obtain ⟨-, ⟨⟩⟩ := (decodeAs_iff _ _ _).1 h
    exact ⟨(eq_zero_of_and_allOnes hn).symm, idxField_of_and hv⟩

/-- Settles O2: the three fields of the command's word are the word's. -/
theorem encodeDecode : Obligations.EncodeDecode := by
  intro w i h
  obtain ⟨hopc, -⟩ := decode_spec h
  obtain ⟨hn, hv⟩ := fields_of_decode h
  calc
    encode i = mkWord (opcOf w) (nOf w) (vOf w) := by rw [encode, hopc, hn, hv]
    _ = w := mkWord_fields w

/-! ### A word and its row -/

/-- A word's bits under a row's mask are the row's match where its opcode is the row's and its reserved bits are 0 (R92). -/
theorem masked_iff (w : Word72) (i : Instr) :
    w &&& i.format.mask = mkWord i.opcode 0 0 ↔ opcOf w = i.opcode ∧ i.format.matches w = true := by
  rw [and_mask, matches_iff]
  constructor
  · exact fun h => mkWord_inj h
  · rintro ⟨hopc, hn, hv⟩
    rw [hopc, hn, hv]

/-- An opcode has one format (R96). -/
theorem format_of_opcode {i j : Instr} (h : j.opcode = i.opcode) : j.format = i.format := by
  have hopc : opcOf (encode j) = i.opcode := (opcOf_mkWord _ _ _).trans h
  obtain ⟨k, hrow, -, hf⟩ := decode_row i hopc
  obtain ⟨-, rfl⟩ := (decodeAs_iff _ _ _).1 (hrow.symm.trans (decodeEncode j))
  exact hf

/-- A word of a row's opcode that breaks the row's format is no command (R97). -/
theorem decode_eq_none {w : Word72} {i : Instr} (hopc : opcOf w = i.opcode) (hm : ¬ i.format.matches w = true) :
    decode w = none := by
  obtain ⟨j, hrow, -, hf⟩ := decode_row i hopc
  rw [hrow, decodeAs, hf, if_neg hm]

/-- Settles O3: the row of an opcode is one, and decodes the words of its format. -/
theorem wordsMatchTheirRow : Obligations.WordsMatchTheirRow := by
  refine ⟨rfl, rfl, rfl, rfl, rfl, rfl, rfl, rfl, rfl, fun w i => ?_⟩
  rw [masked_iff]
  constructor
  · rintro ⟨hopc, hm⟩
    obtain ⟨j, hrow, hj, hf⟩ := decode_row i hopc
    exact ⟨j, hrow.trans (decodeAs_of_matches (hf ▸ hm)), hj⟩
  · rintro ⟨j, hj, hopc⟩
    obtain ⟨hw, hm⟩ := decode_spec hj
    exact ⟨hw.trans hopc, format_of_opcode hopc ▸ hm⟩

/-! ### Words that are no command -/

/-- The nine ranges of opcodes that no row of the opcode map has (R97). -/
def UndefinedOpcode (k : Nat) : Prop :=
  k = 0x00 ∨ (0x03 ≤ k ∧ k ≤ 0x0F) ∨ (0x24 ≤ k ∧ k ≤ 0x2F) ∨ (0x3D ≤ k ∧ k ≤ 0x3F) ∨ (0x45 ≤ k ∧ k ≤ 0x4F) ∨
    (0x54 ≤ k ∧ k ≤ 0x5F) ∨ (0x6B ≤ k ∧ k ≤ 0x6F) ∨ (0x72 ≤ k ∧ k ≤ 0x7F) ∨ 0x84 ≤ k

theorem not_undefined_opcode (i : Instr) : ¬ UndefinedOpcode i.opcode.toNat := by
  cases i <;> simp [UndefinedOpcode, Instr.opcode]

/-- A word that decodes has the opcode of a command, so none of the undefined ones. -/
theorem decode_undefinedOpcode {w : Word72} (h : UndefinedOpcode (opcOf w).toNat) : decode w = none := by
  cases hd : decode w with
  | none => rfl
  | some i =>
    obtain ⟨hopc, -⟩ := decode_spec hd
    exact absurd (hopc ▸ h) (not_undefined_opcode i)

end Sys2Proof

namespace Sys2Proof.Machine

/-- A word that is no command goes past the decoder to `illegalWord` (30_encoding.md R97). -/
theorem step_illegal {s : State} {w : Word72} {rest : List HostInput} (hs : s.host = .command w :: rest)
    (hd : decode w = none) : step s = illegalWord (opcOf w) { s with host := rest } := by
  rw [step_command hs]
  simp only [stepWord, hd]

/-- In phase READY an illegal word raises F_ILLEGAL_CMD (60_exceptions.md R345 step 3). -/
theorem illegalWord_ready {s : State} (opc : BitVec 8) (hp : s.phase = .ready) :
    illegalWord opc s = .next (s.faultedBy .illegalCmd opc) := by
  have h : illegalWord opc s = .next (s.takeFault .illegalCmd opc) := by simp only [illegalWord, hp, Phase.refusal_ready]
  exact h

/-- In the other phases it is refused like any other command (60_exceptions.md R341). -/
theorem illegalWord_refused {s : State} {st : Status} (opc : BitVec 8) (hp : s.phase.refusal = some st) :
    illegalWord opc s = .next (s.answered ⟨st, 0, 0⟩) := by
  have h : illegalWord opc s = .next (s.respond ⟨st, 0, 0⟩) := by simp only [illegalWord, hp]
  exact h

/-- Settles O5: no row has an undefined opcode, a row decodes the words of its format only, and a word that is no command
is answered by the phase. -/
theorem illegalWords : Obligations.IllegalWords := by
  refine ⟨fun w h => decode_undefinedOpcode h, fun w i hopc hmask => ?reserved, fun s w rest hs hd => ?step⟩
  case reserved => exact decode_eq_none hopc fun hm => hmask ((masked_iff w i).2 ⟨hopc, hm⟩)
  case step =>
    rw [step_illegal hs hd]
    exact ⟨fun hp => illegalWord_ready _ hp, fun hp => illegalWord_refused _ (hp ▸ rfl),
      fun hp => illegalWord_refused _ (hp ▸ rfl), fun hp => illegalWord_refused _ (hp ▸ rfl)⟩

/-! ### A command of the other direction -/

/-- A command of one direction on a READY block of the other faults before its pseudocode (30_encoding.md R98). INIT and
GET_STATUS are of both directions. -/
theorem exec_wrongDir {i : Instr} {s : State} (hp : s.phase = .ready) (hd : i.dirNeed.allows s.dir = false) :
    exec i s = .next (s.faultedBy .illegalCmd i.opcode) := by
  have hinit : ∀ d m, i ≠ .init d m := by rintro d m rfl; cases hd
  have hstatus : ∀ p, i ≠ .getStatus p := by rintro p rfl; cases hd
  obtain ⟨body, hb⟩ := exec_command i s hinit hstatus
  exact hb.trans (command_wrongDir body hp hd)

/-- F_ILLEGAL_CMD is no command's own fault (60_exceptions.md R323). -/
theorem illegalCmd_not_mem_causesOf (i : Instr) : FaultKind.illegalCmd ∉ causesOf i := by
  cases i <;> simp [causesOf]

/-- The code 0x85 is F_ILLEGAL_CMD's alone (60_exceptions.md R321). -/
theorem FaultKind.eq_illegalCmd_of_code {f : FaultKind} (h : f.code = 0x85) : f = .illegalCmd := by
  cases f with
  | illegalCmd => rfl
  | outOfRange | illegalState | protocol | truncated | nodePoolFull | countOverflow => exact absurd h (by decide)

/-- What a command that completes does last does not fault the block. -/
theorem atEnd_phase_ne_faulted (i : Instr) {u : State} (h : u.phase = .ready) : (atEnd i u).phase ≠ .faulted := by
  unfold atEnd
  split <;> simp [h]

/-- A command that ran and left the block faulted latched one of its own faults (60_exceptions.md R323, R330). -/
theorem Ends.fcode_of_faulted {i : Instr} {s t : State} (h : Ends i s t) (hp : s.phase = .ready) (ht : t.phase = .faulted) :
    ∃ f ∈ causesOf i, t.fcode = f.code := by
  cases h with
  | done rsp u hu h => exact absurd ht (atEnd_phase_ne_faulted i (hu.phase_eq.trans hp))
  | short k hd hk h hi => cases hp.symm.trans ht
  | fault f u hu hf h => exact ⟨f, hf, rfl⟩

/-- The same of every command of the configured direction on a READY block (60_exceptions.md R323). -/
theorem Comes.fcode_of_faulted {i : Instr} {s t : State} (h : Comes i s t) (hp : s.phase = .ready)
    (hd : i.dirNeed.allows s.dir = true) (ht : t.phase = .faulted) : ∃ f ∈ causesOf i, t.fcode = f.code := by
  cases h with
  | init hm => cases ht
  | badConfig hm | status n r | refused hi hg hr => cases hp.symm.trans ht
  | wrongDir hi hg hp' hd' => cases hd.symm.trans hd'
  | ran hi hg hp' hd' he => exact he.fcode_of_faulted hp ht

/-- Settles O9: the direction is checked before the pseudocode, and no command has F_ILLEGAL_CMD as a fault of its own. -/
theorem wrongDirection : Obligations.WrongDirection := by
  refine fun i s hp => ⟨exec_wrongDir hp, fun hd t h ht hcode => ?_⟩
  obtain ⟨f, hf, hfc⟩ := (Comes.of h).fcode_of_faulted hp hd ht
  have hillegal : f = .illegalCmd := FaultKind.eq_illegalCmd_of_code (hfc.symm.trans hcode)
  exact illegalCmd_not_mem_causesOf i (hillegal ▸ hf)

end Sys2Proof.Machine
end

section
/-! The bit reader statements (40_bit_reader.md): what each read returns and consumes, and how few bits stay buffered. -/

namespace Sys2Proof.Machine

/-! ### Few bits stay buffered -/

/-- The bound of R144 looks at the buffer and the mark only. -/
theorem State.readerShort.of_eq {s t : State} (h : s.readerShort) (hr : t.rbuf = s.rbuf) (hm : t.mark = s.mark) :
    t.readerShort := by
  obtain ⟨hbuf, hmark⟩ := h
  exact ⟨hr ▸ hbuf, hm ▸ hmark⟩

theorem atEnd_rbuf (i : Instr) (u : State) : (atEnd i u).rbuf = u.rbuf := by
  unfold atEnd
  split <;> rfl

theorem atEnd_mark (i : Instr) (u : State) : (atEnd i u).mark = u.mark := by
  unfold atEnd
  split <;> rfl

/-- A read that found its bits leaves what it found buffered, or less than a byte (40_bit_reader.md R121, R122). -/
theorem State.fill_consume_le (s : State) (k : Nat) : ((s.fill k).consume k).rbuf.length ≤ max s.rbuf.length 7 := by
  obtain ⟨-, -, hfill, -, -⟩ := s.reader.fill_spec s.src k
  rw [State.consume_rbuf, State.fill_rbuf, List.length_drop]
  rw [State.reader_rbuf] at hfill
  omega

/-- Every small update keeps the bound of R144: `Fill` pulls no byte that is not needed, and a mark is set and gone back to
where the bound holds. -/
theorem Micro.readerShort {s t : State} (h : s.readerShort) (m : Micro s t) : t.readerShort := by
  obtain ⟨hbuf, hmark⟩ := h
  cases m with
  | take k hd hk hfound => exact ⟨(s.fill_consume_le k).trans (max_le hbuf le_rfl), hmark⟩
  | look k hd hk hshort => exact ⟨by omega, hmark⟩
  | consume k hd => exact ⟨by rw [State.consume_rbuf, List.length_drop]; omega, hmark⟩
  | skip k hd =>
    obtain ⟨-, -, hskip, -⟩ := s.reader.skip_spec s.src k
    exact ⟨hskip.trans (max_le hbuf le_rfl), hmark⟩
  | setMark limit hd => exact ⟨hbuf, fun mk hmk => by cases hmk; exact hbuf⟩
  | rewind mk hd hmk => exact ⟨hmark mk hmk, hmark⟩
  | append c sym | drop c => cases c <;> exact ⟨hbuf, hmark⟩
  | eos | put | discard | clone | exclude | clear | add | nullList | trieList | uniformList => exact ⟨hbuf, hmark⟩

/-- A command that runs keeps the bound of R144, unless it answers END_OF_DATA. -/
theorem Ends.readerShort {i : Instr} {s t : State} (h : Ends i s t) (hs : s.readerShort)
    (hr : ∀ rsp, t.rsps = s.rsps ++ [rsp] → rsp.st ≠ .endOfData) : t.readerShort := by
  have hmicros : ∀ {u : State}, Micros s u → u.readerShort := fun hu => hu.keeps (fun _ _ h m => m.readerShort h) hs
  cases h with
  | done rsp u hu h => exact (hmicros hu).of_eq (atEnd_rbuf i u) (atEnd_mark i u)
  | short k hd hk h hi => exact absurd rfl (hr _ rfl)
  | fault f u hu hf h => exact (hmicros hu).of_eq rfl rfl

theorem initialise_readerShort (s : State) (d : Dir) (m : Wide) : (s.initialise d m).readerShort :=
  ⟨Nat.zero_le _, fun _ h => by cases h⟩

/-- Settles O21: INIT empties the reader, and a command is answered at once or is a sequence of small updates. -/
theorem readerStaysShort : Obligations.ReaderStaysShort := by
  refine ⟨fun d m s t hm h => ?init, fun i s t hs h hr => ?command⟩
  case init =>
    cases Comes.of h with
    | init _ => exact (initialise_readerShort s d m).of_eq rfl rfl
    | badConfig hbad => exact absurd hbad (Nat.not_lt.2 hm)
    | refused hi _ _ | wrongDir hi _ _ _ | ran hi _ _ _ _ => exact absurd rfl (hi d m)
  case command =>
    cases Comes.of h with
    | @init d m _ _ => exact (initialise_readerShort s d m).of_eq rfl rfl
    | badConfig _ | status _ _ | refused _ _ _ | wrongDir _ _ _ _ => exact hs.of_eq rfl rfl
    | ran _ _ _ _ he => exact he.readerShort hs hr

/-! ### Reads of a fixed number of bits -/

/-- A read of `k` bits (40_bit_reader.md R123): where they remain they are consumed and the answer is what `val` makes of
them; where fewer remain the source has run out. -/
def Reads (i : Instr) (k : Nat) (val : List Bool → Wide) (s : State) : Prop :=
  (k ≤ s.remaining.length →
    ∃ t, exec i s = .next t ∧ OnlyReader s t ⟨.ok, BitVec.ofNat 8 k, val (s.remaining.take k)⟩ ∧ Consumes s t k) ∧
  (s.remaining.length < k →
    ∃ t, exec i s = .next t ∧ OnlyReader s t ⟨.endOfData, BitVec.ofNat 8 s.remaining.length, 0⟩ ∧ RanOut s t)

/-- A command whose pseudocode is `readBits` reads, where the number it makes is the claim's. -/
theorem reads_of_readBits {i : Instr} {k : Nat} {f : Nat → Wide} {val : List Bool → Wide} {s : State} {opc : BitVec 8}
    (hx : exec i s = .next ((readBits k f s).finish opc)) (hval : ∀ bs, bs.length = k → f (bitsVal bs) = val bs) :
    Reads i k val s := by
  obtain ⟨henough, hshort⟩ := readBits_spec s k f opc
  refine ⟨fun hk => ?enough, fun hk => ?short⟩
  case enough =>
    obtain ⟨t, ht, honly, hcons⟩ := henough hk
    rw [hval _ (List.length_take_of_le hk)] at honly
    exact ⟨t, hx.trans (congrArg _ ht), honly, hcons⟩
  case short =>
    obtain ⟨t, ht, honly, hout⟩ := hshort hk
    exact ⟨t, hx.trans (congrArg _ ht), honly, hout⟩

/-- `sext_56` of the bits read (40_bit_reader.md R125). -/
theorem sext56_bitsVal {k : Nat} (hk : k ≤ 56) {bs : List Bool} (h : bs.length = k) :
    sext56 k (bitsVal bs) = signed56 k (bitsVal bs) :=
  sext56_eq hk (h ▸ bitsVal_lt bs)

/-- A read whose width is an operand (40_bit_reader.md R124, R125): the check of the width, then the read. -/
theorem widthRead {i : Instr} {n : BitVec 8} {f : Nat → Wide} {val : List Bool → Wide} {s : State} (hs : s.decReady)
    (hi : i.dirNeed = .only .dec)
    (hx : exec i s = command i s fun s => if n.toNat > maxBits then .raise .outOfRange s else readBits n.toNat f s)
    (hval : n.toNat ≤ 56 → ∀ bs, bs.length = n.toNat → f (bitsVal bs) = val bs) :
    (56 < n.toNat → exec i s = .next (s.faultedBy .outOfRange i.opcode)) ∧ (n.toNat ≤ 56 → Reads i n.toNat val s) := by
  rw [hs.run hi] at hx
  refine ⟨fun hn => ?wide, fun hn => ?legal⟩
  case wide =>
    rw [if_pos (show n.toNat > maxBits from hn)] at hx
    exact hx
  case legal =>
    rw [if_neg (show ¬ n.toNat > maxBits from Nat.not_lt.2 hn)] at hx
    exact reads_of_readBits hx (hval hn)

/-- Settles O22: the width is checked, and the bits read are extended with zeros. -/
theorem readUnsigned : Obligations.ReadUnsigned := by
  intro n s hs
  obtain ⟨hwide, hlegal⟩ := widthRead (i := .brReadU n) (val := fun bs => zext56 (bitsVal bs)) hs rfl rfl fun _ _ _ => rfl
  refine ⟨⟨rfl, rfl, rfl⟩, hwide, fun hn hk => ?enough, fun hn hk => (hlegal hn).2 hk⟩
  case enough =>
    have h := (hlegal hn).1 hk
    rwa [BitVec.ofNat_toNat, BitVec.setWidth_eq] at h

/-- Settles O23: the width is checked, and the bits read are extended with their sign. -/
theorem readSigned : Obligations.ReadSigned := by
  intro n s hs
  obtain ⟨hwide, hlegal⟩ := widthRead (i := .brReadS n) (val := fun bs => signed56 n.toNat (bitsVal bs)) hs rfl rfl
    fun hn _ hbs => sext56_bitsVal hn hbs
  refine ⟨⟨rfl, rfl, rfl⟩, hwide, fun hn hk => ?enough, fun hn hk => (hlegal hn).2 hk⟩
  case enough =>
    have h := (hlegal hn).1 hk
    rwa [BitVec.ofNat_toNat, BitVec.setWidth_eq] at h

/-- A number of `n` bytes fits `8 * n` bits (20_memory.md R65). -/
theorem leVal_lt (n : Nat) (bs : List Bool) : leVal n bs < 2 ^ (8 * n) := by
  induction n generalizing bs with
  | zero => exact Nat.one_pos
  | succ n ih =>
    have hfirst : bitsVal (bs.take 8) < 2 ^ 8 :=
      (bitsVal_lt _).trans_le (Nat.pow_le_pow_right (by decide) (List.length_take_le 8 bs))
    have hrest : leVal n (bs.drop 8) < 2 ^ (8 * n) := ih (bs.drop 8)
    rw [leVal, Nat.mul_succ, Nat.pow_add]
    omega

/-- Each command of R126 to R136 reads its width and makes of the bits what the table says. -/
theorem fixedRead_reads {i : Instr} {k : Nat} {val : List Bool → Wide} (h : fixedRead i = some (k, val)) {s : State}
    (hs : s.decReady) : Reads i k val s := by
  cases i with
  | brReadBit | brReadU8 | brReadU16BE | brReadU32BE =>
    cases h
    exact reads_of_readBits (hs.run rfl) fun _ _ => rfl
  | brReadS8 | brReadS16BE | brReadS32BE =>
    cases h
    exact reads_of_readBits (hs.run rfl) fun _ hbs => sext56_bitsVal (by decide) hbs
  | brReadU16LE =>
    cases h
    exact reads_of_readBits (hs.run rfl) fun _ hbs => congrArg zext56 (swap16_eq hbs)
  | brReadS16LE =>
    cases h
    refine reads_of_readBits (hs.run rfl) fun bs hbs => ?_
    rw [swap16_eq hbs, sext56_eq (by decide) (leVal_lt 2 bs)]
  | brReadU32LE =>
    cases h
    exact reads_of_readBits (hs.run rfl) fun _ hbs => congrArg zext56 (swap32_eq hbs)
  | brReadS32LE =>
    cases h
    refine reads_of_readBits (hs.run rfl) fun bs hbs => ?_
    rw [swap32_eq hbs, sext56_eq (by decide) (leVal_lt 4 bs)]
  | _ => cases h

/-- Settles O24: each of the eleven commands is one read. -/
theorem fixedReads : Obligations.FixedReads :=
  ⟨⟨rfl, rfl, rfl⟩, ⟨rfl, rfl, rfl⟩, ⟨rfl, rfl, rfl⟩, ⟨rfl, rfl, rfl⟩, ⟨rfl, rfl, rfl⟩, ⟨rfl, rfl, rfl⟩, ⟨rfl, rfl, rfl⟩,
    ⟨rfl, rfl, rfl⟩, ⟨rfl, rfl, rfl⟩, ⟨rfl, rfl, rfl⟩, ⟨rfl, rfl, rfl⟩, fun _ _ _ h _ hs => fixedRead_reads h hs⟩

/-! ### Skipping, and reading what is left -/

/-- BR_SKIP's loop consumes the bits it counts (40_bit_reader.md R139). -/
theorem State.skip_consumes (s : State) (k : Nat) :
    Consumes s (s.setReader (s.reader.skip s.src k).2) (min k s.remaining.length) := by
  obtain ⟨hcount, hrest, -, -⟩ := s.reader.skip_spec s.src k
  obtain ⟨hpos, hlook⟩ := s.reader.skip_position s.src k
  rw [← State.remaining_eq] at hcount hrest
  refine ⟨?remaining, ?position, hlook⟩
  case remaining => rw [← List.drop_eq_drop_min]; exact hrest
  case position => rw [← hcount]; exact hpos

/-- Settles O26: the loop counts the bits it consumes. -/
theorem skip : Obligations.Skip := by
  intro k s hs
  obtain ⟨hcount, -⟩ := s.reader.skip_spec s.src k.toNat
  have hx : exec (.brSkip k) s = .next ((s.setReader (s.reader.skip s.src k.toNat).2).respond
      ⟨.ok, 0, BitVec.ofNat 56 (s.reader.skip s.src k.toNat).1⟩) := by
    dsimp only [exec, execBrSkip]
    exact hs.run rfl
  rw [hcount, ← State.remaining_eq] at hx
  obtain ⟨hrem, hpos, hlook⟩ := s.skip_consumes k.toNat
  exact ⟨⟨rfl, rfl, rfl⟩, _, hx, rfl, hrem, hpos, hlook⟩

/-- After `Fill(k)` the buffer holds `k` bits, or all that remain (40_bit_reader.md R121). -/
theorem State.min_fill_rcnt (s : State) (k : Nat) : min k (s.fill k).rcnt = min k s.remaining.length := by
  have henough : k ≤ (s.fill k).rcnt ↔ k ≤ s.remaining.length := s.reader.fill_enough s.src k
  by_cases hk : k ≤ s.remaining.length
  · rw [min_eq_left hk, min_eq_left (henough.2 hk)]
  · have hall : (s.fill k).rcnt = s.remaining.length := congrArg List.length (s.fill_ranOut k (by omega)).buffered
    rw [hall]

/-- The number of the first bits buffered after `Fill(k)` is that of the bits that remain (40_bit_reader.md R122). -/
theorem State.fill_takeVal_of_le (s : State) {k m : Nat} (hm : m ≤ (s.fill k).rcnt) :
    (s.fill k).reader.takeVal m = bitsVal (s.remaining.take m) := by
  have htake : (s.fill k).rbuf.take m = (s.fill k).remaining.take m := (s.fill k).reader.take_rbuf _ m hm
  rw [State.fill_remaining] at htake
  exact congrArg bitsVal htake

/-- `Fill(k)`, then `Take` of `k` bits or of all that remain (40_bit_reader.md R140). -/
theorem State.fill_consume_min (s : State) (k : Nat) :
    Consumes s ((s.fill k).consume (min k s.remaining.length)) (min k s.remaining.length) := by
  by_cases hk : k ≤ s.remaining.length
  · rw [min_eq_left hk]
    exact s.read_consumes k hk
  · obtain ⟨hrem, hbuf, hpos⟩ := s.fill_ranOut k (by omega)
    rw [min_eq_right (by omega)]
    have hempty : ((s.fill k).consume s.remaining.length).rbuf = [] := by rw [State.consume_rbuf, hbuf, List.drop_length]
    refine ⟨?remaining, ?position, .inr (by rw [hempty]; exact Nat.zero_le 7)⟩
    case remaining => rw [State.consume_remaining _ _ (by rw [hbuf]), hrem]
    case position =>
      rw [hempty, State.consume_spos, hpos, hbuf]
      rfl

/-- Where no bit remains `Fill(k)` changes nothing (40_bit_reader.md R121). -/
theorem State.fill_of_remaining_nil {s : State} (h : s.remaining = []) (k : Nat) : s.fill k = s := by
  have hbuf : s.rbuf = [] := (List.append_eq_nil_iff.1 h).1
  have hsrc : s.src.drop s.spos = [] := by
    have hbits := congrArg List.length (List.append_eq_nil_iff.1 h).2
    rw [length_flatMap_byteBits] at hbits
    exact List.eq_nil_of_length_eq_zero (by simpa using hbits)
  have hfill : s.reader.fill s.src k = s.reader := by
    rw [Reader.fill, State.reader_spos, hsrc]
    rfl
  rw [State.fill, hfill, State.setReader_reader]

/-- BR_READ_BYTE on a READY decoder (40_bit_reader.md R140). -/
theorem brReadByte_run {s : State} (hs : s.decReady) : exec .brReadByte s = .next (Res.finish (
    if (s.fill 8).rcnt = 0 then .done ⟨.endOfData, 0, 0⟩ (s.fill 8)
    else .done (okRsp (min 8 (s.fill 8).rcnt) (zext56 ((s.fill 8).reader.takeVal (min 8 (s.fill 8).rcnt))))
      ((s.fill 8).consume (min 8 (s.fill 8).rcnt))) Instr.brReadByte.opcode) := by
  dsimp only [exec, execBrReadByte]
  exact hs.run rfl

/-- Settles O27: with a bit left `Take` follows `Fill(8)`; with none `Fill(8)` pulls nothing. -/
theorem readByte : Obligations.ReadByte := by
  refine ⟨⟨rfl, rfl, rfl⟩, fun s hs => ⟨fun hsome => ?some, fun hnone => ?none⟩⟩
  case some =>
    have hmin := s.min_fill_rcnt 8
    have hx := brReadByte_run hs
    rw [if_neg (by omega), State.fill_takeVal_of_le s (min_le_right _ _), hmin] at hx
    obtain ⟨hrem, hpos, hlook⟩ := s.fill_consume_min 8
    exact ⟨_, hx, rfl, hrem, hpos, hlook⟩
  case none =>
    have hrem : s.remaining = [] := List.eq_nil_of_length_eq_zero hnone
    have hcnt : s.rcnt = 0 := by rw [State.rcnt, (List.append_eq_nil_iff.1 hrem).1]; rfl
    have hx := brReadByte_run hs
    rw [State.fill_of_remaining_nil hrem, if_pos hcnt] at hx
    exact hx

/-! ### The mark -/

/-- BR_MARK on a READY decoder (40_bit_reader.md R141). -/
theorem brMark_run (limit : Wide) {s : State} (hs : s.decReady) :
    exec (.brMark limit) s = .next ((s.setMark limit).answered ⟨.ok, 0, 0⟩) := by
  dsimp only [exec, execBrMark]
  exact hs.run rfl

/-- BR_RESET without a mark (40_bit_reader.md R142). -/
theorem brReset_noMark {s : State} (hs : s.decReady) (hm : s.mark = none) :
    exec .brReset s = .next (s.faultedBy .illegalState 0x22) := by
  dsimp only [exec, execBrReset]
  rw [hs.run rfl, hm]
  rfl

/-- BR_RESET where more bytes than the limit were pulled since the mark (40_bit_reader.md R142). -/
theorem brReset_pastLimit {s : State} {mk : Mark} (hs : s.decReady) (hm : s.mark = some mk)
    (hl : mk.limit.toNat < s.spos - mk.spos) : exec .brReset s = .next (s.faultedBy .illegalState 0x22) := by
  dsimp only [exec, execBrReset]
  rw [hs.run rfl, hm]
  dsimp only
  rw [if_pos hl]
  rfl

/-- BR_RESET within the mark's limit (40_bit_reader.md R142). -/
theorem brReset_withinLimit {s : State} {mk : Mark} (hs : s.decReady) (hm : s.mark = some mk)
    (hl : s.spos - mk.spos ≤ mk.limit.toNat) :
    exec .brReset s = .next ((s.setReader ⟨mk.rbuf, mk.spos⟩).answered ⟨.ok, 0, 0⟩) := by
  dsimp only [exec, execBrReset]
  rw [hs.run rfl, hm]
  dsimp only
  rw [if_neg (Nat.not_lt.2 hl)]
  rfl

/-- A BR_RESET that completes goes back to the mark's buffer and position. -/
theorem brReset_completes {u v : State} {mk : Mark} (hu : u.decReady) (hm : u.mark = some mk)
    (hx : exec .brReset u = .next v) (hv : v.phase = .ready) :
    v.rbuf = mk.rbuf ∧ v.spos = mk.spos ∧ v.src = u.src := by
  by_cases hl : u.spos - mk.spos ≤ mk.limit.toNat
  · cases hx.symm.trans (brReset_withinLimit hu hm hl)
    exact ⟨rfl, rfl, rfl⟩
  · cases hx.symm.trans (brReset_pastLimit hu hm (by omega))
    cases hv

/-- Settles O28: the mark holds the reader's position, and only a BR_RESET within its limit completes. -/
theorem markAndReset : Obligations.MarkAndReset := by
  refine ⟨fun limit s hs => ?mark, fun s hs => ?reset, fun limit s t u v hs ht hu hm hsrc hx hv => ?goesBack⟩
  case mark => exact ⟨⟨rfl, rfl, rfl⟩, brMark_run limit hs⟩
  case reset =>
    exact ⟨⟨rfl, rfl, rfl⟩, brReset_noMark hs, fun mk hm => ⟨brReset_pastLimit hs hm, brReset_withinLimit hs hm⟩⟩
  case goesBack =>
    cases ht.symm.trans (brMark_run limit hs)
    obtain ⟨hbuf, hpos, hvsrc⟩ := brReset_completes hu hm hx hv
    rw [State.remaining, hbuf, hpos, hvsrc, hsrc]
    rfl

/-! ### Alignment and count -/

theorem flag56_readerAligned (s : State) : flag56 s.readerAligned = if s.rbuf.length % 8 = 0 then 1 else 0 := by
  simp only [flag56, State.readerAligned, State.rcnt, beq_iff_eq]

/-- Settles O25: each of the three commands answers from the buffer alone. -/
theorem alignAndCount : Obligations.AlignAndCount := by
  refine ⟨⟨rfl, rfl, rfl⟩, ⟨rfl, rfl, rfl⟩, ⟨rfl, rfl, rfl⟩, fun s hs => ⟨?align, ?count, ?aligned⟩⟩
  case align =>
    dsimp only [exec, execBrAlign]
    exact hs.run rfl
  case count =>
    dsimp only [exec, execBrCount]
    exact hs.run rfl
  case aligned =>
    rw [← flag56_readerAligned]
    dsimp only [exec, execBrIsAligned]
    exact hs.run rfl

end Sys2Proof.Machine
end

section
/-! The bit writer statements (41_bit_writer.md): what each write adds to the bits written, what the pad completes, and that a
decoder reads back what was written. -/

namespace Sys2Proof.Machine

/-! ### Writing bits -/

/-- Bits put on the block are written (41_bit_writer.md R160, R161). -/
theorem State.put_writes {s : State} (hw : s.wbuf.length ≤ 7) (bs : List Bool) : Writes s (s.put bs) bs :=
  ⟨s.put_written bs hw, s.writer.putAll_buf_le bs hw, s.writer.putAll_snk bs⟩

/-- A response changes nothing of what was written. -/
theorem Writes.answered {s t : State} {bs : List Bool} (h : Writes s t bs) (rsp : Response) : Writes s (t.answered rsp) bs :=
  ⟨h.written, h.waiting, h.bytes⟩

/-- A command that puts bits and answers moves only the writer and the sink, and writes those bits. -/
theorem writes_of_put {i : Instr} {s : State} {bs : List Bool} {rsp : Response} (hw : s.wbuf.length ≤ 7)
    (hx : exec i s = .next ((s.put bs).answered rsp)) :
    ∃ t, exec i s = .next t ∧ OnlyWriter s t rsp ∧ Writes s t bs :=
  ⟨_, hx, rfl, (State.put_writes hw bs).answered rsp⟩

/-- `PutBits` of a field of an operand puts the field's bits (41_bit_writer.md R162). -/
theorem State.putBits_field (s : State) (v : Wide) (lo k : Nat) :
    s.putBits (v.extractLsb' lo k).toNat k = s.put (fieldBits v lo k) := by
  rw [State.putBits_eq, fieldBits_field]

/-- BW_WRITE_BITS with a width above MAXBITS (41_bit_writer.md R163). -/
theorem bwWriteBits_wide {n : BitVec 8} (v : Wide) {s : State} (hs : s.encReady) (hn : 56 < n.toNat) :
    exec (.bwWriteBits n v) s = .next (s.faultedBy .outOfRange 0x30) := by
  dsimp only [exec, execBwWriteBits]
  rw [hs.run rfl, if_pos (show n.toNat > maxBits from hn)]
  rfl

/-- BW_WRITE_BITS with a legal width (41_bit_writer.md R163). -/
theorem bwWriteBits_run {n : BitVec 8} (v : Wide) {s : State} (hs : s.encReady) (hn : n.toNat ≤ 56) :
    exec (.bwWriteBits n v) s = .next ((s.put (fieldBits v 0 n.toNat)).answered ⟨.ok, n, 0⟩) := by
  dsimp only [exec, execBwWriteBits]
  rw [hs.run rfl, if_neg (show ¬ n.toNat > maxBits from Nat.not_lt.2 hn), State.putBits_eq, ← fieldBits_low, okRsp,
    BitVec.ofNat_toNat, BitVec.setWidth_eq]
  rfl

/-- Settles O29: the width is checked, and the bits put are the low bits of the operand. -/
theorem writeBits : Obligations.WriteBits := fun _ v _ hs hw =>
  ⟨⟨rfl, rfl, rfl⟩, bwWriteBits_wide v hs, fun hn => writes_of_put hw (bwWriteBits_run v hs hn)⟩

/-- A command of an encoder whose pseudocode puts bits and answers. -/
theorem command_put {i : Instr} {s : State} {f : State → State} {bs : List Bool} {rsp : Response} (hs : s.encReady)
    (hi : i.dirNeed = .only .enc) (hf : f s = s.put bs) :
    command i s (fun s => .done rsp (f s)) = .next ((s.put bs).answered rsp) := by
  rw [hs.run hi, hf]
  rfl

/-- Each command of R164 to R169 puts the bits of the table. -/
theorem fixedWrite_run {i : Instr} {bs : List Bool} (h : fixedWrite i = some bs) {s : State} (hs : s.encReady) :
    exec i s = .next ((s.put bs).answered ⟨.ok, BitVec.ofNat 8 bs.length, 0⟩) := by
  cases i with
  | bwWriteBit v =>
    cases h
    dsimp only [exec, execBwWriteBit]
    exact command_put hs rfl rfl
  | bwWrite8 v =>
    cases h
    dsimp only [exec, execBwWrite8]
    exact command_put hs rfl (s.putBits_field v 0 8)
  | bwWrite16BE v =>
    cases h
    dsimp only [exec, execBwWrite16BE]
    exact command_put hs rfl (s.putBits_field v 0 16)
  | bwWrite32BE v =>
    cases h
    dsimp only [exec, execBwWrite32BE]
    exact command_put hs rfl (s.putBits_field v 0 32)
  | bwWrite16LE v =>
    cases h
    dsimp only [exec, execBwWrite16LE]
    refine command_put hs rfl ?_
    simp only [State.put_append, State.putBits_field]
  | bwWrite32LE v =>
    cases h
    dsimp only [exec, execBwWrite32LE]
    refine command_put hs rfl ?_
    simp only [State.put_append, State.putBits_field]
  | _ => cases h

/-- Settles O30: each of the six commands puts the bits of its row. -/
theorem fixedWrites : Obligations.FixedWrites :=
  ⟨fun _ => ⟨⟨rfl, rfl, rfl⟩, ⟨rfl, rfl, rfl⟩, ⟨rfl, rfl, rfl⟩, ⟨rfl, rfl, rfl⟩, ⟨rfl, rfl, rfl⟩, ⟨rfl, rfl, rfl⟩⟩,
    fun _ _ h _ hs hw => writes_of_put hw (fixedWrite_run h hs)⟩

/-! ### The pad -/

/-- What a write that ends at a byte boundary adds to the sink: the bytes of what waited and of what was written. -/
theorem Writes.bytes_of_aligned {s t : State} {bs : List Bool} (h : Writes s t bs) (ht : t.wbuf = []) :
    ∃ l : List Byte, t.snk = s.snk ++ l.map .byte ∧ l.flatMap byteBits = s.wbuf ++ bs := by
  obtain ⟨hwritten, -, l, hl⟩ := h
  refine ⟨l, hl, ?_⟩
  rw [State.written, State.written, ht, hl, bytesOf_append, bytesOf_bytes, List.flatMap_append, List.append_nil,
    List.append_assoc] at hwritten
  exact List.append_cancel_left hwritten

/-- PadZero() puts zero bits up to the byte boundary (41_bit_writer.md R162). -/
theorem State.padZero_writes {s : State} (hw : s.wbuf.length ≤ 7) :
    Writes s s.padZero (List.replicate ((8 - s.wbuf.length) % 8) false) ∧ s.padZero.wbuf = [] :=
  ⟨State.put_writes hw _, (s.writer.padZero_spec hw).1⟩

/-- The block after PadZero(): the sink has gained the bytes of what waited and the zero bits (41_bit_writer.md R176). -/
theorem State.padZero_eq {s : State} (hw : s.wbuf.length ≤ 7) :
    ∃ l : List Byte, s.padZero = { s with wbuf := [], snk := s.snk ++ l.map .byte } ∧
      l.flatMap byteBits = s.wbuf ++ List.replicate ((8 - s.wbuf.length) % 8) false := by
  obtain ⟨hwrites, hempty⟩ := State.padZero_writes hw
  obtain ⟨l, hsnk, hbits⟩ := hwrites.bytes_of_aligned hempty
  exact ⟨l, congrArg s.setWriter (congrArg₂ Writer.mk hempty hsnk), hbits⟩

/-- Bytes with no bits are none. -/
theorem eq_nil_of_flatMap_byteBits {l : List Byte} (h : l.flatMap byteBits = []) : l = [] := by
  have hlen := congrArg List.length h
  rw [length_flatMap_byteBits, List.length_nil] at hlen
  exact List.eq_nil_of_length_eq_zero (by omega)

/-- Bytes with eight bits are one. -/
theorem eq_singleton_of_flatMap_byteBits {l : List Byte} {bs : List Bool} (h : l.flatMap byteBits = bs) (hbs : bs.length = 8) :
    ∃ b, l = [b] ∧ byteBits b = bs := by
  have hlen := congrArg List.length h
  rw [length_flatMap_byteBits, hbs] at hlen
  obtain ⟨b, rfl⟩ := List.length_eq_one_iff.1 (show l.length = 1 by omega)
  exact ⟨b, rfl, by rwa [List.flatMap_singleton] at h⟩

/-- The bytes of a pad: none where nothing waits, else one (41_bit_writer.md R176). -/
theorem padBytes_cases {buf : List Bool} (hw : buf.length ≤ 7) {l : List Byte}
    (h : l.flatMap byteBits = buf ++ List.replicate ((8 - buf.length) % 8) false) :
    (buf = [] → l = []) ∧ (buf ≠ [] → ∃ b, l = [b] ∧ byteBits b = buf ++ List.replicate (8 - buf.length) false) := by
  refine ⟨fun hnil => ?aligned, fun hne => ?waiting⟩
  case aligned =>
    subst hnil
    exact eq_nil_of_flatMap_byteBits h
  case waiting =>
    have hpos := List.length_pos_iff.2 hne
    rw [Nat.mod_eq_of_lt (by omega)] at h
    exact eq_singleton_of_flatMap_byteBits h (by rw [List.length_append, List.length_replicate]; omega)

section
variable {s : State}

/-- BW_PAD on a READY encoder (41_bit_writer.md R176). -/
theorem bwPad_run (hs : s.encReady) :
    exec .bwPad s = .next (s.padZero.answered ⟨.ok, BitVec.ofNat 8 ((8 - s.wbuf.length) % 8), 0⟩) := by
  dsimp only [exec, execBwPad]
  exact hs.run rfl

/-- BW_DISCARD on a READY encoder (41_bit_writer.md R177). -/
theorem bwDiscard_run (hs : s.encReady) :
    exec .bwDiscard s = .next (s.discard.answered ⟨.ok, BitVec.ofNat 8 s.wbuf.length, 0⟩) := by
  dsimp only [exec, execBwDiscard]
  exact hs.run rfl

/-- BW_PAD_FLUSH on a READY encoder (41_bit_writer.md R179). -/
theorem bwPadFlush_run (hs : s.encReady) :
    exec .bwPadFlush s = .next (s.padZero.sinkFlush.answered ⟨.ok, BitVec.ofNat 8 ((8 - s.wbuf.length) % 8), 0⟩) := by
  dsimp only [exec, execBwPadFlush]
  exact hs.run rfl

/-- BW_CLOSE on a READY encoder (41_bit_writer.md R180). -/
theorem bwClose_run (hs : s.encReady) :
    exec .bwClose s = .next ((s.padZero.sinkFlush.sinkClose.setPhase .closed).answered
      ⟨.ok, BitVec.ofNat 8 ((8 - s.wbuf.length) % 8), 0⟩) := by
  dsimp only [exec, execBwClose]
  exact hs.run rfl

end

/-- Closing the sink after a flush appends both events (20_memory.md R63). -/
theorem State.sinkFlush_sinkClose (s : State) : s.sinkFlush.sinkClose = { s with snk := s.snk ++ [.flush, .close] } :=
  congrArg (fun k => { s with snk := k }) (List.append_assoc s.snk [.flush] [.close])

/-- Settles O31: three of the commands begin with the same pad, and its bytes are none or one. -/
theorem padAndClose : Obligations.PadAndClose := by
  refine ⟨⟨rfl, rfl, rfl⟩, ⟨rfl, rfl, rfl⟩, ⟨rfl, rfl, rfl⟩, ⟨rfl, rfl, rfl⟩, fun s hs hw => ⟨bwDiscard_run hs, ?_⟩⟩
  obtain ⟨l, hpad, hbits⟩ := State.padZero_eq hw
  obtain ⟨hnone, hone⟩ := padBytes_cases hw hbits
  refine ⟨l, hnone, hone, ?pad, ?flush, ?close⟩
  case pad => rw [bwPad_run hs, hpad]
  case flush =>
    rw [bwPadFlush_run hs, hpad]
    rfl
  case close =>
    rw [bwClose_run hs, State.sinkFlush_sinkClose, hpad]
    rfl

/-! ### Flush and alignment -/

/-- BW_FLUSH at a byte boundary (41_bit_writer.md R178). -/
theorem bwFlush_aligned {s : State} (hs : s.encReady) (hw : s.wbuf = []) :
    exec .bwFlush s = .next (s.sinkFlush.answered ⟨.ok, 0, 0⟩) := by
  have hcnt : ¬ s.wcnt ≠ 0 := not_not.2 (congrArg List.length hw)
  dsimp only [exec, execBwFlush]
  rw [hs.run rfl, if_neg hcnt]
  rfl

/-- BW_FLUSH with bits waiting (41_bit_writer.md R178). -/
theorem bwFlush_waiting {s : State} (hs : s.encReady) (hw : s.wbuf ≠ []) :
    exec .bwFlush s = .next (s.faultedBy .illegalState 0x39) := by
  have hcnt : s.wcnt ≠ 0 := fun h => hw (List.eq_nil_of_length_eq_zero h)
  dsimp only [exec, execBwFlush]
  rw [hs.run rfl, if_pos hcnt]
  rfl

theorem flag56_writerAligned (s : State) : flag56 s.writerAligned = if s.wbuf.length = 0 then 1 else 0 := by
  simp only [flag56, State.writerAligned, State.wcnt, beq_iff_eq]

/-- BW_IS_ALIGNED on a READY encoder (41_bit_writer.md R181). -/
theorem bwIsAligned_run {s : State} (hs : s.encReady) :
    exec .bwIsAligned s = .next (s.answered ⟨.ok, 0, if s.wbuf.length = 0 then 1 else 0⟩) := by
  rw [← flag56_writerAligned]
  dsimp only [exec, execBwIsAligned]
  exact hs.run rfl

/-- Settles O32: BW_FLUSH looks at the number of bits waiting, and BW_IS_ALIGNED reports it. -/
theorem flushWhenAligned : Obligations.FlushWhenAligned :=
  ⟨⟨rfl, rfl, rfl⟩, ⟨rfl, rfl, rfl⟩, fun _ hs => ⟨bwFlush_aligned hs, bwFlush_waiting hs, bwIsAligned_run hs⟩⟩

/-! ### What was written is read back -/

/-- One write after another. -/
theorem Writes.trans {s t u : State} {xs ys : List Bool} (h : Writes s t xs) (h' : Writes t u ys) : Writes s u (xs ++ ys) := by
  obtain ⟨hst, -, l, hl⟩ := h
  obtain ⟨htu, hu, l', hl'⟩ := h'
  refine ⟨?_, hu, l ++ l', ?_⟩
  · rw [htu, hst, List.append_assoc]
  · rw [hl', hl, List.map_append, List.append_assoc]

/-- The bytes added between two byte boundaries have the bits written between them. -/
theorem Writes.bytes_added {s t : State} {bs : List Bool} (h : Writes s t bs) (hs : s.wbuf = []) (ht : t.wbuf = []) :
    (bytesOf (t.snk.drop s.snk.length)).flatMap byteBits = bs := by
  obtain ⟨l, hsnk, hbits⟩ := h.bytes_of_aligned ht
  rw [hsnk, List.drop_left, bytesOf_bytes, hbits, hs, List.nil_append]

/-- A run whose first command is executed (20_memory.md R70). -/
theorem State.after_cons {i : Instr} {s t : State} (h : exec i s = .next t) (is : List Instr) :
    s.after (i :: is) = t.after is := by
  rw [State.after, h]

/-- INIT within the cap (47_system.md R310). -/
theorem init_run {m : Wide} {s : State} (d : Dir) (hm : m.toNat ≤ s.par.orderCap) :
    exec (.init d m) s = .next ((s.initialise d m).answered ⟨.ok, 0, 0⟩) := by
  dsimp only [exec, execInit]
  rw [if_neg (Nat.not_lt.2 hm)]
  rfl

/-- The bits of a sequence of widths and values (41_bit_writer.md R182). -/
def bitsOfPairs (ws : List (BitVec 8 × Wide)) : List Bool := ws.flatMap fun x => fieldBits x.2 0 x.1.toNat

/-- A sequence of BW_WRITE_BITS of legal widths leaves the block a READY encoder and writes the bits of its pairs. -/
theorem after_bwWriteBits {ws : List (BitVec 8 × Wide)} (hws : ∀ x ∈ ws, x.1.toNat ≤ 56) {s : State} (hs : s.encReady)
    (hw : s.wbuf.length ≤ 7) :
    (s.after (ws.map fun x => .bwWriteBits x.1 x.2)).encReady ∧
      Writes s (s.after (ws.map fun x => .bwWriteBits x.1 x.2)) (bitsOfPairs ws) := by
  induction ws generalizing s with
  | nil => exact ⟨hs, (List.append_nil _).symm, hw, [], (List.append_nil _).symm⟩
  | cons x ws ih =>
    obtain ⟨hx, hrest⟩ := List.forall_mem_cons.1 hws
    have hfirst := (State.put_writes hw (fieldBits x.2 0 x.1.toNat)).answered ⟨.ok, x.1, 0⟩
    rw [List.map_cons, State.after_cons (bwWriteBits_run x.2 hs hx)]
    obtain ⟨hready, hwrites⟩ := ih hrest (s := (s.put (fieldBits x.2 0 x.1.toNat)).answered ⟨.ok, x.1, 0⟩) hs hfirst.waiting
    exact ⟨hready, hfirst.trans hwrites⟩

/-- What an encoder run adds to the sink: the bits of its pairs, then the zero bits of the pad (41_bit_writer.md R182). -/
theorem bytes_of_encoderRun {s : State} {m : Wide} {ws : List (BitVec 8 × Wide)} (hm : m.toNat ≤ s.par.orderCap)
    (hws : ∀ x ∈ ws, x.1.toNat ≤ 56) :
    ∃ pad, (bytesOf ((s.after (.init .enc m :: (ws.map fun x => .bwWriteBits x.1 x.2) ++ [.bwPad])).snk.drop
      s.snk.length)).flatMap byteBits = bitsOfPairs ws ++ List.replicate pad false := by
  obtain ⟨hready, hwrites⟩ :=
    after_bwWriteBits hws (s := (s.initialise .enc m).answered ⟨.ok, 0, 0⟩) ⟨rfl, rfl⟩ (Nat.zero_le 7)
  rw [List.cons_append, State.after_cons (init_run .enc hm), State.after_append]
  generalize ((s.initialise .enc m).answered ⟨.ok, 0, 0⟩).after (ws.map fun x => .bwWriteBits x.1 x.2) = t at *
  rw [State.after_cons (bwPad_run hready) [], State.after]
  obtain ⟨hpad, hempty⟩ := State.padZero_writes hwrites.waiting
  exact ⟨_, ((hwrites.trans hpad).answered _).bytes_added rfl hempty⟩

/-- A BR_READ_U over the bits of a BW_WRITE_BITS of the same width answers the value modulo `2 ^ n`, and leaves a READY decoder
before the bits that follow. -/
theorem brReadU_of_written {n : BitVec 8} {v : Wide} {d : State} {rest : List Bool} (hd : d.decReady) (hn : n.toNat ≤ 56)
    (hr : d.remaining = fieldBits v 0 n.toNat ++ rest) :
    ∃ t, exec (.brReadU n) d = .next t ∧ t.decReady ∧ t.remaining = rest ∧
      t.rsps = d.rsps ++ [⟨.ok, n, BitVec.ofNat 56 (v.toNat % 2 ^ n.toNat)⟩] := by
  have hlen : (fieldBits v 0 n.toNat).length = n.toNat := length_fieldBits v 0 n.toNat
  obtain ⟨-, -, henough, -⟩ := readUnsigned n d hd
  obtain ⟨t, hx, honly, hcons⟩ := henough hn (by rw [hr, List.length_append, hlen]; omega)
  have htake : d.remaining.take n.toNat = fieldBits v 0 n.toNat := by rw [hr, List.take_left' hlen]
  have hrest : t.remaining = rest := by rw [hcons.remaining, hr, List.drop_left' hlen]
  rw [htake, bitsVal_fieldBits] at honly
  unfold OnlyReader at honly
  refine ⟨t, hx, ?ready, hrest, by rw [honly]⟩
  case ready =>
    rw [honly]
    exact hd

/-- Reads with the widths of the pairs, over bits that begin with those of the pairs, answer the values. -/
theorem after_brReadU {ws : List (BitVec 8 × Wide)} (hws : ∀ x ∈ ws, x.1.toNat ≤ 56) {d : State} {rest : List Bool}
    (hd : d.decReady) (hr : d.remaining = bitsOfPairs ws ++ rest) :
    (d.after (ws.map fun x => .brReadU x.1)).rsps =
      d.rsps ++ ws.map fun x => ⟨.ok, x.1, BitVec.ofNat 56 (x.2.toNat % 2 ^ x.1.toNat)⟩ := by
  induction ws generalizing d with
  | nil => exact (List.append_nil _).symm
  | cons x ws ih =>
    obtain ⟨hx, hrest⟩ := List.forall_mem_cons.1 hws
    rw [bitsOfPairs, List.flatMap_cons, List.append_assoc] at hr
    obtain ⟨t, ht, hready, hrem, hrsps⟩ := brReadU_of_written hd hx hr
    rw [List.map_cons, State.after_cons ht, ih hrest hready hrem, hrsps, List.append_assoc]
    rfl

/-- Settles O33: the decoder starts over the bits of the encoder's run, and the pad stays unread. -/
theorem writeThenRead : Obligations.WriteThenRead := by
  intro s d m m' ws hm hm' hws hsrc
  obtain ⟨pad, hbits⟩ := bytes_of_encoderRun hm hws
  rw [← hsrc] at hbits
  rw [State.after_cons (init_run .dec hm'),
    after_brReadU hws (d := (d.initialise .dec m').answered ⟨.ok, 0, 0⟩) ⟨rfl, rfl⟩ hbits]
  exact List.append_assoc d.rsps [_] _

end Sys2Proof.Machine
end

section
/-! The context statements (42_context.md): what the commands of the contexts answer and change, and that a context is a window
of the last MAXORDER symbols. -/

namespace Sys2Proof.Machine

/-! ### A block with another context -/

@[simp] theorem State.ctx_withCtx (s : State) (c : Sel) (X : List Sym) : (s.withCtx c X).ctx c = X := by cases c <;> rfl
@[simp] theorem State.withCtx_ctx (s : State) (c : Sel) : s.withCtx c (s.ctx c) = s := by cases c <;> rfl
@[simp] theorem State.withCtx_phase (s : State) (c : Sel) (X : List Sym) : (s.withCtx c X).phase = s.phase := by
  cases c <;> rfl
@[simp] theorem State.withCtx_cap (s : State) (c : Sel) (X : List Sym) : (s.withCtx c X).cap = s.cap := by cases c <;> rfl
@[simp] theorem State.ctx_answered (s : State) (rsp : Response) (c : Sel) : (s.answered rsp).ctx c = s.ctx c := by
  cases c <;> rfl
@[simp] theorem State.answered_phase (s : State) (rsp : Response) : (s.answered rsp).phase = s.phase := rfl
@[simp] theorem State.answered_cap (s : State) (rsp : Response) : (s.answered rsp).cap = s.cap := rfl

theorem State.setCtx_eq_withCtx (s : State) (c : Sel) (X : List Sym) : s.setCtx c X = s.withCtx c X := by cases c <;> rfl

/-! ### Appending to a context -/

/-- With capacity 0 nothing is appended (42_context.md R190). -/
theorem ctxAppend_zero (X : List Sym) (sym : Sym) : ctxAppend 0 X sym = X := if_pos rfl

/-- A full context loses its oldest symbol (42_context.md R190). -/
theorem ctxAppend_full {cap : Nat} {X : List Sym} (hcap : cap ≠ 0) (hX : X.length = cap) (sym : Sym) :
    ctxAppend cap X sym = X.drop 1 ++ [sym] := by
  rw [ctxAppend, if_neg hcap, if_pos hX]

/-- A context with room keeps its symbols (42_context.md R190). -/
theorem ctxAppend_room {cap : Nat} {X : List Sym} (hcap : cap ≠ 0) (hX : X.length ≠ cap) (sym : Sym) :
    ctxAppend cap X sym = X ++ [sym] := by
  rw [ctxAppend, if_neg hcap, if_neg hX]

/-- Appending to the window of the last `cap` symbols gives the window with the new symbol (42_context.md R197). -/
theorem ctxAppend_rtake (cap : Nat) (past : List Sym) (sym : Sym) :
    ctxAppend cap (past.rtake cap) sym = (past ++ [sym]).rtake cap := by
  cases cap with
  | zero => rw [ctxAppend_zero, List.rtake_zero, List.rtake_zero]
  | succ n =>
    have hlen : (past.rtake (n + 1)).length = min past.length (n + 1) := by rw [List.rtake, List.length_drop]; omega
    rw [List.rtake_concat_succ]
    by_cases hfull : n + 1 ≤ past.length
    · rw [ctxAppend_full n.succ_ne_zero (by omega), List.rtake, List.rtake, List.drop_drop,
        show past.length - (n + 1) + 1 = past.length - n by omega]
    · rw [ctxAppend_room n.succ_ne_zero (by omega), List.rtake, List.rtake,
        show past.length - (n + 1) = past.length - n by omega]

/-! ### The commands on a READY block -/

section
variable {s : State}

/-- CX_ORDER on a READY block (42_context.md R192). -/
theorem cxOrder_run (c : Sel) (hs : s.phase = .ready) :
    exec (.cxOrder c) s = .next (s.answered ⟨.ok, 0, BitVec.ofNat 56 (s.ctx c).length⟩) := by
  dsimp only [exec, execCxOrder]
  exact command_any hs rfl

/-- A symbol extended with zeros (00_scope.md R9). -/
theorem zext56_toNat (sym : Sym) : zext56 sym.toNat = sym.zeroExtend 56 := BitVec.ofNat_toNat 56 sym

/-- CX_GETAT at an index of the context (42_context.md R195). -/
theorem cxGetAt_some {c : Sel} {k : Wide} {sym : Sym} (hs : s.phase = .ready) (hk : (s.ctx c)[k.toNat]? = some sym) :
    exec (.cxGetAt c k) s = .next (s.answered ⟨.ok, 0, sym.zeroExtend 56⟩) := by
  dsimp only [exec, execCxGetAt]
  rw [command_any hs rfl, hk, ← zext56_toNat]
  rfl

/-- CX_GETAT at an index the context has not (42_context.md R195). -/
theorem cxGetAt_none {c : Sel} {k : Wide} (hs : s.phase = .ready) (hk : (s.ctx c)[k.toNat]? = none) :
    exec (.cxGetAt c k) s = .next (s.faultedBy .outOfRange 0x43) := by
  dsimp only [exec, execCxGetAt]
  rw [command_any hs rfl, hk]
  rfl

/-- CX_DROP of an empty context (42_context.md R193). -/
theorem cxDrop_nil {c : Sel} (hs : s.phase = .ready) (hc : s.ctx c = []) :
    exec (.cxDrop c) s = .next (s.faultedBy .outOfRange 0x41) := by
  dsimp only [exec, execCxDrop]
  rw [command_any hs rfl, hc]
  rfl

/-- CX_DROP of a context with a symbol (42_context.md R191, R193). -/
theorem cxDrop_cons {c : Sel} {x : Sym} {X : List Sym} (hs : s.phase = .ready) (hc : s.ctx c = x :: X) :
    exec (.cxDrop c) s = .next ((s.withCtx c X).answered ⟨.ok, 0, 0⟩) := by
  dsimp only [exec, execCxDrop]
  rw [command_any hs rfl, hc, State.setCtx_eq_withCtx]
  rfl

/-- CX_APPEND on a READY block (42_context.md R194). -/
theorem cxAppend_run (c : Sel) (sym : Sym) (hs : s.phase = .ready) :
    exec (.cxAppend c sym) s = .next ((s.withCtx c (ctxAppend s.cap (s.ctx c) sym)).answered ⟨.ok, 0, 0⟩) := by
  dsimp only [exec, execCxAppend]
  rw [command_any hs rfl, State.setCtx_eq_withCtx]
  rfl

/-- CX_CLONE on a READY block (42_context.md R196). -/
theorem cxClone_run (hs : s.phase = .ready) :
    exec .cxClone s = .next (State.answered { s with wctx := s.hist } ⟨.ok, 0, 0⟩) := by
  dsimp only [exec, execCxClone]
  exact command_any hs rfl

end

/-- Settles O34: CX_ORDER answers the length, and CX_GETAT looks the index up. -/
theorem contextReads : Obligations.ContextReads := fun c _ _ hs =>
  ⟨⟨rfl, rfl, rfl⟩, ⟨rfl, rfl, rfl⟩, cxOrder_run c hs, fun _ hk => cxGetAt_some hs hk,
    fun hk => cxGetAt_none hs (List.getElem?_eq_none hk)⟩

/-- Settles O35: CX_APPEND by the three cases of `CtxAppend`, CX_DROP by whether the context is empty. -/
theorem contextWrites : Obligations.ContextWrites := by
  intro c sym s hs
  refine ⟨⟨rfl, rfl, rfl⟩, ⟨rfl, rfl, rfl⟩, ⟨rfl, rfl, rfl⟩, cxDrop_nil hs, fun _ _ hc => cxDrop_cons hs hc,
    fun hcap => ?none, fun x X hc hfull => ?full, fun hcap hroom => ?room, cxClone_run hs⟩
  case none => rw [cxAppend_run c sym hs, State.cap, hcap, ctxAppend_zero, State.withCtx_ctx]
  case full =>
    have hcap : s.cap ≠ 0 := fun h => by rw [← State.cap, h, hc] at hfull; cases hfull
    rw [cxAppend_run c sym hs, ctxAppend_full hcap hfull, hc, List.drop_one, List.tail_cons]
  case room => rw [cxAppend_run c sym hs, ctxAppend_room (cap := s.cap) hcap hroom]

/-! ### The window -/

/-- A context that holds the last symbols of `past`, as many as fit, holds after more appends the last of all of them
(42_context.md R197). -/
theorem after_cxAppend_ctx {c : Sel} {syms past : List Sym} {s : State} (hs : s.phase = .ready)
    (hc : s.ctx c = past.rtake s.cap) : (s.after (syms.map (.cxAppend c ·))).ctx c = (past ++ syms).rtake s.cap := by
  induction syms generalizing s past with
  | nil => rw [List.append_nil, ← hc]; rfl
  | cons sym syms ih =>
    rw [List.map_cons, State.after_cons (cxAppend_run c sym hs), ih (past := past ++ [sym])]
    · simp
    · simpa using hs
    · simp [hc, ctxAppend_rtake]

/-- Executing a command is the step that takes its word (60_exceptions.md R345), so what every step keeps every command
keeps. -/
theorem step_encode (i : Instr) (s : State) : step { s with host := .command (encode i) :: s.host } = exec i s :=
  stepRunsDecoded _ _ _ _ rfl (decodeEncode i)

/-- The contexts' bounds look at the parameters, MAXORDER and the contexts only. -/
theorem State.ContextsOk.of_eq {s t : State} (h : s.ContextsOk) (hp : t.par = s.par) (hm : t.maxOrder = s.maxOrder)
    (hh : t.hist = s.hist) (hw : t.wctx = s.wctx) : t.ContextsOk := by
  obtain ⟨horder, hhist, hwctx⟩ := h
  refine ⟨by rw [hp, hm]; exact horder, ?_, ?_⟩
  · rw [hh, State.cap, hm]; exact hhist
  · rw [hw, State.cap, hm]; exact hwctx

/-- Every step keeps the contexts within their bounds (10_state.md R25, R32, R33): only the small updates of the contexts, INIT
and hardware reset change one. -/
theorem step_contexts {s t : State} (hs : s.ContextsOk) (h : step s = .next t) : t.ContextsOk := by
  refine step_keeps (P := State.ContextsOk) ?rest ?micro ?fill ?ends ?respond ?fault ?init ?free ?reset ?source hs h
  case micro => exact fun u v hu m => m.contexts hu
  case init => exact fun u d m _ hm => initialise_contexts u d m hm
  case reset => exact fun u _ => ⟨Nat.zero_le _, Nat.zero_le _, Nat.zero_le _⟩
  case fill => exact fun u k _ _ hu => hu.of_eq rfl rfl rfl rfl
  case rest => exact fun u l hu => hu.of_eq rfl rfl rfl rfl
  case ends => exact fun u hu => ⟨hu.of_eq rfl rfl rfl rfl, hu.of_eq rfl rfl rfl rfl, fun _ => hu.of_eq rfl rfl rfl rfl⟩
  case respond => exact fun u rsp hu => hu.of_eq rfl rfl rfl rfl
  case fault => exact fun u f opc hu => hu.of_eq rfl rfl rfl rfl
  case free => exact fun u n hu => hu.of_eq rfl rfl rfl rfl
  case source => exact fun u b hu => hu.of_eq rfl rfl rfl rfl

/-- Both contexts are within the capacity (10_state.md R32, R33). -/
theorem State.ContextsOk.length_ctx {s : State} (h : s.ContextsOk) (c : Sel) : (s.ctx c).length ≤ s.cap := by
  cases c with
  | hist => exact h.hist_le
  | work => exact h.wctx_le

/-- Settles O36: appends move the window on, and the bounds, kept by every step, are kept by every command. -/
theorem windowBound : Obligations.WindowBound := by
  refine ⟨fun c syms s hs hc => ?window, fun i s t c hs h => ?bound⟩
  case window => exact after_cxAppend_ctx (past := []) hs (hc.trans (List.rtake_nil _).symm)
  case bound =>
    have hpresented : State.ContextsOk { s with host := .command (encode i) :: s.host } := hs.of_eq rfl rfl rfl rfl
    exact (step_contexts hpresented ((step_encode i s).trans h)).length_ctx c

end Sys2Proof.Machine
end

section
/-! The exclusion set's statements (43_exclusion_set.md): what its commands answer and change, and that it grows only between two
clearings. -/

namespace Sys2Proof.Machine

/-! ### The commands on a READY block -/

/-- `XsExclude` of a member (43_exclusion_set.md R210). -/
theorem XSet.exclude_member {x : XSet} {sym : Sym} (h : x.has sym = true) : x.exclude sym = x := if_pos h

/-- `XsExclude` of a symbol that is no member (43_exclusion_set.md R210). -/
theorem XSet.exclude_new {x : XSet} {sym : Sym} (h : x.has sym = false) :
    x.exclude sym = ⟨x.bits ||| BitVec.twoPow 256 sym.toNat, x.count + 1⟩ := if_neg (by rw [h]; exact Bool.false_ne_true)

section
variable {s : State}

/-- XS_EXCLUDE on a READY block (43_exclusion_set.md R211). -/
theorem xsExclude_run (sym : Sym) (hs : s.phase = .ready) :
    exec (.xsExclude sym) s = .next ((s.setXset (s.xset.exclude sym)).answered ⟨.ok, 0, 0⟩) := by
  dsimp only [exec, execXsExclude]
  exact command_any hs rfl

/-- XS_IS_EXCLUDED on a READY block (43_exclusion_set.md R212). -/
theorem xsIsExcluded_run (sym : Sym) (hs : s.phase = .ready) :
    exec (.xsIsExcluded sym) s = .next (s.answered ⟨.ok, 0, if s.xbits.getLsbD sym.toNat then 1 else 0⟩) := by
  dsimp only [exec, execXsIsExcluded]
  exact command_any hs rfl

/-- XS_CLEAR on a READY block (43_exclusion_set.md R213): a count of 0 tells that the bits are 0 already. -/
theorem xsClear_run (hs : s.phase = .ready) (hx : s.XsetOk) :
    exec .xsClear s = .next (State.answered { s with xbits := 0, xcount := 0 } ⟨.ok, 0, 0⟩) := by
  dsimp only [exec, execXsClear]
  rw [command_any hs rfl, XSet.clear_ones s.xset hx]
  rfl

/-- XS_COUNT on a READY block (43_exclusion_set.md R214). -/
theorem xsCount_run (hs : s.phase = .ready) :
    exec .xsCount s = .next (s.answered ⟨.ok, 0, BitVec.ofNat 56 s.xcount⟩) := by
  dsimp only [exec, execXsCount]
  exact command_any hs rfl

end

/-- Settles O37: XS_EXCLUDE by whether the symbol is a member, the other three from their run. -/
theorem exclusionCommands : Obligations.ExclusionCommands := by
  intro sym s hs hx
  refine ⟨⟨rfl, rfl, rfl⟩, ⟨rfl, rfl, rfl⟩, ⟨rfl, rfl, rfl⟩, ⟨rfl, rfl, rfl⟩, fun hmem => ?member, fun hnew => ?new,
    xsIsExcluded_run sym hs, xsClear_run hs hx, xsCount_run hs⟩
  case member =>
    rw [xsExclude_run sym hs, XSet.exclude_member (x := s.xset) hmem]
    rfl
  case new =>
    rw [xsExclude_run sym hs, XSet.exclude_new (x := s.xset) hnew]
    rfl

/-! ### Between two clearings -/

/-- Every member of `x` is one of `y`, and the count of `y` is not lower (43_exclusion_set.md R215). -/
structure XSet.Within (x y : XSet) : Prop where
  count_le : x.count ≤ y.count
  bits_sub : ∀ k, x.bits.getLsbD k = true → y.bits.getLsbD k = true

theorem XSet.Within.refl (x : XSet) : x.Within x := ⟨Nat.le_refl _, fun _ h => h⟩

theorem XSet.Within.trans {x y z : XSet} (h : x.Within y) (k : y.Within z) : x.Within z :=
  ⟨h.count_le.trans k.count_le, fun j hj => k.bits_sub j (h.bits_sub j hj)⟩

/-- `XsExclude` takes no member out (43_exclusion_set.md R210). -/
theorem XSet.within_exclude (x : XSet) (sym : Sym) : x.Within (x.exclude sym) := by
  cases h : x.has sym with
  | true =>
    rw [XSet.exclude_member h]
    exact .refl x
  | false =>
    rw [XSet.exclude_new h]
    exact ⟨Nat.le_succ _, fun k hk => by simp [hk]⟩

/-- `ExcludeAll()` is a sequence of `XsExclude` (44_model.md R232). -/
theorem XSet.within_excludeCands (l : List Cand) (x : XSet) : x.Within (x.excludeCands l) := by
  induction l generalizing x with
  | nil => exact .refl x
  | cons e l ih =>
    cases e with
    | sym sym q => exact (x.within_exclude sym).trans (ih _)
    | esc => exact ih x
    | eos => exact ih x

/-! ### What the internal functions leave alone -/

theorem State.setCtx_xset (s : State) (c : Sel) (X : List Sym) : (s.setCtx c X).xset = s.xset := by cases c <;> rfl

theorem readBits_xset (k : Nat) (f : Nat → Wide) (s : State) : (readBits k f s).state.xset = s.xset := by
  unfold readBits
  dsimp only
  split <;> rfl

theorem State.modelAdd_xset (s : State) (X : List Sym) (sym : Sym) : (s.modelAdd X sym).state.xset = s.xset := by
  unfold State.modelAdd
  rw [Res.lift_state]
  rfl

theorem State.modelGetList_xset (s : State) (X : List Sym) : (s.modelGetList X).2.xset = s.xset := by
  unfold State.modelGetList
  split <;> rfl

theorem State.huffDecode_xset (s : State) : s.huffDecode.state.xset = s.xset := huffDecode_keeps State.xset (fun _ _ => rfl) s

/-- Where the last part of an internal function keeps the state, it ends as its first part does. -/
theorem Res.andThen_done_state {σ α β : Type} (x : Res σ α) (r : α → σ → β) :
    (x.andThen fun a s => .done (r a s) s).state = x.state := by cases x <;> rfl

theorem Res.finish_xset (x : Res State Response) (opc : BitVec 8) : (x.finish opc).xset = x.state.xset := by cases x <;> rfl

/-- A command leaves the exclusion set as its pseudocode does; a refusal and a fault leave it alone
(60_exceptions.md R331, R341). -/
theorem command_within {i : Instr} {s t : State} {body : State → Res State Response} (h : command i s body = .next t)
    (hb : s.xset.Within (body s).state.xset) : s.xset.Within t.xset := by
  rcases command_cases h with ⟨st, -, rfl⟩ | ⟨-, -, rfl⟩ | ⟨-, -, rfl⟩
  · exact .refl _
  · exact .refl _
  · rwa [Res.finish_xset]

/-- A command whose pseudocode does not touch the exclusion set. -/
theorem command_within_of_eq {i : Instr} {s t : State} {body : State → Res State Response} (h : command i s body = .next t)
    (hb : (body s).state.xset = s.xset) : s.xset.Within t.xset := command_within h (hb ▸ .refl _)

theorem getStatus_xset {p : Page} {s t : State} (h : exec (.getStatus p) s = .next t) : t.xset = s.xset := by
  cases Comes.of h with
  | status n r => rfl
  | refused hi hg hp | wrongDir hi hg hp hd | ran hi hg hp hd he => exact absurd rfl (hg p)

/-- Of the commands that do not clear the exclusion set only XS_EXCLUDE and MD_EXCLUDE_ALL change it, and both add
(43_exclusion_set.md R215). -/
theorem exec_within {i : Instr} {s t : State} (h : exec i s = .next t) (hinit : ∀ d m, i ≠ .init d m) (hclear : i ≠ .xsClear)
    (hput : ∀ sym, i ≠ .encPut sym) (hclose : i ≠ .encClose) (hget : i ≠ .decGet) : s.xset.Within t.xset := by
  cases i with
  | init d m => exact absurd rfl (hinit d m)
  | xsClear => exact absurd rfl hclear
  | encPut sym => exact absurd rfl (hput sym)
  | encClose => exact absurd rfl hclose
  | decGet => exact absurd rfl hget
  | getStatus p => exact getStatus_xset h ▸ .refl _
  | xsExclude sym =>
    dsimp only [exec, execXsExclude] at h
    exact command_within h (s.xset.within_exclude sym)
  | mdExcludeAll =>
    dsimp only [exec, execMdExcludeAll] at h
    exact command_within h (s.xset.within_excludeCands s.cl)
  | brReadBit | brReadU8 | brReadS8 | brReadU16BE | brReadU16LE | brReadS16BE | brReadS16LE | brReadU32BE | brReadU32LE
  | brReadS32BE | brReadS32LE =>
    dsimp only [exec, execBrReadBit, execBrReadU8, execBrReadS8, execBrReadU16BE, execBrReadU16LE, execBrReadS16BE,
      execBrReadS16LE, execBrReadU32BE, execBrReadU32LE, execBrReadS32BE, execBrReadS32LE] at h
    exact command_within_of_eq h (readBits_xset _ _ s)
  | brReadU n | brReadS n =>
    dsimp only [exec, execBrReadU, execBrReadS] at h
    refine command_within_of_eq h ?_
    split
    · rfl
    · exact readBits_xset _ _ s
  | brAlign | brCount | brSkip k | brMark limit | brIsAligned =>
    dsimp only [exec, execBrAlign, execBrCount, execBrSkip, execBrMark, execBrIsAligned] at h
    exact command_within_of_eq h rfl
  | bwWriteBit v | bwWrite8 v | bwWrite16BE v | bwWrite16LE v | bwWrite32BE v | bwWrite32LE v | bwPad | bwDiscard
  | bwPadFlush | bwClose | bwIsAligned =>
    dsimp only [exec, execBwWriteBit, execBwWrite8, execBwWrite16BE, execBwWrite16LE, execBwWrite32BE, execBwWrite32LE,
      execBwPad, execBwDiscard, execBwPadFlush, execBwClose, execBwIsAligned] at h
    exact command_within_of_eq h (by simp [State.xset])
  | cxOrder c | cxClone | xsIsExcluded sym | xsCount | mdGetUniform | mdFindSym sym | mdFindEsc | mdFindEos | decClose =>
    dsimp only [exec, execCxOrder, execCxClone, execXsIsExcluded, execXsCount, execMdGetUniform, execMdFindSym, execMdFindEsc,
      execMdFindEos, execDecClose] at h
    exact command_within_of_eq h rfl
  | brReadByte | bwWriteBits n v | bwFlush | cxGetAt c k | mdIsEsc idx | mdIsEos idx | clLen | clGet idx | hfEncode idx =>
    dsimp only [exec, execBrReadByte, execBwWriteBits, execBwFlush, execCxGetAt, execMdIsEsc, execMdIsEos, execClLen,
      execClGet, execHfEncode] at h
    refine command_within_of_eq h ?_
    split <;> rfl
  | brReset =>
    dsimp only [exec, execBrReset] at h
    refine command_within_of_eq h ?_
    split
    · rfl
    · split <;> rfl
  | cxAppend c sym =>
    dsimp only [exec, execCxAppend] at h
    exact command_within_of_eq h (State.setCtx_xset s c _)
  | cxDrop c =>
    dsimp only [exec, execCxDrop] at h
    refine command_within_of_eq h ?_
    split
    · rfl
    · exact State.setCtx_xset s c _
  | mdAdd c sym =>
    dsimp only [exec, execMdAdd] at h
    refine command_within_of_eq h ?_
    rw [Res.andThen_done_state]
    exact State.modelAdd_xset s (s.ctx c) sym
  | mdGetList c =>
    dsimp only [exec, execMdGetList] at h
    refine command_within_of_eq h ?_
    have hlist := State.modelGetList_xset s (s.ctx c)
    split
    · next he => rw [he] at hlist; exact hlist
    · next he => rw [he] at hlist; exact hlist
  | hfDecode =>
    dsimp only [exec, execHfDecode] at h
    refine command_within_of_eq h ?_
    split
    · rfl
    · rw [Res.andThen_done_state]
      exact State.huffDecode_xset s

/-- Settles O38: the set before the command is within the set after it. -/
theorem exclusionMonotone : Obligations.ExclusionMonotone := by
  intro i s t h hinit hclear hput hclose hget
  obtain ⟨hcount, hbits⟩ := exec_within h hinit hclear hput hclose hget
  exact ⟨hcount, hbits⟩

end Sys2Proof.Machine
end

section
/-! The model's statements (44_model.md): what the commands of the model and of the candidate list answer and change, where a
symbol cannot be added, and that the codec commands keep the contexts of HIST in the trie. -/

namespace Sys2Proof.Machine

/-! ### What a cascade hands to Resolve -/

/-- From `s` to `u` nothing that Resolve adds to has changed (45_cascade.md R263): the parameters, the trie and HIST. -/
structure SameModel (s u : State) : Prop where
  par : u.par = s.par
  nodes : u.nodes = s.nodes
  hist : u.hist = s.hist

theorem SameModel.trieOk {s u : State} (h : SameModel s u) (hs : s.TrieOk) : u.TrieOk := by
  obtain ⟨hpar, halloc, hpool⟩ := hs
  exact ⟨by rw [h.par]; exact hpar, by rw [h.par, h.nodes]; exact halloc, by rw [h.par, h.nodes]; exact hpool⟩

theorem SameModel.resolves {s u : State} (h : SameModel s u) (hs : suffixesResolve s.nodes s.hist) :
    suffixesResolve u.nodes u.hist := by rw [h.nodes, h.hist]; exact hs

/-- A cascade leaves the model alone where its decisions do (45_cascade.md R260 to R264). -/
theorem cascade_sameModel {α : Type} {D : State → Res State (Option α)} {U : State → Res State α}
    (hD : ∀ s, SameModel s (D s).state) (hU : ∀ s, SameModel s (U s).state) (s : State) :
    SameModel s (cascade D U s.cascadeStart.wctx s.cascadeStart).state :=
  ⟨cascade_keeps State.par (fun _ _ _ => rfl) (fun _ _ => rfl) (fun _ _ => rfl) (fun s => (hD s).par) (fun s => (hU s).par) _ _,
    cascade_keeps State.nodes (fun _ _ _ => rfl) (fun _ _ => rfl) (fun _ _ => rfl) (fun s => (hD s).nodes)
      (fun s => (hU s).nodes) _ _,
    cascade_keeps State.hist (fun _ _ _ => rfl) (fun _ _ => rfl) (fun _ _ => rfl) (fun s => (hD s).hist)
      (fun s => (hU s).hist) _ _⟩

/-- An encoder's cascade that completes leaves the model alone. -/
theorem encCascade_sameModel {sym : Sym} {s e : State}
    (h : cascade (encodeSym sym) (encodeSymUniform sym) s.cascadeStart.wctx s.cascadeStart = .done () e) : SameModel s e := by
  have hkeeps := cascade_sameModel (D := encodeSym sym) (U := encodeSymUniform sym)
    (fun s => ⟨levelOf_keeps _ (fun _ _ => rfl) (some sym) s, levelOf_keeps _ (fun _ _ => rfl) (some sym) s,
      levelOf_keeps _ (fun _ _ => rfl) (some sym) s⟩)
    (fun s => ⟨uniformOf_keeps _ (fun _ _ => rfl) (some sym) s, uniformOf_keeps _ (fun _ _ => rfl) (some sym) s,
      uniformOf_keeps _ (fun _ _ => rfl) (some sym) s⟩) s
  rwa [h] at hkeeps

/-- A decoder's cascade that completes leaves the model alone. -/
theorem decCascade_sameModel {target : Option Sym} {s d : State}
    (h : cascade decodeLevel decodeUniform s.cascadeStart.wctx s.cascadeStart = .done target d) : SameModel s d := by
  have hkeeps := cascade_sameModel
    (fun s => ⟨decodeLevel_keeps _ (fun _ _ => rfl) s, decodeLevel_keeps _ (fun _ _ => rfl) s,
      decodeLevel_keeps _ (fun _ _ => rfl) s⟩)
    (fun s => ⟨decodeUniform_keeps _ (fun _ _ => rfl) s, decodeUniform_keeps _ (fun _ _ => rfl) s,
      decodeUniform_keeps _ (fun _ _ => rfl) s⟩) s
  rwa [h] at hkeeps

/-! ### No unseen context -/

/-- A command that leaves the block READY has run its pseudocode to a response (60_exceptions.md R330, R341). -/
theorem command_done_of_ready {i : Instr} {s t : State} {body : State → Res State Response} (h : command i s body = .next t)
    (ht : t.phase = .ready) : ∃ rsp u, body s = .done rsp u ∧ t = u.respond rsp := by
  rcases command_cases h with ⟨st, hst, rfl⟩ | ⟨-, -, rfl⟩ | ⟨-, -, rfl⟩
  · have hp : s.phase = .ready := ht
    rw [hp] at hst; cases hst
  · cases ht
  · cases hb : body s with
    | done rsp u => exact ⟨rsp, u, rfl, rfl⟩
    | raise f u => rw [hb] at ht; cases ht

/-- Resolve keeps every suffix of HIST in the trie (44_model.md R238): what it appends to HIST it has added after each. -/
theorem State.resolve_suffixesResolve {s t : State} {sym : Sym} (ht : s.TrieOk) (hs : suffixesResolve s.nodes s.hist)
    (h : s.resolve sym = .done () t) : suffixesResolve t.nodes t.hist := by
  rcases s.resolve_spec ht sym with ⟨-, ms, hrun, hadd, -⟩ | ⟨-, ms, f, hrun, -⟩
  · cases hrun.symm.trans h
    exact hadd.suffixesResolve s.cap hs
  · cases hrun.symm.trans h

/-- The same of an ENC_PUT that leaves the block READY: its cascade leaves trie and HIST alone. -/
theorem encPut_suffixesResolve {sym : Sym} {s t : State} (hi : s.TrieOk) (hs : suffixesResolve s.nodes s.hist)
    (h : exec (.encPut sym) s = .next t) (ht : t.phase = .ready) : suffixesResolve t.nodes t.hist := by
  dsimp only [exec, execEncPut] at h
  obtain ⟨rsp, u, hbody, rfl⟩ := command_done_of_ready h ht
  obtain ⟨_, e, hcascade, hbody⟩ := Res.andThen_done hbody
  obtain ⟨_, v, hresolve, hbody⟩ := Res.andThen_done hbody
  cases hbody
  have hsame := encCascade_sameModel hcascade
  exact State.resolve_suffixesResolve (t := u) (hsame.trieOk hi) (hsame.resolves hs) hresolve

/-- The same of a DEC_GET: after the end of the stream it changes neither, before it either ends there or resolves. -/
theorem decGet_suffixesResolve {s t : State} (hi : s.TrieOk) (hs : suffixesResolve s.nodes s.hist)
    (h : exec .decGet s = .next t) (ht : t.phase = .ready) : suffixesResolve t.nodes t.hist := by
  dsimp only [exec, execDecGet] at h
  obtain ⟨rsp, u, hbody, rfl⟩ := command_done_of_ready h ht
  split at hbody
  · cases hbody
    exact hs
  · obtain ⟨target, e, hcascade, hbody⟩ := Res.andThen_done hbody
    have hsame := decCascade_sameModel hcascade
    cases target with
    | none =>
      cases hbody
      exact hsame.resolves hs
    | some sym =>
      obtain ⟨_, v, hresolve, hbody⟩ := Res.andThen_done hbody
      cases hbody
      exact State.resolve_suffixesResolve (t := u) (hsame.trieOk hi) (hsame.resolves hs) hresolve

/-- Settles O46: INIT leaves the root and the empty context, and what the two commands resolve is added to the trie. -/
theorem noUnseenContext : Obligations.NoUnseenContext := by
  refine ⟨fun d m s t hm h => ?init, fun i s t hcmd hi hs h ht => ?codec⟩
  case init =>
    cases (init_run d hm).symm.trans h
    exact suffixesResolve_root
  case codec =>
    rcases hcmd with ⟨sym, rfl⟩ | rfl
    · exact encPut_suffixesResolve hi.trie hs h ht
    · exact decGet_suffixesResolve hi.trie hs h ht

/-! ### Adding a symbol -/

/-- MD_ADD on a READY block is ModelAdd, and then its answer (44_model.md R223). -/
theorem mdAdd_run (c : Sel) (sym : Sym) {s : State} (hs : s.phase = .ready) : exec (.mdAdd c sym) s = .next (Res.finish
    ((s.modelAdd (s.ctx c) sym).andThen fun _ s => .done (okRsp 0 (allocResult s.nalloc)) s) 0x60) := by
  dsimp only [exec, execMdAdd]
  exact command_any hs rfl

/-- The result of MD_ADD where NALLOC fits it (44_model.md R223). -/
theorem allocResult_of_lt {n : Nat} (h : n < 2 ^ 56) : allocResult n = BitVec.ofNat 56 n := if_pos h

/-- Settles O39: of what ModelAdd can do, `canAdd` leaves that it completes. -/
theorem addCounts : Obligations.AddCounts := by
  intro c sym s hs ht hadd
  rcases s.modelAdd_spec ht (s.ctx c) sym with ⟨-, ms, hrun, hadded, -⟩ | ⟨hnot, -⟩
  · refine ⟨⟨rfl, rfl, rfl⟩, ms, allocResult ms.length, ?_, hadded, allocResult_of_lt⟩
    rw [mdAdd_run c sym hs, hrun]
    rfl
  · exact absurd hadd hnot

/-- A command that stops with ModelAdd's fault, on a block with the model of `s`, stops as the claims say
(60_exceptions.md R330). -/
theorem addFault_of_raise {s u : State} {X : List Sym} {sym : Sym} {f : FaultKind} (opc : BitVec 8)
    (h : (f = .nodePoolFull ∧ s.par.nodeCap < s.nodes.length + (newPaths s.nodes X sym).length) ∨
      (f = .countOverflow ∧ ∃ Y, Y <:+ X ∧ 2 ^ s.par.countW - 1 ≤ pathCount s.nodes (Y ++ [sym]))) :
    AddFault s (u.takeFault f opc) X sym opc := by
  refine ⟨rfl, rfl, ?_⟩
  rcases h with ⟨rfl, hpool⟩ | ⟨rfl, hcount⟩
  · exact .inl ⟨rfl, hpool⟩
  · exact .inr ⟨rfl, hcount⟩

/-- Where a symbol cannot be added, Resolve stops, on every block with the same model (45_cascade.md R263). -/
theorem SameModel.resolve_stops {s u : State} {sym : Sym} (h : SameModel s u) (ht : s.TrieOk) (hnot : ¬ s.canAdd s.hist sym)
    (opc : BitVec 8) : ∃ v f, u.resolve sym = .raise f v ∧ AddFault s (v.takeFault f opc) s.hist sym opc := by
  have hcan : u.canAdd u.hist sym ↔ s.canAdd s.hist sym := by rw [State.canAdd, State.canAdd, h.par, h.nodes, h.hist]
  rcases u.resolve_spec (h.trieOk ht) sym with ⟨hadd, -⟩ | ⟨-, ms, f, hrun, hwhy⟩
  · exact absurd (hcan.1 hadd) hnot
  · rw [h.par, h.nodes, h.hist] at hwhy
    exact ⟨_, f, hrun, addFault_of_raise opc hwhy⟩

/-- MD_ADD stops where ModelAdd does (44_model.md R221, R222). -/
theorem mdAdd_stops {c : Sel} {sym : Sym} {s : State} (hs : s.phase = .ready) (ht : s.TrieOk)
    (hnot : ¬ s.canAdd (s.ctx c) sym) : ∃ t, exec (.mdAdd c sym) s = .next t ∧ AddFault s t (s.ctx c) sym 0x60 := by
  rcases s.modelAdd_spec ht (s.ctx c) sym with ⟨hadd, -⟩ | ⟨-, ms, f, hrun, hwhy⟩
  · exact absurd hadd hnot
  · exact ⟨(s.setNodes ms).takeFault f 0x60, by rw [mdAdd_run c sym hs, hrun]; rfl, addFault_of_raise 0x60 hwhy⟩

/-- ENC_PUT stops where its Resolve does: its cascade completes (45_cascade.md R265). -/
theorem encPut_stops {sym : Sym} {s : State} (hs : s.encReady) (hi : s.Inv) (hr : suffixesResolve s.nodes s.hist)
    (hnot : ¬ s.canAdd s.hist sym) : ∃ t, exec (.encPut sym) s = .next t ∧ AddFault s t s.hist sym 0x80 := by
  obtain ⟨e, hcascade, -⟩ := start_mirror (some sym) hi hr
  obtain ⟨v, f, hresolve, hfault⟩ := (encCascade_sameModel hcascade).resolve_stops hi.trie hnot 0x80
  refine ⟨v.takeFault f 0x80, ?_, hfault⟩
  rw [encPut_run sym hs, hcascade, Res.done_andThen, hresolve]
  rfl

/-- DEC_GET stops where its Resolve does: its cascade comes to the symbol whose bits it reads (45_cascade.md R269). -/
theorem decGet_stops {sym : Sym} {s : State} (hs : s.decReady) (hi : s.Inv) (heos : s.eosSeen = false)
    (hr : suffixesResolve s.nodes s.hist) (hnot : ¬ s.canAdd s.hist sym) (hbits : s.codeBits (.symbol sym) <+: s.remaining) :
    ∃ t, exec .decGet s = .next t ∧ AddFault s t s.hist sym 0x82 := by
  obtain ⟨rest, hrest⟩ := hbits
  obtain ⟨d, hcascade, -⟩ := start_follows (some sym) hi hr hrest.symm
  obtain ⟨v, f, hresolve, hfault⟩ := (decCascade_sameModel hcascade).resolve_stops hi.trie hnot 0x82
  refine ⟨v.takeFault f 0x82, ?_, hfault⟩
  rw [decGet_run hs heos, hcascade, Res.done_andThen]
  dsimp only
  rw [hresolve]
  rfl

/-- Settles O40: each of the three commands ends in ModelAdd or in Resolve, which stops where the symbol cannot be added. -/
theorem addStops : Obligations.AddStops := fun _ _ =>
  ⟨fun _ => mdAdd_stops, encPut_stops, decGet_stops⟩

/-! ### Fetching a list -/

/-- The children of the node `p` that are not excluded, each with its symbol, in creation order (44_model.md R224). -/
def offeredChildren (ns : List Node) (x : XSet) (p : Nat) : List (Sym × Nat) :=
  ((children ns p).filter fun q => !x.has (nodeAt ns q).sym).map fun q => ((nodeAt ns q).sym, q)

/-- The trie list is the offered children, then ESC (44_model.md R224). -/
theorem trieList_eq (ns : List Node) (x : XSet) (p : Nat) :
    trieList ns x p = ((offeredChildren ns x p).map fun c => .sym c.1 (some c.2)) ++ [.esc] := by
  rw [trieList, offeredChildren, List.map_map]
  rfl

/-- No two offered children have the same symbol, so there are at most 256 (10_state.md R38). -/
theorem PoolOk.length_offeredChildren {w : Nat} {ns : List Node} (ok : PoolOk w ns) (x : XSet) {p : Nat} (hp : p < ns.length) :
    (offeredChildren ns x p).length ≤ 256 := by
  have hnodup : ((children ns p).map fun q => (nodeAt ns q).sym).Nodup := ok.distinct p hp
  calc
    (offeredChildren ns x p).length ≤ ((children ns p).map fun q => (nodeAt ns q).sym).length := by
      simpa [offeredChildren] using List.length_filter_le _ (children ns p)
    _ ≤ 256 := length_le_of_nodup_syms hnodup

/-- The offered children stand in creation order (10_state.md R35). -/
theorem PoolOk.offeredChildren_order {w : Nat} {ns : List Node} (ok : PoolOk w ns) (x : XSet) {p : Nat} (hp : p < ns.length) :
    ((offeredChildren ns x p).map Prod.snd).Pairwise (· < ·) := by
  have hmap : (offeredChildren ns x p).map Prod.snd = (children ns p).filter fun q => !x.has (nodeAt ns q).sym := by
    simp [offeredChildren, Function.comp_def]
  rw [hmap]
  exact (ok.order p hp).filter _

/-- The offered children of a context's node are the nodes one symbol further on whose symbol is not excluded
(44_model.md R220, R224). -/
theorem PoolOk.mem_offeredChildren {w : Nat} {ns : List Node} (ok : PoolOk w ns) {x : XSet} {X : List Sym} {p q : Nat} {t : Sym}
    (hp : pathNode ns X = some p) :
    (t, q) ∈ offeredChildren ns x p ↔ pathNode ns (X ++ [t]) = some q ∧ x.has t = false := by
  have hchild : pathNode ns (X ++ [t]) = some q ↔ q ∈ children ns p ∧ (nodeAt ns q).sym = t := by
    rw [ok.pathNode_snoc_iff, hp]
    simp
  rw [hchild, offeredChildren]
  simp only [List.mem_map, List.mem_filter, Prod.mk.injEq, Bool.not_eq_true']
  constructor
  · rintro ⟨q, ⟨hq, hx⟩, rfl, rfl⟩
    exact ⟨⟨hq, rfl⟩, hx⟩
  · rintro ⟨⟨hq, rfl⟩, hx⟩
    exact ⟨q, ⟨hq, hx⟩, rfl, rfl⟩

/-- MD_GETLIST of a context the trie does not hold (44_model.md R224, R225). -/
theorem mdGetList_unseen {c : Sel} {s : State} (hs : s.phase = .ready) (hc : pathNode s.nodes (s.ctx c) = none) :
    exec (.mdGetList c) s = .next (State.answered { s with cl := [], clnull := true } ⟨.notFound, 0, 0⟩) := by
  have hlist : s.modelGetList (s.ctx c) = (false, s.setList [] true) := by
    rw [State.modelGetList, show resolveFrom s.nodes (s.ctx c) 0 = none from hc]
  dsimp only [exec, execMdGetList]
  rw [command_any hs rfl, hlist]
  rfl

/-- MD_GETLIST of a context the trie holds (44_model.md R224, R225). -/
theorem mdGetList_found {c : Sel} {s : State} {p : Nat} (hs : s.phase = .ready) (hc : pathNode s.nodes (s.ctx c) = some p) :
    exec (.mdGetList c) s = .next (State.answered { s with cl := trieList s.nodes s.xset p, clnull := false }
      ⟨.ok, 0, BitVec.ofNat 56 (trieList s.nodes s.xset p).length⟩) := by
  have hlist : s.modelGetList (s.ctx c) = (true, s.setList (trieList s.nodes s.xset p) false) := by
    rw [State.modelGetList, show resolveFrom s.nodes (s.ctx c) 0 = some p from hc]
  dsimp only [exec, execMdGetList]
  rw [command_any hs rfl, hlist]
  rfl

/-- Settles O41: MD_GETLIST by whether the context leads to a node, of which the list is the offered children. -/
theorem getList : Obligations.GetList := by
  refine fun c s hs ht => ⟨⟨rfl, rfl, rfl⟩, mdGetList_unseen hs, fun p hp => ?_⟩
  have hlt := ht.pool.pathNode_lt hp
  refine ⟨offeredChildren s.nodes s.xset p, ?_, ht.pool.length_offeredChildren s.xset hlt,
    fun t q => ht.pool.mem_offeredChildren hp, ht.pool.offeredChildren_order s.xset hlt⟩
  rw [mdGetList_found hs hp, trieList_eq, List.length_append, List.length_map, List.length_singleton]

/-- The symbols that are not excluded, ascending (44_model.md R226). -/
def offeredSymbols (x : XSet) : List Sym := ((List.range 256).map (BitVec.ofNat 8)).filter fun t => !x.has t

/-- The uniform list is the offered symbols, then ESC, then EOS (44_model.md R226). -/
theorem uniformList_eq (x : XSet) :
    uniformList x = ((offeredSymbols x).map fun t => .sym t none) ++ [.esc, .eos] := rfl

theorem mem_offeredSymbols {x : XSet} {t : Sym} : t ∈ offeredSymbols x ↔ x.has t = false := by
  rw [offeredSymbols, List.mem_filter, Bool.not_eq_true']
  exact and_iff_right (mem_allSyms t)

/-- Each member of the exclusion set is one symbol less to offer (44_model.md R227). -/
theorem length_offeredSymbols (x : XSet) : (offeredSymbols x).length + x.ones = 256 := by
  have h := length_uniformList x
  rw [uniformList_eq, List.length_append, List.length_map, List.length_cons, List.length_singleton] at h
  omega

theorem offeredSymbols_ascending (x : XSet) : (offeredSymbols x).Pairwise fun a b => a.toNat < b.toNat := by
  refine List.Pairwise.filter _ (List.pairwise_map.2 ?_)
  refine List.Pairwise.imp_of_mem (fun {a b} ha hb hab => ?_) List.pairwise_lt_range
  rw [BitVec.toNat_ofNat, BitVec.toNat_ofNat, Nat.mod_eq_of_lt (List.mem_range.1 ha), Nat.mod_eq_of_lt (List.mem_range.1 hb)]
  exact hab

/-- MD_GETUNIFORM on a READY block (44_model.md R227). -/
theorem mdGetUniform_run {s : State} (hs : s.phase = .ready) :
    exec .mdGetUniform s = .next (State.answered { s with cl := uniformList s.xset, clnull := false }
      ⟨.ok, 0, BitVec.ofNat 56 (uniformList s.xset).length⟩) := by
  dsimp only [exec, execMdGetUniform]
  exact command_any hs rfl

/-- Settles O42: the uniform list is the offered symbols, as many as the set's members leave. -/
theorem getUniform : Obligations.GetUniform := by
  intro s hs hx
  have hcount : s.xcount = s.xset.ones := hx
  have hoffered := length_offeredSymbols s.xset
  have hlength : (uniformList s.xset).length = 258 - s.xcount := by
    have h := length_uniformList s.xset
    omega
  refine ⟨⟨rfl, rfl, rfl⟩, offeredSymbols s.xset, ?_, by omega, fun t => mem_offeredSymbols, offeredSymbols_ascending s.xset⟩
  rw [mdGetUniform_run hs, hlength, uniformList_eq]

/-! ### Searching and excluding the list -/

/-- The answer of a search of the list for the first candidate that `p` accepts is what `Finds` says (44_model.md R228). -/
theorem finds_of_findIdx {i : Instr} {P : Cand → Prop} {p : Cand → Bool} {s : State} (hP : ∀ e, p e = true ↔ P e)
    (h : exec i s = .next (s.answered (foundAt (s.cl.findIdx? p)))) : Finds i P s := by
  constructor
  · intro k e hk he hleast
    have hfound : s.cl.findIdx? p = some k := by
      obtain ⟨hlt, hget⟩ := List.getElem?_eq_some_iff.1 hk
      refine List.findIdx?_eq_some_iff_getElem.2 ⟨hlt, by rw [hget]; exact (hP e).2 he, fun j hj hpj => ?_⟩
      exact hleast j _ hj (List.getElem?_eq_getElem (hj.trans hlt)) ((hP _).1 hpj)
    rw [h, hfound]
    rfl
  · intro hnone
    have hnot : s.cl.findIdx? p = none :=
      List.findIdx?_eq_none_iff.2 fun e he => Bool.eq_false_iff.2 fun hpe => hnone e he ((hP e).1 hpe)
    rw [h, hnot]
    rfl

section
variable {s : State}

/-- MD_FIND_SYM on a READY block (44_model.md R229). -/
theorem mdFindSym_run (sym : Sym) (hs : s.phase = .ready) :
    exec (.mdFindSym sym) s = .next (s.answered (foundAt (s.cl.findIdx? (Goal.symbol sym).isMet))) := by
  rw [← State.findSym_eq]
  dsimp only [exec, execMdFindSym]
  exact command_any hs rfl

/-- MD_FIND_ESC on a READY block (44_model.md R230). -/
theorem mdFindEsc_run (hs : s.phase = .ready) :
    exec .mdFindEsc s = .next (s.answered (foundAt (s.cl.findIdx? (· == .esc)))) := by
  dsimp only [exec, execMdFindEsc]
  exact command_any hs rfl

/-- MD_FIND_EOS on a READY block (44_model.md R231). -/
theorem mdFindEos_run (hs : s.phase = .ready) :
    exec .mdFindEos s = .next (s.answered (foundAt (s.cl.findIdx? (· == .eos)))) := by
  dsimp only [exec, execMdFindEos]
  exact command_any hs rfl

/-- MD_EXCLUDE_ALL on a READY block (44_model.md R233). -/
theorem mdExcludeAll_run (hs : s.phase = .ready) :
    exec .mdExcludeAll s = .next (s.excludeAll.answered ⟨.ok, 0, BitVec.ofNat 56 s.excludeAll.xcount⟩) := by
  dsimp only [exec, execMdExcludeAll]
  exact command_any hs rfl

end

/-- Settles O43: each command searches the list for the first candidate of its kind. -/
theorem findCommands : Obligations.FindCommands := fun sym _ hs =>
  ⟨⟨rfl, rfl, rfl⟩, ⟨rfl, rfl, rfl⟩, ⟨rfl, rfl, rfl⟩, finds_of_findIdx (fun _ => Goal.isMet_symbol) (mdFindSym_run sym hs),
    finds_of_findIdx (fun _ => beq_iff_eq) (mdFindEsc_run hs), finds_of_findIdx (fun _ => beq_iff_eq) (mdFindEos_run hs)⟩

/-- `ExcludeAll()` keeps XCOUNT the number of members (10_state.md R34, 44_model.md R232). -/
theorem State.XsetOk.excludeAll {s : State} (h : s.XsetOk) : s.excludeAll.XsetOk :=
  (excludeAll_via s).keeps (fun _ _ hu m => m.xset hu) h

/-- Settles O44: MD_EXCLUDE_ALL is `ExcludeAll()`, which adds the symbols of the list and keeps the count. -/
theorem excludeAll : Obligations.ExcludeAll := fun s hs hx =>
  ⟨⟨rfl, rfl, rfl⟩, s.excludeAll.xbits, s.excludeAll.xcount, mdExcludeAll_run hs,
    fun t => XSet.has_excludeCands s.cl s.xset t, hx.excludeAll⟩

/-! ### Reading a candidate -/

/-- The number in the result of CL_GET, where the weight fits its 48 bits (44_model.md R237). -/
theorem toNat_candResult {weight : Nat} (h : weight < 2 ^ 48) (sym : Sym) :
    (candResult weight sym).toNat = 2 ^ 8 * weight + sym.toNat := by
  rw [candResult, toNat_append_add, BitVec.toNat_ofNat, Nat.mod_eq_of_lt h, Nat.mul_comm]

/-- A node's count fits the 48 bits of a weight (00_scope.md R7, 10_state.md R35). -/
theorem State.TrieOk.count_lt {s : State} (h : s.TrieOk) {q : Nat} (hq : q < s.nodes.length) :
    (nodeAt s.nodes q).count < 2 ^ 48 := by
  obtain ⟨-, -, -, hwidth⟩ := h.par
  exact (h.pool.counts q hq).trans_le (Nat.pow_le_pow_right Nat.two_pos hwidth)

section
variable {s : State} {idx : BitVec 9}

/-- MD_IS_ESC, MD_IS_EOS and CL_GET above the list (44_model.md R234, R235, R237). -/
theorem candidateRead_none (hs : s.phase = .ready) (h : s.cl[idx.toNat]? = none) :
    exec (.mdIsEsc idx) s = .next (s.faultedBy .outOfRange 0x67) ∧
      exec (.mdIsEos idx) s = .next (s.faultedBy .outOfRange 0x68) ∧
      exec (.clGet idx) s = .next (s.faultedBy .outOfRange 0x6A) := by
  have hcand : s.cand idx.toNat = none := h
  dsimp only [exec, execMdIsEsc, execMdIsEos, execClGet]
  rw [command_any hs rfl, command_any hs rfl, command_any hs rfl, hcand]
  exact ⟨rfl, rfl, rfl⟩

/-- MD_IS_ESC of a candidate (44_model.md R234). -/
theorem mdIsEsc_some {e : Cand} (hs : s.phase = .ready) (h : s.cl[idx.toNat]? = some e) :
    exec (.mdIsEsc idx) s = .next (s.answered ⟨.ok, 0, if e = .esc then 1 else 0⟩) := by
  have hcand : s.cand idx.toNat = some e := h
  dsimp only [exec, execMdIsEsc]
  rw [command_any hs rfl, hcand]
  cases e <;> rfl

/-- MD_IS_EOS of a candidate (44_model.md R235). -/
theorem mdIsEos_some {e : Cand} (hs : s.phase = .ready) (h : s.cl[idx.toNat]? = some e) :
    exec (.mdIsEos idx) s = .next (s.answered ⟨.ok, 0, if e = .eos then 1 else 0⟩) := by
  have hcand : s.cand idx.toNat = some e := h
  dsimp only [exec, execMdIsEos]
  rw [command_any hs rfl, hcand]
  cases e <;> rfl

/-- CL_GET of a candidate (44_model.md R237). -/
theorem clGet_some {e : Cand} (hs : s.phase = .ready) (h : s.cl[idx.toNat]? = some e) :
    exec (.clGet idx) s =
      .next (s.answered ⟨.ok, BitVec.ofNat 8 e.kind, candResult (candWeight s.nodes e) e.symField⟩) := by
  have hcand : s.cand idx.toNat = some e := h
  dsimp only [exec, execClGet]
  rw [command_any hs rfl, hcand]
  rfl

/-- CL_LEN of a list (44_model.md R236). -/
theorem clLen_list (hs : s.phase = .ready) (h : s.clnull = false) :
    exec .clLen s = .next (s.answered ⟨.ok, 0, BitVec.ofNat 56 s.cl.length⟩) := by
  dsimp only [exec, execClLen]
  rw [command_any hs rfl, h]
  rfl

/-- CL_LEN of a missing list (44_model.md R236). -/
theorem clLen_null (hs : s.phase = .ready) (h : s.clnull = true) :
    exec .clLen s = .next (s.answered ⟨.notFound, 0, 0⟩) := by
  dsimp only [exec, execClLen]
  rw [command_any hs rfl, h]
  rfl

end

/-- Settles O45: the three indexed commands by whether the list has the index, CL_GET then by the candidate's kind. -/
theorem candidateReads : Obligations.CandidateReads := by
  intro idx s hs ht hl
  refine ⟨⟨rfl, rfl, rfl⟩, ⟨rfl, rfl, rfl⟩, ⟨rfl, rfl, rfl⟩, ⟨rfl, rfl, rfl⟩,
    fun hlen => candidateRead_none hs (List.getElem?_eq_none hlen),
    fun e he => ⟨mdIsEsc_some hs he, mdIsEos_some hs he, _, _, clGet_some hs he, ?node, ?uniform, ?esc, ?eos⟩,
    clLen_list hs, clLen_null hs⟩
  case node =>
    rintro t q rfl
    obtain ⟨hq, -⟩ := hl.nodes _ (List.mem_of_getElem? he)
    exact ⟨rfl, toNat_candResult (ht.count_lt hq) t⟩
  case uniform =>
    rintro t rfl
    exact ⟨rfl, toNat_candResult (weight := 1) (by decide) t⟩
  case esc | eos =>
    rintro rfl
    exact ⟨rfl, toNat_candResult (weight := 1) (by decide) 0⟩

end Sys2Proof.Machine
end

section
/-! The codec statements (45_cascade.md): what ENC_PUT and ENC_CLOSE write and leave, what DEC_GET answers over their bits and
where it stops, and that a decoder over an encoder's stream returns its symbols and then the end. -/

namespace Sys2Proof.Machine

/-! ### What Resolve makes of a model -/

/-- From `s` to `u` nothing that Resolve reads has changed (45_cascade.md R263): the model, HIST and the capacity of HIST. -/
structure SameCoder (s u : State) : Prop extends SameModel s u where
  maxOrder : u.maxOrder = s.maxOrder

theorem SameCoder.trans {s t u : State} (h : SameCoder s t) (k : SameCoder t u) : SameCoder s u :=
  ⟨⟨k.par.trans h.par, k.nodes.trans h.nodes, k.hist.trans h.hist⟩, k.maxOrder.trans h.maxOrder⟩

/-- Blocks with one model and one HIST code alike (45_cascade.md R274). -/
theorem SameModel.codeBits {s u : State} (h : SameModel s u) (g : Goal) : u.codeBits g = s.codeBits g := by
  rw [State.codeBits_eq, State.codeBits_eq, State.bitsFor_congr h.nodes, State.decisions, State.decisions, h.nodes, h.hist]

/-- The block with the pool and the HIST that Resolve makes (45_cascade.md R263). -/
def State.counted (u : State) (ms : List Node) (X : List Sym) : State := (u.setNodes ms).setHist X

/-- Resolve of the symbol makes the pool `ms`, on every block with the model of `s`. -/
def State.ResolvesTo (s : State) (sym : Sym) (ms : List Node) : Prop :=
  ∀ u, SameCoder s u → u.resolve sym = .done () (u.counted ms (ctxAppend s.cap s.hist sym))

/-- A Resolve that completes is a ModelAdd that completes on the pool. -/
theorem State.poolAdd_of_resolve {s : State} {sym : Sym} {ms : List Node} {X : List Sym}
    (h : s.resolve sym = .done () (s.counted ms X)) :
    poolAdd s.par.nodeCap s.par.countW s.hist sym s.nodes = .done () ms := by
  rw [State.resolve, State.modelAdd] at h
  cases hpool : poolAdd s.par.nodeCap s.par.countW s.hist sym s.nodes with
  | done a ns =>
    rw [hpool] at h
    exact congrArg (Res.done ()) (congrArg (fun x : Res State Unit => x.state.nodes) h)
  | raise f ns => rw [hpool] at h; cases h

/-- Where the symbol can be added, Resolve adds it, alike on every block with the model (44_model.md R222). -/
theorem State.resolvesTo_of_canAdd {s : State} {sym : Sym} (ht : s.TrieOk) (hadd : s.canAdd s.hist sym) :
    ∃ ms, s.ResolvesTo sym ms ∧ AddedTo s.nodes s.hist sym ms := by
  rcases s.resolve_spec ht sym with ⟨-, ms, hrun, hadded, -⟩ | ⟨hnot, -⟩
  · refine ⟨ms, fun u hu => ?_, hadded⟩
    have hpool := State.poolAdd_of_resolve hrun
    have hcap : u.cap = s.cap := congrArg BitVec.toNat hu.maxOrder
    rw [State.resolve, State.modelAdd, hu.par, hu.hist, hu.nodes, hpool, ← hu.hist, ← hcap]
    rfl
  · exact absurd hadd hnot

theorem SameCoder.resolvesTo {s u : State} {sym : Sym} {ms : List Node} (h : SameCoder s u) (hms : s.ResolvesTo sym ms) :
    u.ResolvesTo sym ms := by
  intro v hv
  have hcap : u.cap = s.cap := congrArg BitVec.toNat h.maxOrder
  rw [hcap, h.hist]
  exact hms v (h.trans hv)

/-- Resolve changes nothing of what a cascade leaves for the host. -/
theorem LeftBy.counted {s u : State} {ds : List (List Cand × Nat)} (h : LeftBy s u ds) (ms : List Node) (X : List Sym)
    (rsp : Response) : LeftBy s ((u.counted ms X).answered rsp) ds := ⟨h.wctx, h.list, h.excluded⟩

/-- Resolve changes nothing of what was written. -/
theorem Writes.counted {s u : State} {bs : List Bool} (h : Writes s u bs) (ms : List Node) (X : List Sym) (rsp : Response) :
    Writes s ((u.counted ms X).answered rsp) bs := ⟨h.written, h.waiting, h.bytes⟩

/-- Resolve changes nothing of the reader. -/
theorem Consumes.counted {s u : State} {k : Nat} (h : Consumes s u k) (ms : List Node) (X : List Sym) (rsp : Response) :
    Consumes s ((u.counted ms X).answered rsp) k := ⟨h.remaining, h.position, h.lookahead⟩

theorem EncFrame.sameCoder {s e : State} (h : EncFrame s.cascadeStart e) : SameCoder s e :=
  ⟨⟨(congrArg State.par h :), (congrArg State.nodes h :), (congrArg State.hist h :)⟩, (congrArg State.maxOrder h :)⟩

theorem DecFrame.sameCoder {s d : State} (h : DecFrame s.cascadeStart d) : SameCoder s d :=
  ⟨⟨(congrArg State.par h :), (congrArg State.nodes h :), (congrArg State.hist h :)⟩, (congrArg State.maxOrder h :)⟩

/-! ### ENC_PUT -/

/-- An encoder's cascade writes the bits of its decisions (45_cascade.md R265, R274). -/
theorem Mirrors.writes {target : Option Sym} {dec : State → Res State (Option Sym)} {X excl : List Sym} {g : Goal}
    {s e : State} (M : Mirrors target dec X excl (s.decisions g) s.cascadeStart e) : Writes s e (s.codeBits g) :=
  ⟨M.written, M.wbuf, M.bytes⟩

/-- ENC_PUT is a cascade that completes, then Resolve (45_cascade.md R265). -/
theorem encPut_codes {sym : Sym} {s : State} {ms : List Node} (hs : s.encReady) (hi : s.Inv)
    (hr : suffixesResolve s.nodes s.hist) (hms : s.ResolvesTo sym ms) :
    ∃ e, EncFrame s.cascadeStart e ∧ Writes s e (s.codeBits (.symbol sym)) ∧ LeftBy s e (s.decisions (.symbol sym)) ∧
      exec (.encPut sym) s = .next ((e.counted ms (ctxAppend s.cap s.hist sym)).answered ⟨.ok, 0, 0⟩) := by
  obtain ⟨e, hcascade, M⟩ := start_mirror (some sym) hi hr
  refine ⟨e, M.frame, M.writes, M.leftBy, ?_⟩
  rw [encPut_run sym hs, hcascade, Res.done_andThen, hms e M.frame.sameCoder]
  rfl

/-- Settles O52: the cascade writes and leaves what its decisions say, and Resolve then counts the symbol and appends it. -/
theorem encodePut : Obligations.EncodePut := by
  intro sym s hs hi hr hadd
  obtain ⟨ms, hms, hadded⟩ := State.resolvesTo_of_canAdd hi.trie hadd
  obtain ⟨e, hframe, hwrites, hleft, hrun⟩ := encPut_codes hs hi hr hms
  refine ⟨⟨rfl, rfl, rfl⟩, _, hrun, hwrites.counted _ _ _, hadded, fun hcap => ?zero, fun hcap hlen => ?room,
    fun hcap hlen => ?full, hleft.counted _ _ _, ?frame⟩
  case zero => exact if_pos hcap
  case room => exact ctxAppend_room hcap hlen sym
  case full => exact (ctxAppend_full hcap hlen sym).trans (by rw [List.drop_one])
  case frame => exact congrArg (fun e => (State.counted e ms (ctxAppend s.cap s.hist sym)).answered ⟨.ok, 0, 0⟩) hframe

/-! ### ENC_CLOSE -/

/-- How many bits wait after a write (41_bit_writer.md R160): each group of eight has gone to the sink. -/
theorem Writes.length_wbuf {s t : State} {bs : List Bool} (h : Writes s t bs) :
    t.wbuf.length = (s.wbuf.length + bs.length) % 8 := by
  obtain ⟨hwritten, hwait, l, hl⟩ := h
  rw [State.written, State.written, hl, bytesOf_append, bytesOf_bytes] at hwritten
  have hlen := congrArg List.length hwritten
  simp only [List.length_append, length_flatMap_byteBits] at hlen
  omega

/-- The pad after a write (41_bit_writer.md R162): the bytes sent in both have the bits written, and then the pad's zero bits. -/
theorem Writes.padZero {s e : State} {bs : List Bool} (h : Writes s e bs) :
    ∃ l : List Byte, e.padZero = { e with wbuf := [], snk := s.snk ++ l.map .byte } ∧
      (bytesOf (s.snk ++ l.map .byte)).flatMap byteBits =
        s.written ++ bs ++ List.replicate ((8 - e.wbuf.length) % 8) false := by
  obtain ⟨l, hpad, hbits⟩ := State.padZero_eq h.waiting
  obtain ⟨hwritten, -, l', hl'⟩ := h
  rw [hl', List.append_assoc, ← List.map_append] at hpad
  refine ⟨l' ++ l, hpad, ?_⟩
  rw [← hwritten, State.written, hl', List.map_append, ← List.append_assoc, bytesOf_append, bytesOf_bytes, List.flatMap_append,
    hbits, List.append_assoc]

/-- The block closed at a byte boundary, where its sink held the events `k` (45_cascade.md R267). -/
def State.closedAfter (u : State) (k : List SinkEvent) : State :=
  { u with phase := .closed, wbuf := [], snk := k ++ [.flush, .close] }

/-- Flush and Close are no bits. -/
theorem State.written_closedAfter (u : State) (k : List SinkEvent) :
    (u.closedAfter k).written = (bytesOf k).flatMap byteBits := by
  have hbytes : bytesOf (k ++ [.flush, .close]) = bytesOf k := (bytesOf_append k _).trans (List.append_nil _)
  rw [State.written, State.closedAfter, hbytes]
  exact List.append_nil _

/-- ENC_CLOSE is a closing cascade that completes, then the pad and the closing of the sink (45_cascade.md R267). -/
theorem encClose_codes {s : State} (hs : s.encReady) (hi : s.Inv) (hr : suffixesResolve s.nodes s.hist) :
    ∃ e, ∃ l : List Byte, EncFrame s.cascadeStart e ∧ Writes s e (s.codeBits .endOfStream) ∧
      LeftBy s e (s.decisions .endOfStream) ∧
      (bytesOf (s.snk ++ l.map .byte)).flatMap byteBits =
        s.written ++ s.codeBits .endOfStream ++ List.replicate ((8 - e.wbuf.length) % 8) false ∧
      exec .encClose s = .next ((e.closedAfter (s.snk ++ l.map .byte)).answered
        ⟨.ok, BitVec.ofNat 8 ((8 - e.wbuf.length) % 8), 0⟩) := by
  obtain ⟨e, hcascade, M⟩ := start_mirror none hi hr
  have hwrites : Writes s e (s.codeBits .endOfStream) := M.writes
  obtain ⟨l, hpad, hbits⟩ := hwrites.padZero
  refine ⟨e, l, M.frame, hwrites, M.leftBy, hbits, ?_⟩
  rw [encClose_run hs, hcascade, Res.done_andThen, State.sinkFlush_sinkClose, hpad]
  rfl

/-- Settles O53: the closing cascade, and then the pad, which depends on how many bits wait after the cascade. -/
theorem encodeClose : Obligations.EncodeClose := by
  intro s hs hi hr
  obtain ⟨e, l, hframe, hwrites, hleft, hbits, hrun⟩ := encClose_codes hs hi hr
  rw [← hwrites.length_wbuf]
  exact ⟨⟨rfl, rfl, rfl⟩, _, _, hrun, rfl, rfl, rfl, (e.written_closedAfter _).trans hbits, ⟨l, rfl⟩,
    ⟨hleft.wctx, hleft.list, hleft.excluded⟩,
    congrArg (fun e => (State.closedAfter e (s.snk ++ l.map .byte)).answered _) hframe⟩

/-! ### DEC_GET and DEC_CLOSE -/

/-- DEC_GET over the bits of a cascade towards a symbol follows that cascade, and then resolves the symbol
(45_cascade.md R269). -/
theorem decGet_codes {sym : Sym} {d : State} {ms : List Node} {rest : List Bool} (hs : d.decReady) (hi : d.Inv)
    (h0 : d.eosSeen = false) (hr : suffixesResolve d.nodes d.hist) (hms : d.ResolvesTo sym ms)
    (hrem : d.remaining = d.codeBits (.symbol sym) ++ rest) :
    ∃ v, DecFrame d.cascadeStart v ∧ Consumes d v (d.codeBits (.symbol sym)).length ∧
      LeftBy d v (d.decisions (.symbol sym)) ∧
      exec .decGet d = .next ((v.counted ms (ctxAppend d.cap d.hist sym)).answered ⟨.ok, 8, sym.zeroExtend 56⟩) := by
  obtain ⟨v, hcascade, hframe, hconsumes, hleft⟩ := start_follows (some sym) hi hr hrem
  refine ⟨v, hframe, hconsumes, hleft, ?_⟩
  rw [decGet_run hs h0, hcascade, Res.done_andThen]
  dsimp only
  rw [hms v hframe.sameCoder, zext56_toNat]
  rfl

/-- Settles O54: the encoder with the decoder's model walks the cascade whose bits the decoder follows, and both resolve the
symbol in the one model. -/
theorem decodeGet : Obligations.DecodeGet := by
  intro sym d rest hs hi h0 hr hadd hrem
  obtain ⟨ms, hms, -⟩ := State.resolvesTo_of_canAdd hi.trie hadd
  have hsame : SameCoder d d.asEncoder := ⟨⟨rfl, rfl, rfl⟩, rfl⟩
  obtain ⟨e, -, hwrites, -, hput⟩ := encPut_codes (s := d.asEncoder) ⟨hs.1, rfl⟩ hi.asEncoder hr (hsame.resolvesTo hms)
  obtain ⟨v, hframe, hconsumes, hleft, hget⟩ := decGet_codes hs hi h0 hr hms hrem
  refine ⟨⟨rfl, rfl, rfl⟩, _, _, hput, ?written, hget, hconsumes.counted _ _ _, (hconsumes.counted _ _ _).rest hrem, rfl, rfl,
    hleft.counted _ _ _, ?frame⟩
  case written => exact hwrites.written.trans (hsame.codeBits _)
  case frame =>
    exact congrArg (fun v => (State.counted v ms (ctxAppend d.cap d.hist sym)).answered ⟨.ok, 8, sym.zeroExtend 56⟩) hframe

/-- DEC_GET after the end of the stream (45_cascade.md R270). -/
theorem decGet_ended {d : State} (hs : d.decReady) (h1 : d.eosSeen = true) :
    exec .decGet d = .next (d.answered ⟨.endOfStream, 0, 0⟩) := by
  dsimp only [exec, execDecGet]
  rw [hs.run rfl, if_pos h1]
  rfl

/-- Settles O55: the closing cascade is followed to its end and nothing is resolved. -/
theorem decodeEnd : Obligations.DecodeEnd := by
  refine ⟨fun d rest hs hi h0 hr hrem => ?_, fun d hs h1 => decGet_ended hs h1⟩
  obtain ⟨v, hcascade, hframe, hconsumes, hleft⟩ := start_follows none hi hr hrem
  have hrun : exec .decGet d = .next (v.setEosSeen.answered ⟨.endOfStream, 0, 0⟩) := by
    rw [decGet_run hs h0, hcascade, Res.done_andThen]
    rfl
  exact ⟨_, hrun, ⟨hconsumes.remaining, hconsumes.position, hconsumes.lookahead⟩, hconsumes.rest hrem,
    ⟨hleft.wctx, hleft.list, hleft.excluded⟩,
    congrArg (fun v => (State.setEosSeen v).answered ⟨.endOfStream, 0, 0⟩) hframe⟩

/-- Settles O57: DEC_CLOSE changes the phase and answers. -/
theorem decodeClose : Obligations.DecodeClose := by
  refine ⟨⟨rfl, rfl, rfl⟩, fun s hs => ?_⟩
  dsimp only [exec, execDecClose]
  exact hs.run rfl

/-! ### Where a codec command stops -/

/-- A command that only one direction allows, where it is allowed. -/
theorem dir_of_allows {d d' : Dir} (h : (DirNeed.only d).allows d' = true) : d' = d := (beq_iff_eq.1 h).symm

/-- A cascade that meets first a context the trie does not hold ends its command with F_PROTOCOL (45_cascade.md R262). -/
theorem finish_unseen {α : Type} {D : State → Res State (Option α)} {U : State → Res State α} {s : State}
    (h : pathNode s.nodes s.hist = none) (k : α → State → Res State Response) (opc : BitVec 8) :
    ((cascade D U s.cascadeStart.wctx s.cascadeStart).andThen k).finish opc =
      (s.cascadeStart.setList [] true).takeFault .protocol opc := by
  rw [cascade_unseen (s := s.cascadeStart) h]
  rfl

/-- The three codec commands at a HIST that leads to no node (45_cascade.md R262). -/
theorem codec_unseen {i : Instr} {s : State} (hp : s.phase = .ready) (hd : i.dirNeed.allows s.dir = true)
    (h : pathNode s.nodes s.hist = none)
    (hi : (∃ sym, i = .encPut sym) ∨ i = .encClose ∨ (i = .decGet ∧ s.eosSeen = false)) :
    exec i s = .next ((s.cascadeStart.setList [] true).takeFault .protocol i.opcode) := by
  rcases hi with ⟨sym, rfl⟩ | rfl | ⟨rfl, h0⟩
  · exact (encPut_run sym ⟨hp, dir_of_allows hd⟩).trans (congrArg _ (finish_unseen h _ _))
  · exact (encClose_run ⟨hp, dir_of_allows hd⟩).trans (congrArg _ (finish_unseen h _ _))
  · exact (decGet_run ⟨hp, dir_of_allows hd⟩ h0).trans (congrArg _ (finish_unseen h _ _))

/-- A DEC_GET whose cascade raises a fault takes it (45_cascade.md R269, 60_exceptions.md R330). -/
theorem decGet_raises {s v : State} {f : FaultKind} (hs : s.decReady) (h0 : s.eosSeen = false)
    (h : cascade decodeLevel decodeUniform s.cascadeStart.wctx s.cascadeStart = .raise f v)
    (hframe : DecFrame s.cascadeStart v) :
    ∃ t, exec .decGet s = .next t ∧ t.phase = .faulted ∧ t.fcode = f.code ∧ t.fcmd = 0x82 ∧
      t.rsps = s.rsps ++ [⟨.fault f, 0, 0⟩] := by
  have hrsps : v.rsps = s.rsps := (congrArg State.rsps hframe :)
  refine ⟨v.takeFault f 0x82, ?_, rfl, rfl, rfl, by rw [← hrsps]; rfl⟩
  rw [decGet_run hs h0, h]
  rfl

/-- Settles O56: a cascade stops before its first decision, at ESC at the uniform level, or where the bits end. -/
theorem unseenContextFaults : Obligations.UnseenContextFaults := by
  refine ⟨fun i s hp hd h hi => ⟨_, codec_unseen hp hd h hi, rfl, rfl, rfl, rfl, rfl⟩, fun s hs hi h0 hr => ⟨?escape, ?short⟩⟩
  case escape =>
    rintro ⟨rest, hrest⟩
    obtain ⟨v, hcascade, hframe⟩ := (start_stops .escape hi hr).protocol rest rfl hrest.symm
    exact decGet_raises hs h0 hcascade hframe
  case short =>
    intro g b bs hbits
    obtain ⟨v, hcascade, hframe⟩ := (start_stops g hi hr).truncated b bs hbits
    exact decGet_raises hs h0 hcascade hframe

/-! ### The round trip -/

/-- A decoder before its end that holds what the encoder `e` holds (44_model.md R239, 45_cascade.md R273). -/
structure InStep (e d : State) : Prop where
  ready : d.decReady
  inv : d.Inv
  notEnded : d.eosSeen = false
  coder : SameCoder e d

/-- What decoding a whole stream of the symbols `S` answers: each symbol, and then the end (45_cascade.md R273). -/
def streamAnswers (S : List Sym) : List Response := S.map (fun sym => ⟨.ok, 8, sym.zeroExtend 56⟩) ++ [⟨.endOfStream, 0, 0⟩]

/-- From `e` to `f` a stream of the symbols `S` was coded and closed: it added the bits `bits` to the sink, up to a byte
boundary, and a decoder in step with `e` over them decodes `S` and the end. -/
structure Coded (e f : State) (S : List Sym) (bits : List Bool) : Prop where
  aligned : f.wbuf = []
  written : f.written = e.written ++ bits
  sink : e.snk <+: f.snk
  decoded : ∀ d rest, InStep e d → d.remaining = bits ++ rest →
    (d.after (List.replicate (S.length + 1) .decGet)).rsps = d.rsps ++ streamAnswers S

/-- ENC_CLOSE codes the stream of no symbols: the pad after the closing cascade is not read (45_cascade.md R267, R269). -/
theorem Coded.of_encClose {e : State} (hs : e.encReady) (hi : e.Inv) (hr : suffixesResolve e.nodes e.hist) :
    ∃ bits, Coded e (e.after [.encClose]) [] bits := by
  obtain ⟨-, f, pad, hrun, -, haligned, -, hwritten, ⟨l, hsnk⟩, -⟩ := encodeClose e hs hi hr
  rw [State.after_cons hrun, State.after]
  rw [List.append_assoc] at hwritten hsnk
  refine ⟨_, haligned, hwritten, ⟨_, hsnk.symm⟩, fun d rest hd hrem => ?_⟩
  rw [← hd.coder.codeBits, List.append_assoc] at hrem
  obtain ⟨t, hget, -, -, -, ht⟩ := decodeEnd.1 d _ hd.ready hd.inv hd.notEnded (hd.coder.resolves hr) hrem
  rw [List.length_nil, List.replicate_one, State.after_cons hget, State.after, ht]
  rfl

/-- A decoder in step with an encoder answers the symbol of an ENC_PUT, and both are then in step before what follows
(45_cascade.md R273). -/
theorem InStep.decGet {e d : State} {sym : Sym} {ms : List Node} {rest : List Bool} (h : InStep e d)
    (hr : suffixesResolve e.nodes e.hist) (hms : e.ResolvesTo sym ms)
    (hrem : d.remaining = e.codeBits (.symbol sym) ++ rest) {u : State} (hu : EncFrame e.cascadeStart u) (rsp : Response) :
    ∃ t, exec .decGet d = .next t ∧ t.rsps = d.rsps ++ [⟨.ok, 8, sym.zeroExtend 56⟩] ∧ t.remaining = rest ∧
      InStep ((u.counted ms (ctxAppend e.cap e.hist sym)).answered rsp) t := by
  rw [← h.coder.codeBits] at hrem
  obtain ⟨v, hframe, hconsumes, -, hget⟩ :=
    decGet_codes h.ready h.inv h.notEnded (h.coder.resolves hr) (h.coder.resolvesTo hms) hrem
  have hcap : d.cap = e.cap := congrArg BitVec.toNat h.coder.maxOrder
  have huv : SameCoder e v := h.coder.trans hframe.sameCoder
  have hue : SameCoder e u := hu.sameCoder
  have hrsps : v.rsps = d.rsps := (congrArg State.rsps hframe :)
  have hphase : v.phase = d.phase := (congrArg State.phase hframe :)
  have hdir : v.dir = d.dir := (congrArg State.dir hframe :)
  have heos : v.eosSeen = d.eosSeen := (congrArg State.eosSeen hframe :)
  rw [hcap, h.coder.hist] at hget
  refine ⟨_, hget, congrArg (· ++ _) hrsps, (hconsumes.counted _ _ _).rest hrem,
    ⟨hphase.trans h.ready.1, hdir.trans h.ready.2⟩, h.inv.exec hget, heos.trans h.notEnded,
    ⟨huv.par.trans hue.par.symm, rfl, rfl⟩, huv.maxOrder.trans hue.maxOrder.symm⟩

/-- ENC_PUT that completes before a coded stream makes the stream with its symbol first. -/
theorem Coded.of_encPut {e : State} {sym : Sym} (hs : e.encReady) (hi : e.Inv)
    (hr : suffixesResolve e.nodes e.hist) (hadd : e.canAdd e.hist sym) :
    ∃ t, exec (.encPut sym) e = .next t ∧ t.encReady ∧ t.Inv ∧ suffixesResolve t.nodes t.hist ∧
      ∀ {f S bits}, Coded t f S bits → Coded e f (sym :: S) (e.codeBits (.symbol sym) ++ bits) := by
  obtain ⟨ms, hms, hadded⟩ := State.resolvesTo_of_canAdd hi.trie hadd
  obtain ⟨u, hframe, hwrites, -, hput⟩ := encPut_codes hs hi hr hms
  have hphase : u.phase = e.phase := (congrArg State.phase hframe :)
  have hdir : u.dir = e.dir := (congrArg State.dir hframe :)
  refine ⟨_, hput, ⟨hphase.trans hs.1, hdir.trans hs.2⟩, hi.exec hput, hadded.suffixesResolve e.cap hr, fun hc => ?_⟩
  obtain ⟨haligned, hwritten, hsink, hdecoded⟩ := hc
  obtain ⟨hcoded, -, l, hl⟩ := hwrites.counted ms (ctxAppend e.cap e.hist sym) ⟨.ok, 0, 0⟩
  refine ⟨haligned, by rw [hwritten, hcoded, List.append_assoc], List.IsPrefix.trans ⟨_, hl.symm⟩ hsink,
    fun d rest hd hrem => ?_⟩
  rw [List.append_assoc] at hrem
  obtain ⟨t, hget, hrsps, hrest, hstep⟩ := hd.decGet hr hms hrem hframe ⟨.ok, 0, 0⟩
  rw [List.length_cons, List.replicate_succ, State.after_cons hget, hdecoded t rest hstep hrest, hrsps, List.append_assoc]
  rfl

/-- A faulted block refuses every word but INIT and GET_STATUS, and stays faulted (60_exceptions.md R333, R341). -/
theorem after_faulted {is : List Instr} {s : State} (hs : s.phase = .faulted)
    (his : ∀ i ∈ is, (∀ d m, i ≠ .init d m) ∧ ∀ p, i ≠ .getStatus p) : (s.after is).phase = .faulted := by
  induction is generalizing s with
  | nil => exact hs
  | cons i is ih =>
    obtain ⟨⟨hinit, hstatus⟩, hrest⟩ := List.forall_mem_cons.1 his
    obtain ⟨body, hbody⟩ := exec_command i s hinit hstatus
    have hrun := hbody.trans (command_refused body (st := .refusedFaulted) (by rw [hs]; rfl))
    rw [State.after_cons hrun]
    exact ih (s := s.respond _) hs hrest

/-- The commands of an encoder's run after INIT (45_cascade.md R273). -/
def encoderRun (S : List Sym) : List Instr := S.map .encPut ++ [.encClose]

theorem encoderRun_codec {S : List Sym} {i : Instr} (h : i ∈ encoderRun S) :
    (∀ d m, i ≠ .init d m) ∧ ∀ p, i ≠ .getStatus p := by
  rcases List.mem_append.1 h with hput | hclose
  · obtain ⟨sym, -, rfl⟩ := List.mem_map.1 hput
    exact ⟨nofun, nofun⟩
  · cases List.mem_singleton.1 hclose
    exact ⟨nofun, nofun⟩

/-- An encoder's run that ends CLOSED has coded its symbols: an ENC_PUT that cannot add its symbol would have left the block
faulted for good. -/
theorem coded_of_closed (S : List Sym) {e : State} (hs : e.encReady) (hi : e.Inv) (hr : suffixesResolve e.nodes e.hist)
    (hclosed : (e.after (encoderRun S)).phase = .closed) : ∃ bits, Coded e (e.after (encoderRun S)) S bits := by
  induction S generalizing e with
  | nil => exact Coded.of_encClose hs hi hr
  | cons sym S ih =>
    have hrun : encoderRun (sym :: S) = .encPut sym :: encoderRun S := rfl
    rw [hrun] at hclosed ⊢
    by_cases hadd : e.canAdd e.hist sym
    · obtain ⟨t, hput, hready, hinv, hresolve, hcons⟩ := Coded.of_encPut hs hi hr hadd
      rw [State.after_cons hput] at hclosed ⊢
      obtain ⟨bits, hcoded⟩ := ih hready hinv hresolve hclosed
      exact ⟨_, hcons hcoded⟩
    · obtain ⟨t, hput, hfaulted, -⟩ := encPut_stops hs hi hr hadd
      rw [State.after_cons hput, after_faulted hfaulted fun _ => encoderRun_codec] at hclosed
      cases hclosed

/-- The bytes a coded stream adds to the sink of an encoder at a byte boundary have its bits. -/
theorem Coded.bytes_added {e f : State} {S : List Sym} {bits : List Bool} (h : Coded e f S bits) (he : e.wbuf = []) :
    (bytesOf (f.snk.drop e.snk.length)).flatMap byteBits = bits := by
  obtain ⟨haligned, hwritten, ⟨events, hsnk⟩, -⟩ := h
  rw [State.written, State.written, he, haligned, ← hsnk, bytesOf_append, List.flatMap_append, List.append_nil,
    List.append_nil] at hwritten
  rw [← hsnk, List.drop_left]
  exact List.append_cancel_left hwritten

/-- The blocks after INIT of an encoder and of a decoder with the same parameters and order are in step. -/
theorem inStep_init {s d : State} {m : Wide} (hlegal : s.par.Legal) (hpar : d.par = s.par) (hm : m.toNat ≤ s.par.orderCap)
    (rsp : Response) : InStep ((s.initialise .enc m).answered rsp) ((d.initialise .dec m).answered rsp) :=
  ⟨⟨rfl, rfl⟩, (initialise_inv d .dec m (hpar ▸ hlegal) (hpar ▸ hm)).same rfl, rfl, ⟨hpar, rfl, rfl⟩, rfl⟩

/-- Settles O58: the decoder starts in step with the encoder, over the bits of the stream that the encoder's run coded. -/
theorem roundTrip : Obligations.RoundTrip := by
  intro s d m S hlegal hpar hm hclosed hsrc
  rw [List.cons_append, State.after_cons (init_run .enc hm)] at hclosed hsrc
  obtain ⟨bits, hcoded⟩ := coded_of_closed S (e := (s.initialise .enc m).answered ⟨.ok, 0, 0⟩) ⟨rfl, rfl⟩
    ((initialise_inv s .enc m hlegal hm).same rfl) suffixesResolve_root hclosed
  have hbits : d.nextSrc.flatMap byteBits = bits := by
    rw [hsrc]
    exact hcoded.bytes_added rfl
  rw [State.after_cons (init_run .dec (by rw [hpar]; exact hm)),
    hcoded.decoded ((d.initialise .dec m).answered ⟨.ok, 0, 0⟩) [] (inStep_init hlegal hpar hm _)
      (hbits.trans (List.append_nil bits).symm)]
  simp only [State.answered, streamAnswers, List.append_assoc]
  rfl

end Sys2Proof.Machine
end

section
/-! The Huffman decision coder statements (46_huffman.md): the paths of a list's tree, what HF_ENCODE writes, what HF_DECODE
reads, and that the one reads what the other wrote. -/

namespace Sys2Proof.Machine

/-! ### The paths -/

/-- Settles O47: the trees of eleven weight sequences, built and read. -/
theorem pathTable : Obligations.PathTable := ⟨rfl, rfl, rfl, rfl, rfl, rfl, rfl, rfl, rfl, rfl, rfl⟩

/-- One candidate has the empty path (46_huffman.md R293). -/
theorem State.huffPath_singleton {s : State} (h : s.cl.length = 1) : s.huffPath 0 = [] := by
  obtain ⟨-, -, -, hshort, -⟩ := State.huffPath_spec (s := s) (i := 0) (by omega)
  exact List.eq_nil_of_length_eq_zero (by omega)

/-- Of two candidates or more every path has 1 to L - 1 bits (46_huffman.md R293). -/
theorem State.length_huffPath {s : State} (h : 2 ≤ s.cl.length) {i : Nat} (hi : i < s.cl.length) :
    1 ≤ (s.huffPath i).length ∧ (s.huffPath i).length ≤ s.cl.length - 1 := by
  obtain ⟨-, -, -, hshort, hpos⟩ := State.huffPath_spec hi
  exact ⟨hpos h, by omega⟩

/-- No path of a list is the beginning of another's (46_huffman.md R293). -/
theorem State.huffPath_prefixFree {s : State} {i j : Nat} (hi : i < s.cl.length) (hj : j < s.cl.length)
    (h : s.huffPath i <+: s.huffPath j) : i = j := by
  obtain ⟨t, ht, hpath, -, -⟩ := State.huffPath_spec hi
  obtain ⟨t', ht', hpath', -, -⟩ := State.huffPath_spec hj
  obtain rfl : t = t' := Option.some.inj (ht.symm.trans ht')
  exact HTree.path_unique hpath hpath' h

/-- The paths of a list lead to the leaves of the one tree of its merges (46_huffman.md R291, R294). -/
theorem State.huffPath_leads {s : State} (h : s.cl ≠ []) :
    ∃ t, IsTreeOf (s.cl.map s.weight) t ∧ ∀ i < s.cl.length, t.follow (s.huffPath i) = some (.leaf i) := by
  obtain ⟨t, hbuild, htree⟩ := huffBuild_isTreeOf (ws := s.cl.map s.weight) (mt List.map_eq_nil_iff.1 h)
  refine ⟨t, htree, fun i hi => ?_⟩
  obtain ⟨t', ht', hpath, -, -⟩ := State.huffPath_spec hi
  obtain rfl : t = t' := Option.some.inj (hbuild.symm.trans ht')
  exact HTree.follow_path hpath

/-- Settles O48: the lengths and the prefix freedom of the paths, and the one tree they are read in. -/
theorem pathShape : Obligations.PathShape := fun _ =>
  ⟨State.huffPath_singleton, fun h _ hi => State.length_huffPath h hi, fun _ hi _ hj => State.huffPath_prefixFree hi hj,
    State.huffPath_leads⟩

/-! ### HF_ENCODE -/

section
variable {s : State} {idx : BitVec 9}

/-- HF_ENCODE above the list (46_huffman.md R297). -/
theorem hfEncode_outOfRange (hs : s.encReady) (h : s.cl.length ≤ idx.toNat) :
    exec (.hfEncode idx) s = .next (s.faultedBy .outOfRange 0x70) := by
  dsimp only [exec, execHfEncode]
  rw [hs.run rfl, if_pos (show s.cllen ≤ idx.toNat from h)]
  rfl

/-- HF_ENCODE of a candidate puts its path and answers the path's length (46_huffman.md R295, R297). -/
theorem hfEncode_run (hs : s.encReady) (h : idx.toNat < s.cl.length) :
    exec (.hfEncode idx) s = .next ((s.put (s.huffPath idx.toNat)).answered
      ⟨.ok, 0, BitVec.ofNat 56 (s.huffPath idx.toNat).length⟩) := by
  dsimp only [exec, execHfEncode]
  rw [hs.run rfl, if_neg (show ¬ s.cllen ≤ idx.toNat from Nat.not_le.2 h)]
  rfl

end

/-- Settles O49: the index is checked, and the bits put are the path. -/
theorem huffEncodes : Obligations.HuffEncodes := fun _ _ hs hw =>
  ⟨⟨rfl, rfl, rfl⟩, hfEncode_outOfRange hs, fun h => writes_of_put hw (hfEncode_run hs h)⟩

/-! ### HF_DECODE -/

section
variable {s : State}

/-- HF_DECODE over no candidates (46_huffman.md R299). -/
theorem hfDecode_empty (hs : s.decReady) (h : s.cl = []) : exec .hfDecode s = .next (s.faultedBy .illegalState 0x71) := by
  have hlen : s.cllen = 0 := congrArg List.length h
  dsimp only [exec, execHfDecode]
  rw [hs.run rfl, if_pos hlen]
  rfl

/-- HF_DECODE over a list that is not empty is HuffDecode, and the answer is the kind and the index of what it returns
(46_huffman.md R299). -/
theorem hfDecode_run (hs : s.decReady) {i : Nat} (h : i < s.cl.length) :
    exec .hfDecode s = .next ((s.huffDecode.andThen fun i t =>
      .done (okRsp (((t.cand i).map Cand.kind).getD 0) (zext56 i)) t).finish 0x71) := by
  have hlen : s.cllen ≠ 0 := Nat.ne_zero_of_lt h
  dsimp only [exec, execHfDecode]
  rw [hs.run rfl, if_neg hlen]
  rfl

/-- A response changes nothing of what was consumed. -/
theorem Consumes.answered {s t : State} {k : Nat} (h : Consumes s t k) (rsp : Response) : Consumes s (t.answered rsp) k :=
  ⟨h.remaining, h.position, h.lookahead⟩

/-- HF_DECODE where the bits that remain begin with a candidate's path (46_huffman.md R298, R299). -/
theorem hfDecode_path (hs : s.decReady) {i : Nat} {e : Cand} {rest : List Bool} (he : s.cl[i]? = some e)
    (hr : s.remaining = s.huffPath i ++ rest) :
    ∃ t, exec .hfDecode s = .next t ∧ OnlyReader s t ⟨.ok, BitVec.ofNat 8 e.kind, BitVec.ofNat 56 i⟩ ∧
      Consumes s t (s.huffPath i).length ∧ t.remaining = rest := by
  obtain ⟨hi, -⟩ := List.getElem?_eq_some_iff.1 he
  obtain ⟨r, hdecode, hcons⟩ := State.huffDecode_path hi hr
  have hcand : (s.setReader r).cand i = some e := he
  have hx := hfDecode_run hs hi
  rw [hdecode, Res.done_andThen, hcand, Res.finish_done] at hx
  exact ⟨_, hx, rfl, hcons.answered _, (hcons.answered _).rest hr⟩

/-- HF_DECODE where the bits end inside a candidate's path (46_huffman.md R298). -/
theorem hfDecode_truncated (hs : s.decReady) {i : Nat} (hi : i < s.cl.length) {b : Bool} {bs : List Bool}
    (hr : s.huffPath i = s.remaining ++ b :: bs) :
    ∃ t, exec .hfDecode s = .next t ∧ t.phase = .faulted ∧ t.fcode = 0x84 ∧ t.fcmd = 0x71 := by
  obtain ⟨r, hdecode⟩ := State.huffDecode_short hi hr
  have hx := hfDecode_run hs hi
  rw [hdecode, Res.raise_andThen, Res.finish_raise] at hx
  exact ⟨_, hx, rfl, rfl, rfl⟩

end

/-- Settles O50: the list is checked, and the walk follows the bits to a leaf or to their end. -/
theorem huffDecodes : Obligations.HuffDecodes :=
  ⟨⟨rfl, rfl, rfl⟩, fun _ hs => ⟨hfDecode_empty hs, fun _ _ _ he hr => hfDecode_path hs he hr,
    fun _ _ _ hi hr => hfDecode_truncated hs hi hr⟩⟩

/-! ### The mirror -/

/-- Blocks with the same list and the same trie have the same paths (46_huffman.md R300). -/
theorem State.huffPath_congr {s t : State} (hcl : t.cl = s.cl) (hnodes : t.nodes = s.nodes) (i : Nat) :
    t.huffPath i = s.huffPath i :=
  calc
    t.huffPath i = t.pathIn s.cl i := State.huffPath_eq hcl i
    _ = s.pathIn s.cl i := State.pathIn_congr hnodes s.cl i
    _ = s.huffPath i := (State.huffPath_eq rfl i).symm

/-- Settles O51: HF_ENCODE writes the candidate's path in the encoder's tree, which is the path that HF_DECODE follows in the
decoder's. -/
theorem mirror : Obligations.Mirror := by
  intro e d idx rest he hw hidx hd hcl hnodes
  obtain ⟨-, -, hencode⟩ := huffEncodes idx e he hw
  obtain ⟨t, ht, -, hwrites⟩ := hencode hidx
  refine ⟨t, e.huffPath idx.toNat, ht, hwrites.written, fun hr => ?_⟩
  have hpath : d.huffPath idx.toNat = e.huffPath idx.toNat := State.huffPath_congr hcl hnodes _
  have hcand : d.cl[idx.toNat]? = some e.cl[idx.toNat] := by rw [hcl, List.getElem?_eq_getElem hidx]
  rw [← hpath] at hr ⊢
  obtain ⟨-, hdecode⟩ := huffDecodes
  obtain ⟨-, hfollow, -⟩ := hdecode d hd
  obtain ⟨u, hu, honly, hcons, hrest⟩ := hfollow _ _ rest hcand hr
  exact ⟨u, _, hu, honly, hcons, hrest⟩

end Sys2Proof.Machine
end

section
/-! The system statements (47_system.md): what INIT gives every element and when it refuses, and the fields of STATUS as GET_STATUS
reads them. -/

namespace Sys2Proof.Machine

/-! ### INIT -/

/-- INIT above the cap (47_system.md R310, 60_exceptions.md R342). -/
theorem init_badConfig {m : Wide} {s : State} (d : Dir) (hm : s.par.orderCap < m.toNat) :
    exec (.init d m) s = .next (s.answered ⟨.badConfig, 0, 0⟩) := by
  dsimp only [exec, execInit]
  rw [if_pos hm]
  rfl

/-- Settles O59: within the cap the state after INIT is that of R45's table, whose root has a free symbol; above it INIT is
refused. -/
theorem init : Obligations.Init := fun d _ _ =>
  ⟨⟨rfl, rfl, rfl⟩, fun hm => ⟨Config.rootSym, init_run d hm⟩, init_badConfig d⟩

/-! ### The fields of STATUS -/

/-- Where the flags stand in STATUS bits 6 to 3 (10_state.md R23). -/
theorem State.flagBits_getLsbD (s : State) :
    s.flagBits.getLsbD 0 = s.eosSeen ∧ s.flagBits.getLsbD 1 = s.aligned ∧ s.flagBits.getLsbD 2 = s.mark.isSome ∧
      s.flagBits.getLsbD 3 = s.clnull := by
  simp only [State.flagBits, State.mvalid, BitVec.getLsbD_append, BitVec.getLsbD_ofBool]
  exact ⟨rfl, rfl, rfl, rfl⟩

/-- `ALIGNED` looks at the buffer of the run's direction (10_state.md R22). -/
theorem State.aligned_iff (s : State) :
    s.aligned = true ↔ (s.dir = .enc ∧ s.wbuf = []) ∨ (s.dir = .dec ∧ s.rbuf.length % 8 = 0) := by
  unfold State.aligned
  cases s.dir with
  | enc => simp [State.writerAligned, State.wcnt]
  | dec => simp [State.readerAligned, State.rcnt]

/-- The code of a direction is 1 for `DEC` alone (10_state.md R25). -/
theorem dirCode_getLsbD (d : Dir) : (dirCode d).getLsbD 0 = true ↔ d = .dec := by cases d <;> decide

section
variable (s : State)

/-- STATUS bits 1 to 0 are `PHASE` (10_state.md R23). -/
theorem State.statusWord_phase : s.statusWord.extractLsb' 0 2 = s.phase.code :=
  BitVec.extractLsb'_append_eq_right

/-- STATUS bit 2 (10_state.md R23). -/
theorem State.statusWord_dir : s.statusWord.getLsbD 2 = s.statusDir.getLsbD 0 := by
  simp only [State.statusWord, BitVec.getLsbD_append]
  rfl

/-- STATUS bits 6 to 3 (10_state.md R23). -/
theorem State.statusWord_flag {i : Nat} (hi : i < 4) : s.statusWord.getLsbD (3 + i) = s.statusFlags.getLsbD i := by
  have habove : ¬ 3 + i < 2 ∧ ¬ 3 + i - 2 < 1 := by omega
  have hflag : 3 + i - 2 - 1 = i := by omega
  simp only [State.statusWord, BitVec.getLsbD_append, habove, hflag, hi, if_true, if_false]

/-- STATUS bit 7 is reserved (10_state.md R23). -/
theorem State.statusWord_reserved : s.statusWord.getLsbD 7 = false := by
  simp only [State.statusWord, BitVec.getLsbD_append]
  rfl

/-- STATUS bits 15 to 8 are `FCODE` (10_state.md R23). -/
theorem State.statusWord_fcode : s.statusWord.extractLsb' 8 8 = s.fcode := by
  simp (disch := decide) only [State.statusWord, BitVec.extractLsb'_append_eq_of_le, Nat.reduceSub,
    BitVec.extractLsb'_append_eq_right]

/-- STATUS bits 23 to 16 are `FCMD` (10_state.md R23). -/
theorem State.statusWord_fcmd : s.statusWord.extractLsb' 16 8 = s.fcmd := by
  simp (disch := decide) only [State.statusWord, BitVec.extractLsb'_append_eq_of_le, Nat.reduceSub,
    BitVec.extractLsb'_append_eq_right]

/-- STATUS bits 55 to 24 are reserved (10_state.md R23). -/
theorem State.statusWord_high : s.statusWord.extractLsb' 24 32 = 0 := by
  simp (disch := decide) only [State.statusWord, BitVec.extractLsb'_append_eq_of_le, Nat.reduceSub,
    BitVec.extractLsb'_eq_self]

end

section
variable {s : State}

/-- STATUS bit 2 is `DIR` once a run has been configured (10_state.md R23). -/
theorem State.statusWord_dir_iff (h : s.phase ≠ .unconf) : s.statusWord.getLsbD 2 = true ↔ s.dir = .dec := by
  have hdir : s.statusDir = dirCode s.dir := by
    unfold State.statusDir
    cases hp : s.phase with
    | unconf => exact absurd hp h
    | ready | closed | faulted => rfl
  rw [State.statusWord_dir, hdir, dirCode_getLsbD]

/-- STATUS bits 6 to 3 are the flags in `READY` and in `CLOSED` (10_state.md R23). -/
theorem State.statusFlags_specified (h : s.phase = .ready ∨ s.phase = .closed) : s.statusFlags = s.flagBits := by
  unfold State.statusFlags
  rcases h with h | h <;> rw [h]

/-- The four flags as STATUS holds them in `READY` and in `CLOSED` (10_state.md R22, R23). -/
theorem State.statusWord_flags (h : s.phase = .ready ∨ s.phase = .closed) :
    s.statusWord.getLsbD 3 = s.eosSeen ∧
      (s.statusWord.getLsbD 4 = true ↔ (s.dir = .enc ∧ s.wbuf = []) ∨ (s.dir = .dec ∧ s.rbuf.length % 8 = 0)) ∧
      s.statusWord.getLsbD 5 = s.mark.isSome ∧ s.statusWord.getLsbD 6 = s.clnull := by
  obtain ⟨heos, haligned, hmark, hclnull⟩ := s.flagBits_getLsbD
  have hbit {i : Nat} (hi : i < 4) : s.statusWord.getLsbD (3 + i) = s.flagBits.getLsbD i := by
    rw [State.statusWord_flag s hi, State.statusFlags_specified h]
  refine ⟨(hbit (by decide)).trans heos, ?_, (hbit (by decide)).trans hmark, (hbit (by decide)).trans hclnull⟩
  rw [← State.aligned_iff, ← haligned, ← hbit (by decide)]

/-- Page 1 is `MAXORDER` once a run has been configured (47_system.md R312). -/
theorem State.maxOrderPage_configured (h : s.phase ≠ .unconf) : s.maxOrderPage = s.maxOrder := by
  unfold State.maxOrderPage
  cases hp : s.phase with
  | unconf => exact absurd hp h
  | ready | closed | faulted => rfl

end

/-! ### GET_STATUS -/

/-- What GET_STATUS answers for a page (47_system.md R312). -/
def State.page (s : State) : Page → Wide
  | .status => s.statusWord
  | .maxOrder => s.maxOrderPage

/-- GET_STATUS answers its page, and may draw a free value (47_system.md R312). -/
theorem getStatus_run (p : Page) (s : State) :
    ∃ t, exec (.getStatus p) s = .next t ∧ t = { s with free := t.free, rsps := s.rsps ++ [⟨.ok, 0, s.page p⟩] } := by
  cases p with
  | status =>
    refine ⟨_, rfl, ?_⟩
    split <;> rfl
  | maxOrder =>
    refine ⟨_, rfl, ?_⟩
    split <;> rfl

/-- Settles O60: GET_STATUS answers the page's word, whose fields are those of R23. -/
theorem getStatus : Obligations.GetStatus := by
  intro s
  obtain ⟨t, hrun, hframe⟩ := getStatus_run .status s
  obtain ⟨u, hrun', hframe'⟩ := getStatus_run .maxOrder s
  refine ⟨fun _ => ⟨rfl, rfl, rfl⟩,
    ⟨t, _, hrun, hframe, ?phase, State.statusWord_dir_iff, State.statusWord_flags, s.statusWord_reserved, s.statusWord_fcode,
      s.statusWord_fcmd, s.statusWord_high⟩,
    u, _, hrun', hframe', State.maxOrderPage_configured⟩
  case phase =>
    refine s.statusWord_phase.trans ?_
    cases s.phase <;> rfl

end Sys2Proof.Machine
end

section
/-! The phase and fault statements (60_exceptions.md): the status codes, refusals outside READY, one response to every word and the
phase it leaves, and how a block enters and leaves FAULTED. -/

namespace Sys2Proof.Machine

/-! ### Status codes -/

/-- Bit 7 of a fault's code is 1, bit 6 is 0 (60_exceptions.md R321). -/
theorem FaultKind.code_classBits (f : FaultKind) : f.code.getLsbD 7 = true ∧ f.code.getLsbD 6 = false := by
  cases f <;> exact ⟨rfl, rfl⟩

theorem Status.isFault_iff {st : Status} : st.isFault = true ↔ ∃ f, st = .fault f := by
  cases st <;> simp [Status.isFault]

/-- Bit 7 of a status code is the class of faults (60_exceptions.md R321). -/
theorem Status.code_faultBit (st : Status) : st.code.getLsbD 7 = st.isFault := by
  cases st with
  | fault f => exact f.code_classBits.1
  | ok | endOfData | endOfStream | notFound | refusedUnconf | refusedClosed | refusedFaulted | badConfig => rfl

/-- The statuses of a refusal, BAD_CONFIG among them (60_exceptions.md R320, class 3). -/
abbrev refusals : List Status := [.refusedUnconf, .refusedClosed, .refusedFaulted, .badConfig]

/-- Bit 6 of a status code is the class of refusals (60_exceptions.md R321). -/
theorem Status.code_refusalBit (st : Status) : st.code.getLsbD 6 = true ↔ st ∈ refusals := by
  cases st with
  | fault f =>
    obtain ⟨-, hbit⟩ := f.code_classBits
    exact iff_of_false (fun h => by cases hbit.symm.trans h) (by simp)
  | ok | endOfData | endOfStream | notFound | refusedUnconf | refusedClosed | refusedFaulted | badConfig => decide

/-- Settles O13: bit 7 is the class of faults and bit 6 that of refusals. -/
theorem statusCodes : Obligations.StatusCodes := by
  refine ⟨rfl, rfl, rfl, rfl, rfl, rfl, rfl, rfl, rfl, rfl, rfl, rfl, rfl, rfl, rfl, fun st => ⟨?_, st.code_refusalBit⟩⟩
  rw [st.code_faultBit, Status.isFault_iff]

/-! ### Refusals outside READY -/

/-- A command other than INIT and GET_STATUS is refused by the phase (60_exceptions.md R341). -/
theorem exec_refused {i : Instr} {s : State} {st : Status} (hi : ∀ d m, i ≠ .init d m) (hg : ∀ p, i ≠ .getStatus p)
    (hp : s.phase.refusal = some st) : exec i s = .next (s.answered ⟨st, 0, 0⟩) := by
  obtain ⟨body, hbody⟩ := exec_command i s hi hg
  exact hbody.trans (command_refused body hp)

/-- So is every word, command or not, that is neither of the two (60_exceptions.md R341). -/
theorem stepWord_refused {w : Word72} {s : State} {st : Status} (hi : ∀ d m, decode w ≠ some (.init d m))
    (hg : ∀ p, decode w ≠ some (.getStatus p)) (hp : s.phase.refusal = some st) :
    stepWord w s = .next (s.answered ⟨st, 0, 0⟩) := by
  cases hd : decode w with
  | none =>
    simp only [stepWord, hd]
    exact illegalWord_refused _ hp
  | some i =>
    rw [stepWord_of_decode hd]
    exact exec_refused (fun d m h => hi d m (h ▸ hd)) (fun p h => hg p (h ▸ hd)) hp

/-- Settles O8: each of the three phases refuses with its own status. -/
theorem refusedOutsideReady : Obligations.RefusedOutsideReady := by
  intro s w rest hs hi hg
  have hrefused : ∀ {st}, s.phase.refusal = some st →
      step s = .next (State.answered { s with host := rest } ⟨st, 0, 0⟩) :=
    fun hp => (step_command hs).trans (stepWord_refused hi hg hp)
  exact ⟨fun hp => hrefused (hp ▸ rfl), fun hp => hrefused (hp ▸ rfl), fun hp => hrefused (hp ▸ rfl)⟩

/-! ### What a word comes to -/

/-- All that a word comes to, from the state with the word taken (60_exceptions.md R345). -/
inductive WordComes (w : Word72) (s : State) : State → Prop where
  | command {i : Instr} {t : State} (hd : decode w = some i) (h : Comes i s t) : WordComes w s t
  | illegal (hd : decode w = none) (hp : s.phase = .ready) : WordComes w s (s.takeFault .illegalCmd (opcOf w))
  | refused (st : Status) (hd : decode w = none) (hp : s.phase.refusal = some st) : WordComes w s (s.respond ⟨st, 0, 0⟩)

theorem stepWord_comes {w : Word72} {s t : State} (h : stepWord w s = .next t) : WordComes w s t := by
  cases hd : decode w with
  | some i => exact .command hd (.of ((stepWord_of_decode hd s).symm.trans h))
  | none =>
    simp only [stepWord, hd] at h
    cases hp : s.phase.refusal with
    | some st => cases h.symm.trans (illegalWord_refused _ hp); exact .refused st hd hp
    | none =>
      have hready := Phase.refusal_none.1 hp
      cases h.symm.trans (illegalWord_ready _ hready)
      exact .illegal hd hready

theorem WordComes.of {s t : State} {w : Word72} {rest : List HostInput} (hs : s.host = .command w :: rest)
    (h : step s = .next t) : WordComes w { s with host := rest } t :=
  stepWord_comes ((step_command hs).symm.trans h)

/-! ### The phase after a word -/

/-- In READY a word that is not INIT faults the block, closes the stream or leaves the phase (60_exceptions.md R340). -/
theorem nextPhase_ready {i : Option Instr} (st : Status) (hi : ∀ d m, i ≠ some (.init d m)) :
    nextPhase .ready i st = if st.isFault then .faulted
      else if st = .ok ∧ i ∈ [some .bwClose, some .encClose, some .decClose] then .closed else .ready := by
  unfold nextPhase
  split
  · exact absurd rfl (hi _ _)
  · exact if_neg fun h => h rfl

/-- Only OK and the faults change the phase (60_exceptions.md R340). -/
theorem nextPhase_of_ne_ok {st : Status} (p : Phase) (i : Option Instr) (hok : st ≠ .ok) (hf : st.isFault = false) :
    nextPhase p i st = p := by
  unfold nextPhase
  split
  · exact if_neg hok
  · by_cases hp : p = .ready
    · simp [hp, hok, hf]
    · exact if_pos hp

theorem nextPhase_getStatus_ok (p : Phase) (g : Page) : nextPhase p (some (.getStatus g)) .ok = p := by
  cases p <;> rfl

/-- In READY a fault to a word that is not INIT leaves FAULTED (60_exceptions.md R340). -/
theorem nextPhase_ready_fault {i : Option Instr} (f : FaultKind) (hi : ∀ d m, i ≠ some (.init d m)) :
    nextPhase .ready i (.fault f) = .faulted := nextPhase_ready _ hi

/-- The refusals of the phases are among the refusals. -/
theorem Phase.refusal_mem {p : Phase} {st : Status} (h : p.refusal = some st) : st ∈ refusals := by
  cases p <;> cases h <;> decide

/-- The statuses that are neither OK nor a refusal nor a fault (60_exceptions.md R320, class 2). -/
abbrev statuses : List Status := [.endOfData, .endOfStream, .notFound]

theorem ne_ok_of_mem_refusals : ∀ st ∈ refusals, st ≠ .ok ∧ st.isFault = false := by decide

theorem ne_ok_of_mem_statuses : ∀ st ∈ statuses, st ≠ .ok ∧ st.isFault = false ∧ st ∉ refusals := by decide

/-- What a command that completes does last: the three closing commands close the stream (60_exceptions.md R340). -/
theorem atEnd_phase (i : Instr) (u : State) :
    (atEnd i u).phase = if some i ∈ [some Instr.bwClose, some .encClose, some .decClose] then .closed else u.phase := by
  unfold atEnd
  split <;> simp_all

theorem atEnd_rsps (i : Instr) (u : State) : (atEnd i u).rsps = u.rsps := by
  unfold atEnd
  split <;> rfl

/-! ### One response -/

/-- From `s` to `t` the word with command `i`, or with none, was answered with `rsp`: that response alone, the phase of R340,
and what the class of its status says (60_exceptions.md R320, 30_encoding.md R93). -/
structure AnsweredBy (i : Option Instr) (s t : State) (rsp : Response) : Prop where
  rsps : t.rsps = s.rsps ++ [rsp]
  phase : t.phase = nextPhase s.phase i rsp.st
  refusal : rsp.st ∈ refusals → rsp = ⟨rsp.st, 0, 0⟩ ∧ t = s.answered rsp
  fault : ∀ f, rsp.st = .fault f → rsp = ⟨.fault f, 0, 0⟩ ∧ t.phase = .faulted

/-- A refusal, by the phase or of INIT's operand. -/
theorem AnsweredBy.refused (i : Option Instr) (s : State) {st : Status} (h : st ∈ refusals) :
    AnsweredBy i s (s.respond ⟨st, 0, 0⟩) ⟨st, 0, 0⟩ where
  rsps := rfl
  phase :=
    have ⟨hok, hf⟩ := ne_ok_of_mem_refusals st h
    (nextPhase_of_ne_ok _ _ hok hf).symm
  refusal _ := ⟨rfl, rfl⟩
  fault f hf := by
    subst hf
    obtain ⟨-, hfault⟩ := ne_ok_of_mem_refusals _ h
    cases hfault

/-- A fault of a READY block, after small updates. -/
theorem AnsweredBy.faulted {i : Option Instr} {s u : State} (f : FaultKind) (opc : BitVec 8) (hi : ∀ d m, i ≠ some (.init d m))
    (hp : s.phase = .ready) (hu : u.rsps = s.rsps) : AnsweredBy i s (u.takeFault f opc) ⟨.fault f, 0, 0⟩ where
  rsps := by rw [State.takeFault_rsps, hu]
  phase := by rw [hp]; exact (nextPhase_ready_fault f hi).symm
  refusal h := by
    obtain ⟨-, hfault⟩ := ne_ok_of_mem_refusals _ h
    cases hfault
  fault g hg := by cases hg; exact ⟨rfl, rfl⟩

/-- OK or a status. -/
theorem AnsweredBy.completed {i : Option Instr} {s u : State} {rsp : Response}
    (hst : rsp.st = .ok ∨ rsp.st ∈ statuses) (hu : u.rsps = s.rsps)
    (hp : u.phase = nextPhase s.phase i rsp.st) : AnsweredBy i s (u.respond rsp) rsp where
  rsps := by rw [State.respond_rsps, hu]
  phase := hp
  refusal h := by
    obtain hok | hst := hst
    · obtain ⟨hne, -⟩ := ne_ok_of_mem_refusals _ h
      exact absurd hok hne
    · obtain ⟨-, -, hnot⟩ := ne_ok_of_mem_statuses _ hst
      exact absurd h hnot
  fault f hf := by simp [hf] at hst

/-- A command that runs gives one response. -/
theorem Ends.answeredBy {i : Instr} {s t : State} (h : Ends i s t) (hp : s.phase = .ready) (hi : ∀ d m, i ≠ .init d m) :
    ∃ rsp, AnsweredBy (some i) s t rsp := by
  have hi' : ∀ d m, some i ≠ some (.init d m) := fun d m h => hi d m (Option.some.inj h)
  cases h with
  | done rsp u hu h =>
    obtain ⟨-, hphase, -, -, -, -, -, hrsps, -, -, -⟩ := hu.kept
    have hend : (atEnd i u).phase = nextPhase s.phase (some i) rsp.st := by
      rw [atEnd_phase, hphase, hp]
      rcases h with hok | ⟨hst, hbw, henc, hdec⟩
      · rw [hok, nextPhase_ready _ hi']
        simp [Status.isFault]
      · obtain ⟨hok, hf, -⟩ := ne_ok_of_mem_statuses _ (List.mem_cons_of_mem _ hst)
        rw [nextPhase_of_ne_ok _ _ hok hf]
        simp [hbw, henc, hdec]
    exact ⟨rsp, .completed (h.imp id fun h => List.mem_cons_of_mem _ h.1) ((atEnd_rsps i u).trans hrsps) hend⟩
  | short k hd hk h hclose => exact ⟨_, .completed (.inr (by simp)) rfl (nextPhase_of_ne_ok _ _ (by simp) rfl).symm⟩
  | fault f u hu hf h =>
    obtain ⟨-, -, -, -, -, -, -, hrsps, -, -, -⟩ := hu.kept
    exact ⟨_, .faulted f _ hi' hp hrsps⟩

/-- Every command gives one response (60_exceptions.md R320). -/
theorem Comes.answeredBy {i : Instr} {s t : State} (h : Comes i s t) : ∃ rsp, AnsweredBy (some i) s t rsp := by
  cases h with
  | init hm => exact ⟨_, .completed (.inl rfl) rfl rfl⟩
  | badConfig hm => exact ⟨_, .refused _ s (by simp)⟩
  | status n r => exact ⟨_, .completed (.inl rfl) rfl (nextPhase_getStatus_ok _ _).symm⟩
  | refused hi hg hr => exact ⟨_, .refused _ s (Phase.refusal_mem hr)⟩
  | wrongDir hi hg hp hd => exact ⟨_, .faulted _ _ (fun d m h => hi d m (Option.some.inj h)) hp rfl⟩
  | ran hi hg hp hd he => exact he.answeredBy hp hi

/-- Every word does, and it takes one input of the host. -/
theorem WordComes.answeredBy {w : Word72} {s t : State} (h : WordComes w s t) :
    t.host = s.host ∧ ∃ rsp, AnsweredBy (decode w) s t rsp := by
  cases h with
  | command hd h =>
    obtain ⟨-, -, hhost⟩ := h.host_kept
    exact ⟨hhost, hd ▸ h.answeredBy⟩
  | illegal hd hp => exact ⟨rfl, _, .faulted _ _ (by simp [hd]) hp rfl⟩
  | refused st hd hp => exact ⟨rfl, _, .refused _ s (Phase.refusal_mem hp)⟩

/-- Settles O11: the phase of the one response's status. -/
theorem phaseTransitions : Obligations.PhaseTransitions := by
  refine ⟨fun s t w rest hs h => ?_, fun s rest hs => ⟨_, step_hwReset hs, rfl⟩⟩
  obtain ⟨-, rsp, hrsp⟩ := (WordComes.of hs h).answeredBy
  exact ⟨rsp, hrsp.rsps, hrsp.phase⟩

/-- Settles O12: a status leaves the phase because R340 has no row for one. -/
theorem oneResponse : Obligations.OneResponse := by
  intro s w rest hs
  obtain ⟨t, h⟩ := step_command_next hs
  obtain ⟨hhost, rsp, hrsp⟩ := (WordComes.of hs h).answeredBy
  refine ⟨t, rsp, h, hrsp.rsps, hhost, ?refusal, hrsp.fault, ?status⟩
  case refusal =>
    rintro st hst rfl
    exact hrsp.refusal hst
  case status =>
    rintro st hst rfl
    obtain ⟨hok, hf, -⟩ := ne_ok_of_mem_statuses _ hst
    exact hrsp.phase.trans (nextPhase_of_ne_ok _ _ hok hf)

/-! ### Entering FAULTED -/

/-- Settles O10: a block that a command of its direction faults ran the command. -/
theorem faultCauses : Obligations.FaultCauses := fun _ _ _ hp hd h ht => (Comes.of h).fcode_of_faulted hp hd ht

/-- From `s` to `t` a fault was taken, after small updates at most, and where it is one of a check at the top of a command
(60_exceptions.md R331) after none. -/
def TookFault (opc : BitVec 8) (s t : State) : Prop :=
  ∃ f u, Micros s u ∧ (f ∈ [FaultKind.outOfRange, .illegalState, .illegalCmd] → u = s) ∧ t = u.takeFault f opc

/-- F_ILLEGAL_CMD is taken before any command runs (60_exceptions.md R345). -/
theorem tookFault_illegalCmd (opc : BitVec 8) (s : State) : TookFault opc s (s.takeFault .illegalCmd opc) :=
  ⟨.illegalCmd, s, .refl, fun _ => rfl, rfl⟩

/-- A command that ran and left the block faulted took a fault last. -/
theorem Ends.tookFault {i : Instr} {s t : State} (h : Ends i s t) (hp : s.phase = .ready) (ht : t.phase = .faulted) :
    TookFault i.opcode s t := by
  cases h with
  | done rsp u hu h => exact absurd ht (atEnd_phase_ne_faulted i (hu.phase_eq.trans hp))
  | short k hd hk h hi => cases hp.symm.trans ht
  | fault f u hu hf h => exact ⟨f, u, hu, h, rfl⟩

theorem Comes.tookFault {i : Instr} {s t : State} (h : Comes i s t) (hp : s.phase = .ready) (ht : t.phase = .faulted) :
    TookFault i.opcode s t := by
  cases h with
  | init hm => cases ht
  | badConfig hm | status n r | refused hi hg hr => cases hp.symm.trans ht
  | wrongDir hi hg hp' hd => exact tookFault_illegalCmd _ s
  | ran hi hg hp' hd he => exact he.tookFault hp ht

/-- A word that takes a READY block to FAULTED took a fault with the word's opcode (60_exceptions.md R330). -/
theorem WordComes.tookFault {w : Word72} {s t : State} (h : WordComes w s t) (hp : s.phase = .ready) (ht : t.phase = .faulted) :
    TookFault (opcOf w) s t := by
  cases h with
  | command hd h =>
    obtain ⟨hopc, -⟩ := decode_spec hd
    exact hopc ▸ h.tookFault hp ht
  | illegal hd hp' => exact tookFault_illegalCmd _ s
  | refused st hd hr => cases hp.symm.trans ht

/-- Settles O14: the small updates before a fault keep CFG and the responses, and only append bytes to the sink. -/
theorem faultEntry : Obligations.FaultEntry := by
  intro s t w rest hs hp h ht
  obtain ⟨f, u, hu, htop, rfl⟩ := (WordComes.of hs h).tookFault hp ht
  obtain ⟨-, -, hdir, horder, -, -, -, hrsps, -, -, -⟩ := hu.kept
  refine ⟨f, rfl, rfl, ?rsps, hdir, horder, hu.snk, fun hf => ?top⟩
  case rsps => rw [State.takeFault_rsps, hrsps]
  case top => rw [htop hf]; rfl

/-! ### Leaving FAULTED -/

/-- A command to a FAULTED block leaves the latches and the phase, unless it is an INIT that starts a stream (60_exceptions.md
R333). -/
theorem Comes.of_faulted {i : Instr} {s t : State} (h : Comes i s t) (hp : s.phase = .faulted) :
    (t.phase = .faulted ∧ t.fcode = s.fcode ∧ t.fcmd = s.fcmd) ∨
      (t.phase = .ready ∧ t.fcode = 0 ∧ t.fcmd = 0 ∧ ∃ d m, i = .init d m) := by
  cases h with
  | init hm => exact .inr ⟨rfl, rfl, rfl, _, _, rfl⟩
  | badConfig hm | status n r | refused hi hg hr => exact .inl ⟨hp, rfl, rfl⟩
  | wrongDir hi hg hp' hd | ran hi hg hp' hd he => cases hp.symm.trans hp'

/-- Settles O15, by cases on what the step was. -/
theorem leavingFaulted : Obligations.LeavingFaulted := by
  intro s t hp h
  cases Steps.of h with
  | command w rest i hs hd h =>
    obtain hstays | ⟨hready, hcode, hcmd, d, m, rfl⟩ := h.of_faulted hp
    · exact .inl hstays
    · exact .inr (.inl ⟨hready, hcode, hcmd, w, rest, d, m, hs, hd⟩)
  | hwReset rest hs h => subst h; exact .inr (.inr ⟨rfl, rfl, rfl, rest, hs⟩)
  | illegal w rest hs hd hp' h => cases hp.symm.trans hp'
  | idle hs h | refused w rest st hs hd hr h | source bytes rest hs h => subst h; exact .inl ⟨hp, rfl, rfl⟩

end Sys2Proof.Machine
end
